-- ==== Sys2Proof/Word.lean ====
section
/-! DEFINITION. The word types of the Ibelvi model: bytes, 32-bit containers, 64-bit scalars (spec/00 R3, spec/01 R11). -/
namespace Sys2Proof

/-- One byte of memory. -/
abbrev Byte := BitVec 8

/-- One container of a vector register (R267). -/
abbrev W32 := BitVec 32

/-- One scalar register (R11). -/
abbrev W64 := BitVec 64

end Sys2Proof
end

