-- ==== Sys2Proof/Machine/Formats.lean ====
section
/-! DEFINITION. The operand formats of the native slots (spec/07 R216 to R224), of a Loryil record (spec/03 R49 to R56),
and the data that hardware events and commands carry. An X field and the XIMM that it selects are one `Option`. -/
namespace Sys2Proof

/-- SA's second half: registers with IM = 0, an immediate with IM = 1 (R217). -/
inductive SaSrc where
  | reg (md : BitVec 7) (c b : BitVec 6)
  | imm (xi : Option (BitVec 16)) (v : BitVec 19)
  deriving DecidableEq, Repr

/-- Format SA (R217). -/
structure SA where
  fn : BitVec 4
  src : SaSrc
  a : BitVec 6
  d : BitVec 6
  deriving DecidableEq, Repr

/-- Format SI (R217). -/
structure SI where
  xi : Option (BitVec 16)
  imm : BitVec 30
  d : BitVec 6
  deriving DecidableEq, Repr

/-- Format SB (R217). -/
structure SB where
  xi : Option (BitVec 16)
  fn : BitVec 4
  off : BitVec 26
  d : BitVec 6
  deriving DecidableEq, Repr

/-- Format SM (R218). -/
structure SM where
  xi : Option (BitVec 16)
  arr : BitVec 8
  fn : BitVec 3
  am : Bool
  w : BitVec 2
  sp : BitVec 2
  off : BitVec 8
  a : BitVec 6
  d : BitVec 6
  deriving DecidableEq, Repr

/-- Format SQ (R218). -/
structure SQ where
  arr : BitVec 8
  ordk : BitVec 2
  aop : BitVec 4
  w : BitVec 2
  sp : BitVec 2
  b : BitVec 6
  a : BitVec 6
  d : BitVec 6
  deriving DecidableEq, Repr

/-- Format SY (R219). -/
structure SY where
  xi : Option (BitVec 16)
  fn : BitVec 4
  imm : BitVec 16
  md : BitVec 4
  a : BitVec 6
  d : BitVec 6
  deriving DecidableEq, Repr

/-- Format VR (R220). -/
structure VR where
  fn : BitVec 5
  ty : BitVec 3
  rnd : BitVec 3
  es : BitVec 2
  m : BitVec 3
  c : BitVec 5
  b : BitVec 5
  a : BitVec 5
  d : BitVec 5
  deriving DecidableEq, Repr

/-- VI's source: a scalar register with IS = 0, an immediate with IS = 1 (R220, R269). -/
inductive ViSrc where
  | reg (r : BitVec 6)
  | imm (xi : Option (BitVec 16)) (v : BitVec 14)
  deriving DecidableEq, Repr

/-- Format VI (R220). -/
structure VI where
  fn : BitVec 5
  ty : BitVec 3
  m : BitVec 3
  src : ViSrc
  a : BitVec 5
  d : BitVec 5
  deriving DecidableEq, Repr

/-- Format VM (R221). -/
structure VM where
  arr : BitVec 8
  fmt : BitVec 4
  rnd : BitVec 3
  es : BitVec 2
  sp : BitVec 2
  am : Bool
  m : BitVec 3
  fn : BitVec 2
  a : BitVec 6
  d : BitVec 5
  deriving DecidableEq, Repr

/-- Format VG (R221). `top` is bits [47:40]: ARR of `VGATH`, RND and ES of `VSCAT`. -/
structure VG where
  top : BitVec 8
  fmt : BitVec 4
  sp : BitVec 2
  m : BitVec 3
  a : BitVec 6
  ix : BitVec 5
  d : BitVec 5
  deriving DecidableEq, Repr

/-- Format MX (R222). -/
structure MX where
  mode : BitVec 2
  grp : BitVec 2
  fn : BitVec 4
  sl : BitVec 3
  str : BitVec 3
  c : BitVec 6
  b : BitVec 6
  a : BitVec 6
  deriving DecidableEq, Repr

/-- Format CX (R223). -/
structure CX where
  xi : Option (BitVec 16)
  fn : BitVec 4
  rnd : BitVec 3
  es : BitVec 2
  c : BitVec 6
  b : BitVec 6
  a : BitVec 6
  imm : BitVec 9
  deriving DecidableEq, Repr

/-- AL's count: a register with IC = 0, an immediate with IC = 1 (R224). -/
inductive AlCnt where
  | reg (r : BitVec 6)
  | imm (xi : Option (BitVec 16)) (v : BitVec 13)
  deriving DecidableEq, Repr

/-- Format AL (R224). -/
structure AL where
  lv : BitVec 2
  rot : Bool
  ns : BitVec 3
  len : BitVec 10
  cnt : AlCnt
  deriving DecidableEq, Repr

/-- Format AS (R224). -/
structure AS where
  xi : Option (BitVec 16)
  fn : BitVec 4
  strm : BitVec 3
  lv : BitVec 2
  sp : BitVec 2
  imm : BitVec 19
  a : BitVec 6
  deriving DecidableEq, Repr

/-- An operand word of a Loryil record (R51). -/
inductive LOpd where
  | val (dist : BitVec 20) (idx : BitVec 4)
  | param (idx : BitVec 16)
  | imm (v : BitVec 28)
  | cpool (idx : BitVec 20)
  deriving DecidableEq, Repr

/-- An attribute of a Loryil record (R55). -/
structure LAttr where
  mand : Bool
  tag : BitVec 16
  payload : List (BitVec 32)
  deriving DecidableEq, Repr

/-- A Loryil operation record but for its operator value (R49). `off` is its word offset under R47. -/
structure LRec where
  off : Nat
  fuse : BitVec 6
  nres : BitVec 4
  opds : List LOpd
  attrs : List LAttr
  deriving DecidableEq, Repr

/-- A control flit (R192). `frm` is the neighbour that it arrives from. -/
structure Flit where
  typ : Nat
  src : Nat
  epoch : Nat
  tsend : Nat
  code : Nat
  aux : Nat
  chip : Nat
  teff : Nat
  tlast : Nat
  mz : Nat
  frm : Nat
  deriving DecidableEq, Repr

/-- A command's header: the queue it came by, its SEQ, and where MEM places what it needs (R430, R432, R416).
`place` is the choice of MEM's firmware (DESIGN CHOICE, log 12). -/
structure CmdHdr where
  queue : Nat
  seq : Nat
  place : List Nat
  deriving DecidableEq, Repr

/-- A bind record's fields as SCHED writes them (R160), with the instance that it serves (DESIGN CHOICE, log 12). -/
structure BindRec where
  crew : BitVec 16
  ctx : Nat
  stage : Nat
  cls : Nat
  minc : Nat
  maxc : Nat
  pipe : Nat
  log : Bool
  noknead : Bool
  v : Bool
  deadline : BitVec 64
  budget : Nat
  period : Nat
  inst : Nat
  deriving DecidableEq, Repr

/-- The failures of R400 that an event reports. -/
inductive Failure where
  | core (c unit : Nat)
  | unit (c unit : Nat)
  | walkEngine (cl j : Nat)
  | bte (cl : Nat)
  | sequencer (cl : Nat)
  | hbm (ctx va : Nat)
  deriving DecidableEq, Repr

/-- A `SEND` of another chip that reaches a ring of this one (R381): the ring's address, the receiving context, the barrier that it signals as
(cluster, barrier), the sending chip and context, ITEM and DATA. -/
structure FarSend where
  ring : Nat
  ectx : Nat
  sig : Option (Nat × Nat)
  chip : Nat
  ctx : Nat
  item : BitVec 64
  data : List (BitVec 8)
  deriving DecidableEq, Repr

/-- What a `SEND_DELIVERY` delivers: the `SEND` at the head of a copy unit of the event's core, or another chip's. -/
inductive SendFrom where
  | unit (u : Nat)
  | far (f : FarSend)
  deriving DecidableEq, Repr

/-- How an engine operation ends: with no fault, or with a fault that the outside causes (R370). -/
inductive EndKind where
  | ok
  | fault (code detail : Nat)
  deriving DecidableEq, Repr

end Sys2Proof
end

