-- ==== Sys2Proof/Syntax.lean ====
section
/-! DEFINITION. One constructor per row of spec/opcode_table.json, in the table's order (inputs from outside last): native slot instructions
(R207, R225 to R227), hardware events (the rows that name no encoding), commands (R434, names beginning `c`), Loryil
operators (R50, names beginning `l`). Event names begin `e`. Numbers name a core (0-255), a cluster (0-15), a context,
a handle, a queue, an instance or an operation by its own number. -/
namespace Sys2Proof

inductive Instr where
  -- native: the empty bundle, the S slot (R225)
  | nop (h : BitVec 4)
  | add (f : SA) | sub (f : SA) | mul (f : SA) | mulh (f : SA) | div (f : SA) | rem (f : SA)
  | and (f : SA) | or (f : SA) | xor (f : SA) | shl (f : SA) | shr (f : SA) | sra (f : SA)
  | min (f : SA) | max (f : SA) | clz (f : SA) | popc (f : SA) | extb (f : SA) | insb (f : SA)
  | movi (f : SI) | cmp (f : SA) | sel (f : SA) | plog (f : SA) | fop (f : SA) | fma (f : SA) | fcvt (f : SA)
  | ld (f : SM) | st (f : SM) | ldk (f : SM) | amo (f : SQ)
  | fence (f : SY) | kinv (f : SY) | waitc (f : SY) | waittl (f : SY) | waith (f : SY) | bara (f : SY) | barw (f : SY)
  | iclock (f : SY) | icunl (f : SY) | br (f : SB) | jmp (f : SB) | call (f : SB) | ret (f : SB)
  | yield (f : SY) | opend (f : SY) | trap (f : SI) | mfs (f : SY) | mts (f : SY) | phase (f : SY)
  -- native: the V slots (R226)
  | vadd (f : VR) | vsub (f : VR) | vmul (f : VR) | vfma (f : VR) | vmin (f : VR) | vmax (f : VR) | vabs (f : VR)
  | vneg (f : VR) | vand (f : VR) | vor (f : VR) | vxor (f : VR) | vshl (f : VI) | vshr (f : VI) | vcmp (f : VR)
  | vsel (f : VR) | vcvt (f : VR) | vsfu (f : VR) | vscale (f : VR) | vdot4 (f : VR) | viota (f : VI) | vsplat (f : VI)
  | vmovs (f : VI) | vins (f : VI) | vrotr (f : VI) | vrotc (f : VI) | vbcr (f : VI) | vbcc (f : VI) | vredr (f : VR)
  | vredc (f : VR) | vscanr (f : VR) | vtrn (f : VR) | vpermr (f : VR) | vcmx (f : VR) | vmask (f : VR)
  | vld (f : VM) | vst (f : VM) | vgath (f : VG) | vscat (f : VG)
  -- native: the M, C and A slots (R227)
  | mldw (f : MX) | mswap (f : MX) | mfeed (f : MX) | mma (f : MX) | mmag (f : MX) | mcfg (f : MX) | mdrain (f : MX)
  | mclr (f : MX) | mstat (f : MX)
  | cpy (f : CX) | cpyg (f : CX) | cpys (f : CX) | cpyx (f : CX) | cpymc (f : CX) | fill (f : CX) | pref (f : CX)
  | cscl (f : CX) | permit (f : CX) | hset (f : CX) | tladv (f : CX) | send (f : CX) | recv (f : CX)
  | loop (f : AL) | loopx (f : AL) | strb (f : AS) | strs (f : AS) | strld (f : AS) | stradv (f : AS) | rotb (f : AS)
  | brbs (f : AS)
  -- events of a core
  | eResultVisible (c : Nat) | eLoadDataArrival (c k : Nat) (bad : Bool) | eLanding (c : Nat) | eLandingTimeout (c : Nat)
  | ePageWalk (cl ctx va acc : Nat) | ePhaseEnd
  | eLoadPathStart (c : Nat) | eFeedPathStart (c : Nat) | eArrayPathStart (c : Nat) (parity : Option Nat)
  | eMmaComplete (c : Nat) | eGlazeStart (c : Nat) | eGlazeComplete (c : Nat) | eCsclLanding (c : Nat)
  | eCopyStart (c u : Nat) | eBteStart (cl : Nat) | eCopyEnd (id : Nat) (k : EndKind) | eMulticast (id : Nat)
  | eTladv (c u : Nat) | eSendDeliver (c : Nat) (u : SendFrom) | eRecvTake (c u : Nat) | eQueuePush (q : Nat)
  | eTrapDeliver (ctx : Nat)
  -- events of the sequencer and the slices
  | eShadowWrite (c op tile : Nat) | eOpSwap (c : Nat) | eOpComplete (op : Nat) | eHandleRelease (cl ctx h : Nat)
  | eChunkPageIn (cl obj chunk : Nat) (bad : Bool) | eSliceDispatch (c : Nat) | eItemBoundary (c : Nat)
  | eBudget (c : Nat) | ePreempt (c : Nat) | eHardStop (c : Nat) | eSliceSave (c : Nat) | eSliceRestore (c slot : Nat)
  | eReplay (c : Nat) | eSliceKill (c : Nat) | eKnead (cl : Nat) | eKneadMove (cl k : Nat)
  | eW1 (q : Nat) | eW2 (q : Nat) | eW3 (q : Nat) | eLoadWalk (i j : Nat) | eStoreWalk (i j : Nat)
  | eInstStart (l i : Nat) | eInstComplete (i : Nat)
  -- events of the group
  | eHeartbeatSend
  | eCeilingChange | eSilenceDetect (chip : Nat) | eEviction (chip : Nat) | eJoinPoint (chip : Nat)
  | eJoinTimeout | eDeparture (chip : Nat)
  | eCompletionWrite (q : Nat)
  | eSchedWatchdog
  -- commands (R434)
  | cLoad (h : CmdHdr) (addr len : Nat) | cUnload (h : CmdHdr) (obj : Nat) (force : Bool) | cCtxnew (h : CmdHdr) (addr : Nat)
  | cCtxkill (h : CmdHdr) (ctx : Nat) | cMap (h : CmdHdr) (ctx obj : Nat) | cUnmap (h : CmdHdr) (ctx obj : Nat)
  | cLaunch (h : CmdHdr) (ctx addr obj : Nat) | cRelease (h : CmdHdr) (ctx rec : Nat) | cUnstop (h : CmdHdr) (ctx : Nat)
  | cLimit (h : CmdHdr) (code : Nat) | cAttest (h : CmdHdr) (nonce : List (BitVec 8))
  -- Loryil operators (R50); w is the walk that dispatches the record
  | lNop (w : Nat) (r : LRec) | lLoop (w : Nat) (r : LRec) | lEndloop (w : Nat) (r : LRec) | lBrk (w : Nat) (r : LRec)
  | lIf (w : Nat) (r : LRec) | lElse (w : Nat) (r : LRec) | lEndif (w : Nat) (r : LRec) | lCall (w : Nat) (r : LRec)
  | lRet (w : Nat) (r : LRec) | lLaunch (w : Nat) (r : LRec) | lSyncchild (w : Nat) (r : LRec)
  | lConst (w : Nat) (r : LRec) | lSop (w : Nat) (r : LRec) | lScmp (w : Nat) (r : LRec) | lSel (w : Nat) (r : LRec)
  | lDim (w : Nat) (r : LRec) | lIdx (w : Nat) (r : LRec)
  | lAlloc (w : Nat) (r : LRec) | lFree (w : Nat) (r : LRec) | lView (w : Nat) (r : LRec) | lLoad (w : Nat) (r : LRec)
  | lStore (w : Nat) (r : LRec) | lRelayout (w : Nat) (r : LRec) | lCast (w : Nat) (r : LRec) | lPad (w : Nat) (r : LRec)
  | lConcat (w : Nat) (r : LRec) | lMatmul (w : Nat) (r : LRec) | lConv (w : Nat) (r : LRec) | lEwu (w : Nat) (r : LRec)
  | lEwb (w : Nat) (r : LRec) | lEwt (w : Nat) (r : LRec) | lReduce (w : Nat) (r : LRec) | lSoftmax (w : Nat) (r : LRec)
  | lNorm (w : Nat) (r : LRec) | lRope (w : Nat) (r : LRec) | lAttn (w : Nat) (r : LRec) | lGather (w : Nat) (r : LRec)
  | lScatter (w : Nat) (r : LRec) | lTopk (w : Nat) (r : LRec) | lSort (w : Nat) (r : LRec) | lPermute (w : Nat) (r : LRec)
  | lCumsum (w : Nat) (r : LRec) | lStage (w : Nat) (r : LRec) | lEndstage (w : Nat) (r : LRec) | lQdecl (w : Nat) (r : LRec)
  | lQpush (w : Nat) (r : LRec) | lQpop (w : Nat) (r : LRec) | lWalk (w : Nat) (r : LRec) | lAred (w : Nat) (r : LRec)
  | lAgath (w : Nat) (r : LRec) | lRscat (w : Nat) (r : LRec) | lA2a (w : Nat) (r : LRec) | lTsend (w : Nat) (r : LRec)
  | lTrecv (w : Nat) (r : LRec) | lUop (w : Nat) (r : LRec) | lFence (w : Nat) (r : LRec) | lWaith (w : Nat) (r : LRec)
  | lAssert (w : Nat) (r : LRec)
  -- events that stand at the table's end
  | eLoadFeedEnd (c : Nat) (feed : Bool) | eZeroFill (cl ctx h : Nat) | eClampRelease | eUncorrectable (f : Failure)
  -- inputs from outside the chip's own agents: the model never builds one
  | eInstKill (i : Nat)
  | eLimit (f : Flit)
  | eHeartbeat (f : Flit)
  | eSilent (f : Flit)
  | eSuspect (f : Flit)
  | eLeave (f : Flit)
  | eJoinReq (f : Flit)
  | eJoinGrant (f : Flit) (align : Nat) (table : List (Nat × List Nat))
  | eEvict (f : Flit)
  | eBadFlit (f : Flit)
  | eLinkFail (chip d h : Nat)
  | ePowerEval (tmaxC10 pmeas : Nat)
  | eClamp (cause : Nat)
  | eThermtrip
  | eChipReset (images : List (List (BitVec 8)))
  | eRecoveryFrame (off : Nat) (total : Nat) (data : List (BitVec 8))
  | eIsolationFault (fc addr acc : Nat)
  | eMailboxPost (sender m : Nat) (data : List (BitVec 8))
  | eMailboxPop (fc k : Nat)
  | eDbell (q : Nat)
  | eBindWrite (cl slot : Nat) (r : BindRec)
  | eKncfgWrite (cl : Nat) (v : BitVec 64)
  | eRegWrite (c reg : Nat) (v : BitVec 64)
  | eFnFail (fn : Nat)
  | eTestAccess (ins : Nat)
  | eWdKick
  | eFwdLaunch (ctx : Nat) (words : List (BitVec 64)) (src obj seq : Nat)
  | eMemberDone (l i : Nat) (killed : Bool)
  | eBitternPush (q : Nat) (item : BitVec 64)
  | eTlbInvalidate (cl ctx va : Nat)
  | eCtxOut (ctx : Nat)
  | eCtxIn (ctx : Nat)
  | eAlignMark (chip : Nat) (diff : Int)
  | eCollComplete (op : Nat) (remote : List (Nat × List Nat))
  deriving DecidableEq, Repr

end Sys2Proof
end

