-- ==== Sys2Proof/Machine/Checks.lean ====
section
/-! DEFINITION. The decode checks of spec/07 R211 step 3 on an instruction's own fields: must-be-zero fields, reserved
codes, registers that the instruction cannot use. A field that an instruction does not use is MZ (R216). Each check is
`true` when the instruction is well formed; a native instruction that fails its check raises ILLEGAL_RSVD. -/
namespace Sys2Proof.Machine

/-- No X bit. -/
def noX (x : Option (BitVec 16)) : Bool := x.isNone

/-- A rounding code other than the reserved 7 (R30). -/
def rndOk (r : BitVec 3) : Bool := r.toNat ≤ 6

/-- SA with register operands: MOD and C are MZ unless named; SA with an immediate is accepted or not. -/
def saPlain (im : Bool) (fmax : Nat) (f : SA) : Bool :=
  f.fn.toNat ≤ fmax && match f.src with
    | .reg md c _ => md == 0 && c == 0
    | .imm _ _ => im

/-- `CLZ`, `POPC`: no immediate, B is MZ (R239). -/
def saUnary (fmax : Nat) (f : SA) : Bool :=
  f.fn.toNat ≤ fmax && match f.src with
    | .reg md c b => md == 0 && c == 0 && b == 0
    | .imm _ _ => false

/-- The immediate form of `EXTB` and `INSB`: IMM [18:13] is MZ; an extension stands above the bits that they read (R240, DEDUCED, log 19). -/
def fieldImmOk (v : BitVec 19) : Bool := v.toNat < 2 ^ 13

/-- `EXTB` (R240). -/
def okExtb (f : SA) : Bool :=
  f.fn.toNat ≤ 1 && match f.src with
    | .reg md c _ => md == 0 && c == 0
    | .imm _ v => fieldImmOk v

/-- `INSB` (R240). -/
def okInsb (f : SA) : Bool :=
  f.fn == 0 && match f.src with
    | .reg md _ _ => md == 0
    | .imm _ v => fieldImmOk v

/-- A predicate destination p1 to p7. -/
def predDst (d : BitVec 6) : Bool := 1 ≤ d.toNat && d.toNat ≤ 7

/-- `CMP` (R242). -/
def okCmp (f : SA) : Bool := saPlain true 15 f && (!f.fn.getLsbD 3 || predDst f.d)

/-- `SEL` (R243). -/
def okSel (f : SA) : Bool := saPlain true 15 f && f.fn.toNat % 8 != 0

/-- `PLOG` (R244): A and B name predicates under every FN, also where the result does not depend on them (DEDUCED, log 19). -/
def okPlog (f : SA) : Bool :=
  f.fn.toNat ≤ 7 && predDst f.d && match f.src with
    | .reg md c b => md == 0 && c == 0 && b.toNat < 16 && f.a.toNat < 16
    | .imm _ _ => false

/-- RND, ES and TY of the scalar floating-point MOD (R245). -/
def modRnd (md : BitVec 7) : Nat := md.toNat / 16
def modEs (md : BitVec 7) : Nat := md.toNat / 4 % 4
def modTy (md : BitVec 7) : Nat := md.toNat % 4

/-- `FOP` (R246). -/
def okFop (f : SA) : Bool :=
  f.fn.toNat ≤ 14 && match f.src with
    | .reg md c b => modRnd md ≤ 6 && modEs md == 0 && modTy md ≤ 2 && c == 0
        && (!(f.fn == 6 || f.fn == 7 || f.fn == 8) || b == 0)
    | .imm _ _ => false

/-- `FMA` (R247). -/
def okFma (f : SA) : Bool :=
  f.fn.toNat ≤ 3 && match f.src with
    | .reg md _ _ => modRnd md ≤ 6 && modEs md == 0 && modTy md ≤ 2
    | .imm _ _ => false

/-- The formats that `FCVT` accepts (R248). -/
def fcvtFmt (n : Nat) : Bool := [0, 1, 2, 3, 4, 7, 8, 9, 13, 14].contains n

/-- `FCVT` (R248). -/
def okFcvt (f : SA) : Bool :=
  fcvtFmt f.fn.toNat && match f.src with
    | .reg md c b => modRnd md ≤ 6 && modEs md ≤ 2 && modTy md == 0 && c == 0 && fcvtFmt b.toNat
    | .imm _ _ => false

/-- The stream form of SM: A [22:20], OFF and X are MZ (R218). -/
def smAddr (f : SM) : Bool := !f.am || (f.a.toNat < 8 && f.off == 0 && noX f.xi)

/-- `LD` (R218, R344). -/
def okLd (f : SM) : Bool := smAddr f && f.arr != 0 && (f.w != 3 || !f.fn.getLsbD 0)

/-- `ST` (R218, R344). -/
def okSt (f : SM) : Bool := smAddr f && f.arr == 0 && !f.fn.getLsbD 0

/-- `LDK` (R344). -/
def okLdk (f : SM) : Bool := smAddr f && f.arr != 0 && (f.w != 3 || !f.fn.getLsbD 0) && f.fn.toNat < 2 && f.sp == 3

/-- `AMO` (R345). -/
def okAmo (f : SQ) : Bool :=
  f.arr != 0 && (if f.aop.toNat ≤ 9 then f.w == 2 || f.w == 3 else if f.aop == 10 then f.w == 2 else f.aop == 11 && f.w == 1)

/-- SY with every operand field zero (R219). -/
def syNone (f : SY) : Bool := noX f.xi && f.fn == 0 && f.imm == 0 && f.md == 0 && f.a == 0 && f.d == 0

def okFence (f : SY) : Bool := noX f.xi && f.fn.toNat < 8 && f.imm == 0 && f.md == 0 && f.a == 0 && f.d == 0
def okWaitc (f : SY) : Bool := noX f.xi && f.fn == 0 && f.md == 0 && f.a == 0 && f.d == 0
def okWaittl (f : SY) : Bool := f.md.toNat < 4 && f.d == 0
def okWaith (f : SY) : Bool := f.fn.toNat < 3 && f.md.toNat < 4 && (f.fn == 2 || f.d == 0)
def okBara (f : SY) : Bool :=
  noX f.xi && f.fn.toNat ≤ 1 && f.md == 0 && f.a == 0 && f.d == 0 && f.imm.toNat / 8 % 32 == 0
def okBarw (f : SY) : Bool :=
  noX f.xi && f.fn == 0 && f.md == 0 && f.a == 0 && f.d == 0 && f.imm.toNat / 8 % 32 == 0
def okIclock (f : SY) : Bool := noX f.xi && f.fn == 0 && f.md == 0 && f.d == 0
def okIcunl (f : SY) : Bool := noX f.xi && f.fn.toNat ≤ 1 && f.md == 0 && f.d == 0 && (f.fn == 1 || (f.a == 0 && f.imm == 0))
def okBr (f : SB) : Bool := f.fn.toNat ≤ 5
def okJmp (f : SB) : Bool := f.fn.toNat ≤ 1 && (f.fn == 1 || f.d == 0)
def okCall (f : SB) : Bool := f.fn == 0
def okRet (f : SB) : Bool := f.fn == 0 && f.off == 0 && noX f.xi

/-- `MFS` and `MTS`: a register number that R388 lists (R387). -/
def okMfs (f : SY) : Bool := noX f.xi && f.fn == 0 && f.md == 0 && f.a == 0 && f.imm.toNat ≤ 0x1A
def okMts (f : SY) : Bool := noX f.xi && f.fn == 0 && f.md == 0 && f.d == 0 && f.imm.toNat ≤ 0x1A
def okPhase (f : SY) : Bool := noX f.xi && f.fn == 0 && f.md == 0 && f.d == 0 && f.imm == 0

/-- A floating-point element type of VR and VI (R220). -/
def tyFloat (t : BitVec 3) : Bool := t == 0 || t == 3 || t == 4
def tyInt (t : BitVec 3) : Bool := t == 1 || t == 2

/-- RND under "Float TY" of R277: read for a floating-point TY, MZ otherwise. -/
def rndFloat (f : VR) : Bool := if tyFloat f.ty then rndOk f.rnd else tyInt f.ty && f.rnd == 0

/-- `VADD`, `VSUB` (R277, R272). -/
def okVadd (f : VR) : Bool := f.fn.toNat ≤ 1 && (f.fn == 0 || tyInt f.ty) && rndFloat f && f.es == 0 && f.c == 0
/-- `VMUL` (R277, R278). -/
def okVmul (f : VR) : Bool := f.fn.toNat ≤ 2 && (f.fn == 0 || tyInt f.ty) && rndFloat f && f.es == 0 && f.c == 0
def okVfma (f : VR) : Bool := f.fn.toNat ≤ 3 && tyFloat f.ty && rndOk f.rnd && f.es == 0
def okVmin (f : VR) : Bool := f.fn == 0 && f.ty.toNat ≤ 4 && f.rnd == 0 && f.es == 0 && f.c == 0
def okVabs (f : VR) : Bool :=
  f.fn.toNat ≤ 1 && f.ty.toNat ≤ 4 && (f.fn == 0 || tyInt f.ty) && f.rnd == 0 && f.es == 0 && f.c == 0 && f.b == 0
def okVlog (fmax : Nat) (f : VR) : Bool := f.fn.toNat ≤ fmax && f.ty == 0 && f.rnd == 0 && f.es == 0 && f.c == 0
def okVshl (f : VI) : Bool := f.fn.toNat ≤ 1 && tyInt f.ty
def okVcmp (f : VR) : Bool :=
  f.fn.toNat ≤ 5 && f.ty.toNat ≤ 4 && f.rnd == 0 && f.es == 0 && f.c == 0 && 1 ≤ f.d.toNat && f.d.toNat ≤ 7
def okVcvt (f : VR) : Bool :=
  f.fn.toNat < 15 && f.fn != 11 && f.fn != 12 && f.ty.toNat ≤ 4 && rndOk f.rnd && f.es != 3 && f.b == 0 && f.c == 0
def okVsfu (f : VR) : Bool := f.fn.toNat ≤ 7 && f.ty == 0 && rndOk f.rnd && f.es == 0 && f.b == 0 && f.c == 0
def okVscale (f : VR) : Bool := f.fn == 0 && tyFloat f.ty && rndOk f.rnd && f.es == 0 && f.c == 0
def okVdot4 (f : VR) : Bool := f.fn.toNat ≤ 2 && f.ty == 1 && f.rnd == 0 && f.es == 0
def okViota (f : VI) : Bool := f.fn.toNat ≤ 2 && f.ty.toNat ≤ 2 && f.a == 0
def okVsplat (f : VI) : Bool := f.fn == 0 && f.ty.toNat ≤ 4 && f.a == 0
def okVmovs (f : VI) : Bool :=
  f.fn.toNat ≤ 1 && f.ty.toNat ≤ 4 && f.m == 0 && match f.src with
    | .reg _ => true
    | .imm x v => noX x && v.toNat < 1024
def okVins (f : VI) : Bool :=
  f.fn == 0 && f.ty.toNat ≤ 4 && f.m == 0 && f.a == 0 && match f.src with
    | .reg _ => true
    | .imm _ _ => false
def okVrot (f : VI) : Bool := f.fn.toNat ≤ 1 && f.ty == 0
def okVbc (f : VI) : Bool := f.fn == 0 && f.ty == 0
def okVred (f : VR) : Bool :=
  f.fn.toNat < 8 && f.fn.toNat % 4 != 3 && f.ty.toNat ≤ 4 && rndOk f.rnd && f.es == 0 && f.b == 0 && f.c == 0
def okVtrn (f : VR) : Bool := okVlog 0 f && f.b == 0
def okVpermr (f : VR) : Bool :=
  f.fn.toNat ≤ 3 && f.ty == 0 && f.rnd == 0 && f.es == 0 && (f.fn.getLsbD 1 || f.c == 0)
def okVcmx (f : VR) : Bool :=
  f.fn.toNat % 16 ≤ 9 && f.ty.toNat ≤ 4 && f.rnd == 0 && f.es == 0 && f.m == 0 && f.b.toNat ≤ 11
    && (if f.fn.getLsbD 4 then f.c != f.d else f.c == 0)
/-- `VMASK` (R297). A destination mask vm0 is refused (R268); fields that a function does not use are MZ. -/
def okVmask (f : VR) : Bool :=
  f.fn.toNat ≤ 9 && f.m == 0 && f.rnd == 0 && f.es == 0 && f.c == 0
    && (if f.fn == 9 then f.ty.toNat ≤ 2 else f.ty == 0)
    && (f.fn == 8 || f.a.toNat < 8) && f.b.toNat < 8 && (f.fn.toNat < 4 || f.b == 0)
    && (!(f.fn == 5 || f.fn == 6) || f.a == 0)
    && (f.fn == 9 || (1 ≤ f.d.toNat && f.d.toNat ≤ 7))

/-- The pitch suffix `.P` of `VLD` and `VST` (R346), and the stream form of VM (R221). -/
def vmAddr (f : VM) : Bool := (!f.am || f.a.toNat < 8) && (f.fn != 1 || (f.a != 63 && !f.am))
def okVld (f : VM) : Bool := vmAddr f && f.arr != 0 && f.fmt != 15 && f.rnd == 0 && f.es == 0 && f.fn != 3
def okVst (f : VM) : Bool :=
  vmAddr f && f.arr == 0 && f.fmt != 15 && f.fmt != 11 && f.fmt != 12 && rndOk f.rnd && f.es != 3 && f.fn.toNat < 2
/-- `VGATH`, `VSCAT`: an 8-, 16- or 32-bit format other than E8M0, and no space 3 (R347). -/
def vgFmt (f : VG) : Bool := fcvtFmt f.fmt.toNat && f.sp != 3
def okVgath (f : VG) : Bool := vgFmt f && f.top != 0
def okVscat (f : VG) : Bool := vgFmt f && f.top.toNat % 8 == 0 && f.top.toNat / 32 ≤ 6 && f.top.toNat / 8 % 4 != 3

/-- The rows of R309. -/
def okMldw (f : MX) : Bool := f.mode != 3 && f.grp == 0 && f.fn.toNat ≤ 1 && f.sl == 0 && f.str == 0
def okMswap (f : MX) : Bool := f.mode == 0 && f.grp == 0 && f.fn == 0 && f.sl == 0 && f.str == 0 && f.a == 0 && f.b == 0 && f.c == 0
def okMfeed (f : MX) : Bool := f.mode != 3 && f.grp == 0 && f.fn.toNat ≤ 3 && f.sl == 0
def okMma (f : MX) : Bool := f.mode != 3 && f.fn.toNat ≤ 1 && f.str == 0
def okMmag (f : MX) : Bool := f.mode.toNat ≤ 1 && f.fn == 0
def okMcfg (f : MX) : Bool := f.mode == 0 && f.grp == 0 && f.fn == 0 && f.sl == 0 && f.str == 0 && f.c == 0
def okMdrain (f : MX) : Bool :=
  f.mode == 0 && f.grp == 0 && f.fn.toNat ≤ 3 && f.sl == 0 && f.str == 0 && (!f.fn.getLsbD 0 || f.c == 0)
def okMclr (f : MX) : Bool :=
  f.mode == 0 && f.grp == 0 && f.fn != 0 && f.fn.toNat ≤ 7 && f.sl == 0 && f.str == 0 && f.a == 0 && f.b == 0 && f.c == 0
def okMstat (f : MX) : Bool :=
  f.mode == 0 && f.grp == 0 && f.fn.toNat ≤ 7 && (f.fn == 0 || f.sl == 0) && f.str == 0 && f.b == 0 && f.c == 0

/-- The 25-bit value XIMM·2^9 + IMM of CX (R223). -/
def cxImm (f : CX) : Nat := (match f.xi with | some x => x.toNat * 512 | none => 0) + f.imm.toNat
/-- The handle field of a copy with H, zero without (R359). -/
def cxHandle (f : CX) (h : Bool) : Bool := if h then cxImm f < 4096 else f.imm == 0 && noX f.xi
def cxNoRnd (f : CX) : Bool := f.rnd == 0 && f.es == 0
def cxRnd (f : CX) : Bool := rndOk f.rnd && f.es != 3
def okCpy (f : CX) : Bool := f.fn.toNat ≤ 1 && cxNoRnd f && f.c == 0 && cxHandle f (f.fn.getLsbD 0)
def okCpyg (f : CX) : Bool := f.fn.toNat ≤ 1 && cxRnd f && cxHandle f (f.fn.getLsbD 0)
def okCpys (f : CX) : Bool := f.fn == 0 && cxRnd f && f.c == 0 && cxHandle f false
def okCpyx (f : CX) : Bool := f.fn.toNat ≤ 1 && cxRnd f && f.c == 0 && cxHandle f (f.fn.getLsbD 0)
def okCpymc (f : CX) : Bool := f.fn.toNat ≤ 1 && cxNoRnd f && cxHandle f (f.fn.getLsbD 0)
def okFill (f : CX) : Bool := f.fn.toNat < 8 && cxNoRnd f && cxHandle f (f.fn.getLsbD 2)
def okPref (f : CX) : Bool := f.fn == 0 && cxNoRnd f && f.c == 0 && cxHandle f false
def okCscl (f : CX) : Bool := (f.fn.toNat < 4 || f.fn == 4) && cxNoRnd f && f.b == 0 && f.c == 0 && cxHandle f false
def okPermit (f : CX) : Bool := f.fn.toNat < 4 && cxNoRnd f && f.b == 0 && f.c == 0
def okHset (f : CX) : Bool := f.fn.toNat < 3 && cxNoRnd f && f.c == 0
def okTladv (f : CX) : Bool :=
  f.fn.toNat < 8 && f.fn.toNat % 4 != 3 && cxNoRnd f && f.b == 0 && f.c == 0 && noX f.xi && (f.fn.getLsbD 2 || f.a == 0)
    && 10 ≤ f.imm.toNat && f.imm.toNat ≤ 15
def okSend (f : CX) : Bool := f.fn == 0 && cxNoRnd f && noX f.xi && f.imm.toNat < 256
def okRecv (f : CX) : Bool := okSend f && f.c == 0

/-- `LOOP`, `LOOPX`: NS is MZ without ROT (R224). -/
def okLoop (f : AL) : Bool := f.rot || f.ns == 0
def okStrb (f : AS) : Bool := f.fn.toNat ≤ 1 && f.lv == 0
def okStrs (f : AS) : Bool := f.fn.toNat ≤ 1 && f.sp == 0 && (f.fn == 0 || f.lv == 0)
def okStrld (f : AS) : Bool := f.fn == 0 && f.sp == 0 && f.lv == 0
def okStradv (f : AS) : Bool := f.fn.toNat ≤ 1 && f.sp == 0 && f.lv == 0
def okRotb (f : AS) : Bool := f.fn.toNat ≤ 1 && f.sp == 0 && f.lv == 0 && f.strm == 0
def okBrbs (f : AS) : Bool := f.fn == 0 && f.sp == 0 && f.lv == 0 && f.strm == 0

/-- A Loryil record's own shape: counts that its words can hold (R49, R55). Its operator's rules are the loader's (R64). -/
def recOk (r : LRec) : Bool :=
  r.opds.length < 65536 && r.attrs.all (fun t => t.payload.length < 16384)
    && (r.attrs.map (fun t => 1 + t.payload.length)).foldl (· + ·) 0 < 256

/-- The check of every instruction. Hardware events and commands are inputs and hold no fields to check here. -/
def fieldsOk : Instr → Bool
  | .add f | .sub f | .mul f | .and f | .or f | .xor f | .shl f | .shr f | .sra f => saPlain true 0 f
  | .mulh f => saPlain true 2 f
  | .div f | .rem f | .min f | .max f => saPlain true 1 f
  | .clz f => saUnary 1 f
  | .popc f => saUnary 0 f
  | .extb f => okExtb f
  | .insb f => okInsb f
  | .movi _ | .trap _ => true
  | .cmp f => okCmp f
  | .sel f => okSel f
  | .plog f => okPlog f
  | .fop f => okFop f
  | .fma f => okFma f
  | .fcvt f => okFcvt f
  | .ld f => okLd f
  | .st f => okSt f
  | .ldk f => okLdk f
  | .amo f => okAmo f
  | .fence f => okFence f
  | .kinv f | .yield f | .opend f => syNone f
  | .waitc f => okWaitc f
  | .waittl f => okWaittl f
  | .waith f => okWaith f
  | .bara f => okBara f
  | .barw f => okBarw f
  | .iclock f => okIclock f
  | .icunl f => okIcunl f
  | .br f => okBr f
  | .jmp f => okJmp f
  | .call f => okCall f
  | .ret f => okRet f
  | .mfs f => okMfs f
  | .mts f => okMts f
  | .phase f => okPhase f
  | .vadd f | .vsub f => okVadd f
  | .vmul f => okVmul f
  | .vfma f => okVfma f
  | .vmin f | .vmax f => okVmin f
  | .vabs f | .vneg f => okVabs f
  | .vand f => okVlog 1 f
  | .vor f | .vxor f | .vsel f => okVlog 0 f
  | .vshl f | .vshr f => okVshl f
  | .vcmp f => okVcmp f
  | .vcvt f => okVcvt f
  | .vsfu f => okVsfu f
  | .vscale f => okVscale f
  | .vdot4 f => okVdot4 f
  | .viota f => okViota f
  | .vsplat f => okVsplat f
  | .vmovs f => okVmovs f
  | .vins f => okVins f
  | .vrotr f | .vrotc f => okVrot f
  | .vbcr f | .vbcc f => okVbc f
  | .vredr f | .vredc f | .vscanr f => okVred f
  | .vtrn f => okVtrn f
  | .vpermr f => okVpermr f
  | .vcmx f => okVcmx f
  | .vmask f => okVmask f
  | .vld f => okVld f
  | .vst f => okVst f
  | .vgath f => okVgath f
  | .vscat f => okVscat f
  | .mldw f => okMldw f
  | .mswap f => okMswap f
  | .mfeed f => okMfeed f
  | .mma f => okMma f
  | .mmag f => okMmag f
  | .mcfg f => okMcfg f
  | .mdrain f => okMdrain f
  | .mclr f => okMclr f
  | .mstat f => okMstat f
  | .cpy f => okCpy f
  | .cpyg f => okCpyg f
  | .cpys f => okCpys f
  | .cpyx f => okCpyx f
  | .cpymc f => okCpymc f
  | .fill f => okFill f
  | .pref f => okPref f
  | .cscl f => okCscl f
  | .permit f => okPermit f
  | .hset f => okHset f
  | .tladv f => okTladv f
  | .send f => okSend f
  | .recv f => okRecv f
  | .loop f | .loopx f => okLoop f
  | .strb f => okStrb f
  | .strs f => okStrs f
  | .strld f => okStrld f
  | .stradv f => okStradv f
  | .rotb f => okRotb f
  | .brbs f => okBrbs f
  | .lNop _ r | .lLoop _ r | .lEndloop _ r | .lBrk _ r | .lIf _ r | .lElse _ r | .lEndif _ r | .lCall _ r | .lRet _ r
  | .lLaunch _ r | .lSyncchild _ r | .lConst _ r | .lSop _ r | .lScmp _ r | .lSel _ r | .lDim _ r | .lIdx _ r
  | .lAlloc _ r | .lFree _ r | .lView _ r | .lLoad _ r | .lStore _ r | .lRelayout _ r | .lCast _ r | .lPad _ r
  | .lConcat _ r | .lMatmul _ r | .lConv _ r | .lEwu _ r | .lEwb _ r | .lEwt _ r | .lReduce _ r | .lSoftmax _ r
  | .lNorm _ r | .lRope _ r | .lAttn _ r | .lGather _ r | .lScatter _ r | .lTopk _ r | .lSort _ r | .lPermute _ r
  | .lCumsum _ r | .lStage _ r | .lEndstage _ r | .lQdecl _ r | .lQpush _ r | .lQpop _ r | .lWalk _ r | .lAred _ r
  | .lAgath _ r | .lRscat _ r | .lA2a _ r | .lTsend _ r | .lTrecv _ r | .lUop _ r | .lFence _ r | .lWaith _ r
  | .lAssert _ r => recOk r
  | _ => true

end Sys2Proof.Machine
end

