-- ==== Sys2Proof/Config.lean ====
section
/-! DEFINITION. What an implementation fixes, and the free values: opaque constants with no body, so that nothing in Lean
can evaluate them or prove a value of one. -/
namespace Sys2Proof.Config

/-- A free 64-bit value, drawn by the counter `State.fresh` (DESIGN CHOICE, log 4): detail words that no rule gives. -/
opaque freeWord : Nat → BitVec 64

/-- A free natural number, drawn by the counter: cycle counts below a bound that the spec gives (R331, R385; log 6). -/
opaque freeNat : Nat → Nat

/-- A free choice, drawn by the counter: whether an `LDK` returns the cached or the present value (R341; log 13). -/
opaque freeBool : Nat → Bool

/-- Whether the memory fails to answer load n within R331's bound, of which R332 tells the consequence (log 6). -/
opaque memFails : Nat → Bool

/-- The argument's place at which a function of R37 passes from the lower to the upper of the two FP32 values that bracket its
exact value, for the function (5 tanh, 6 sigmoid, 7 sin), the interval of monotonicity and the lower value: R37 fixes the choice as a
monotonic function of the argument and does not publish it (DESIGN CHOICE, log 7). -/
opaque sfuThreshold : Nat → Nat → BitVec 32 → Int

/-- Ed25519 verification of a message by a key and a signature (R424): the published standard, left uninterpreted (PRESUMED, log 8). -/
opaque ed25519Verify : List (BitVec 8) → List (BitVec 8) → List (BitVec 8) → Bool

/-- ML-DSA-65 verification (R424, FIPS 204): left uninterpreted (PRESUMED, log 8). -/
opaque mldsaVerify : List (BitVec 8) → List (BitVec 8) → List (BitVec 8) → Bool

/-- The device's attestation signature of a message under both algorithms (R426): the key pair is secret (PRESUMED, log 8). -/
opaque deviceSign : List (BitVec 8) → List (BitVec 8)

/-- The fused key digest of each key slot 0-3 (R424): fixed by the part. -/
opaque fusedKeyDigest : Nat → List (BitVec 8)

/-- Whether a key slot is revoked by fuse (R424). -/
opaque keyRevoked : Nat → Bool

/-- The fused minimum security version of each function (R424). -/
opaque fusedMinSvn : Nat → Nat

/-- Crust's isolation map (R427): function core or 8 for the control cores, base, size, permissions R, W, X in bits 2, 1, 0. -/
opaque isolationMap : List (Nat × Nat × Nat × Nat)

/-- Whether a core's isolation windows name a mailbox (R428): sender, mailbox. -/
opaque mayPost : Nat → Nat → Bool

/-- The fabric's links as FABRIC measures them (R190): two chips and the latency of a hop, forwarding included, in GCYC cycles. -/
opaque fabricLinks : List (Nat × Nat × Nat)

/-- Chunks that the chip's chunk store can hold (R417). -/
opaque storeChunks : Nat

/-- Bytes of installed HBM4E: 512 GiB (R15). -/
def installedBytes : Nat := 2 ^ 39

/-- The device revision (R404). -/
def deviceRev : Nat := 1

/-- Where FABRIC keeps the group status block (R204): the last page of installed memory (DESIGN CHOICE, log 17). -/
def statusBlock : Nat := installedBytes - 4096

end Sys2Proof.Config
end

