-- ==== Sys2Proof/Machine/Bits.lean ====
section
/-! DEFINITION. Bit fields, sign extension, byte order and sorted association lists. The helpers are those of
spec/00 R4 (`Bits`, `SignExt`, `ZeroExt`, `Sat`) on unbounded integers. -/
namespace Sys2Proof.Machine

/-- `Bits(x, lo + n - 1, lo)` of a natural number (R4). -/
def bitsN (x lo n : Nat) : Nat := (x / 2 ^ lo) % 2 ^ n

/-- `Bits(x, n - 1, 0)` of an integer: its two's-complement form in n bits (R4). -/
def bitsZ (x : Int) (n : Nat) : Nat := (x % (2 ^ n : Int)).toNat

/-- `SignExt(x, n)` of a natural number of at most n bits (R4). -/
def sext (x n : Nat) : Int :=
  if n = 0 then 0 else if x % 2 ^ n < 2 ^ (n - 1) then (x % 2 ^ n : Nat) else (x % 2 ^ n : Nat) - (2 ^ n : Int)

/-- `Sat(x, lo, hi)` (R4). -/
def satZ (x lo hi : Int) : Int := if x < lo then lo else if hi < x then hi else x

/-- Ceiling division of natural numbers (R3). -/
def cdiv (a b : Nat) : Nat := (a + b - 1) / b

/-- Floor division of integers by a positive number (R3). -/
def fdiv (a : Int) (b : Nat) : Int := a.fdiv b

/-- One bit of a natural number, as a Bool. -/
def bitN (x i : Nat) : Bool := (x / 2 ^ i) % 2 == 1

/-- n little-endian bytes of a number (R3). -/
def toBytes (x : Nat) : Nat → List Byte
  | 0 => []
  | n + 1 => BitVec.ofNat 8 x :: toBytes (x / 256) n

/-- The number that little-endian bytes hold (R3). -/
def ofBytes : List Byte → Nat
  | [] => 0
  | b :: r => b.toNat + 256 * ofBytes r

/-- A 64-bit word from an integer, modulo 2^64. -/
def w64 (x : Int) : W64 := BitVec.ofInt 64 x

/-- Population count of a natural number below 2^n. -/
def popc (x : Nat) : Nat → Nat
  | 0 => 0
  | n + 1 => x % 2 + popc (x / 2) n

/-- Trailing zero count, up to n. -/
def ctz (x : Nat) : Nat → Nat
  | 0 => 0
  | n + 1 => if x % 2 = 1 then 0 else 1 + ctz (x / 2) n

/-- A sorted association list: the one form of every sparse table of the model. -/
abbrev AMap (α : Type) := List (Nat × α)

/-- The entry of a key, or d. -/
def AMap.get {α : Type} (d : α) : AMap α → Nat → α
  | [], _ => d
  | (k', v) :: r, k => if k = k' then v else AMap.get d r k

/-- The entry of a key, if the key is listed. -/
def AMap.find {α : Type} : AMap α → Nat → Option α
  | [], _ => none
  | (k', v) :: r, k => if k = k' then some v else AMap.find r k

/-- Writes an entry at its place in the order, and keeps keys strictly rising. -/
def AMap.upd {α : Type} : AMap α → Nat → α → AMap α
  | [], k, v => [(k, v)]
  | (k', v') :: r, k, v =>
    if k < k' then (k, v) :: (k', v') :: r
    else if k = k' then (k, v) :: r
    else (k', v') :: AMap.upd r k v

/-- Removes an entry. -/
def AMap.erase {α : Type} : AMap α → Nat → AMap α
  | [], _ => []
  | (k', v') :: r, k => if k = k' then AMap.erase r k else (k', v') :: AMap.erase r k

/-- Writes an entry, or removes it when it equals what an unlisted key reads as: the canonical form. -/
def AMap.put {α : Type} [DecidableEq α] (d : α) (m : AMap α) (k : Nat) (v : α) : AMap α :=
  if v = d then m.erase k else m.upd k v

/-- Strictly rising keys. -/
def AMap.sorted {α : Type} : AMap α → Bool
  | [] => true
  | [_] => true
  | (k, _) :: (k', v') :: r => decide (k < k') && AMap.sorted ((k', v') :: r)

/-- Replaces element i of a list. -/
def setAt {α : Type} : List α → Nat → α → List α
  | [], _, _ => []
  | _ :: r, 0, v => v :: r
  | a :: r, i + 1, v => a :: setAt r i v

/-- The index of the first element that meets p. -/
def firstIdx {α : Type} (p : α → Bool) : List α → Option Nat
  | [] => none
  | a :: r => if p a then some 0 else (firstIdx p r).map (· + 1)

/-- Sum of a list of integers. -/
def sumZ : List Int → Int
  | [] => 0
  | a :: r => a + sumZ r

/-- Maximum of a list of natural numbers, 0 when empty. -/
def maxN : List Nat → Nat
  | [] => 0
  | a :: r => Nat.max a (maxN r)

/-- Product of a list of natural numbers. -/
def prodN : List Nat → Nat
  | [] => 1
  | a :: r => a * prodN r

/-- A list with repeats removed. -/
def nubN : List Nat → List Nat
  | [] => []
  | a :: r => a :: (nubN r).filter (· != a)

/-- Sums of counts. -/
def sumN (l : List Nat) : Nat := l.foldl (· + ·) 0

end Sys2Proof.Machine
end

