-- ==== Sys2Proof/Machine/Numbers.lean ====
section
/-! DEFINITION. Number formats and arithmetic (spec/02): exact values, the formats of R22, rounding (R30, R31, R34), overflow and NaN
(R35, R36), the special functions (R37), the generators (R32, R33). Values are exact rationals; every result is one rounding. -/
namespace Sys2Proof.Machine

/-- An exact value: a NaN, an infinity with its sign, or a signed rational num / den with den positive (zeros keep a sign). -/
inductive Num where
  | nan
  | inf (neg : Bool)
  | fin (neg : Bool) (num den : Nat)
  deriving DecidableEq, Repr

/-! ### Formats (R22) -/

/-- Exponent bits, fraction bits and bias of a floating-point format. -/
structure FFmt where
  e : Nat
  m : Nat
  bias : Nat
  deriving DecidableEq, Repr

/-- The floating-point formats: codes 0 to 6 (R22). -/
def ffmt (f : Nat) : Option FFmt :=
  match f with
  | 0 => some ⟨8, 23, 127⟩
  | 1 => some ⟨8, 7, 127⟩
  | 2 => some ⟨5, 10, 15⟩
  | 3 => some ⟨4, 3, 7⟩
  | 4 => some ⟨5, 2, 15⟩
  | 5 => some ⟨3, 2, 3⟩
  | 6 => some ⟨2, 1, 1⟩
  | _ => none

/-- Bits of an element (R22). -/
def fmtBits (f : Nat) : Nat :=
  match f with
  | 0 | 7 | 13 => 32
  | 1 | 2 | 8 => 16
  | 5 => 6
  | 6 | 10 => 4
  | 11 => 2
  | _ => 8

/-- Bytes of n packed elements, whole groups (R27). -/
def packedBytes (f n : Nat) : Nat := if f = 5 then 3 * cdiv n 4 else cdiv (n * fmtBits f) 8

/-- Least and greatest value of an integer format: INT32, INT16, INT8, INT4, UINT32, UINT8. -/
def intRange (f : Nat) : Option (Int × Int) :=
  match f with
  | 7 => some (-2 ^ 31, 2 ^ 31 - 1)
  | 8 => some (-32768, 32767)
  | 9 => some (-128, 127)
  | 10 => some (-8, 7)
  | 13 => some (0, 2 ^ 32 - 1)
  | 14 => some (0, 255)
  | _ => none

/-- Infinities exist in FP32, BF16, FP16 and E5M2 (R23). -/
def hasInf (f : Nat) : Bool := f == 0 || f == 1 || f == 2 || f == 4

/-- The canonical NaN of a format (R36); 0 for the formats that have none. -/
def canonNan (f : Nat) : Nat :=
  match f with
  | 0 => 0x7FC00000
  | 1 => 0x7FC0
  | 2 => 0x7E00
  | 3 => 0x7F
  | 4 => 0x7E
  | _ => 0

/-- The bits of +∞. -/
def infBits (g : FFmt) : Nat := (2 ^ g.e - 1) * 2 ^ g.m

/-- The bits of the largest finite value (R22). -/
def maxBits (f : Nat) (g : FFmt) : Nat :=
  if hasInf f then infBits g - 1 else if f = 3 then 0x7E else 2 ^ (g.e + g.m) - 1

/-! ### Exact values -/

/-- num · 2^e / den as a pair. -/
def scale2 (num den : Nat) (e : Int) : Nat × Nat := if 0 ≤ e then (num * 2 ^ e.toNat, den) else (num, den * 2 ^ (-e).toNat)

/-- ±num · 2^e. -/
def Num.dy (neg : Bool) (num : Nat) (e : Int) : Num := .fin neg (scale2 num 1 e).1 (scale2 num 1 e).2

/-- An integer's value. -/
def Num.int (x : Int) : Num := .fin (decide (x < 0)) x.natAbs 1

/-- +0. -/
def Num.zero : Num := .fin false 0 1

def Num.isNan : Num → Bool
  | .nan => true
  | _ => false

def Num.isInf : Num → Bool
  | .inf _ => true
  | _ => false

def Num.isZero : Num → Bool
  | .fin _ n _ => n == 0
  | _ => false

def Num.sign : Num → Bool
  | .nan => false
  | .inf s => s
  | .fin s _ _ => s

/-- −x; a NaN has no sign (R36). -/
def Num.negate : Num → Num
  | .nan => .nan
  | .inf s => .inf (!s)
  | .fin s n d => .fin (!s) n d

def Num.abs : Num → Num
  | .nan => .nan
  | .inf _ => .inf false
  | .fin _ n d => .fin false n d

/-- The value of an encoding in a floating-point format (R23). -/
def decF (f : Nat) (g : FFmt) (x : Nat) : Num :=
  let s := bitN x (g.e + g.m)
  let ex := bitsN x g.m g.e
  let fr := bitsN x 0 g.m
  if ex = 0 then .dy s fr (1 - g.bias - g.m : Int)
  else if ex = 2 ^ g.e - 1 ∧ hasInf f = true then (if fr = 0 then .inf s else .nan)
  else if f = 3 ∧ ex = 15 ∧ fr = 7 then .nan
  else .dy s (2 ^ g.m + fr) ((ex : Int) - g.bias - g.m)

/-- The value of an element's code in any format (R22 to R25). TERN's reserved code reads as 0. -/
def decode (f x : Nat) : Num :=
  match ffmt f with
  | some g => decF f g x
  | none =>
    match f with
    | 7 => .int (sext x 32)
    | 8 => .int (sext x 16)
    | 9 => .int (sext x 8)
    | 10 => .int (sext x 4)
    | 11 => if x % 4 = 1 then .int 1 else if x % 4 = 3 then .int (-1) else .zero
    | 12 => if x % 256 = 255 then .nan else .dy false 1 ((x % 256 : Nat) - 127 : Int)
    | 13 => .int (x % 2 ^ 32 : Nat)
    | _ => .int (x % 256 : Nat)

/-- ⌊log2 (num / den)⌋ of a positive rational. -/
def lg2 (num den : Nat) : Int :=
  let a : Int := (Nat.log2 num : Int) - Nat.log2 den
  let p := scale2 1 1 a
  if p.1 * den ≤ num * p.2 then a else a - 1

/-- A rational magnitude n / d rounded to an integer under a mode of R30; `r` is the addend of R34. -/
def roundNat (mode : Nat) (neg : Bool) (r n d : Nat) : Nat :=
  let k := n / d
  let rem := n % d
  match mode with
  | 0 => if d < 2 * rem ∨ (d = 2 * rem ∧ k % 2 = 1) then k + 1 else k
  | 1 => k
  | 2 => if neg = true ∧ rem ≠ 0 then k + 1 else k
  | 3 => if neg = false ∧ rem ≠ 0 then k + 1 else k
  | 4 => if d ≤ 2 * rem then k + 1 else k
  | _ => (n * 65536 / d + r) / 65536

/-- The grid exponent of a floating-point format at magnitude num / den (R31). -/
def gridExp (g : FFmt) (num den : Nat) : Int := max (lg2 num den) (1 - (g.bias : Int)) - g.m

/-- The encoding of ±k · 2^e, a value on the grid within the format's range. -/
def encF (g : FFmt) (neg : Bool) (k : Nat) (e : Int) : Nat :=
  let s := if neg then 2 ^ (g.e + g.m) else 0
  if k = 0 then s
  else
    let fl : Int := Nat.log2 k + e
    if fl < 1 - (g.bias : Int) then s + k
    else
      let l := Nat.log2 k
      let fr := if g.m ≤ l then k / 2 ^ (l - g.m) else k * 2 ^ (g.m - l)
      s + (fl + g.bias).toNat * 2 ^ g.m + (fr - 2 ^ g.m)

/-- Whether k · 2^e exceeds the largest finite value of a format. -/
def overflows (f : Nat) (g : FFmt) (k : Nat) (e : Int) : Bool :=
  match decF f g (maxBits f g) with
  | .fin _ n d => decide ((scale2 k 1 e).1 * d > n * (scale2 k 1 e).2)
  | _ => false

/-- The result of an overflow (R35), with whether it is counted. -/
def overflowRes (f : Nat) (g : FFmt) (mode : Nat) (sat neg : Bool) : Nat × Bool :=
  let s := if neg then 2 ^ (g.e + g.m) else 0
  if hasInf f then
    if sat then (s + maxBits f g, true)
    else if mode = 1 ∨ (mode = 2 ∧ neg = false) ∨ (mode = 3 ∧ neg = true) then (s + maxBits f g, false)
    else (s + infBits g, false)
  else if f = 3 then (if sat then (s + maxBits f g, true) else (0x7F, false))
  else (s + maxBits f g, true)

/-- `RoundTo` to a floating-point format (R31, R35). -/
def roundF (f : Nat) (g : FFmt) (mode r : Nat) (sat : Bool) : Num → Nat × Bool
  | .nan => (canonNan f, f == 5 || f == 6)
  | .inf s =>
    if hasInf f then ((if s then 2 ^ (g.e + g.m) else 0) + infBits g, false)
    else if f = 3 ∧ sat = false then (0x7F, false)
    else ((if s then 2 ^ (g.e + g.m) else 0) + maxBits f g, true)
  | .fin s n d =>
    if n = 0 then (encF g s 0 0, false)
    else
      let e := gridExp g n d
      let p := scale2 n d (-e)
      let k := roundNat mode s r p.1 p.2
      if overflows f g k e then overflowRes f g mode sat s else (encF g s k e, false)

/-- `RoundTo` to an integer format, and `Sat` (R31, R35). -/
def roundI (f : Nat) (lo hi : Int) (mode r : Nat) : Num → Nat × Bool
  | .nan => (0, true)
  | .inf s => (bitsZ (if s then lo else hi) (fmtBits f), true)
  | .fin s n d =>
    let k := roundNat mode s r n d
    let v : Int := if s then -(k : Int) else k
    (bitsZ (satZ v lo hi) (fmtBits f), decide (v < lo ∨ hi < v))

/-- `RoundTo` to E8M0 (R31): a power of two, its base-2 logarithm rounded. R31 and R35 do not say what becomes of a zero, a sign, an infinity, a
NaN or a magnitude outside the range, nor how SR places its addend between two powers (DESIGN CHOICE, log 28). -/
def roundE8 (mode r : Nat) : Num → Nat × Bool
  | .fin _ n d =>
    if n = 0 then (0, true)
    else
      let a := lg2 n d
      let p := scale2 n d (-a)
      let up := match mode with
        | 0 | 4 => decide (2 * p.2 * p.2 < p.1 * p.1)
        | 1 | 2 => false
        | 3 => decide (p.2 < p.1)
        | _ => decide (65536 ≤ (p.1 - p.2) * 65536 / p.2 + r)
      let e := (if up then a + 1 else a) + 127
      (bitsZ (satZ e 0 254) 8, decide (e < 0 ∨ 254 < e))
  | _ => (255, false)

/-- `RoundTo` to TERN: the nearest of −1, 0 and +1 on the grid of step 1, as an integer format of that range (R35 has no row for TERN; DESIGN
CHOICE, log 28). The reserved code 0b10 is never the result (R25). -/
def roundTern (mode r : Nat) (x : Num) : Nat × Bool := let p := roundI 9 (-1) 1 mode r x; (p.1 % 4, p.2)

/-- `RoundTo` to any format: the code and whether the element is counted in CNTSAT (R31, R35). `mode` is 0 to 5, `r` the SR addend. -/
def roundTo (f mode r : Nat) (sat : Bool) (x : Num) : Nat × Bool :=
  match ffmt f with
  | some g => roundF f g mode r sat x
  | none =>
    match intRange f with
    | some (lo, hi) => roundI f lo hi mode r x
    | none => if f = 11 then roundTern mode r x else roundE8 mode r x

/-! ### Arithmetic on exact values -/

/-- A signed sum of two finite values; an exact zero takes R31's sign. -/
def addFin (rdn : Bool) (s1 : Bool) (n1 d1 : Nat) (s2 : Bool) (n2 d2 : Nat) : Num :=
  let d := if d1 % d2 = 0 then d1 else if d2 % d1 = 0 then d2 else d1 * d2
  let a : Int := (if s1 then -1 else 1) * (n1 * (d / d1) : Nat)
  let b : Int := (if s2 then -1 else 1) * (n2 * (d / d2) : Nat)
  if a + b = 0 then .fin (if n1 = 0 ∧ n2 = 0 ∧ s1 = s2 then s1 else rdn) 0 1
  else .fin (decide (a + b < 0)) (a + b).natAbs d

/-- x + y; `rdn` says that the mode is RDN. -/
def Num.add (rdn : Bool) : Num → Num → Num
  | .nan, _ => .nan
  | _, .nan => .nan
  | .inf s, .inf t => if s = t then .inf s else .nan
  | .inf s, _ => .inf s
  | _, .inf t => .inf t
  | .fin s1 n1 d1, .fin s2 n2 d2 => addFin rdn s1 n1 d1 s2 n2 d2

/-- x · y. -/
def Num.mul : Num → Num → Num
  | .nan, _ => .nan
  | _, .nan => .nan
  | .inf s, .inf t => .inf (xor s t)
  | .inf s, .fin t n _ => if n = 0 then .nan else .inf (xor s t)
  | .fin t n _, .inf s => if n = 0 then .nan else .inf (xor s t)
  | .fin s1 n1 d1, .fin s2 n2 d2 => .fin (xor s1 s2) (n1 * n2) (d1 * d2)

/-- x / y. -/
def Num.div : Num → Num → Num
  | .nan, _ => .nan
  | _, .nan => .nan
  | .inf _, .inf _ => .nan
  | .inf s, .fin t _ _ => .inf (xor s t)
  | .fin s _ _, .inf t => .fin (xor s t) 0 1
  | .fin s1 n1 d1, .fin s2 n2 d2 =>
    if n2 = 0 then (if n1 = 0 then .nan else .inf (xor s1 s2)) else .fin (xor s1 s2) (n1 * d2) (d1 * n2)

/-- The signed numerator of a finite value. -/
def signedNum (s : Bool) (n : Nat) : Int := if s then -(n : Int) else n

/-- x < y on numbers: false with a NaN, −0 equal to +0. -/
def Num.lt : Num → Num → Bool
  | .nan, _ => false
  | _, .nan => false
  | .inf s, .inf t => s && !t
  | .inf s, .fin _ _ _ => s
  | .fin _ _ _, .inf t => !t
  | .fin s1 n1 d1, .fin s2 n2 d2 => decide (signedNum s1 n1 * d2 < signedNum s2 n2 * d1)

/-- x = y on numbers: false with a NaN. -/
def Num.eq (x y : Num) : Bool := !x.isNan && !y.isNan && !x.lt y && !y.lt x

/-! ### Generators (R32 to R34) -/

/-- The seed of a lane (R33). -/
def seedOf (seed : W32) (lane : Nat) : W32 :=
  let st := seed ^^^ BitVec.ofNat 32 (0x9E3779B9 * lane)
  if st = 0 then 0x6A09E667#32 else st

/-- One step of a generator (R34). -/
def genStep (st : W32) : W32 :=
  let a := st ^^^ (st <<< 13)
  let b := a ^^^ (a >>> 17)
  b ^^^ (b <<< 5)

/-- The addend of a stepped generator (R34). -/
def genAddend (st : W32) : Nat := st.toNat / 65536

/-! ### Special functions (R37) -/

/-- Newton's integer square root, from above. -/
def isqrtGo : Nat → Nat → Nat → Nat
  | 0, _, x => x
  | k + 1, n, x =>
    let y := (x + n / x) / 2
    if y < x then isqrtGo k n y else x

/-- ⌊√n⌋. -/
def isqrt (n : Nat) : Nat := if n = 0 then 0 else isqrtGo (Nat.log2 n + 2) n (2 ^ (Nat.log2 n / 2 + 1))

/-- A positive value strictly between k · 2^(−p) and (k + 1) · 2^(−p), as the point between them; exactly k · 2^(−p) when `ex`. -/
def between (ex : Bool) (neg : Bool) (k p : Nat) : Num := if ex then .fin neg k (2 ^ p) else .fin neg (2 * k + 1) (2 ^ (p + 1))

/-- √(n / d) to within 2^(−p), with exactness. -/
def sqrtNum (n d p : Nat) : Num :=
  let q := n * 4 ^ p
  let k := isqrt (q / d)
  between (q % d == 0 && k * k == q / d) false k p

/-- Product of the constants 2^(2^−i) for the set bits of a fraction of `bits` bits, in fixed point with p fraction bits. -/
def exp2Frac (p : Nat) : Nat → Nat → Nat → Nat → Nat
  | 0, _, _, acc => acc
  | i + 1, fr, root, acc =>
    let acc' := if bitN fr i then acc * root / 2 ^ p else acc
    exp2Frac p i fr (isqrt (root * 2 ^ p)) acc'

/-- 2^x of a finite value (R37). -/
def exp2Num (s : Bool) (n d : Nat) : Num :=
  if n = 0 then .fin false 1 1
  else if 200 * d ≤ n then (if s then .fin false 1 (2 ^ 400) else .dy false 1 400)
  else if n * 2 ^ 30 < d then .fin false 1 1
  else
    let t : Int := fdiv (signedNum s (n * 2 ^ 64)) d
    let w : Int := fdiv t (2 ^ 64)
    let fr := bitsZ t 64
    let e := exp2Frac 192 64 fr (isqrt (2 ^ 385)) (2 ^ 192)
    match between (fr == 0) false e 192 with
    | .fin _ a b => .fin false (scale2 a b w).1 (scale2 a b w).2
    | x => x

/-- Bits of log2 of a mantissa y / 2^p in [1, 2), by repeated squaring, most significant first. -/
def log2Frac (p : Nat) : Nat → Nat → Nat → Nat
  | 0, _, acc => acc
  | i + 1, y, acc =>
    let z := y * y / 2 ^ p
    if 2 * 2 ^ p ≤ z then log2Frac p i (z / 2) (2 * acc + 1) else log2Frac p i z (2 * acc)

/-- log2 of a positive value (R37). -/
def log2Num (n d : Nat) : Num :=
  let a := lg2 n d
  let m := scale2 n d (-a)
  if m.1 = m.2 then .int a
  else
    let k := log2Frac 384 128 (m.1 * 2 ^ 384 / m.2) 0
    Num.add false (.int a) (between false false k 128)

/-- Terms of e^y − 1 in fixed point: term := term · y / i. -/
def expTerms (p y : Nat) : Nat → Nat → Nat → Nat → Nat
  | 0, _, _, acc => acc
  | k + 1, i, term, acc =>
    let t := term * y / 2 ^ p / i
    expTerms p y k (i + 1) t (acc + t)

/-- Repeated squaring in fixed point. -/
def sqTimes (p : Nat) : Nat → Nat → Nat
  | 0, x => x
  | k + 1, x => sqTimes p k (x * x / 2 ^ p)

/-- e^(n/d) for 0 ≤ n/d < 256, in fixed point with p fraction bits. -/
def expFix (p n d : Nat) : Nat := sqTimes p 9 (expTerms p (n * 2 ^ p / d / 512) 80 1 (2 ^ p) (2 ^ p))

/-- arctan(1/q) in fixed point. -/
def atanInv (p q : Nat) : Nat → Nat → Nat → Int
  | 0, _, _ => 0
  | k + 1, i, pw => (if i % 2 = 0 then 1 else -1) * ((pw / (2 * i + 1) : Nat) : Int) + atanInv p q k (i + 1) (pw / (q * q))

/-- π in fixed point with p fraction bits, by Machin's formula. -/
def piFix (p : Nat) : Nat := (16 * atanInv p 5 (p / 4) 0 (2 ^ p / 5) - 4 * atanInv p 239 (p / 8) 0 (2 ^ p / 239)).toNat

/-- Terms of the sine series in fixed point. -/
def sinTerms (p y2 : Nat) : Nat → Nat → Nat → Int
  | 0, _, _ => 0
  | k + 1, i, t => (if i % 2 = 0 then 1 else -1) * (t : Int) + sinTerms p y2 k (i + 1) (t * y2 / 2 ^ p / ((2 * i + 2) * (2 * i + 3)))

/-- A value with p fraction bits, strictly between neighbours. -/
def fixNum (v : Int) (p : Nat) : Num := Num.fin (decide (v < 0)) (2 * v.natAbs + 1) (2 ^ (p + 1))

/-- tanh of a positive value: (1 − e^(−2x)) / (1 + e^(−2x)); close to x for a small x, and to 1 for a large one. -/
def tanhNum (n d : Nat) : Num :=
  if 64 * d ≤ n then .fin false (2 ^ 100 - 1) (2 ^ 100)
  else if n * 4096 < d then .fin false (n * (2 ^ 25 - 1)) (d * 2 ^ 25)
  else
    let e := expFix 384 (2 * n) d
    fixNum ((e - 2 ^ 384) * 2 ^ 384 / (e + 2 ^ 384) : Nat) 384

/-- The logistic function of a non-zero value. -/
def sigmoidNum (s : Bool) (n d : Nat) : Num :=
  if 200 * d ≤ n then (if s then .fin false 1 (2 ^ 200) else .fin false (2 ^ 100 - 1) (2 ^ 100))
  else
    let e := expFix 512 n d
    if s then fixNum (2 ^ 1024 / (2 ^ 512 + e) : Nat) 512 else fixNum (e * 2 ^ 512 / (2 ^ 512 + e) : Nat) 512

/-- sin of a positive value, with the number of the interval [(j − 1/2)π, (j + 1/2)π] that the argument lies in. -/
def sinNum (n d : Nat) : Nat × Num :=
  let p := 640
  let pi := piFix p
  let x := n * 2 ^ p / d
  let j := (2 * x + pi) / (2 * pi)
  let r : Int := (x : Int) - (j * pi : Nat)
  let a := r.natAbs
  let v := sinTerms p (a * a / 2 ^ p) 80 0 a
  (j, fixNum ((if j % 2 = 1 then -1 else 1) * (if r < 0 then -v else v)) p)

/-- An order-preserving number for a non-NaN FP32 encoding. -/
def ord32 (x : Nat) : Int := if bitN x 31 then -(bitsN x 0 31 : Int) else (bitsN x 0 31 : Int)

/-- One of the two FP32 values that bracket an exact value: which one is a fixed, monotonic function of the argument (R37, log 7).
`fn` is the function, `iv` the interval of monotonicity, `rising` its direction, `arg` the argument's bits. -/
def bracket (fn iv : Nat) (rising : Bool) (arg : Nat) (v : Num) : Nat :=
  let g : FFmt := ⟨8, 23, 127⟩
  let lo := (roundF 0 g 2 0 false v).1
  let hi := (roundF 0 g 3 0 false v).1
  let up := decide (Config.sfuThreshold fn iv (BitVec.ofNat 32 lo) ≤ ord32 arg)
  if up = rising then hi else lo

/-- RNE to FP32. -/
def toF32 (x : Num) : Nat := (roundTo 0 0 0 false x).1

/-- `VSFU`'s functions on an FP32 encoding: 0 exp2, 1 log2, 2 rcp, 3 rsqrt, 4 sqrt, 5 tanh, 6 sigmoid, 7 sin (R37). -/
def sfu (fn x : Nat) : Nat :=
  let nan := 0x7FC00000
  let one := 0x3F800000
  let inf := 0x7F800000
  let v := decode 0 x
  let sgn := x / 2 ^ 31 % 2 * 2 ^ 31
  match fn, v with
  | _, .nan => nan
  | 0, .inf s => if s then 0 else inf
  | 0, .fin s n d => toF32 (exp2Num s n d)
  | 1, .inf s => if s then nan else inf
  | 1, .fin s n d => if n = 0 then 0xFF800000 else if s then nan else toF32 (log2Num n d)
  | 2, .inf s => if s then 0x80000000 else 0
  | 2, .fin s n d => if n = 0 then sgn + inf else toF32 (.fin s d n)
  | 3, .inf s => if s then nan else 0
  | 3, .fin s n d => if n = 0 then sgn + inf else if s then nan else toF32 (sqrtNum d n 120)
  | 4, .inf s => if s then nan else inf
  | 4, .fin s n d => if n = 0 then sgn else if s then nan else toF32 (sqrtNum n d 200)
  | 5, .inf s => if s then 0xBF800000 else one
  | 5, .fin _ n d => if n = 0 then sgn else sgn + bracket 5 0 true (x % 2 ^ 31) (tanhNum n d)
  | 6, .inf s => if s then 0 else one
  | 6, .fin s n d => if n = 0 then 0x3F000000 else bracket 6 0 true x (sigmoidNum s n d)
  | _, .inf _ => nan
  | _, .fin _ n d =>
    if n = 0 then sgn
    else
      let t := sinNum n d
      let y := bracket 7 t.1 (t.1 % 2 == 0) (x % 2 ^ 31) t.2
      if sgn = 0 then y else y ^^^ 2 ^ 31

end Sys2Proof.Machine
end

