-- ==== Sys2Proof/Machine/Parts.lean ====
section
/-! DEFINITION. The plain data that a core and a cluster hold: registers, pending results, landings, the matrix engine, operations on
engines, handles, regions and queues. Each structure names the rule that gives it. -/
namespace Sys2Proof.Machine

/-- A vector register: 16 rows of 64 containers of 32 bits, container 64·row + col at bits [32·i + 31 : 32·i] (R267). -/
abbrev VReg := BitVec 32768

/-- A vector mask: one bit per element (R268). -/
abbrev VMask := BitVec 1024

/-- A scale register: 128 FP32 values (R298). -/
abbrev ScReg := BitVec 4096

/-- A loop level (R255). -/
structure LoopLv where
  act : Bool
  lc : Nat
  idx : Nat
  start : Nat
  stop : Nat
  rot : Bool
  s : Nat
  xs : Bool
  deriving DecidableEq, Repr

/-- An inactive level (R238). -/
def LoopLv.zero : LoopLv := ⟨false, 0, 0, 0, 0, false, 0, false⟩

/-- An address stream (R259). -/
structure Strm where
  base : BitVec 52
  sp : BitVec 2
  off : W64
  str0 : W32
  str1 : W32
  str2 : W32
  str3 : W32
  inc : W32
  deriving DecidableEq, Repr

/-- A stream with free fields, from number n on. -/
def Strm.free (n : Nat) : Strm :=
  let w := fun k => Config.freeWord (n + k)
  ⟨(w 0).setWidth 52, (w 1).setWidth 2, w 2, (w 3).setWidth 32, (w 4).setWidth 32, (w 5).setWidth 32, (w 6).setWidth 32, (w 7).setWidth 32⟩

/-- A stream zero in every field (R238). -/
def Strm.zero : Strm := ⟨0, 0, 0, 0, 0, 0, 0, 0⟩

/-- A write that becomes visible at a later tick (R213). A stream update of the A slot names only what it changes (R261). -/
inductive Wr where
  | sreg (r : Nat) (v : W64)
  | port (q : Nat) (v : W64)
  | pred (r : Nat) (b : Bool)
  | vreg (phys : Nat) (m : VMask) (x : VReg)
  | vmask (r : Nat) (x : VMask)
  | strm (n : Nat) (x : Strm)
  | strb (n : Nat) (clr : Bool) (base : BitVec 52) (sp : BitVec 2)
  | strs (n lv : Nat) (v : W32)
  | stradv (n : Nat) (set : Bool) (v : W64)
  | vrotb (b : BitVec 4)
  | brb (v : W64)
  | sys (reg : Nat) (v : W64)
  | scale (js : List (Nat × ScReg)) (tl num : Nat)
  | count (ovf nan sat trn : Nat)
  deriving DecidableEq, Repr

/-- A pending result: the tick at which it becomes visible, and its place in issue order, 8·tick + slot (R213, R274). -/
structure Pend where
  due : Nat
  key : Nat
  wr : Wr
  deriving DecidableEq, Repr

/-- A landing-buffer entry (R330). `arrAt` is the CCLK cycle at which the data arrives; `bad` says that it is uncorrectable; `pages` are virtual
addresses on the pages that the data comes from, none outside global memory (R332). -/
structure Land where
  due : Nat
  key : Nat
  vec : Bool
  arr : Nat
  arrAt : Nat
  here : Bool
  bad : Bool
  addr : W64
  pages : List Nat
  bundle : W64
  wr : Wr
  deriving DecidableEq, Repr

/-- An operator record (R108) with the operator that it is a tile of, its routine's object and the address of that routine's first bundle. -/
structure OpRec where
  words : List W64
  lop : Nat
  obj : Nat
  entry : W64
  deriving DecidableEq, Repr

/-- A timeline: numbers issued, the largest n with 1 to n ended, numbers above it that have ended (R357, R308), and the numbers that ended with
the fault flag set (R370, R202). -/
structure Tline where
  iss : Nat
  val : Nat
  out : List Nat
  flt : List Nat
  deriving DecidableEq, Repr

/-- No operation issued. -/
def Tline.zero : Tline := ⟨0, 0, [], []⟩

/-- What a stage walk on a core holds (R152, R153): its number, items left per reserved input port, room left per reserved output
port, and whether an item has been popped. -/
structure WalkHold where
  walk : Nat
  ins : AMap Nat
  outs : AMap Nat
  popped : Bool
  deriving DecidableEq, Repr

/-! ### The matrix engine (R298 to R303) -/

/-- A bank's source record (R302). Mode 0 `.BF`, 1 `.I8`, 2 `.T`. -/
structure WSrc where
  addr : W64
  mode : Nat
  kw : Nat
  nw : Nat
  pitch : Nat
  hnd : Option Nat
  deriving DecidableEq, Repr

/-- A weight bank: its mode (3 EMPTY), its source record, its rows with element n at bits [w·n + w − 1 : w·n]; `perr` counts the parity errors
that it has yielded within the slice (R321). -/
structure Bank where
  mode : Nat
  src : Option WSrc
  rows : AMap (BitVec 8192)
  perr : Nat
  deriving DecidableEq, Repr

def Bank.empty : Bank := ⟨3, none, [], 0⟩

/-- An entry of an MFEED log (R312). -/
structure FeedLog where
  cur : W64
  sp : Nat
  m : Nat
  k0 : Nat
  kn : Nat
  pitch : Int
  mode : Nat
  deriving DecidableEq, Repr

/-- A feed buffer: its class (0 BF16, 1 INT8, 3 EMPTY), its log and its rows of 4 KiB. -/
structure Feed where
  cls : Nat
  log : List FeedLog
  rows : AMap (BitVec 32768)
  deriving DecidableEq, Repr

def Feed.empty : Feed := ⟨3, [], []⟩

/-- A ring slot's contents: 64 rows of 128 entries of 48 bits, the sticky counters, the poison flag with the macro that failed
(R298, R41, R321). -/
structure Ring where
  rows : AMap (BitVec 6144)
  ovf : Nat
  nan : Nat
  pois : Bool
  mac : Nat
  deriving DecidableEq, Repr

def Ring.empty : Ring := ⟨[], 0, 0, false, 0⟩

/-- A ring slot's control state in the issue-order view: 0 FREE, 1 OPEN, 2 COMMITTED; the kind, the group's size and first slot, and
whether an `MDRAIN` that frees it has issued for the group (R303, R313). -/
structure RSlot where
  st : Nat
  int48 : Bool
  g : Nat
  first : Nat
  freeing : Bool
  deriving DecidableEq, Repr

def RSlot.free : RSlot := ⟨0, false, 0, 0, false⟩

/-- What an issued matrix instruction does when it executes. -/
inductive MWork where
  | ldw (src : WSrc) (gang : Bool)
  | swap
  | feed (f1 zero : Bool) (e : FeedLog)
  | mma (mode grp : Nat) (f1 : Bool) (slot m n k : Nat)
  | mmag (mode grp slot m n k : Nat) (cur : W64) (sp : Nat) (pitch : Int) (leader : Nat)
  | clr (r w f : Bool)
  | drain (slot g : Nat) (int48 hold : Bool) (m n : Nat) (dst : W64) (pitch : Int) (hnd : Option Nat) (cfg bias : W64)
  | drainV (slot g : Nat) (int48 hold : Bool) (phys row0 col0 : Nat) (cfg bias : W64)
  | reload (shadow : Bool) (src : WSrc) (num : Option Nat)
  | replay (f1 : Bool) (e : FeedLog)
  deriving DecidableEq, Repr

/-- A matrix or Glaze instruction that has issued and not ended: path 0 load, 1 feed, 2 array, 3 Glaze; its timeline number (0 for
none); the cycle of its issue; when it has started, the last cycle of its row's duration and the cycle of its completion (R305). -/
structure MOp where
  id : Nat
  path : Nat
  num : Nat
  iss : Nat
  start : Option Nat
  last : Nat
  done : Nat
  orec : List W64
  lop : Nat
  bundle : W64
  work : MWork
  deriving DecidableEq, Repr

/-- The matrix engine of the running slice. The pointers, `slots` and the fields that begin with v are the issue-order view of R300: `vSrcA` and
`vSrcS` are the source records that an `MLDW` sets at its issue, and the regions that they name are pinned (R302, R310); `replay` holds from a
restore until the saved instructions enter their paths again (R322). -/
structure Matrix where
  act : Bank
  shd : Bank
  f0 : Feed
  f1 : Feed
  ring : AMap Ring
  slots : AMap RSlot
  opnt : Nat
  cpnt : Nat
  dpnt : Nat
  vAct : Nat
  vShd : Nat
  vSrcA : Option WSrc
  vSrcS : Option WSrc
  vCls0 : Nat
  vCls1 : Nat
  vLog0 : Nat
  vLog1 : Nat
  cfg : W64
  bias : W64
  ops : List MOp
  replay : Bool
  deriving DecidableEq, Repr

/-- The matrix engine at slice start (R301). -/
def Matrix.zero : Matrix :=
  ⟨.empty, .empty, .empty, .empty, [], [], 0, 0, 0, 3, 3, none, none, 3, 3, 0, 0, 0, 0, [], false⟩

/-! ### The slice state of a core (R397) -/

/-- Everything that belongs to the slice: the part of a core that a slice record saves. `scNew` holds contents of scale registers that become
theirs at the current issue tick (R374). -/
structure Slice where
  id : Nat
  sreg : AMap W64
  preds : BitVec 8
  gpreds : BitVec 8
  vreg : AMap VReg
  vmask : AMap VMask
  lanes : AMap Byte
  loops : AMap LoopLv
  strms : AMap Strm
  vrotb : BitVec 4
  brb : W64
  e4sat : Bool
  rnddef : BitVec 3
  seed : W32
  gens : AMap W32
  scale : AMap ScReg
  scNew : List (Nat × ScReg)
  pend : List Pend
  lands : List Land
  tick : Nat
  pc : W64
  tl0 : Tline
  tl1 : Tline
  tl2 : Tline
  tl3 : Tline
  mx : Matrix
  item : W64
  walk : Option WalkHold
  yield : Bool
  orec : Option OpRec
  shadow : Option OpRec
  tileCnt : Nat
  deriving DecidableEq, Repr

/-- The slice state at a slice's start but for the defaults of its context (R238, R268, R301, R388). -/
def Slice.zero : Slice :=
  { id := 0, sreg := [], preds := 0, gpreds := 0, vreg := [], vmask := [], lanes := [], loops := [], strms := [], vrotb := 0, brb := 0,
    e4sat := true, rnddef := 0, seed := 0, gens := [], scale := [], scNew := [], pend := [], lands := [], tick := 0, pc := 0,
    tl0 := .zero, tl1 := .zero, tl2 := .zero, tl3 := .zero, mx := .zero, item := 0, walk := none, yield := false,
    orec := none, shadow := none, tileCnt := 0 }

/-- The slice that runs on a core: its bind record's slot, its context, instance, stage, pipeline and deadline, and the BUDGET that it started with
(R160, R162, R388). -/
structure Run where
  slot : Nat
  ctx : Nat
  inst : Nat
  stage : Nat
  pipe : Nat
  deadline : W64
  budget : Nat
  deriving DecidableEq, Repr

/-- Why a slice is to stop: nothing, pre-emption requested at a cycle, budget, a trap's save, an end of work, its record's suspended walk in its
place (`again`), a kill (R161, R162, R394, R399). -/
inductive StopReq where
  | none
  | preempt (at_ : Nat)
  | budget
  | held
  | suspend
  | finish
  | again
  | kill
  deriving DecidableEq, Repr

/-- A core: its slice state, and what no slice owns. `ncyc` counts CCLK cycles outside freezes (R305), `issued` the cycles in which a bundle
issued, `frz` and `frzRun` the frozen ones in all and in a row (R333, R332); `froze` says that the current cycle is one; `extra` counts cycles
that pass before the next bundle issues (R250); `cu0At` and `cu1At` are one more than the cycle of a copy unit's last start (R356). -/
structure Core where
  sl : Slice
  run : Option Run
  stop : StopReq
  stopped : Bool
  budget : Nat
  frz : W64
  issued : Nat
  froze : Bool
  frzRun : Nat
  extra : Nat
  cntOvf : Nat
  cntNan : Nat
  cntSat : Nat
  cntTrn : Nat
  locks : List Nat
  lockOvf : Bool
  lockCtx : Nat
  kcache : AMap W64
  frzUntil : Nat
  ncyc : Nat
  divFree : Nat
  vu0Free : Nat
  vu1Free : Nat
  fenced : Bool
  ufence : List Nat
  hold : Nat
  move : Option (Nat × Nat × W64 × Int × Int)
  cu0At : Nat
  cu1At : Nat
  deriving DecidableEq, Repr

/-- A core after chip reset: no slice, counters zero (R333, R388, R354). -/
def Core.reset : Core :=
  { sl := .zero, run := none, stop := .none, stopped := false, budget := 0, frz := 0, issued := 0, froze := false, frzRun := 0, extra := 0,
    cntOvf := 0, cntNan := 0, cntSat := 0, cntTrn := 0, locks := [], lockOvf := false, lockCtx := 0, kcache := [], frzUntil := 0,
    ncyc := 0, divFree := 0, vu0Free := 0, vu1Free := 0, fenced := false, ufence := [], hold := 0, move := none, cu0At := 0, cu1At := 0 }

/-- Instruction-cache locks belong to their context: a slice of another one releases them when it starts (R354). -/
def Core.locksFor (k : Core) (ctx : Nat) : Core := if k.lockCtx = ctx then k else { k with locks := [], lockCtx := ctx }

/-! ### Operations on copy units and engines (R356, R366) -/

/-- What a copy-slot operation does. `mode` and `sat` are resolved at issue (R30, R216). `multi` holds its data, mask and destination
offset; `send` and `recv` their capability; a `send` that has been reissued has no data: it reads its source when it is performed (R384). `glaze` is
a started drain whose slice has been killed: its credit at its end, and the macro and first slot of a poisoned group (R399, R321). -/
inductive CWork where
  | copy (conv : Bool) (mode : Nat) (sat : Bool) (words : List W64)
  | multi (data : List Byte) (mask dst : Nat)
  | fill (z : Nat) (dst : W64) (n : Nat) (pat : W64)
  | tladv (k : Nat) (upTo : Option Nat)
  | send (cap src len : Nat) (data : Option (List Byte)) (item : W64)
  | recv (cap : Nat) (dst len : Nat)
  | glaze (bad : Option (Nat × Nat))
  deriving DecidableEq, Repr

/-- A copy-slot operation that its timeline has not passed (R357): the slice, core, slot and unit (2 for the block-transfer engine), its
timeline and number, its handle, the bytes it has written to credit, its issue cycle; when it has started, the cycle of its start and of
its end; whether it has ended, the effective time and T in the block-transfer engine (R366), the flat addresses it has written as
(first, count) (R358), and what a trap record needs (R370). `waits` holds a started operation back while units that it accesses are in
transition (R327). Cycles are the core's own for a copy unit, the chip's elsewhere. -/
structure EOp where
  id : Nat
  sid : Nat
  core : Nat
  slot : Nat
  unit : Nat
  ctx : Nat
  tl : Nat
  num : Nat
  hnd : Option Nat
  bytes : Nat
  iss : Nat
  start : Option Nat
  endAt : Nat
  ended : Bool
  eff : Nat
  tstamp : Nat
  wrote : List (Nat × Nat)
  waits : Bool
  fault : Option (Nat × W64)
  orec : List W64
  lop : Nat
  bundle : W64
  work : CWork
  deriving DecidableEq, Repr

/-! ### Handles, regions and queues -/

/-- A region (R102 to R104): its space (0 CORE, 1 CREW, 2 CHIP, 3 GLOBAL, 4 none), the cores that hold it in crew order, its first
granule, granules on each core, size in bytes, and its base offset or address. -/
structure Region where
  space : Nat
  cores : List Nat
  g0 : Nat
  n : Nat
  bytes : Nat
  base : Nat
  deriving DecidableEq, Repr

def Region.none : Region := ⟨4, [], 0, 0, 0, 0⟩

/-- A handle entry: state 0 FREE, 1 FILLING, 2 FULL, 3 DRAINING (R98, R101). `zeroAt` is the cycle at which the granules granted from
another context are zero (R105); `wait` holds operators whose tiles must end before a DRAINING handle is free; `alloc` numbers the
allocation that bound it; `static` marks a static handle (R414); `inst` is the instance that holds it (R399); `fullAt` is one more than the
cycle in which CNT last reached TGT: credits of that cycle still count (R376). -/
structure HEnt where
  st : Nat
  region : Region
  tgt : Nat
  cnt : Nat
  gen : Nat
  zeroAt : Option Nat
  wait : List Nat
  alloc : Nat
  static : Bool
  inst : Nat
  fullAt : Nat
  deriving DecidableEq, Repr

/-- A FREE handle with GEN 0 (R98). -/
def HEnt.free : HEnt := ⟨0, .none, 0, 0, 0, none, [], 0, false, 0, 0⟩

/-- An item in a queue, with the walk that has reserved it (0 for none) (R152) and its producer (R458). -/
structure QItem where
  val : W64
  by_ : Nat
  src : Nat
  deriving DecidableEq, Repr

/-- A push in flight: the cycle of its arrival, its producer (COREID, or 256 + engine number) and the item (R142). -/
structure QPush where
  at_ : Nat
  src : Nat
  val : W64
  deriving DecidableEq, Repr

/-- A queue (R140, R145). `room` counts room reserved by walks. `image` is its memory image's address, 0 where none is known. `wdt` is
the watchdog timer and `wstep` its last step taken (R167). -/
structure Queue where
  ctx : Nat
  vq : Nat
  inst : Nat
  cluster : Nat
  depth : Nat
  isize : Nat
  kind : Nat
  infl : Nat
  head : Nat
  tail : Nat
  closed : Bool
  items : List QItem
  fly : List QPush
  room : Nat
  phys : Bool
  image : Nat
  wdt : Nat
  wstep : Nat
  deriving DecidableEq, Repr

/-- A named barrier (R353): target, arrivals, mask of local cores, arrivals without a core that wait. -/
structure Bar where
  target : Nat
  arrc : Nat
  amask : BitVec 16
  waiting : Nat
  deriving DecidableEq, Repr

def Bar.idle : Bar := ⟨0, 0, 0, 0⟩

/-- A bind record (R160): word 0's fields, and words 1 and 2. `inst` is the instance that the record serves. -/
structure Bind where
  crew : BitVec 16
  ctx : Nat
  stage : Nat
  cls : Nat
  minc : Nat
  maxc : Nat
  pipe : Nat
  log : Bool
  noknead : Bool
  v : Bool
  deadline : W64
  budget : Nat
  period : Nat
  inst : Nat
  deriving DecidableEq, Repr

def Bind.zero : Bind := ⟨0, 0, 0, 0, 0, 0, 0, false, false, false, 0, 0, 0, 0⟩

/-- A cached translation: context, virtual page base, page bits, physical base, R W X K bits, ORD, dirty (R329). -/
structure TlbEnt where
  ctx : Nat
  va : Nat
  bits : Nat
  pa : Nat
  perm : Nat
  ord : Nat
  dirty : Bool
  deriving DecidableEq, Repr

/-- A cluster. `kneadAt` is one more than the GCYC of the last decision point taken (R164). Keys: handles ctx·4096 + h, granules core·512 + g
(holder ctx + 1, 0 free), barriers ctx·64 + id, timelines ctx·16 + k. -/
structure Cluster where
  hnd : AMap HEnt
  gran : AMap Nat
  last : AMap Nat
  bars : AMap Bar
  tls : AMap Tline
  binds : AMap Bind
  kncfg : W64
  late : W32
  tlb : List TlbEnt
  store : List (Nat × Nat)
  fences : List Nat
  kneadAt : Nat
  deriving DecidableEq, Repr

/-- KNCFG at reset: BHLOG 26, MOVES 1, THRESH 64, ILOG 16 (R165). -/
def kncfgReset : W64 := BitVec.ofNat 64 (26 * 2 ^ 40 + 1 * 2 ^ 16 + 64 * 2 ^ 8 + 16)

def Cluster.reset : Cluster := ⟨[], [], [], [], [], [], kncfgReset, 0, [], [], [], 0⟩

end Sys2Proof.Machine
end

