-- ==== Sys2Proof/Machine/Parts2.lean ====
section
/-! DEFINITION. The plain data of the software-visible chip: contexts, code objects, Loryil values and walks, launches, instances,
pipelines, the collective group, the control complex and power. -/
namespace Sys2Proof.Machine

/-! ### Loryil values (spec/03) -/

/-- A TENSOR descriptor (R59). `none` for a DYN extent; axes 15 is replicated; `part` is PARTIAL. -/
structure TDesc where
  fmt : Nat
  mx : Bool
  lay : Nat
  dims : List (Option Nat)
  strs : Option (List Int)
  axes : List Nat
  part : Nat
  deriving DecidableEq, Repr

/-- A value descriptor (R58). -/
inductive VDesc where
  | i64
  | tok
  | ten (t : TDesc)
  deriving DecidableEq, Repr

/-- A tensor value at run time: its form, the extents of the instance's own block and of the whole tensor (R63), the address of its base in R134's
ADDR form, its handle and generation, the crew of a CREW region with the offset from the region's base, the operator that produces it (0 when
complete), and whether it is read-only. `alloc` is the allocation of the handle that the value belongs to. A block of a larger tensor in memory
(R63) has that tensor's base and strides, its extents in `mext` and the index of the block's first element in `offs`; `offs` is empty for a tensor
that is whole in memory. -/
structure TRef where
  fmt : Nat
  mx : Bool
  lay : Nat
  ext : List Nat
  whole : List Nat
  str : List Int
  base : W64
  hnd : Option Nat
  gen : Nat
  alloc : Nat
  crew : List Nat
  voff : Nat
  prod : Nat
  fixed : Bool
  axes : List Nat
  part : Nat
  mext : List Nat := []
  offs : List Nat := []
  deriving DecidableEq, Repr

/-- The tensor of no operand. -/
def TRef.zero : TRef :=
  { fmt := 0, mx := false, lay := 0, ext := [], whole := [], str := [], base := 0, hnd := none, gen := 0, alloc := 0, crew := [], voff := 0, prod := 0,
    fixed := false, axes := [], part := 0 }

/-- A tensor's contents: format, whether it is block-scaled, extents, codes in row-major order, and for a block-scaled tensor the scale of each
element's block. -/
structure Arg where
  fmt : Nat
  mx : Bool
  ext : List Nat
  codes : List Nat
  scales : List Nat
  deriving DecidableEq, Repr

/-- The contents of no operand. -/
def Arg.zero : Arg := ⟨0, false, [], [], []⟩

/-- An operator that lowering inserts on one operand over a launch level (R187): a collective, a block of a gathered dimension, or, as `part`, the
product itself without its epilogue (R188). -/
inductive LStep where
  | ared (l : Nat)
  | rscat (l ax : Nat)
  | agath (l ax : Nat)
  | a2a (l ax cax : Nat)
  | blk (l ax : Nat)
  | part
  deriving DecidableEq, Repr

/-- A value (R58). A token names the operator that produces it, 0 when complete. -/
inductive Val where
  | i64 (v : W64)
  | tok (op : Nat)
  | ten (t : TRef)
  deriving DecidableEq, Repr

/-- A constant-pool entry (R48). A tensor's elements stand at a physical address. -/
inductive LConst where
  | i64 (v : W64)
  | ten (t : TDesc) (va : Nat)
  deriving DecidableEq, Repr

/-- A function (R46). Each record of the body is an operator with its walk number 0. -/
structure LFunc where
  entry : Bool
  params : List VDesc
  ress : List VDesc
  body : List Instr
  deriving DecidableEq, Repr

/-- A routine-table entry: the requested index, the bound one, the entry offset in the text (R411, R412). -/
structure RtEnt where
  req : Nat
  idx : Nat
  entry : Nat
  len : Nat
  deriving DecidableEq, Repr

/-- A loaded code object (R402 to R422). `keys` are its chunks' keys in the chunk store; `dataPA` is the loader's relocated copy of DATA, of
`dataLen` bytes; `unload` says that an unload request has arrived; `badOnce` lists 16·chunk + cluster for chunks whose last page-in there did not match; `hint` records the
note's HINT (R405). -/
structure Obj where
  funcs : List LFunc
  consts : List LConst
  rtab : List RtEnt
  textVA : Nat
  textPA : Nat
  textLen : Nat
  keys : List Nat
  constVA : Nat
  constPA : Nat
  constLen : Nat
  dataVA : Nat
  dataPA : Nat
  dataLen : Nat
  dataSize : Nat
  nhstat : Nat
  hbase : Nat
  mmrev : Nat
  name : Nat
  unload : Bool
  fenced : Bool
  badOnce : List Nat
  hint : Nat := 0
  deriving DecidableEq, Repr

/-- A chunk in the chunk store (R417): its key, its address, the loaded objects that name it, and whether the copy is fenced (R418). -/
structure ChunkEnt where
  key : Nat
  pa : Nat
  n : Nat
  fenced : Bool
  deriving DecidableEq, Repr

/-- An open region of a walk (R71 to R73): 0 loop, 1 the first region of an `if`, 2 the second; its record, the iteration, the trip
count and the carried values. -/
structure LCtl where
  kind : Nat
  at_ : Nat
  i : Nat
  n : Nat
  carry : List Val
  deriving DecidableEq, Repr

/-- A call frame (R74): values by 16·record + result. -/
structure Frame where
  fn : Nat
  ip : Nat
  vals : AMap Val
  params : List Val
  ctl : List LCtl
  deriving DecidableEq, Repr

/-- A walk: of an instance's function, or of one item of a stage (R65, R151). State 0 active, 1 HELD, 2 ended, 3 suspended. `port` is
the input that a walk under SEL FIRST has reserved. -/
structure Walk where
  inst : Nat
  stage : Option Nat
  core : Nat
  frames : List Frame
  st : Nat
  port : Nat
  deriving DecidableEq, Repr

/-- A tensor operator in flight (R65, R110). `deps` are operators that must complete first; `waits` are handles with the state awaited (R136), or a
queue with an item's number; `tiles` are tiles not yet started, each with its core and crew position; `live` counts tiles written and not ended;
`kind` is 0 for a built-in operator, 1 for `uop`, 2 for a collective, 3 for a token that waits, 4 for a `free` that waits for FULL, 5 for a `walk`.
`set_`, `rank`, `seq` and `tl9` belong to the collective that it waits for, `later` to the inserted ones after it; `crew` are the cores of its crew
at dispatch (R110). A lowered operator (R187) has its inserted operators still to come in `steps`, each with its operand, what they have made of its
operands in `vals`, its tiles' partial products in `sums` and `epi` when they are summed (R188). `grp` is the first member of its fusing group
(R138), whose state `fuse` is 0 unfused, 1 not yet decided, 2 fused. `free` is the number of its first free value. -/
structure LOp where
  inst : Nat
  walk : Nat
  ctx : Nat
  cluster : Nat
  func : Nat
  off : Nat
  kind : Nat
  ins : Instr
  args : List Val
  outs : List TRef
  deps : List Nat
  waits : List (Nat × Nat × Nat)
  ntile : Nat
  tiles : List (Nat × Nat × Nat)
  live : Nat
  csize : Nat
  rtn : Nat
  set_ : List Nat
  rank : Nat
  seq : Nat
  tl9 : Nat
  fault : Option (Nat × W64)
  later : List (List Nat × Nat × Nat × Nat) := []
  crew : List Nat := []
  vals : AMap Arg := []
  steps : List (Nat × LStep) := []
  sums : AMap Nat := []
  epi : Bool := false
  grp : Nat := 0
  fuse : Nat := 0
  free : Nat := 0
  deriving DecidableEq, Repr

/-! ### Launches and pipelines (spec/05) -/

/-- A level of a launch: DOMAIN, SCOPE, EXTENT (R168). -/
structure Level where
  domain : Nat
  scope : Nat
  extent : Nat
  deriving DecidableEq, Repr

/-- A launch (R168 to R172). `host` is the command's queue and SEQ; `parent` the instance of a device launch; `src` the launching chip of a
forwarded record; `chips` the members at acceptance; `b` the reorder window's base; `marks` the instances marked complete, with whether each was
killed. -/
structure Launch where
  ctx : Nat
  obj : Nat
  func : Nat
  args : List Val
  levels : List Level
  ldepth : Nat
  depth : Nat
  cso : Bool
  clmask : Nat
  qreg : Nat
  host : Option (Nat × Nat)
  parent : Option Nat
  src : Option (Nat × Nat)
  group : Bool
  next : Nat
  b : Nat
  marks : List (Nat × Bool)
  killed : Bool
  done : Bool
  chips : List Nat
  deriving DecidableEq, Repr

/-- A stage of a pipeline (R150): the records between `stage` and `endstage`, its queues with role and COUNT, and its state: 0 active,
1 DRAINING, 2 DONE, 3 killed. -/
structure Stage where
  rec0 : Nat
  rec1 : Nat
  qs : List (Nat × Nat × Nat)
  first : Bool
  cls : Nat
  minc : Nat
  maxc : Nat
  budget : Nat
  period : Nat
  st : Nat
  started : Bool
  walks : List Nat
  deriving DecidableEq, Repr

/-- A tile-walk engine's walk (R155 to R157). `dq`, `pq`, `lq`, `nq` are its data, permit, link and done queues; `regs` its regions'
handles; `pend` tiles fetched and not pushed, with their handles; `t` the next tile to fetch; `n` the tiles counted on the timeline; `b`
and `marks` the window; `cur` the item popped and not stored, with its producer. -/
structure EWalk where
  op : Nat
  store : Bool
  ten : TRef
  tile : List Nat
  dq : Nat
  pq : Nat
  lq : Option Nat
  nq : Option Nat
  regs : List Nat
  ordered : Bool
  t : Nat
  n : Nat
  pend : List (Nat × Nat)
  b : Nat
  marks : List Nat
  cur : Option (W64 × Nat)
  done : Bool
  deriving DecidableEq, Repr

/-- An instance (R170, R171). `killing` marks a kill that waits for an `MMAG` (R315). -/
structure Inst where
  launch : Nat
  idx : Nat
  ctx : Nat
  obj : Nat
  cluster : Nat
  cores : List Nat
  chip : Nat
  walk : Nat
  colls : List (List Nat × Nat)
  kids : List Nat
  stages : List Stage
  ewalks : AMap EWalk
  pipe : Nat
  started : Bool
  done : Bool
  killed : Bool
  killing : Bool := false
  deriving DecidableEq, Repr

/-- Data of a `tsend` that no `trecv` has matched (R183). -/
structure Sent where
  launch : Nat
  set_ : List Nat
  frm : Nat
  dst : Nat
  tag : Nat
  data : List Byte
  deriving DecidableEq, Repr

/-! ### Contexts and traps (spec/13) -/

/-- A context (R396). STATE 0 non-resident, 1 resident, 2 stopped, 3 killed. `gone` holds the symbol index of an object that was unloaded by
force (R401); `pool` counts launches in flight (R76); `heap` marks global granules in use, from `heapVA` on; `leaving` says that it is being
switched out (R398), `again` that it is switched in afterwards (R401, R421), and `killing` that its kill waits for an `MMAG` (R315). -/
structure Ctx where
  save : Nat
  root : Nat
  tq : Nat
  srbase : Nat
  srcount : Nat
  state : Nat
  stopped : Bool
  gone : Option Nat
  cso : Bool
  rev1 : Bool
  fsm : Bool
  ctxrev : Nat
  tqdrop : Nat
  e4sat : Bool
  rnddef : BitVec 3
  seed : W32
  seq : Nat
  objs : List Nat
  pool : Nat
  tl9 : Tline
  heapVA : Nat
  heapN : Nat
  heap : List Nat
  leaving : Bool
  again : Bool
  killing : Bool := false
  deriving DecidableEq, Repr

/-- A slice record (R397): kind 0 pre-empted, 1 suspended, 2 HELD; the saved slice; unstarted copy operations; the walk of a sequencer trap; the
operator of a tile's trap that no core runs. `left` marks one that holds only what a slice that has ended left pending (R274, R384). -/
structure SRec where
  ctx : Nat
  idx : Nat
  kind : Nat
  resume : W64
  run : Run
  sl : Option Slice
  ops : List EOp
  walk : Nat
  lop : Nat
  left : Bool := false
  deriving DecidableEq, Repr

/-- A trap record on its way to the trap queue (R390, R393). -/
structure TRec where
  ctx : Nat
  words : List W64
  err : Bool
  queue : Bool
  deriving DecidableEq, Repr

/-! ### The group (spec/06) -/

/-- A member's entry: state (R204), the LIMITs received as (CODE, TSEND, TEFF), and the times that R198 fixes. -/
structure Member where
  st : Nat
  lims : List (Nat × Nat × Nat)
  from_ : Nat
  drop : Option Nat
  evict : Option Nat
  depart : Option Nat
  self : Bool
  join : Option Nat
  suspAt : Nat
  deriving DecidableEq, Repr

/-- A chip outside the group. -/
def Member.outside : Member := ⟨0, [], 0, none, none, none, false, none, 0⟩

/-- A neighbour's link: GCYC of the last flit received and its TSEND (R198), the difference of GCYC that alignment marks show (R197). -/
structure Nbr where
  chip : Nat
  last : Nat
  tsend : Nat
  up : Bool
  diff : Int
  deriving DecidableEq, Repr

/-- The group state of this chip (R191 to R204). `keep` are values (chip, CODE, until) of chips that left and joined again before their
raise boundary; `low` are spans with C = 0 under R199; `out` are control flits sent, each with its neighbour; `links` are the fabric's links
(chip, chip, latency) that FABRIC knows (R190); `reports` are launch records and completions that SCHED sends to other chips, each with its
destination and its words (R172); `grants` are join requests granted, as (GCYC, chip); `lastHb` is one more than the GCYC of the last
heartbeat sent; `block` is the status block's address, 0 before boot (R204). -/
structure Group where
  chip : Nat
  tbl : AMap Member
  nbrs : List Nbr
  links : List (Nat × Nat × Nat)
  d : Nat
  h : Nat
  epoch : Nat
  badctl : Nat
  cmism : Nat
  late : Nat
  c : Nat
  seen : List (Nat × Nat × Nat)
  keep : List (Nat × Nat × Nat)
  low : List (Nat × Nat)
  out : List (Nat × Flit)
  reports : List (Nat × List Nat)
  joinReq : Option Nat
  lastHb : Nat
  grants : List (Nat × Nat)
  block : Nat
  deriving DecidableEq, Repr

/-! ### The control complex (spec/15) and power (spec/16) -/

/-- A mailbox entry with its tag (R428). -/
structure Mail where
  tag : W64
  data : List Byte
  deriving DecidableEq, Repr

/-- An isolation window: base, size and the permissions R, W, X in bits 2, 1, 0 (R427). -/
structure Window where
  fc : Nat
  base : Nat
  size : Nat
  perm : Nat
  deriving DecidableEq, Repr

/-- A completion entry that waits for room (R431, R435). -/
structure Compl where
  queue : Nat
  data : List Byte
  launch : Nat
  inst : Nat
  deriving DecidableEq, Repr

/-- A journal entry: TYPE and payload (R437). -/
structure JEnt where
  seq : Nat
  typ : Nat
  data : List Nat
  deriving DecidableEq, Repr

/-- The control complex. Boot phase 0 held in reset, 1 recovery, 2 running. `fw` is the firmware region of local storage (R423); `wait` holds
commands that a full completion queue or a take-over keeps waiting (R431, R438); `takeover` is the cycle of the take-over's end; `kicked` the cycle
of SCHED's last kick; `spare` is 0 unused, 1 in SCHED's place, 2 failed (R439); `faulted` counts as a list the cores with an isolation fault (R427);
`tap` the test access port's instruction; `quote` the log and the quote that the last ATTEST returned (R426). -/
structure Ctl where
  phase : Nat
  log : List (List Byte)
  wins : List Window
  locked : Bool
  mail : AMap (List Mail)
  postbuf : AMap (List Byte)
  outcome : AMap Nat
  kick : BitVec 64
  qbase : AMap Nat
  serving : List (Nat × Nat)
  compl : List Compl
  journal : List JEnt
  jseq : Nat
  kicked : Nat
  failed : List Nat
  spare : Nat
  takeover : Option Nat
  rimg : AMap Byte
  rlen : Option Nat
  fw : List (Nat × List Byte)
  quote : List Byte
  needs : List (Nat × Nat × BindRec)
  wait : List Instr
  faulted : List Nat
  tap : Nat
  deriving DecidableEq, Repr

/-- POWER's state (R444, R445): frequencies in MHz, temperatures in tenths of a degree; `last` is the code last announced, `li` the L_i last
computed, `raise` the evaluations in a row at least 2 above it, `tmax` the hottest reading of the previous evaluation, `clampAt` the last
cycle of a clamp's cause. -/
structure Power where
  fnow : Nat
  plim : Nat
  lcode : Option Nat
  last : Nat
  li : Nat
  raise : Nat
  tmax : Option Nat
  clamp : Bool
  clampAt : Nat
  trip : Bool
  deriving DecidableEq, Repr

end Sys2Proof.Machine
end

