-- ==== Sys2Proof/Machine/State.lean ====
section
/-! DEFINITION. The state of one chip, its reset, and the reasons a step can stop. -/
namespace Sys2Proof.Machine

/-- How the slot that issues has fared: it acts, it stalls its bundle (R212), or it traps (R215) with a code, a detail word and the
handle concerned. -/
inductive IStat where
  | ok
  | stalled
  | trapped (code : Nat) (detail : W64) (hnd : Nat)
  deriving DecidableEq, Repr

/-- The bundle that issues now: the MODEL's own bookkeeping of one issue tick (DESIGN CHOICE, log 3). `br` is 0 for no transfer of control, 1 for a
taken `BR` or `JMP`, 2 for a taken `CALL` or a `RET`, 3 for a loop skip over `skip` bundles. `want` is a page walk that the bundle waits for:
cluster, context, virtual address, access (R329). `units` are the units that the bundle has taken (R229). -/
structure Iss where
  core : Nat
  slot : Nat
  pc : W64
  npc : W64
  next : W64
  br : Nat
  skip : Nat
  pops : AMap W64
  uses : List Nat
  units : List Nat
  opend : Bool
  want : Option (Nat × Nat × Nat × Nat)
  stat : IStat
  deriving DecidableEq, Repr

def Iss.idle : Iss := ⟨0, 0, 0, 0, 0, 0, 0, [], [], [], false, none, .ok⟩

/-- One chip. `res` gives each place of a resident context its context (R398); `recs` are slice records, `eops` copy operations, `lops` operators in
flight, `sends` unmatched `tsend` data; `chunks` is the chunk store (R417); `cgran` and `clast` are the chip scratchpad's
granules and their last holders (R105); `chipS` is its share S, and the units from `phaseLo` below `phaseHi` are in transition to `phaseTo` until
`phaseEnd` (R327). `inbox` holds inputs from outside, oldest first; `turn` is the next core of the current CCLK cycle, and `decided` the last that
took a decision point in it (R152); `fresh` counts free values drawn; `ids` numbers slices, operations and walks (log 3, log 4: the model's own
fields). -/
structure State where
  mem : List Host.Cell
  cores : AMap Core
  clusters : AMap Cluster
  ctxs : AMap Ctx
  res : AMap Nat
  recs : List SRec
  queues : AMap Queue
  eops : List EOp
  objs : AMap Obj
  launches : AMap Launch
  insts : AMap Inst
  walks : AMap Walk
  lops : AMap LOp
  sends : List Sent
  traps : List TRec
  chunks : List ChunkEnt
  group : Group
  ctl : Ctl
  power : Power
  chipS : Nat
  phaseLo : Nat
  phaseHi : Nat
  phaseEnd : Nat
  phaseTo : Nat
  cgran : AMap Nat
  clast : AMap Nat
  dropsig : W32
  ccyc : Nat
  gcyc : Nat
  inbox : List Instr
  iss : Iss
  turn : Nat
  decided : Nat
  fresh : Nat
  ids : Nat
  deriving DecidableEq, Repr

/-- Why the machine stops. -/
inductive Fault where
  /-- Raised by every step after THERMTRIP has removed power from the compute dies (R446): the chip stays in reset until a power cycle,
  which the spec places outside the machine. Safe. -/
  | powerRemoved
  deriving DecidableEq, Repr

/-- Why an instruction has no meaning. -/
inductive Refusal where
  /-- Raised by `exec` for an instruction whose meaning is not written. Safe. -/
  | notModelled (mnemonic : String)
  deriving DecidableEq, Repr

/-- The group state at reset: OUTSIDE, with code 47 in force (DESIGN CHOICE, log 21). -/
def Group.reset : Group :=
  { chip := 0, tbl := [], nbrs := [], links := [], d := 0, h := 0, epoch := 0, badctl := 0, cmism := 0, late := 0, c := 47, seen := [], keep := [],
    low := [], out := [], reports := [], joinReq := none, lastHb := 0, grants := [], block := 0 }

/-- The control complex at chip reset: the boot ROM runs (R423). -/
def Ctl.reset : Ctl :=
  { phase := 0, log := [], wins := [], locked := false, mail := [], postbuf := [], outcome := [], kick := 0, qbase := [],
    serving := [], compl := [], journal := [], jseq := 0, kicked := 0, failed := [], spare := 0, takeover := none, rimg := [],
    rlen := none, fw := [], quote := [], needs := [], wait := [], faulted := [], tap := 0 }

/-- POWER at reset: 940 MHz, P_LIM 1,900 W (R444; log 21). -/
def Power.reset : Power :=
  { fnow := 940, plim := 1900, lcode := none, last := 47, li := 47, raise := 0, tmax := none, clamp := false, clampAt := 0,
    trip := false }

/-- The chip right after reset: memory with nothing listed, every core idle, counters zero. -/
def State.reset : State :=
  { mem := [], cores := [], clusters := [], ctxs := [], res := [], recs := [], queues := [], eops := [], objs := [], launches := [],
    insts := [], walks := [], lops := [], sends := [], traps := [], chunks := [], group := .reset, ctl := .reset, power := .reset,
    chipS := 0, phaseLo := 0, phaseHi := 0, phaseEnd := 0, phaseTo := 0, cgran := [], clast := [], dropsig := 0, ccyc := 0, gcyc := 0,
    inbox := [], iss := .idle, turn := 0, decided := 0, fresh := 0, ids := 1 }

end Sys2Proof.Machine
end

