-- ==== Sys2Proof/Machine/Ops.lean ====
section
/-! DEFINITION. The named operations over memory, cores, handles, queues and timelines; the slot monad in which a slot instruction reads
its operands, reserves what it needs and schedules its results (spec/07 R212 to R215); address checks and translation (spec/11 R325 to
R329); and taking a trap (spec/13 R390 to R392), one operation for every precise trap of a slot. -/
namespace Sys2Proof.Machine

/-! ### Memory -/

/-- What an unlisted byte reads as: no rule gives the contents of memory after power-on (DESIGN CHOICE, log 1). -/
def memDefault : Byte := 0

/-- The flat address of byte `off` of a core's scratchpad; HBM physical addresses stand below 2^46 (R15, R325). -/
def padKey (core off : Nat) : Nat := 2 ^ 46 + core * 2 ^ 21 + off

/-- The flat address of a chip-scratchpad offset (R325). -/
def chipKey (off : Nat) : Nat := 2 ^ 46 + 2 ^ 29 + off

/-- The flat address of a byte of the control cores' memory, where the command queues stand (R430, log 12). -/
def ctlKey (a : Nat) : Nat := 2 ^ 47 + a % 2 ^ 46

/-- One past the last flat address. -/
def memTop : Nat := 2 ^ 48

/-- One byte of memory. -/
def State.rd8 (s : State) (a : Nat) : Byte := AMap.get memDefault s.mem a

/-- Stores one byte; the list keeps its canonical form. -/
def State.wr8 (s : State) (a : Nat) (b : Byte) : State := { s with mem := AMap.put memDefault s.mem a b }

/-- n bytes at rising addresses. -/
def State.rdBytes (s : State) (a : Nat) : Nat → List Byte
  | 0 => []
  | n + 1 => s.rd8 a :: s.rdBytes (a + 1) n

/-- Stores bytes at rising addresses. -/
def State.wrBytes (s : State) (a : Nat) : List Byte → State
  | [] => s
  | b :: r => (s.wr8 a b).wrBytes (a + 1) r

/-- n bytes as a little-endian number (R3). -/
def State.rdN (s : State) (a n : Nat) : Nat := ofBytes (s.rdBytes a n)

/-- A little-endian number of n bytes (R3). -/
def State.wrN (s : State) (a n v : Nat) : State := s.wrBytes a (toBytes v n)

/-- Zeroes n bytes: the entries in the range leave the list. -/
def State.clear (s : State) (a n : Nat) : State := { s with mem := s.mem.filter (fun c => c.1 < a || a + n ≤ c.1) }

/-- The canonical form of memory: addresses strictly rising, no entry equal to what an unlisted address reads as. -/
def Memory.wf (m : List Host.Cell) : Bool := AMap.sorted m && m.all (fun c => c.2 != memDefault)

/-! ### Parts of the state -/

/-- A core (R9). -/
def State.core (s : State) (c : Nat) : Core := AMap.get Core.reset s.cores c

def State.setCore (s : State) (c : Nat) (k : Core) : State := { s with cores := s.cores.upd c k }

def State.updCore (s : State) (c : Nat) (f : Core → Core) : State := s.setCore c (f (s.core c))

/-- The slice state of a core. -/
def State.sl (s : State) (c : Nat) : Slice := (s.core c).sl

def State.updSl (s : State) (c : Nat) (f : Slice → Slice) : State := s.updCore c (fun k => { k with sl := f k.sl })

def State.cluster (s : State) (j : Nat) : Cluster := AMap.get Cluster.reset s.clusters j

def State.updCl (s : State) (j : Nat) (f : Cluster → Cluster) : State :=
  { s with clusters := s.clusters.upd j (f (s.cluster j)) }

/-- A context, if it exists. -/
def State.ctx? (s : State) (x : Nat) : Option Ctx := s.ctxs.find x

def State.updCtx (s : State) (x : Nat) (f : Ctx → Ctx) : State :=
  match s.ctxs.find x with
  | some c => { s with ctxs := s.ctxs.upd x (f c) }
  | none => s

def State.updQ (s : State) (q : Nat) (f : Queue → Queue) : State :=
  match s.queues.find q with
  | some c => { s with queues := s.queues.upd q (f c) }
  | none => s

def State.updInst (s : State) (i : Nat) (f : Inst → Inst) : State :=
  match s.insts.find i with
  | some c => { s with insts := s.insts.upd i (f c) }
  | none => s

def State.updWalk (s : State) (w : Nat) (f : Walk → Walk) : State :=
  match s.walks.find w with
  | some c => { s with walks := s.walks.upd w (f c) }
  | none => s

def State.updLop (s : State) (o : Nat) (f : LOp → LOp) : State :=
  match s.lops.find o with
  | some c => { s with lops := s.lops.upd o (f c) }
  | none => s

/-- The cluster of a core (R9). -/
def clOf (c : Nat) : Nat := c / 16

/-- The context of a core's running slice, 0 when none runs. -/
def State.ctxOf (s : State) (c : Nat) : Nat := match (s.core c).run with
  | some r => r.ctx
  | none => 0

/-- A free number below n (n > 0), and the counter's advance (DESIGN CHOICE, log 4). -/
def State.drawNat (s : State) (n : Nat) : Nat × State := (Config.freeNat s.fresh % n, { s with fresh := s.fresh + 1 })

/-- A free word. -/
def State.drawWord (s : State) : W64 × State := (Config.freeWord s.fresh, { s with fresh := s.fresh + 1 })

/-- A new number for a slice, an operation or a walk. -/
def State.newId (s : State) : Nat × State := (s.ids, { s with ids := s.ids + 1 })

/-! ### The chip in its group (R9, R204) -/

/-- A chip's state in the group's table: 0 for one that the table does not name. -/
def Group.stOf (g : Group) (chip : Nat) : Nat := match g.tbl.find chip with
  | some m => m.st
  | none => 0

/-- CHIPNO as a register shows it: 0 outside a group, which a chip is before its join point and after it has left. -/
def Group.chipNo (g : Group) : Nat := if [2, 3, 4].contains (g.stOf g.chip) then g.chip else 0

/-! ### Ring distance (R14) -/

/-- The ring stop of a local core index. -/
def stopOf (l : Nat) : Nat := 5 * (l / 4) + 1 + l % 4

/-- The ring stop of router port j. -/
def portStop (j : Nat) : Nat := 5 * j

/-- Hops between two stops: the shorter way round. -/
def stopHops (a b : Nat) : Nat :=
  let d := max a b - min a b
  min d (20 - d)

/-- Whether a transfer between two stops runs in the direction of ascending stop number, as it does when both ways are equally long. -/
def ringUp (a b : Nat) : Bool := (b + 20 - a) % 20 ≤ 10

/-- Hops between two local cores. -/
def hops (a b : Nat) : Nat := stopHops (stopOf a) (stopOf b)

/-- The stop of an agent of a cluster that pushes to a queue or pops from one: a core, or, from 256 on, a tile-walk engine at its router port
(R13). -/
def agentStop (a : Nat) : Nat := if a < 256 then stopOf (a % 16) else portStop (a % 4)

/-- The cores that a mask names in a cluster. -/
def maskCores (cl mask : Nat) : List Nat := ((List.range 16).filter (bitN mask ·)).map (16 * cl + ·)

/-! ### Handles (R98 to R101) -/

def hkey (ctx h : Nat) : Nat := ctx * 4096 + h

def State.handle (s : State) (cl ctx h : Nat) : HEnt := AMap.get HEnt.free (s.cluster cl).hnd (hkey ctx h)

def State.setHandle (s : State) (cl ctx h : Nat) (e : HEnt) : State :=
  s.updCl cl (fun k => { k with hnd := k.hnd.put HEnt.free (hkey ctx h) e })

/-- Entries of a cluster's handle table that handles hold; a static handle holds none before its context's first record there (R99). -/
def Cluster.bound (k : Cluster) : Nat := (k.hnd.filter fun p => p.2.st != 0 && !(p.2.static && p.2.inst == 0)).length

/-- The transition FILLING to FULL when CNT reaches TGT: GEN advances once (R101). Granules still being zeroed hold the state (R105). -/
def HEnt.settle (e : HEnt) (now : Nat) : HEnt :=
  if e.st = 1 ∧ e.tgt ≤ e.cnt ∧ e.zeroAt = none then { e with st := 2, gen := (e.gen + 1) % 65536, fullAt := now + 1 } else e

/-- Whether a handle counts credits in cycle `now`: it is FILLING, or it was until another credit of this cycle (R376). -/
def HEnt.counts (e : HEnt) (now : Nat) : Bool := e.st == 1 || (e.st == 2 && e.fullAt == now + 1)

/-- Bytes credited to a handle; a handle that is not FILLING discards them (R376). -/
def State.credit (s : State) (cl ctx : Nat) (h : Option Nat) (n : Nat) : State :=
  match h with
  | none => s
  | some h =>
    let e := s.handle cl ctx h
    if e.counts s.ccyc then s.setHandle cl ctx h ({ e with cnt := e.cnt + n }.settle s.ccyc) else s

/-! ### Timelines (R357, R308) -/

/-- Absorbs the ended numbers that follow the value. -/
def Tline.absorb : Nat → Tline → Tline
  | 0, t => t
  | k + 1, t => if t.out.contains (t.val + 1) then Tline.absorb k { t with val := t.val + 1, out := t.out.filter (· != t.val + 1) } else t

/-- Operation n has ended. -/
def Tline.fin (t : Tline) (n : Nat) : Tline := Tline.absorb (t.out.length + 1) { t with out := n :: t.out }

/-- The next number (R357). -/
def Tline.take (t : Tline) : Nat × Tline := (t.iss + 1, { t with iss := t.iss + 1 })

/-- The slice timelines tl0 to tl3. -/
def Slice.tl (x : Slice) (k : Nat) : Tline :=
  match k with
  | 0 => x.tl0
  | 1 => x.tl1
  | 2 => x.tl2
  | _ => x.tl3

def Slice.setTl (x : Slice) (k : Nat) (t : Tline) : Slice :=
  match k with
  | 0 => { x with tl0 := t }
  | 1 => { x with tl1 := t }
  | 2 => { x with tl2 := t }
  | _ => { x with tl3 := t }

/-- A cluster's timeline of a context, tl4 to tl8 and tl10 to tl15 (R351). -/
def State.ctl_ (s : State) (cl ctx k : Nat) : Tline := AMap.get Tline.zero (s.cluster cl).tls (ctx * 16 + k)

def State.setCtl (s : State) (cl ctx k : Nat) (t : Tline) : State :=
  s.updCl cl (fun q => { q with tls := q.tls.put Tline.zero (ctx * 16 + k) t })

/-- The value of timeline K that a core's slice sees (R351). -/
def State.tlVal (s : State) (c k : Nat) : Nat :=
  if k < 4 then ((s.sl c).tl k).val
  else if k = 9 then (match s.ctx? (s.ctxOf c) with
    | some x => x.tl9.val
    | none => 0)
  else (s.ctl_ (clOf c) (s.ctxOf c) k).val

/-- Operation n of timeline k (0 to 3) of slice `sid` has ended, wherever the slice is: on a core or in a slice record (R394). -/
def State.endSlice (s : State) (sid k n : Nat) : State :=
  { s with
    cores := s.cores.map (fun p => if p.2.sl.id = sid then (p.1, { p.2 with sl := p.2.sl.setTl k ((p.2.sl.tl k).fin n) }) else p)
    recs := s.recs.map (fun r => match r.sl with
      | some x => if x.id = sid then { r with sl := some (x.setTl k ((x.tl k).fin n)) } else r
      | none => r) }

/-- Operation n has ended with a fault. -/
def Tline.flag (t : Tline) (n : Nat) : Tline := { t with flt := n :: t.flt }

/-- Sets the fault flag of operation n of timeline k (R370, R202): of slice `sid`, of its context, or of its cluster. -/
def State.flagTl (s : State) (sid cl ctx k n : Nat) : State :=
  if k < 4 then
    { s with
      cores := s.cores.map (fun p => if p.2.sl.id = sid then (p.1, { p.2 with sl := p.2.sl.setTl k ((p.2.sl.tl k).flag n) }) else p)
      recs := s.recs.map (fun r => match r.sl with
        | some x => if x.id = sid then { r with sl := some (x.setTl k ((x.tl k).flag n)) } else r
        | none => r) }
  else if k = 9 then s.updCtx ctx (fun x => { x with tl9 := x.tl9.flag n })
  else s.setCtl cl ctx k ((s.ctl_ cl ctx k).flag n)

/-- A timeline whose value has been read back from a save area. -/
def Tline.at_ (t : Tline) (v : Nat) : Tline := { t with val := v, iss := Nat.max t.iss v }

/-- The value of a timeline of a non-resident context stands in its save area (R396). -/
def State.saveTl (s : State) (cl ctx k v : Nat) : State := match s.ctx? ctx with
  | some x => if x.state = 0 then s.wrN (x.save + 0x100 + 128 * cl + 8 * (k - 4)) 8 v else s
  | none => s

/-- Operation n of timeline k has ended. -/
def State.endTl (s : State) (sid cl ctx k n : Nat) : State :=
  if k < 4 then s.endSlice sid k n
  else if k = 9 then
    let t := s.updCtx ctx (fun x => { x with tl9 := x.tl9.fin n })
    t.saveTl 0 ctx 9 ((t.ctx? ctx).elim 0 (·.tl9.val))
  else
    let v := (s.ctl_ cl ctx k).fin n
    (s.setCtl cl ctx k v).saveTl cl ctx k v.val

/-! ### Trap records (R390 to R393) -/

/-- The codes that ERR also receives (R391). -/
def toErr (code : Nat) : Bool := [0x17, 0x18, 0x35, 0x81, 0x82, 0x83, 0x85].contains code

/-- Makes a trap record of a context and puts it on its way to the trap queue (R390, R393). `core` is the core, or 16·cluster; `slot` the slot
field; `flags` all flags but the one of a hardware error, which the codes that ERR receives set (DEDUCED, log 32); `op` the operator record's words
0 to 2 as FUNC, OPOFF, TILE. -/
def State.trapRec (s : State) (ctx code func opoff tile hnd gen core slot flags : Nat) (bundle : Nat) (detail : W64)
    (tl num : Nat) : State :=
  let seq := (match s.ctx? ctx with
    | some x => x.seq
    | none => 0) + 1
  let ws : List Nat :=
    [code * 2 ^ 48 + ctx % 65536 * 2 ^ 32 + opoff % 2 ^ 32,
     func % 65536 * 2 ^ 48 + hnd % 65536 * 2 ^ 32 + tile % 2 ^ 32,
     s.group.chip * 2 ^ 48 + core % 256 * 2 ^ 40 + slot % 8 * 2 ^ 32 + gen % 65536 * 2 ^ 16 + (flags + if toErr code then 4 else 0) % 32,
     bundle % 2 ^ 52, detail.toNat, s.gcyc % 2 ^ 64, tl % 16 * 2 ^ 60 + num % 2 ^ 60, seq]
  let s := s.updCtx ctx (fun x => { x with seq := seq })
  { s with traps := s.traps ++ [⟨ctx, ws.map (BitVec.ofNat 64), toErr code, true⟩] }

/-- FUNC, OPOFF, TILE and DSTH of an operator record's words (R108). -/
def recFunc (w : List W64) : Nat := (w.getD 0 0).toNat / 2 ^ 48
def recOff (w : List W64) : Nat := (w.getD 0 0).toNat / 2 ^ 16 % 2 ^ 32
def recTile (w : List W64) : Nat := (w.getD 1 0).toNat % 2 ^ 32
def recDst (w : List W64) : Nat := (w.getD 2 0).toNat % 65536

/-- The words of the record that runs on a core; no operator when none runs. -/
def State.recWords (s : State) (c : Nat) : List W64 :=
  match (s.sl c).orec with
  | some r => r.words
  | none => []

/-- The operator that the running routine is a tile of; 0 for none. -/
def State.recLop (s : State) (c : Nat) : Nat :=
  match (s.sl c).orec with
  | some r => r.lop
  | none => 0

/-- GEN of a handle for a trap record; 0 for none. -/
def State.genOf (s : State) (cl ctx h : Nat) : Nat := if h < 4096 then (s.handle cl ctx h).gen else 0

/-- TAKING A PRECISE TRAP (R390, R392): the record names the operator, the tile, the handle (DSTH when the instruction named none), the
slot and the bundle; the slice stops with that bundle unissued and is to be saved as HELD. The pc stays at the bundle, which is RESUME. -/
def State.takeTrap (s : State) (c slot code : Nat) (detail : W64) (hnd : Nat) (bundle : W64) : State :=
  let w := s.recWords c
  let h := if hnd = 0xFFFF then (if w = [] then 0xFFFF else recDst w) else hnd
  let s := s.trapRec (s.ctxOf c) code (recFunc w) (recOff w) (if w = [] then 2 ^ 32 - 1 else recTile w) h
    (s.genOf (clOf c) (s.ctxOf c) h) c slot 1 bundle.toNat detail 0 0
  s.updCore c (fun k => { k with stop := .held })

/-- An engine-reported fault (R370): flag 1, the operation's timeline and number. -/
def State.engTrap (s : State) (ctx core slot code : Nat) (w : List W64) (hnd : Option Nat) (bundle detail : W64) (tl num : Nat) : State :=
  let h := match hnd with
    | some h => h
    | none => if w = [] then 0xFFFF else recDst w
  s.trapRec ctx code (recFunc w) (recOff w) (if w = [] then 2 ^ 32 - 1 else recTile w) h (s.genOf (clOf core) ctx h) core slot 2
    bundle.toNat detail tl num

/-! ### The slot monad -/

/-- Why a slot does not act: its bundle stalls (R212), or it traps precisely with a code, a detail word and a handle (R215). -/
inductive Stop where
  | stall
  | walk (cl ctx va acc : Nat)
  | trap (code : Nat) (detail : W64) (hnd : Nat)
  deriving DecidableEq, Repr

/-- A slot's meaning: it reads the state at the start of the tick, reserves, and schedules its results. -/
abbrev SlotM := StateT State (Except Stop)

/-- A precise trap that names no handle. -/
def trapS {α : Type} (code : Nat) (detail : W64) : SlotM α := throw (Stop.trap code detail 0xFFFF)

/-- The traps of a slot whose instruction names a handle name that handle (R134). -/
def naming {α : Type} (h : Option Nat) (m : SlotM α) : SlotM α := fun s =>
  match m.run s with
  | .error (.trap code d k) => .error (.trap code d (if k = 0xFFFF then h.getD k else k))
  | r => r

/-- A precise trap that names a handle. -/
def trapH {α : Type} (code : Nat) (detail : W64) (h : Nat) : SlotM α := throw (Stop.trap code detail h)

/-- The bundle stalls (R212). -/
def stallS {α : Type} : SlotM α := throw Stop.stall

/-- Runs a slot: its effect, a stall, a page walk that it waits for, or the trap that it takes. Always a next state. -/
def runSlot (m : SlotM Unit) (s : State) : Host.Outcome State Fault Refusal :=
  match m.run s with
  | .ok (_, s') => .next s'
  | .error .stall => .next { s with iss := { s.iss with stat := .stalled } }
  | .error (.walk cl x va acc) => .next { s with iss := { s.iss with stat := .stalled, want := some (cl, x, va, acc) } }
  | .error (.trap code d h) =>
    let s' := s.takeTrap s.iss.core s.iss.slot code d h s.iss.pc
    .next { s' with iss := { s'.iss with stat := .trapped code d h }, fresh := s'.fresh + 1 }

/-- The issuing core's number. -/
def cur : SlotM Nat := do return (← get).iss.core

/-- The issuing core's slice state. -/
def curSl : SlotM Slice := do let s ← get; return s.sl s.iss.core

/-- Changes the issuing core's slice state at once. -/
def modSl (f : Slice → Slice) : SlotM Unit := modify fun s => s.updSl s.iss.core f

/-- Schedules a write of latency `lat` ticks (R213). -/
def pendW (lat : Nat) (w : Wr) : SlotM Unit :=
  modify fun s => s.updSl s.iss.core fun x =>
    { x with pend := x.pend ++ [⟨x.tick + lat, 8 * x.tick + s.iss.slot, w⟩] }

/-- Counter events that an instruction causes when it writes its result (R42). -/
def pendCnt (lat ovf nan sat trn : Nat) : SlotM Unit :=
  if ovf = 0 ∧ nan = 0 ∧ sat = 0 ∧ trn = 0 then pure () else pendW lat (.count ovf nan sat trn)

/-! ### Translation (R328, R329) -/

/-- The page size in bits at a level. -/
def pageBits (lv : Nat) : Nat := 43 - 9 * lv

/-- The walk of a virtual address from a table: the leaf's entry address, level, entry, or a trap code with its level. `acc` is 0 read,
1 write, 2 execute, 3 constant, 4 atomic. -/
def walkTable (rd : Nat → Nat) (va acc : Nat) : Nat → Nat → Except (Nat × Nat) (Nat × Nat × Nat)
  | 0, _ => .error (0x14, 3)
  | k + 1, tbl =>
    let lv := 3 - k
    let ea := tbl + 8 * bitsN va (pageBits lv) 9
    let e := rd ea
    let leaf := bitN e 1
    let adr := bitsN e 12 34 * 4096
    if !bitN e 0 then .error (0x13, lv)
    else if bitsN e 46 18 ≠ 0 ∨ bitN e 11 = true then .error (0x14, lv)
    else if leaf = false then
      if bitsN e 2 9 ≠ 0 ∨ lv = 3 ∨ Config.installedBytes ≤ adr then .error (0x14, lv)
      else walkTable rd va acc k adr
    else if bitsN e 9 2 = 3 ∨ adr % 2 ^ pageBits lv ≠ 0 ∨ Config.installedBytes ≤ adr + va % 2 ^ pageBits lv then .error (0x14, lv)
    else
      let r := bitN e 2
      let w := bitN e 3
      let x := bitN e 4
      let kk := bitN e 5
      let ok := match acc with
        | 0 => r
        | 1 => w
        | 2 => x
        | 3 => r && kk
        | _ => w && r
      if !ok then .error (0x15, lv)
      else if bitN e 6 then .error (0x16, lv)
      else .ok (ea, lv, e)

/-- A walk in memory from a context's root (R328). -/
def State.walk (s : State) (root va acc : Nat) : Except (Nat × Nat) (Nat × Nat × Nat) :=
  walkTable (fun a => s.rdN a 8) va acc 4 root

/-- The access field of a translation fault's detail word: an atomic counts as a write (R355). -/
def accField (acc : Nat) : Nat := if acc = 4 then 1 else acc

/-- The detail word of a translation fault (R355). -/
def xlDetail (va lv acc : Nat) : W64 := BitVec.ofNat 64 (va % 2 ^ 52 + lv * 2 ^ 52 + accField acc * 2 ^ 54)

/-- Whether a cached translation serves an access: its context, its page, its permission, D set for a write, and a physical address inside
installed memory. -/
def TlbEnt.serves (e : TlbEnt) (ctx va acc : Nat) : Bool :=
  e.ctx == ctx && va / 2 ^ e.bits == e.va / 2 ^ e.bits && decide (e.pa + va % 2 ^ e.bits < Config.installedBytes) && (match acc with
    | 0 => bitN e.perm 0
    | 1 => bitN e.perm 1 && e.dirty
    | 2 => bitN e.perm 2
    | 3 => bitN e.perm 0 && bitN e.perm 3
    | _ => bitN e.perm 0 && bitN e.perm 1 && e.dirty)

/-- A finished walk: A, and D for a write, set in the entry; the translation cached in the cluster, whose TLB holds 4,096 (R13, R329): the one
walked longest ago leaves a full one (DESIGN CHOICE, log 11). -/
def State.fillTlb (s : State) (cl ctx va acc : Nat) (p : Nat × Nat × Nat) : State :=
  let (ea, lv, e) := p
  let wr := acc == 1 || acc == 4
  let e' := Nat.lor (Nat.lor e 128) (if wr then 256 else 0)
  let s := if e' = e then s else s.wrN ea 8 e'
  let b := pageBits lv
  let ent : TlbEnt := ⟨ctx, va / 2 ^ b * 2 ^ b, b, bitsN e 12 34 * 4096, bitsN e 2 4, bitsN e 9 2, bitN e' 8⟩
  s.updCl cl fun k => { k with tlb := (ent :: k.tlb.filter fun t => !(t.ctx == ctx && t.bits == b && t.va == ent.va)).take 4096 }

/-- The physical address of a virtual one for an engine or a device agent: a cached translation, else a walk at once (R329). -/
def State.xlate (s : State) (cl ctx va acc : Nat) : Except (Nat × Nat) (Nat × State) :=
  match (s.cluster cl).tlb.find? (fun e => e.serves ctx va acc) with
  | some e => .ok (e.pa + va % 2 ^ e.bits, s)
  | none =>
    match s.ctx? ctx with
    | none => .error (0x13, 0)
    | some x =>
      match s.walk x.root va acc with
      | .error e => .error e
      | .ok p => .ok (bitsN p.2.2 12 34 * 4096 + va % 2 ^ pageBits p.2.1, s.fillTlb cl ctx va acc p)

/-- The physical address for a core access: a miss whose walk will answer stalls the bundle for it; a walk that fails traps (R329). -/
def xlateS (va acc : Nat) : SlotM Nat := do
  let s ← get
  let c := s.iss.core
  let x := s.ctxOf c
  match (s.cluster (clOf c)).tlb.find? (fun e => e.serves x va acc) with
  | some e => pure (e.pa + va % 2 ^ e.bits)
  | none =>
    match s.ctx? x with
    | none => trapS 0x13 (xlDetail va 0 acc)
    | some k =>
      match s.walk k.root va acc with
      | .error (code, lv) => trapS code (xlDetail va lv acc)
      | .ok _ => throw (Stop.walk (clOf c) x va acc)

/-! ### Queue images (R145) -/

/-- The physical address of a context's virtual byte, by its tables alone. -/
def State.paOf (s : State) (ctx va acc : Nat) : Option Nat :=
  match s.ctx? ctx with
  | none => none
  | some x => match s.walk x.root va acc with
    | .error _ => none
    | .ok p => some (bitsN p.2.2 12 34 * 4096 + va % 2 ^ pageBits p.2.1)

/-- Writes an aligned word at a context's virtual address where that can be written. -/
def State.wrVA (s : State) (ctx va n v : Nat) : State := match s.paOf ctx va 1 with
  | some a => s.wrN a n v
  | none => s

/-- Word 0x10 of a queue's image. -/
def Queue.word (x : Queue) : Nat :=
  x.isize % 2 ^ 32 * 2 ^ 32 + x.infl % 2 ^ 13 * 2 ^ 19 + (if x.closed then 2 ^ 18 else 0) + x.kind % 4 * 2 ^ 16 + x.depth % 2 ^ 13

/-- Writes the header of a queue's memory image, when it has one and its address is known (R145). -/
def State.imageHead (s : State) (x : Queue) : State :=
  if x.phys ∨ x.image = 0 then s
  else (((s.wrVA x.ctx x.image 8 x.head).wrVA x.ctx (x.image + 8) 8 x.tail).wrVA x.ctx (x.image + 0x10) 8 x.word).wrVA x.ctx (x.image + 0x18) 8
    x.wdt

/-- A memory-resident queue's image brought up to date by the Bittern agent: its items, then HEAD, TAIL and word 0x10 (R144, R145). WDT stands
there from a switch-out on. -/
def State.imageSync (s : State) (x : Queue) : State :=
  if x.phys ∨ x.image = 0 then s
  else
    let s := ((List.range x.items.length).zip x.items).foldl (fun (s : State) (p : Nat × QItem) =>
      s.wrVA x.ctx (x.image + 0x40 + 8 * ((x.head + p.1) % Nat.max x.depth 1)) 8 p.2.val.toNat) s
    ((s.wrVA x.ctx x.image 8 x.head).wrVA x.ctx (x.image + 8) 8 x.tail).wrVA x.ctx (x.image + 0x10) 8 x.word

/-- Writes item n and then the header of a queue's memory image. -/
def State.imageItem (s : State) (x : Queue) (n : Nat) (v : W64) : State :=
  if x.phys ∨ x.image = 0 then s
  else (s.wrVA x.ctx (x.image + 0x40 + 8 * (n % x.depth)) 8 v.toNat).imageHead { x with tail := n + 1 }

/-! ### Queue ports (R12, R153, R214) -/

/-- The queue operand bound to port k of the walk on a core: queue, role and COUNT (R147, R150). -/
def State.portOf (s : State) (c k : Nat) : Option (Nat × Nat × Nat) :=
  match (s.core c).run, (s.sl c).walk with
  | some r, some _ =>
    match s.insts.find r.inst with
    | some i => match i.stages[r.stage]? with
      | some st => st.qs[k]?
      | none => none
    | none => none
  | _, _ => none

/-- QUEUE_PROTOCOL's detail word (R174). -/
def qpDetail (vq port reason : Nat) : W64 := BitVec.ofNat 64 (vq % 65536 + port % 256 * 2 ^ 16 + reason * 2 ^ 24)

/-- Virtual number of a queue. -/
def State.vqOf (s : State) (q : Nat) : Nat := match s.queues.find q with
  | some x => x.vq
  | none => 0

/-- Removes the oldest item that `by_` has reserved (0: unreserved). -/
def takeItem (w : Nat) : List QItem → Option (W64 × List QItem)
  | [] => none
  | i :: r => if i.by_ = w then some (i.val, r) else (takeItem w r).map fun p => (p.1, i :: p.2)

/-- The pop of an item from queue q by a walk: HEAD, the watchdog and ITEM (R153, R167). -/
def State.popQ (s : State) (c q : Nat) (rest : List QItem) (v : W64) : State :=
  let s := s.updQ q fun x => { x with items := rest, head := x.head + 1, wdt := 0, wstep := 0 }
  s.updSl c fun x => match x.walk with
    | some w => if w.popped then x else { x with item := v, walk := some { w with popped := true } }
    | none => x

/-- Reads queue port k (56 + k): one pop in a bundle, seen by every read (R214). -/
def popPort (k : Nat) : SlotM W64 := do
  let s ← get
  let c := s.iss.core
  match s.iss.pops.find k with
  | some v => pure v
  | none =>
    match s.portOf c k, (s.sl c).walk with
    | some (q, role, _), some w =>
      let v := s.vqOf q
      match s.queues.find q with
      | none => trapS 0x61 (qpDetail v k 0)
      | some x =>
        if role = 0 then
          match takeItem w.walk x.items with
          | some (i, rest) =>
            if AMap.get 0 w.ins k = 0 then trapS 0x61 (qpDetail v k 0)
            else
              set { (s.popQ c q rest i) with iss := { s.iss with pops := s.iss.pops.upd k i } }
              modSl fun y => { y with walk := y.walk.map fun w => { w with ins := w.ins.upd k (AMap.get 0 w.ins k - 1) } }
              pure i
          | none => trapS 0x61 (qpDetail v k 0)
        else if role = 2 then
          match takeItem 0 x.items with
          | some (i, rest) =>
            set { (s.popQ c q rest i) with iss := { s.iss with pops := s.iss.pops.upd k i } }
            pure i
          | none => stallS
        else trapS 0x61 (qpDetail v k 0)
    | _, _ => trapS 0x61 (qpDetail 0 k 2)

/-- Occupancy of a queue with every push on its way and all room reserved (R151, R152, R212). -/
def Queue.full (x : Queue) : Bool := x.depth ≤ x.items.length + x.fly.length + x.room

/-- Reserves a push to queue port k at issue; the queue that receives it (R153, R212). -/
def pushPort (k : Nat) : SlotM Nat := do
  let s ← get
  let c := s.iss.core
  match s.portOf c k, (s.sl c).walk with
  | some (q, role, _), some w =>
    let v := s.vqOf q
    match s.queues.find q with
    | none => trapS 0x61 (qpDetail v k 1)
    | some x =>
      if role = 1 then
        let left := AMap.get 0 w.outs k
        if left = 0 then trapS 0x61 (qpDetail v k 1)
        else if x.kind = 2 ∨ x.kind = 3 then
          if x.full then trapS 0x62 (BitVec.ofNat 64 v)
          else
            set (s.updQ q fun y => { y with room := y.room + 1 })
            modSl fun y => { y with walk := y.walk.map fun w => { w with outs := w.outs.upd k (left - 1) } }
            pure q
        else
          modSl fun y => { y with walk := y.walk.map fun w => { w with outs := w.outs.upd k (left - 1) } }
          pure q
      else if role = 3 then
        if x.kind = 2 ∨ x.kind = 3 then
          if x.full then trapS 0x62 (BitVec.ofNat 64 v)
          else
            set (s.updQ q fun y => { y with room := y.room + 1 })
            pure q
        else if x.full then stallS
        else
          set (s.updQ q fun y => { y with room := y.room + 1 })
          pure q
      else trapS 0x61 (qpDetail v k 1)
  | _, _ => trapS 0x61 (qpDetail 0 k 2)

/-! ### Registers -/

/-- The value of scalar register r of a slice, ports apart: s0 reads zero (R12). -/
def Slice.sget (x : Slice) (r : Nat) : W64 := if r = 0 then 0 else AMap.get 0 x.sreg r

/-- Reads scalar register r; s56 to s63 are the queue ports (R12, R213). -/
def rdS (r : Nat) : SlotM W64 := if r < 56 then do return (← curSl).sget r else popPort (r - 56)

/-- The write of a value to scalar register r: nothing for s0, a push with its room reserved for a port (R12, R212, R213). -/
def destS (r : Nat) (v : W64) : SlotM (Option Wr) :=
  if r = 0 then pure none
  else if r < 56 then pure (some (.sreg r v))
  else do return some (.port (← pushPort (r - 56)) v)

/-- Schedules a scalar result of latency `lat`. -/
def wrS (r : Nat) (v : W64) (lat : Nat) : SlotM Unit := do
  match ← destS r v with
  | some w => pendW lat w
  | none => pure ()

/-- A predicate by its PSEL code: 0 true, 1 to 7 p, 8 to 15 g (R210). -/
def Slice.pget (x : Slice) (k : Nat) : Bool := if k = 0 then true else if k < 8 then x.preds.getLsbD k else x.gpreds.getLsbD (k - 8)

/-- Whether a slot's predicate enables it (R210). -/
def Slice.enabled (x : Slice) (psel : Nat) (neg : Bool) : Bool := xor (x.pget psel) neg

/-- The physical number of vector register n (R231). -/
def Slice.phys (x : Slice) (n : Nat) : Nat := if 8 ≤ n ∧ n ≤ 23 then 8 + (n - 8 + x.vrotb.toNat) % 16 else n

/-- A vector register by its name at this tick. -/
def Slice.vget (x : Slice) (n : Nat) : VReg := AMap.get 0 x.vreg (x.phys n)

/-- A mask; vm0 reads all ones (R268). -/
def Slice.mget (x : Slice) (n : Nat) : VMask := if n = 0 then BitVec.allOnes 1024 else AMap.get 0 x.vmask n

/-- The rounding mode that a code selects: 6 takes RNDDEF (R30). -/
def Slice.mode (x : Slice) (r : Nat) : Nat := if r = 6 then x.rnddef.toNat else r

/-- The SAT bit that ES selects: 2 takes E4SAT (R216). -/
def Slice.sat (x : Slice) (es : Nat) : Bool := if es = 2 then x.e4sat else es == 1

/-- The generator of a lane (R33). -/
def Slice.gen (x : Slice) (lane : Nat) : W32 := match x.gens.find lane with
  | some g => g
  | none => seedOf x.seed lane

/-- Steps a lane; the addend of R34. -/
def Slice.stepGen (x : Slice) (lane : Nat) : Nat × Slice :=
  let g := genStep (x.gen lane)
  (genAddend g, { x with gens := x.gens.upd lane g })

/-- The addend for one rounded element: under SR the lane steps once, else none is needed (R34). -/
def Slice.addend (x : Slice) (mode lane : Nat) : Nat × Slice := if mode = 5 then x.stepGen lane else (0, x)

/-- Current pointer of a stream (R259). -/
def Slice.strCur (x : Slice) (n : Nat) : W64 :=
  let t := AMap.get Strm.zero x.strms n
  let lv := fun k => AMap.get LoopLv.zero x.loops k
  let term := fun k (st : W32) =>
    if (lv k).act && !(lv k).xs then ((lv k).idx : Int) * st.toInt else 0
  w64 ((t.base.toNat : Int) + t.off.toInt + term 0 t.str0 + term 1 t.str1 + term 2 t.str2 + term 3 t.str3)

/-- STREAM_SPACE's detail word (R266). -/
def ssDetail (n sp isp : Nat) (bad : Bool) : W64 := BitVec.ofNat 64 (n + sp * 8 + isp * 32 + if bad then 128 else 0)

/-- A use of stream n by an instruction whose space field is sp: CUR, with the post-increment noted (R260). -/
def useStream (n sp : Nat) : SlotM W64 := do
  let x ← curSl
  let t := AMap.get Strm.zero x.strms n
  if t.sp.toNat ≠ sp then trapS 0x07 (ssDetail n t.sp.toNat sp false)
  else
    modify fun s => { s with iss := { s.iss with uses := s.iss.uses ++ [n] } }
    pure (x.strCur n)

/-! ### Address checks (R325 to R327) -/

/-- The detail word of MEM_RANGE and MEM_ALIGN (R355). -/
def memDetail (sp a el : Nat) : W64 := BitVec.ofNat 64 (a % 2 ^ 52 + el * 2 ^ 52 + sp * 2 ^ 62)

/-- One past the last address of a space (R325, R327). -/
def State.spaceTop (s : State) (sp : Nat) : Nat :=
  match sp with
  | 0 => 2 ^ 21
  | 1 => 2 ^ 25
  | 2 => 2 ^ 23 * s.chipS
  | _ => 2 ^ 52

/-- Whether a context owns the chip scratchpad. -/
def State.ownsChip (s : State) (ctx : Nat) : Bool := match s.ctx? ctx with
  | some x => x.cso
  | none => false

/-- The first fenced core of a cluster among those whose scratchpads hold cluster-shared bytes lo to hi − 1. -/
def State.fencedIn (s : State) (cl lo hi : Nat) : Option Nat :=
  (List.range 16).find? fun l => (s.core (16 * cl + l)).fenced && decide (lo < hi ∧ lo < (l + 1) * 2 ^ 21 ∧ l * 2 ^ 21 < hi)

/-- Privilege, range and fences of the bytes lo to hi − 1 of a space, with the detail word of MEM_RANGE (R326, checks 1 and 2). -/
def checkSpan (sp : Nat) (lo hi : Int) (d : W64) : SlotM Unit := do
  let s ← get
  let c := s.iss.core
  if sp = 2 ∧ s.ownsChip (s.ctxOf c) = false then trapS 0x03 1
  if lo < 0 ∨ (s.spaceTop sp : Int) < hi then trapS 0x10 d
  if sp = 1 then match s.fencedIn (clOf c) lo.toNat hi.toNat with
    | some l => trapS 0x12 (BitVec.ofNat 64 l)
    | none => pure ()

/-- Privilege and range of n bytes at address a of a space (R326, checks 1 and 2). -/
def checkRange (sp a n el : Nat) : SlotM Unit := checkSpan sp a (a + n : Nat) (memDetail sp a el)

/-- A core access to a chip-scratchpad unit in transition freezes the core until the transition ends (R327). -/
def touchChip (sp a n : Nat) : SlotM Unit := do
  let s ← get
  if sp = 2 ∧ s.ccyc < s.phaseEnd ∧ a / 2 ^ 23 < s.phaseHi ∧ s.phaseLo ≤ (a + n - 1) / 2 ^ 23 then
    set (s.updCore s.iss.core fun k => { k with frzUntil := s.phaseEnd })

/-- The flat address of a checked access: a scratchpad byte, or a translated global one. -/
def flatS (sp a acc : Nat) : SlotM Nat := do
  let s ← get
  let c := s.iss.core
  match sp with
  | 0 => pure (padKey c a)
  | 1 => pure (padKey (16 * clOf c) a)
  | 2 => pure (chipKey a)
  | _ => xlateS a acc

/-- A scalar access of n bytes: the checks of R326 in order, then its flat address. -/
def addrS (sp : Nat) (a : W64) (n acc : Nat) : SlotM Nat := do
  checkRange sp a.toNat n 0
  if a.toNat % n ≠ 0 then trapS 0x11 (memDetail sp a.toNat 0)
  let k ← flatS sp a.toNat acc
  touchChip sp a.toNat n
  pure k

/-! ### Landings (R330, R331) -/

/-- The bound on a load's arrival in CCLK cycles (R331): scalar loads by space. -/
def arrBound (sp c a : Nat) (extra : Nat) : Nat :=
  match sp with
  | 0 => 4 + extra
  | 1 => 6 + 2 * hops (c % 16) (a / 2 ^ 21 % 16) + extra
  | _ => 1024

/-- The virtual addresses of an access that stand on global pages. -/
def globalPages (sp : Nat) (as_ : List Nat) : List Nat := if sp = 3 then as_ else []

/-- The cycles after its issue at which a load's data arrives: a free number within the bound of R331, and any number when the memory fails to
answer, of which R332 speaks (DESIGN CHOICE, log 6). -/
def arrivesIn (n bound : Nat) : Nat := if Config.memFails n then Config.freeNat n else Config.freeNat n % bound

/-- Takes a landing-buffer entry for a load whose result is a write, if it has one (R330). -/
def land (vec : Bool) (arr bound : Nat) (va : W64) (pages : List Nat) (w : Option Wr) : SlotM Unit := do
  let s ← get
  let c := s.iss.core
  let x := s.sl c
  let held := (x.lands.filter fun l => l.vec == vec).length
  if (if vec then 8 else 32) ≤ held then
    trapS 0x18 (BitVec.ofNat 64 (arr + (if vec then 256 else 0) + 512))
  else
    let l : Land := ⟨x.tick + arr, 8 * x.tick + s.iss.slot, vec, arr, s.ccyc + 1 + arrivesIn s.fresh bound, false, false, va, pages, s.iss.pc,
      w.getD (.sreg 0 0)⟩
    set ({ s with fresh := s.fresh + 1 }.updSl c fun x => { x with lands := x.lands ++ [l] })

end Sys2Proof.Machine
end

