-- ==== Sys2Proof/Machine/Operands.lean ====
section
/-! DEFINITION. Operand forms of the native slots: the second source of SA, the immediates of SI, SB, SY, VI, CX, AL and AS, and the
address forms of SM and VM (spec/07 R217 to R224). Every value is read at the start of the tick (R213). -/
namespace Sys2Proof.Machine

/-- An n-bit immediate with its 16-bit extension, signed (R217). -/
def immZ (xi : Option (BitVec 16)) (v n : Nat) : Int :=
  match xi with
  | none => sext v n
  | some x => sext (x.toNat * 2 ^ n + v) (n + 16)

/-- An n-bit immediate with its extension, unsigned (R223, R224). -/
def immN (xi : Option (BitVec 16)) (v n : Nat) : Nat :=
  match xi with
  | none => v
  | some x => x.toNat * 2 ^ n + v

/-- src2 of SA: sB, or the immediate of R217. -/
def src2 (f : SA) : SlotM W64 :=
  match f.src with
  | .reg _ _ b => rdS b.toNat
  | .imm x v => pure (w64 (immZ x v.toNat 19))

/-- The register number that ARITH reports for the divisor: 0x3F for an immediate (R266). -/
def src2Num (f : SA) : Nat :=
  match f.src with
  | .reg _ _ b => b.toNat
  | .imm _ _ => 0x3F

/-- sC of SA; s0 in the immediate form. -/
def srcC (f : SA) : SlotM W64 :=
  match f.src with
  | .reg _ c _ => rdS c.toNat
  | .imm _ _ => pure 0

/-- MOD of SA; 0 in the immediate form. -/
def modOf (f : SA) : BitVec 7 :=
  match f.src with
  | .reg md _ _ => md
  | .imm _ _ => 0

/-- Field B of SA as a number. -/
def fieldB (f : SA) : Nat :=
  match f.src with
  | .reg _ _ b => b.toNat
  | .imm _ _ => 0

/-- SI's immediate (R217). -/
def siImm (f : SI) : W64 := w64 (immZ f.xi f.imm.toNat 30)

/-- SB's offset in bytes: it counts 16-bit units (R217). -/
def sbOff (f : SB) : Int := 2 * immZ f.xi f.off.toNat 26

/-- SY's immediate (R219). -/
def syImm (f : SY) : Int := immZ f.xi f.imm.toNat 16

/-- VI's operand as a 32-bit container's source: a scalar register or the immediate (R220, R269). -/
def viVal (f : VI) : SlotM W64 :=
  match f.src with
  | .reg r => rdS r.toNat
  | .imm x v => pure (w64 (immZ x v.toNat 14))

/-- AS's operand value v = sA + immediate (R261). -/
def asVal (f : AS) : SlotM W64 := do return (← rdS f.a.toNat) + w64 (immZ f.xi f.imm.toNat 19)

/-- AL's count (R224, R256). -/
def alCount (f : AL) : SlotM Int :=
  match f.cnt with
  | .reg r => do return (← rdS r.toNat).toInt
  | .imm x v => pure (immN x v.toNat 13 : Int)

/-- The address of SM: register A plus a scaled offset, or a stream's current pointer (R218, R260). -/
def smAddress (f : SM) : SlotM W64 :=
  if f.am then useStream (f.a.toNat % 8) f.sp.toNat
  else do return (← rdS f.a.toNat) + w64 (immZ f.xi f.off.toNat 8 * 2 ^ f.w.toNat)

/-- The address of VM (R221). -/
def vmAddress (f : VM) : SlotM W64 :=
  if f.am then useStream (f.a.toNat % 8) f.sp.toNat else rdS f.a.toNat

end Sys2Proof.Machine
end

