-- ==== Sys2Proof/Machine/Control.lean ====
section
/-! DEFINITION. Transfer of control, `YIELD`, `OPEND` and `TRAP` (spec/08 R250 to R254). -/
namespace Sys2Proof.Machine

/-- The object that holds the running routine of a core (R250). -/
def State.codeObj (s : State) (c : Nat) : Option Obj :=
  match (s.sl c).orec with
  | some r => s.objs.find r.obj
  | none => none

/-- The address of the next bundle in sequence after one that ends at `a`: chunk offset 4,094 holds no bundle (R209). -/
def Obj.seqNext (o : Obj) (a : W64) : W64 := if (a.toNat - o.textVA) % 4096 = 4094 then a + 2 else a

/-- Whether an address is a branch target in an object's text (R250). -/
def Obj.target (o : Obj) (t : W64) : Bool :=
  t.toNat % 2 == 0 && o.textVA ≤ t.toNat && t.toNat < o.textVA + o.textLen && (t.toNat - o.textVA) % 4096 != 4094

/-- The check of a target: BRANCH_RANGE with the target as its detail word (R250, R266). -/
def checkTarget (t : W64) : SlotM Unit := do
  let s ← get
  match s.codeObj s.iss.core with
  | some o => if !o.target t then trapS 0x05 t
  | none => trapS 0x05 t

/-- A taken transfer: the target issues next; 2 CCLK cycles pass, counted in STALLCNT (R250, log 6). -/
def takeBranch (kind : Nat) (t : W64) : SlotM Unit := do
  checkTarget t
  modify fun s =>
    let s := { s with iss := { s.iss with br := kind, next := t } }
    s.updCore s.iss.core fun k => { k with extra := k.extra + 2 }

/-- A condition of `BR` (R251). -/
def brCond (fn : Nat) (v : W64) : Bool :=
  match fn with
  | 0 => v == 0
  | 1 => v != 0
  | 2 => v.slt 0
  | 3 => !v.slt 0
  | 4 => (0 : W64).slt v
  | _ => !(0 : W64).slt v

/-- PC + 2·OFF (R251). -/
def pcTarget (f : SB) : SlotM W64 := do return (← get).iss.pc + w64 (sbOff f)

/-- The highest active level whose body ends where the bundle ends (R258). -/
def endLevel (x : Slice) (npc : W64) : Option Nat :=
  [3, 2, 1, 0].find? fun l => let v := AMap.get LoopLv.zero x.loops l; v.act && v.stop == npc.toNat

/-- `BR` (R251): sD is read whether or not the branch is taken. -/
def execBr (f : SB) (s : State) : Host.Outcome State Fault Refusal :=
  runSlot (do
    let v ← rdS f.d.toNat
    let t ← pcTarget f
    if brCond f.fn.toNat v then takeBranch 1 t) s

/-- `JMP` (R251). -/
def execJmp (f : SB) (s : State) : Host.Outcome State Fault Refusal :=
  runSlot (do
    let t ← if f.fn = 0 then pcTarget f else do pure ((← rdS f.d.toNat) + w64 (sbOff f))
    takeBranch 1 t) s

/-- `CALL` (R251, R258): the link is the address of the next bundle in sequence; LOOP_NEST reason 2 at an active END. -/
def execCall (f : SB) (s : State) : Host.Outcome State Fault Refusal :=
  runSlot (do
    let t ← pcTarget f
    let i := (← get).iss
    match endLevel (← curSl) i.npc with
    | some l => trapS 0x06 (BitVec.ofNat 64 (2 + 16 * l))
    | none =>
      takeBranch 2 t
      let o ← do pure ((← get).codeObj i.core)
      let link := match o with
        | some o => o.seqNext i.npc
        | none => i.npc
      wrS f.d.toNat link 1) s

/-- `RET` (R251). -/
def execRet (f : SB) (s : State) : Host.Outcome State Fault Refusal :=
  runSlot (do takeBranch 2 (← rdS f.d.toNat)) s

/-- `YIELD` (R252): a request to end the slice at its next item boundary; no effect outside a stage walk. -/
def execYield (_ : SY) (s : State) : Host.Outcome State Fault Refusal :=
  runSlot (modSl fun x => if x.walk.isSome then { x with yield := true } else x) s

/-- `OPEND` (R253): ends the routine when its bundle completes. -/
def execOpend (_ : SY) (s : State) : Host.Outcome State Fault Refusal :=
  runSlot (modify fun s => { s with iss := { s.iss with opend := true } }) s

/-- `TRAP` (R254): USER_TRAP with sD + immediate as its detail word. -/
def execTrap (f : SI) (s : State) : Host.Outcome State Fault Refusal :=
  runSlot (do trapS 0x09 ((← rdS f.d.toNat) + siImm f)) s

end Sys2Proof.Machine
end

