-- ==== Sys2Proof/Machine/Address.lean ====
section
/-! DEFINITION. The A slot: loop levels, address streams, rotation and barrier bases (spec/08 R255 to R264). -/
namespace Sys2Proof.Machine

/-! ### Loop levels -/

def Slice.lv (x : Slice) (l : Nat) : LoopLv := AMap.get LoopLv.zero x.loops l

def Slice.setLv (x : Slice) (l : Nat) (v : LoopLv) : Slice := { x with loops := x.loops.put LoopLv.zero l v }

/-- Deactivates a level: lc and IDX become 0 (R256 to R258). A ROT level that ends clears the stage predicates. -/
def Slice.dropLv (x : Slice) (l : Nat) : Slice :=
  let v := x.lv l
  let x := x.setLv l { v with act := false, lc := 0, idx := 0 }
  if v.act && v.rot then { x with gpreds := 0 } else x

/-- Stage predicates of iteration i of a ROT loop of S stages and T items (R232). -/
def stagePreds (s t i : Nat) : BitVec 8 :=
  BitVec.ofNat 8 (ofBits ((List.range 8).map fun k => decide (k < s ∧ k ≤ i ∧ i - k < t)))
where
  ofBits : List Bool → Nat
    | [] => 0
    | b :: r => (if b then 1 else 0) + 2 * ofBits r

/-- BRB's next base: PH := (PH + 1) mod D (R232, R264). -/
def nextPh (b : W64) : W64 :=
  let d := bitsN b.toNat 8 3 + 1
  let ph := (bitsN b.toNat 12 3 + 1) % d
  BitVec.ofNat 64 (b.toNat % 4096 + ph * 4096)

/-- The rotation and stage-predicate step of a ROT loop-back: called after IDX has advanced (R232, R257). -/
def Slice.rotate (x : Slice) (l : Nat) : Slice :=
  let v := x.lv l
  { x with vrotb := x.vrotb - 1, brb := nextPh x.brb, gpreds := stagePreds v.s (v.lc + v.idx + 1 - v.s) v.idx }

/-- Bytes of the bundle whose header stands at a text address (R206). -/
def State.bundleSize (s : State) (o : Obj) (a : W64) : Nat :=
  4 + 6 * popc (s.rdN (o.textPA + (a.toNat - o.textVA)) 1 % 128) 7

/-- The address just past n bundles in sequence from a (R256). -/
def State.pastBundles (s : State) (o : Obj) : Nat → W64 → W64
  | 0, a => a
  | 1, a => a + BitVec.ofNat 64 (s.bundleSize o a)
  | n + 1, a => s.pastBundles o n (o.seqNext (a + BitVec.ofNat 64 (s.bundleSize o a)))

/-- LOOP_NEST with its reason and level (R266). -/
def loopNest {α : Type} (reason l : Nat) : SlotM α := trapS 0x06 (BitVec.ofNat 64 (reason + 16 * l))

/-- `LOOP` and `LOOPX`: the set-up of R256; they differ in XS alone. -/
def loopOp (f : AL) (xs : Bool) : SlotM Unit := do
  let l := f.lv.toNat
  let v ← alCount f
  if 2 ^ 31 - 1 < v then loopNest 3 l
  let s ← get
  let c := s.iss.core
  let x := s.sl c
  if f.rot && [0, 1, 2, 3].any (fun k => k != l && (x.lv k).act && (x.lv k).rot) then loopNest 5 l
  let pc := s.iss.pc.toNat
  if (x.lv l).act ∧ (x.lv l).start ≤ pc ∧ pc < (x.lv l).stop then loopNest 4 l
  match s.codeObj c with
  | none => pure ()
  | some o =>
    let start := o.seqNext s.iss.npc
    let stop := s.pastBundles o (f.len.toNat + 1) start
    if (List.range l).any (fun k => (x.lv k).act && !decide ((x.lv k).start ≤ start.toNat ∧ stop.toNat ≤ (x.lv k).stop)) then
      loopNest 1 l
    let inner := ([1, 2, 3].filter (l < ·)).foldl (fun x k => x.setLv k { x.lv k with act := false, lc := 0, idx := 0 }) x
    let t := v.toNat
    let n := if f.rot then f.ns.toNat + 1 else 1
    if t = 0 then
      modSl fun _ =>
        let y := inner.setLv l { inner.lv l with act := false, lc := 0, idx := 0 }
        if f.rot then { y with gpreds := 0 } else y
      modify fun s =>
        if s.iss.br = 0 then { s with iss := { s.iss with br := 3, next := o.seqNext stop, skip := f.len.toNat + 1 } } else s
    else
      modSl fun _ =>
        let y := inner.setLv l ⟨true, t + n - 1, 0, start.toNat, stop.toNat, f.rot, n, xs⟩
        if f.rot then { y with gpreds := stagePreds n t 0 } else y

def execLoop (f : AL) (s : State) : Host.Outcome State Fault Refusal := runSlot (loopOp f false) s
def execLoopx (f : AL) (s : State) : Host.Outcome State Fault Refusal := runSlot (loopOp f true) s

/-! ### Streams (R259 to R262) -/

/-- `STRB`, `STRB.CLR` (R261). -/
def execStrb (f : AS) (s : State) : Host.Outcome State Fault Refusal :=
  runSlot (do
    let v ← asVal f
    pendW 1 (.strb f.strm.toNat (f.fn == 1) (v.setWidth 52) f.sp)) s

/-- `STRS.Ln`, `STRS.INC` (R261): level 4 names INC. -/
def execStrs (f : AS) (s : State) : Host.Outcome State Fault Refusal :=
  runSlot (do
    let v ← asVal f
    pendW 1 (.strs f.strm.toNat (if f.fn = 1 then 4 else f.lv.toNat) (v.setWidth 32))) s

/-- A stream from the six words of its descriptor; none when an MZ field is non-zero (R262). -/
def strmOf (w : List Nat) : Option Strm :=
  let g := fun i => w.getD i 0
  if bitsN (g 0) 56 8 ≠ 0 ∨ bitsN (g 0) 52 2 ≠ 0 ∨ bitsN (g 4) 32 32 ≠ 0 ∨ g 5 ≠ 0 then none
  else some
    { base := BitVec.ofNat 52 (g 0), sp := BitVec.ofNat 2 (bitsN (g 0) 54 2), off := BitVec.ofNat 64 (g 1),
      str0 := BitVec.ofNat 32 (g 2), str1 := BitVec.ofNat 32 (bitsN (g 2) 32 32), str2 := BitVec.ofNat 32 (g 3),
      str3 := BitVec.ofNat 32 (bitsN (g 3) 32 32), inc := BitVec.ofNat 32 (g 4) }

/-- `STRLD` (R261, R262): the descriptor is read at the issue tick; the stream changes from tick t + 4. -/
def execStrld (f : AS) (s : State) : Host.Outcome State Fault Refusal :=
  runSlot (do
    let v ← asVal f
    let a := v.toNat / 16 * 16
    checkRange 0 a 48 0
    let s ← get
    let b := padKey s.iss.core a
    match strmOf ((List.range 6).map fun i => s.rdN (b + 8 * i) 8) with
    | none => trapS 0x07 (ssDetail f.strm.toNat (AMap.get Strm.zero (s.sl s.iss.core).strms f.strm.toNat).sp.toNat 0 true)
    | some t => pendW 4 (.strm f.strm.toNat t)) s

/-- `STRADV`, `STRADV.SET` (R261). -/
def execStradv (f : AS) (s : State) : Host.Outcome State Fault Refusal :=
  runSlot (do
    let v ← asVal f
    pendW 1 (.stradv f.strm.toNat (f.fn == 1) v)) s

/-- `ROTB`, `ROTB.ADD` (R263). -/
def execRotb (f : AS) (s : State) : Host.Outcome State Fault Refusal :=
  runSlot (do
    let v ← asVal f
    let b := (← curSl).vrotb
    pendW 1 (.vrotb (if f.fn = 1 then b + v.setWidth 4 else v.setWidth 4))) s

/-- BRB is valid as a base: FIRST + D at most 64 (R264). -/
def brbOk (v : Nat) : Bool := bitsN v 0 6 + bitsN v 8 3 + 1 ≤ 64

/-- `BRBS` (R264). -/
def execBrbs (f : AS) (s : State) : Host.Outcome State Fault Refusal :=
  runSlot (do
    let v ← asVal f
    if v.toNat ≠ bitsN v.toNat 0 6 + bitsN v.toNat 8 3 * 256 ∨ !brbOk v.toNat then trapS 0x08 v
    pendW 1 (.brb v)) s

end Sys2Proof.Machine
end

