-- ==== Sys2Proof/Decode.lean ====
section
/-! DEFINITION. Decoding bundles (spec/07 R206 to R211, R216 to R227) and Loryil records (spec/03 R49 to R57), and the encoder
of both, written from the same tables. A bundle is rejected by the trap that R211 names. -/
namespace Sys2Proof
open Machine

/-- A slot word (R206). -/
abbrev SlotWord := BitVec 48

/-- The five slot classes. -/
inductive SlotClass where
  | s | v | m | c | a
  deriving DecidableEq, Repr

/-- A decoded slot: its PM bit, its predicate fields (R210) and its instruction. -/
structure Slot where
  bit : Nat
  psel : BitVec 4
  neg : Bool
  ins : Instr
  deriving DecidableEq, Repr

/-- A decoded bundle: its size in bytes, its hint field and its slots in PM order. -/
structure Bundle where
  size : Nat
  hnt : BitVec 4
  slots : List Slot
  deriving DecidableEq, Repr

/-- A refused bundle: ILLEGAL_OP or ILLEGAL_RSVD, and the trap record's slot field (R211). -/
inductive BundleErr where
  | illegalOp (slot : Nat)
  | illegalRsvd (slot : Nat)
  deriving DecidableEq, Repr

/-- Field [lo + n - 1 : lo] of a slot word. -/
def SlotWord.fld (w : SlotWord) (lo n : Nat) : BitVec n := BitVec.extractLsb' lo n w

/-- The extension that a set X bit selects. -/
def xOf (x : BitVec 16) (b : Bool) : Option (BitVec 16) := if b then some x else none

/-- Format SA (R217). -/
def decSA (x : BitVec 16) (w : SlotWord) : Option SA :=
  if w.getLsbD 47 then
    some { fn := w.fld 42 4, src := .imm (xOf x (w.getLsbD 46)) (w.fld 23 19), a := w.fld 17 6, d := w.fld 11 6 }
  else if w.getLsbD 46 then none
  else some { fn := w.fld 42 4, src := .reg (w.fld 35 7) (w.fld 29 6) (w.fld 23 6), a := w.fld 17 6, d := w.fld 11 6 }

/-- Format SI (R217). -/
def decSI (x : BitVec 16) (w : SlotWord) : Option SI :=
  some { xi := xOf x (w.getLsbD 47), imm := w.fld 17 30, d := w.fld 11 6 }

/-- Format SB (R217). -/
def decSB (x : BitVec 16) (w : SlotWord) : Option SB :=
  some { xi := xOf x (w.getLsbD 47), fn := w.fld 43 4, off := w.fld 17 26, d := w.fld 11 6 }

/-- Format SM (R218). -/
def decSM (x : BitVec 16) (w : SlotWord) : Option SM :=
  some { xi := xOf x (w.getLsbD 47), arr := w.fld 39 8, fn := w.fld 36 3, am := w.getLsbD 35, w := w.fld 33 2,
         sp := w.fld 31 2, off := w.fld 23 8, a := w.fld 17 6, d := w.fld 11 6 }

/-- Format SQ (R218). -/
def decSQ (_ : BitVec 16) (w : SlotWord) : Option SQ :=
  if w.getLsbD 47 then none
  else some { arr := w.fld 39 8, ordk := w.fld 37 2, aop := w.fld 33 4, w := w.fld 31 2, sp := w.fld 29 2,
              b := w.fld 23 6, a := w.fld 17 6, d := w.fld 11 6 }

/-- Format SY (R219). -/
def decSY (x : BitVec 16) (w : SlotWord) : Option SY :=
  some { xi := xOf x (w.getLsbD 47), fn := w.fld 43 4, imm := w.fld 27 16, md := w.fld 23 4, a := w.fld 17 6,
         d := w.fld 11 6 }

/-- Format VR (R220). -/
def decVR (_ : BitVec 16) (w : SlotWord) : Option VR :=
  if w.getLsbD 11 then none
  else some { fn := w.fld 43 5, ty := w.fld 40 3, rnd := w.fld 37 3, es := w.fld 35 2, m := w.fld 32 3, c := w.fld 27 5,
              b := w.fld 22 5, a := w.fld 17 5, d := w.fld 12 5 }

/-- Format VI (R220). -/
def decVI (x : BitVec 16) (w : SlotWord) : Option VI :=
  if w.getLsbD 36 then
    some { fn := w.fld 43 5, ty := w.fld 40 3, m := w.fld 37 3, src := .imm (xOf x (w.getLsbD 11)) (w.fld 22 14),
           a := w.fld 17 5, d := w.fld 12 5 }
  else if w.fld 28 8 != 0 || w.getLsbD 11 then none
  else some { fn := w.fld 43 5, ty := w.fld 40 3, m := w.fld 37 3, src := .reg (w.fld 22 6), a := w.fld 17 5, d := w.fld 12 5 }

/-- Format VM (R221). -/
def decVM (_ : BitVec 16) (w : SlotWord) : Option VM :=
  if w.getLsbD 11 then none
  else some { arr := w.fld 40 8, fmt := w.fld 36 4, rnd := w.fld 33 3, es := w.fld 31 2, sp := w.fld 29 2,
              am := w.getLsbD 28, m := w.fld 25 3, fn := w.fld 23 2, a := w.fld 17 6, d := w.fld 12 5 }

/-- Format VG (R221). -/
def decVG (_ : BitVec 16) (w : SlotWord) : Option VG :=
  if w.fld 11 4 != 0 then none
  else some { top := w.fld 40 8, fmt := w.fld 36 4, sp := w.fld 34 2, m := w.fld 31 3, a := w.fld 25 6, ix := w.fld 20 5,
              d := w.fld 15 5 }

/-- Format MX (R222). -/
def decMX (_ : BitVec 16) (w : SlotWord) : Option MX :=
  if w.fld 44 4 != 0 || w.getLsbD 11 then none
  else some { mode := w.fld 42 2, grp := w.fld 40 2, fn := w.fld 36 4, sl := w.fld 33 3, str := w.fld 30 3, c := w.fld 24 6,
              b := w.fld 18 6, a := w.fld 12 6 }

/-- Format CX (R223). -/
def decCX (x : BitVec 16) (w : SlotWord) : Option CX :=
  some { xi := xOf x (w.getLsbD 47), fn := w.fld 43 4, rnd := w.fld 40 3, es := w.fld 38 2, c := w.fld 32 6, b := w.fld 26 6,
         a := w.fld 20 6, imm := w.fld 11 9 }

/-- Format AL (R224). -/
def decAL (x : BitVec 16) (w : SlotWord) : Option AL :=
  if w.fld 11 6 != 0 then none
  else if w.getLsbD 30 then
    some { lv := w.fld 45 2, rot := w.getLsbD 44, ns := w.fld 41 3, len := w.fld 31 10,
           cnt := .imm (xOf x (w.getLsbD 47)) (w.fld 17 13) }
  else if w.getLsbD 47 || w.fld 23 7 != 0 then none
  else some { lv := w.fld 45 2, rot := w.getLsbD 44, ns := w.fld 41 3, len := w.fld 31 10, cnt := .reg (w.fld 17 6) }

/-- Format AS (R224). -/
def decAS (x : BitVec 16) (w : SlotWord) : Option AS :=
  some { xi := xOf x (w.getLsbD 47), fn := w.fld 43 4, strm := w.fld 40 3, lv := w.fld 38 2, sp := w.fld 36 2,
         imm := w.fld 17 19, a := w.fld 11 6 }

/-- The opcodes of class S (R225 to R227): `none` for an unassigned one. -/
def opsS (x : BitVec 16) (w : SlotWord) (op : Nat) : Option (Option Instr) :=
  match op with
  | 0x01 => some ((decSA x w).map .add)
  | 0x02 => some ((decSA x w).map .sub)
  | 0x03 => some ((decSA x w).map .mul)
  | 0x04 => some ((decSA x w).map .mulh)
  | 0x05 => some ((decSA x w).map .div)
  | 0x06 => some ((decSA x w).map .rem)
  | 0x07 => some ((decSA x w).map .and)
  | 0x08 => some ((decSA x w).map .or)
  | 0x09 => some ((decSA x w).map .xor)
  | 0x0A => some ((decSA x w).map .shl)
  | 0x0B => some ((decSA x w).map .shr)
  | 0x0C => some ((decSA x w).map .sra)
  | 0x0D => some ((decSA x w).map .min)
  | 0x0E => some ((decSA x w).map .max)
  | 0x0F => some ((decSA x w).map .clz)
  | 0x10 => some ((decSA x w).map .popc)
  | 0x11 => some ((decSA x w).map .extb)
  | 0x12 => some ((decSA x w).map .insb)
  | 0x13 => some ((decSI x w).map .movi)
  | 0x14 => some ((decSA x w).map .cmp)
  | 0x15 => some ((decSA x w).map .sel)
  | 0x16 => some ((decSA x w).map .plog)
  | 0x17 => some ((decSA x w).map .fop)
  | 0x18 => some ((decSA x w).map .fma)
  | 0x19 => some ((decSA x w).map .fcvt)
  | 0x1A => some ((decSM x w).map .ld)
  | 0x1B => some ((decSM x w).map .st)
  | 0x1C => some ((decSM x w).map .ldk)
  | 0x1D => some ((decSQ x w).map .amo)
  | 0x1E => some ((decSY x w).map .fence)
  | 0x1F => some ((decSY x w).map .waitc)
  | 0x20 => some ((decSY x w).map .waittl)
  | 0x21 => some ((decSY x w).map .waith)
  | 0x22 => some ((decSY x w).map .bara)
  | 0x23 => some ((decSY x w).map .barw)
  | 0x24 => some ((decSY x w).map .kinv)
  | 0x25 => some ((decSY x w).map .iclock)
  | 0x26 => some ((decSY x w).map .icunl)
  | 0x27 => some ((decSB x w).map .br)
  | 0x28 => some ((decSB x w).map .jmp)
  | 0x29 => some ((decSB x w).map .call)
  | 0x2A => some ((decSB x w).map .ret)
  | 0x2B => some ((decSY x w).map .yield)
  | 0x2C => some ((decSY x w).map .opend)
  | 0x2D => some ((decSI x w).map .trap)
  | 0x2E => some ((decSY x w).map .mfs)
  | 0x2F => some ((decSY x w).map .mts)
  | 0x30 => some ((decSY x w).map .phase)
  | _ => none

/-- The opcodes of class V (R225 to R227): `none` for an unassigned one. -/
def opsV (x : BitVec 16) (w : SlotWord) (op : Nat) : Option (Option Instr) :=
  match op with
  | 0x01 => some ((decVR x w).map .vadd)
  | 0x02 => some ((decVR x w).map .vsub)
  | 0x03 => some ((decVR x w).map .vmul)
  | 0x04 => some ((decVR x w).map .vfma)
  | 0x05 => some ((decVR x w).map .vmin)
  | 0x06 => some ((decVR x w).map .vmax)
  | 0x07 => some ((decVR x w).map .vabs)
  | 0x08 => some ((decVR x w).map .vneg)
  | 0x09 => some ((decVR x w).map .vand)
  | 0x0A => some ((decVR x w).map .vor)
  | 0x0B => some ((decVR x w).map .vxor)
  | 0x0C => some ((decVI x w).map .vshl)
  | 0x0D => some ((decVI x w).map .vshr)
  | 0x0E => some ((decVR x w).map .vcmp)
  | 0x0F => some ((decVR x w).map .vsel)
  | 0x10 => some ((decVR x w).map .vcvt)
  | 0x11 => some ((decVR x w).map .vsfu)
  | 0x12 => some ((decVR x w).map .vscale)
  | 0x13 => some ((decVR x w).map .vdot4)
  | 0x14 => some ((decVI x w).map .viota)
  | 0x15 => some ((decVI x w).map .vsplat)
  | 0x16 => some ((decVI x w).map .vmovs)
  | 0x17 => some ((decVI x w).map .vins)
  | 0x18 => some ((decVI x w).map .vrotr)
  | 0x19 => some ((decVI x w).map .vrotc)
  | 0x1A => some ((decVI x w).map .vbcr)
  | 0x1B => some ((decVI x w).map .vbcc)
  | 0x1C => some ((decVR x w).map .vredr)
  | 0x1D => some ((decVR x w).map .vredc)
  | 0x1E => some ((decVR x w).map .vscanr)
  | 0x1F => some ((decVR x w).map .vtrn)
  | 0x20 => some ((decVR x w).map .vpermr)
  | 0x21 => some ((decVR x w).map .vcmx)
  | 0x22 => some ((decVR x w).map .vmask)
  | 0x24 => some ((decVM x w).map .vld)
  | 0x25 => some ((decVM x w).map .vst)
  | 0x26 => some ((decVG x w).map .vgath)
  | 0x27 => some ((decVG x w).map .vscat)
  | _ => none

/-- The opcodes of class M (R225 to R227): `none` for an unassigned one. -/
def opsM (x : BitVec 16) (w : SlotWord) (op : Nat) : Option (Option Instr) :=
  match op with
  | 0x01 => some ((decMX x w).map .mldw)
  | 0x02 => some ((decMX x w).map .mswap)
  | 0x03 => some ((decMX x w).map .mfeed)
  | 0x04 => some ((decMX x w).map .mma)
  | 0x05 => some ((decMX x w).map .mmag)
  | 0x06 => some ((decMX x w).map .mcfg)
  | 0x07 => some ((decMX x w).map .mdrain)
  | 0x08 => some ((decMX x w).map .mclr)
  | 0x09 => some ((decMX x w).map .mstat)
  | _ => none

/-- The opcodes of class C (R225 to R227): `none` for an unassigned one. -/
def opsC (x : BitVec 16) (w : SlotWord) (op : Nat) : Option (Option Instr) :=
  match op with
  | 0x01 => some ((decCX x w).map .cpy)
  | 0x02 => some ((decCX x w).map .cpyg)
  | 0x03 => some ((decCX x w).map .cpys)
  | 0x04 => some ((decCX x w).map .cpyx)
  | 0x05 => some ((decCX x w).map .cpymc)
  | 0x06 => some ((decCX x w).map .fill)
  | 0x07 => some ((decCX x w).map .pref)
  | 0x08 => some ((decCX x w).map .cscl)
  | 0x09 => some ((decCX x w).map .permit)
  | 0x0A => some ((decCX x w).map .hset)
  | 0x0B => some ((decCX x w).map .tladv)
  | 0x0C => some ((decCX x w).map .send)
  | 0x0D => some ((decCX x w).map .recv)
  | _ => none

/-- The opcodes of class A (R225 to R227): `none` for an unassigned one. -/
def opsA (x : BitVec 16) (w : SlotWord) (op : Nat) : Option (Option Instr) :=
  match op with
  | 0x01 => some ((decAL x w).map .loop)
  | 0x02 => some ((decAS x w).map .strb)
  | 0x03 => some ((decAS x w).map .strs)
  | 0x04 => some ((decAS x w).map .strld)
  | 0x05 => some ((decAS x w).map .stradv)
  | 0x06 => some ((decAS x w).map .rotb)
  | 0x07 => some ((decAS x w).map .brbs)
  | 0x08 => some ((decAL x w).map .loopx)
  | _ => none

/-- The class of a PM bit (R206). -/
def classOf (bit : Nat) : SlotClass :=
  match bit with
  | 0 => .s
  | 1 | 2 => .v
  | 3 => .m
  | 4 | 5 => .c
  | _ => .a

/-- The opcode table of a class. -/
def opsOf (k : SlotClass) (x : BitVec 16) (w : SlotWord) (op : Nat) : Option (Option Instr) :=
  match k with
  | .s => opsS x w op
  | .v => opsV x w op
  | .m => opsM x w op
  | .c => opsC x w op
  | .a => opsA x w op

/-- One slot's checks of R211 step 3: the opcode, the predicate of R210, the format's MZ bits, then the instruction's fields. -/
def decodeSlot (bit : Nat) (x : BitVec 16) (w : SlotWord) : Except BundleErr Slot :=
  match opsOf (classOf bit) x w (w.fld 0 6).toNat with
  | none => .error (.illegalOp bit)
  | some none => .error (.illegalRsvd bit)
  | some (some i) =>
    if (w.fld 6 4 == 0#4 && w.getLsbD 10) || !fieldsOk i then .error (.illegalRsvd bit)
    else .ok { bit := bit, psel := w.fld 6 4, neg := w.getLsbD 10, ins := i }

/-- The position of the X bit that a slot word's format has (R217 to R224), if the opcode is assigned. -/
def xPos (k : SlotClass) (w : SlotWord) (op : Nat) : Option Nat :=
  match k with
  | .s =>
    if op = 0x13 ∨ (0x1A ≤ op ∧ op ≤ 0x1C) ∨ (0x1E ≤ op ∧ op ≤ 0x30) then some 47
    else if 1 ≤ op ∧ op ≤ 0x19 ∧ w.getLsbD 47 = true then some 46 else none
  | .v => if (op = 0x0C ∨ op = 0x0D ∨ (0x14 ≤ op ∧ op ≤ 0x1B)) ∧ w.getLsbD 36 = true then some 11 else none
  | .m => none
  | .c => if 1 ≤ op ∧ op ≤ 0x0D then some 47 else none
  | .a => if 1 ≤ op ∧ op ≤ 0x08 then some 47 else none

/-- Whether a slot sets its X bit (R208). -/
def setsX (bit : Nat) (w : SlotWord) : Bool :=
  match xPos (classOf bit) w (w.fld 0 6).toNat with
  | some p => w.getLsbD p
  | none => false

/-- Whether a slot's instruction takes no immediate, in a format that has an X bit: its field for one is MZ (R218, R219, R224, R348, R359). -/
def noImmWord (k : SlotClass) (w : SlotWord) (op : Nat) : Bool :=
  match k with
  | .s => [0x1E, 0x24, 0x2A, 0x2B, 0x2C, 0x30].contains op || (op == 0x26 && !w.getLsbD 43)
      || (decide (0x1A ≤ op ∧ op ≤ 0x1C) && w.getLsbD 35)
  | .c => [3, 7, 8].contains op || ([1, 2, 4, 5].contains op && !w.getLsbD 43) || (op == 6 && !w.getLsbD 45)
  | .a => (op == 1 || op == 8) && !w.getLsbD 30
  | _ => false

/-- Whether a slot sets X although its instruction takes no immediate (R208). -/
def idleX (bit : Nat) (w : SlotWord) : Bool := setsX bit w && noImmWord (classOf bit) w (w.fld 0 6).toNat

/-- The number in bytes [k, k + n) of a byte list; bytes past its end count as zero. -/
def rdBytes (l : List Byte) (k n : Nat) : Nat := ofBytes ((l.drop k).take n)

/-- The PM bits in ascending order (R206). -/
def pmBits (pm : Nat) : List Nat := (List.range 7).filter (bitN pm)

/-- The slot words of a bundle, each with its PM bit (R206). -/
def slotWords (l : List Byte) : List Nat → Nat → List (Nat × SlotWord)
  | [], _ => []
  | b :: r, k => (b, BitVec.ofNat 48 (rdBytes l k 6)) :: slotWords l r (k + 6)

/-- Each slot's checks in PM order. -/
def decodeSlots (x : BitVec 16) : List (Nat × SlotWord) → Except BundleErr (List Slot)
  | [] => .ok []
  | (b, w) :: r =>
    match decodeSlot b x w with
    | .error e => .error e
    | .ok s =>
      match decodeSlots x r with
      | .error e => .error e
      | .ok t => .ok (s :: t)

/-- A bundle whose first byte is the list's first, at chunk offset `o` of its routine's text (R206 to R211). A slot whose X has no immediate to extend
is named itself, as a fault of the slot and not of the header (DEDUCED, log 19). -/
def decodeBundle (o : Nat) (l : List Byte) : Except BundleErr Bundle :=
  let h := rdBytes l 0 4
  let bits := pmBits (h % 128)
  let ws := slotWords l bits 4
  let nx := (ws.filter (fun p => setsX p.1 p.2)).length
  let size := 4 + 6 * bits.length
  if bitsN h 12 4 ≠ 0 ∨ bitsN h 7 1 ≠ 0 ∨ 2 ≤ nx ∨ (bitsN h 16 16 ≠ 0 ∧ nx = 0) then .error (.illegalRsvd 7)
  else if let some p := ws.find? (fun p => idleX p.1 p.2) then .error (.illegalRsvd p.1)
  else if 4096 < o + size then .error (.illegalOp 7)
  else
    match decodeSlots (BitVec.ofNat 16 (h / 65536)) ws with
    | .error e => .error e
    | .ok ss => .ok { size := size, hnt := BitVec.ofNat 4 (h / 256), slots := ss }

/-! ### Loryil records -/

/-- An operand word (R51). -/
def decOpd (w : W32) : Option LOpd :=
  let lo := w.toNat
  match lo / 2 ^ 28 with
  | 0 => if bitsN lo 24 4 = 0 then some (.val (BitVec.ofNat 20 lo) (BitVec.ofNat 4 (lo / 2 ^ 20))) else none
  | 1 => if bitsN lo 16 12 = 0 then some (.param (BitVec.ofNat 16 lo)) else none
  | 2 => some (.imm (BitVec.ofNat 28 lo))
  | 3 => if bitsN lo 20 8 = 0 then some (.cpool (BitVec.ofNat 20 lo)) else none
  | _ => none

/-- Operand words, each valid. -/
def decOpds : List W32 → Option (List LOpd)
  | [] => some []
  | w :: r =>
    match decOpd w, decOpds r with
    | some a, some b => some (a :: b)
    | _, _ => none

/-- The attributes that fill a word list exactly; the error is BC_RSVD (2) or BC_ATTR (7) (R55, R64). -/
def decAttrs : Nat → List W32 → Except Nat (List LAttr)
  | _, [] => .ok []
  | 0, _ :: _ => .error 7
  | k + 1, h :: r =>
    let n := bitsN h.toNat 16 14
    if h.getLsbD 30 then .error 2
    else if r.length < n then .error 7
    else
      match decAttrs k (r.drop n) with
      | .error e => .error e
      | .ok t => .ok ({ mand := h.getLsbD 31, tag := BitVec.ofNat 16 h.toNat, payload := r.take n } :: t)

/-- The operator values of R50: `none` for every other value. -/
def opsL (w : Nat) (r : LRec) (opc : Nat) : Option Instr :=
  match opc with
  | 0x00 => some (.lNop w r)
  | 0x01 => some (.lLoop w r)
  | 0x02 => some (.lEndloop w r)
  | 0x03 => some (.lBrk w r)
  | 0x04 => some (.lIf w r)
  | 0x05 => some (.lElse w r)
  | 0x06 => some (.lEndif w r)
  | 0x07 => some (.lCall w r)
  | 0x08 => some (.lRet w r)
  | 0x09 => some (.lLaunch w r)
  | 0x0A => some (.lSyncchild w r)
  | 0x10 => some (.lConst w r)
  | 0x11 => some (.lSop w r)
  | 0x12 => some (.lScmp w r)
  | 0x13 => some (.lSel w r)
  | 0x14 => some (.lDim w r)
  | 0x15 => some (.lIdx w r)
  | 0x20 => some (.lAlloc w r)
  | 0x21 => some (.lFree w r)
  | 0x22 => some (.lView w r)
  | 0x23 => some (.lLoad w r)
  | 0x24 => some (.lStore w r)
  | 0x25 => some (.lRelayout w r)
  | 0x26 => some (.lCast w r)
  | 0x27 => some (.lPad w r)
  | 0x28 => some (.lConcat w r)
  | 0x30 => some (.lMatmul w r)
  | 0x31 => some (.lConv w r)
  | 0x32 => some (.lEwu w r)
  | 0x33 => some (.lEwb w r)
  | 0x34 => some (.lEwt w r)
  | 0x35 => some (.lReduce w r)
  | 0x36 => some (.lSoftmax w r)
  | 0x37 => some (.lNorm w r)
  | 0x38 => some (.lRope w r)
  | 0x39 => some (.lAttn w r)
  | 0x3A => some (.lGather w r)
  | 0x3B => some (.lScatter w r)
  | 0x3C => some (.lTopk w r)
  | 0x3D => some (.lSort w r)
  | 0x3E => some (.lPermute w r)
  | 0x3F => some (.lCumsum w r)
  | 0x50 => some (.lStage w r)
  | 0x51 => some (.lEndstage w r)
  | 0x52 => some (.lQdecl w r)
  | 0x53 => some (.lQpush w r)
  | 0x54 => some (.lQpop w r)
  | 0x55 => some (.lWalk w r)
  | 0x60 => some (.lAred w r)
  | 0x61 => some (.lAgath w r)
  | 0x62 => some (.lRscat w r)
  | 0x63 => some (.lA2a w r)
  | 0x64 => some (.lTsend w r)
  | 0x65 => some (.lTrecv w r)
  | 0x70 => some (.lUop w r)
  | 0x71 => some (.lFence w r)
  | 0x72 => some (.lWaith w r)
  | 0x73 => some (.lAssert w r)
  | _ => none

/-- A record whose first word is the list's first, at word offset `off` (R49 to R55): the operator with its length in words,
or the refusal code of R64. -/
def decodeRec (w off : Nat) (l : List W32) : Except Nat (Instr × Nat) :=
  match l with
  | [] => .error 1
  | h :: r =>
    let hw := h.toNat
    let n0 := bitsN hw 12 4
    let cw := (r.headD 0).toNat
    let nopd := if n0 = 15 then cw % 65536 else n0
    let ext := if n0 = 15 then 1 else 0
    let natw := bitsN hw 16 8
    let body := r.drop ext
    if 2 ^ 30 ≤ hw then .error 2
    else if n0 = 15 ∧ 65536 ≤ cw then .error 2
    else if n0 = 15 ∧ nopd < 15 then .error 4
    else if body.length < nopd + natw then .error 1
    else
      match decOpds (body.take nopd), decAttrs natw ((body.drop nopd).take natw) with
      | none, _ => .error 2
      | _, .error e => .error e
      | some os, .ok ats =>
        match opsL w { off := off, fuse := BitVec.ofNat 6 (hw / 2 ^ 24), nres := BitVec.ofNat 4 (hw / 256), opds := os, attrs := ats }
            (hw % 256) with
        | none => .error 3
        | some i => .ok (i, 1 + ext + nopd + natw)

/-- The instruction that the decoder reads from a table row's word: a bundle at chunk offset 0, its one slot or, for PM = 0, `NOP`. -/
def decodeTableWord (nbits w : Nat) : Option Instr :=
  match decodeBundle 0 (toBytes (w % 2 ^ nbits) 46) with
  | .error _ => none
  | .ok b =>
    match b.slots with
    | [] => some (.nop b.hnt)
    | s :: _ => some s.ins

/-! ### The encoder -/

/-- The X bit of an extension. -/
def xBit (x : Option (BitVec 16)) : BitVec 1 := if x.isSome then 1#1 else 0#1

/-- The XIMM of an extension. -/
def xVal (x : Option (BitVec 16)) : BitVec 16 := x.getD 0

/-- One bit. -/
def bit1 (b : Bool) : BitVec 1 := if b then 1#1 else 0#1

def encSA (f : SA) : BitVec 37 :=
  match f.src with
  | .reg md c b => 0#2 ++ f.fn ++ md ++ c ++ b ++ f.a ++ f.d
  | .imm x v => 1#1 ++ xBit x ++ f.fn ++ v ++ f.a ++ f.d
def ximSA (f : SA) : BitVec 16 :=
  match f.src with
  | .reg _ _ _ => 0
  | .imm x _ => xVal x
def encSI (f : SI) : BitVec 37 := xBit f.xi ++ f.imm ++ f.d
def ximSI (f : SI) : BitVec 16 := xVal f.xi
def encSB (f : SB) : BitVec 37 := xBit f.xi ++ f.fn ++ f.off ++ f.d
def ximSB (f : SB) : BitVec 16 := xVal f.xi
def encSM (f : SM) : BitVec 37 := xBit f.xi ++ f.arr ++ f.fn ++ bit1 f.am ++ f.w ++ f.sp ++ f.off ++ f.a ++ f.d
def ximSM (f : SM) : BitVec 16 := xVal f.xi
def encSQ (f : SQ) : BitVec 37 := 0#1 ++ f.arr ++ f.ordk ++ f.aop ++ f.w ++ f.sp ++ f.b ++ f.a ++ f.d
def ximSQ (_ : SQ) : BitVec 16 := 0
def encSY (f : SY) : BitVec 37 := xBit f.xi ++ f.fn ++ f.imm ++ f.md ++ f.a ++ f.d
def ximSY (f : SY) : BitVec 16 := xVal f.xi
def encVR (f : VR) : BitVec 37 := f.fn ++ f.ty ++ f.rnd ++ f.es ++ f.m ++ f.c ++ f.b ++ f.a ++ f.d ++ 0#1
def ximVR (_ : VR) : BitVec 16 := 0
def encVI (f : VI) : BitVec 37 :=
  match f.src with
  | .reg r => f.fn ++ f.ty ++ f.m ++ 0#9 ++ r ++ f.a ++ f.d ++ 0#1
  | .imm x v => f.fn ++ f.ty ++ f.m ++ 1#1 ++ v ++ f.a ++ f.d ++ xBit x
def ximVI (f : VI) : BitVec 16 :=
  match f.src with
  | .reg _ => 0
  | .imm x _ => xVal x
def encVM (f : VM) : BitVec 37 :=
  f.arr ++ f.fmt ++ f.rnd ++ f.es ++ f.sp ++ bit1 f.am ++ f.m ++ f.fn ++ f.a ++ f.d ++ 0#1
def ximVM (_ : VM) : BitVec 16 := 0
def encVG (f : VG) : BitVec 37 := f.top ++ f.fmt ++ f.sp ++ f.m ++ f.a ++ f.ix ++ f.d ++ 0#4
def ximVG (_ : VG) : BitVec 16 := 0
def encMX (f : MX) : BitVec 37 := 0#4 ++ f.mode ++ f.grp ++ f.fn ++ f.sl ++ f.str ++ f.c ++ f.b ++ f.a ++ 0#1
def ximMX (_ : MX) : BitVec 16 := 0
def encCX (f : CX) : BitVec 37 := xBit f.xi ++ f.fn ++ f.rnd ++ f.es ++ f.c ++ f.b ++ f.a ++ f.imm
def ximCX (f : CX) : BitVec 16 := xVal f.xi
def encAL (f : AL) : BitVec 37 :=
  match f.cnt with
  | .reg r => 0#1 ++ f.lv ++ bit1 f.rot ++ f.ns ++ f.len ++ 0#8 ++ r ++ 0#6
  | .imm x v => xBit x ++ f.lv ++ bit1 f.rot ++ f.ns ++ f.len ++ 1#1 ++ v ++ 0#6
def ximAL (f : AL) : BitVec 16 :=
  match f.cnt with
  | .reg _ => 0
  | .imm x _ => xVal x
def encAS (f : AS) : BitVec 37 := xBit f.xi ++ f.fn ++ f.strm ++ f.lv ++ f.sp ++ f.imm ++ f.a
def ximAS (f : AS) : BitVec 16 := xVal f.xi

/-- The class, the opcode, the operand bits and the XIMM of a native slot instruction: the inverse of the tables above. -/
def encodeParts : Instr → Option (SlotClass × BitVec 6 × BitVec 37 × BitVec 16)
  | .add f => some (.s, 0x01#6, encSA f, ximSA f)
  | .sub f => some (.s, 0x02#6, encSA f, ximSA f)
  | .mul f => some (.s, 0x03#6, encSA f, ximSA f)
  | .mulh f => some (.s, 0x04#6, encSA f, ximSA f)
  | .div f => some (.s, 0x05#6, encSA f, ximSA f)
  | .rem f => some (.s, 0x06#6, encSA f, ximSA f)
  | .and f => some (.s, 0x07#6, encSA f, ximSA f)
  | .or f => some (.s, 0x08#6, encSA f, ximSA f)
  | .xor f => some (.s, 0x09#6, encSA f, ximSA f)
  | .shl f => some (.s, 0x0A#6, encSA f, ximSA f)
  | .shr f => some (.s, 0x0B#6, encSA f, ximSA f)
  | .sra f => some (.s, 0x0C#6, encSA f, ximSA f)
  | .min f => some (.s, 0x0D#6, encSA f, ximSA f)
  | .max f => some (.s, 0x0E#6, encSA f, ximSA f)
  | .clz f => some (.s, 0x0F#6, encSA f, ximSA f)
  | .popc f => some (.s, 0x10#6, encSA f, ximSA f)
  | .extb f => some (.s, 0x11#6, encSA f, ximSA f)
  | .insb f => some (.s, 0x12#6, encSA f, ximSA f)
  | .movi f => some (.s, 0x13#6, encSI f, ximSI f)
  | .cmp f => some (.s, 0x14#6, encSA f, ximSA f)
  | .sel f => some (.s, 0x15#6, encSA f, ximSA f)
  | .plog f => some (.s, 0x16#6, encSA f, ximSA f)
  | .fop f => some (.s, 0x17#6, encSA f, ximSA f)
  | .fma f => some (.s, 0x18#6, encSA f, ximSA f)
  | .fcvt f => some (.s, 0x19#6, encSA f, ximSA f)
  | .ld f => some (.s, 0x1A#6, encSM f, ximSM f)
  | .st f => some (.s, 0x1B#6, encSM f, ximSM f)
  | .ldk f => some (.s, 0x1C#6, encSM f, ximSM f)
  | .amo f => some (.s, 0x1D#6, encSQ f, ximSQ f)
  | .fence f => some (.s, 0x1E#6, encSY f, ximSY f)
  | .waitc f => some (.s, 0x1F#6, encSY f, ximSY f)
  | .waittl f => some (.s, 0x20#6, encSY f, ximSY f)
  | .waith f => some (.s, 0x21#6, encSY f, ximSY f)
  | .bara f => some (.s, 0x22#6, encSY f, ximSY f)
  | .barw f => some (.s, 0x23#6, encSY f, ximSY f)
  | .kinv f => some (.s, 0x24#6, encSY f, ximSY f)
  | .iclock f => some (.s, 0x25#6, encSY f, ximSY f)
  | .icunl f => some (.s, 0x26#6, encSY f, ximSY f)
  | .br f => some (.s, 0x27#6, encSB f, ximSB f)
  | .jmp f => some (.s, 0x28#6, encSB f, ximSB f)
  | .call f => some (.s, 0x29#6, encSB f, ximSB f)
  | .ret f => some (.s, 0x2A#6, encSB f, ximSB f)
  | .yield f => some (.s, 0x2B#6, encSY f, ximSY f)
  | .opend f => some (.s, 0x2C#6, encSY f, ximSY f)
  | .trap f => some (.s, 0x2D#6, encSI f, ximSI f)
  | .mfs f => some (.s, 0x2E#6, encSY f, ximSY f)
  | .mts f => some (.s, 0x2F#6, encSY f, ximSY f)
  | .phase f => some (.s, 0x30#6, encSY f, ximSY f)
  | .vadd f => some (.v, 0x01#6, encVR f, ximVR f)
  | .vsub f => some (.v, 0x02#6, encVR f, ximVR f)
  | .vmul f => some (.v, 0x03#6, encVR f, ximVR f)
  | .vfma f => some (.v, 0x04#6, encVR f, ximVR f)
  | .vmin f => some (.v, 0x05#6, encVR f, ximVR f)
  | .vmax f => some (.v, 0x06#6, encVR f, ximVR f)
  | .vabs f => some (.v, 0x07#6, encVR f, ximVR f)
  | .vneg f => some (.v, 0x08#6, encVR f, ximVR f)
  | .vand f => some (.v, 0x09#6, encVR f, ximVR f)
  | .vor f => some (.v, 0x0A#6, encVR f, ximVR f)
  | .vxor f => some (.v, 0x0B#6, encVR f, ximVR f)
  | .vshl f => some (.v, 0x0C#6, encVI f, ximVI f)
  | .vshr f => some (.v, 0x0D#6, encVI f, ximVI f)
  | .vcmp f => some (.v, 0x0E#6, encVR f, ximVR f)
  | .vsel f => some (.v, 0x0F#6, encVR f, ximVR f)
  | .vcvt f => some (.v, 0x10#6, encVR f, ximVR f)
  | .vsfu f => some (.v, 0x11#6, encVR f, ximVR f)
  | .vscale f => some (.v, 0x12#6, encVR f, ximVR f)
  | .vdot4 f => some (.v, 0x13#6, encVR f, ximVR f)
  | .viota f => some (.v, 0x14#6, encVI f, ximVI f)
  | .vsplat f => some (.v, 0x15#6, encVI f, ximVI f)
  | .vmovs f => some (.v, 0x16#6, encVI f, ximVI f)
  | .vins f => some (.v, 0x17#6, encVI f, ximVI f)
  | .vrotr f => some (.v, 0x18#6, encVI f, ximVI f)
  | .vrotc f => some (.v, 0x19#6, encVI f, ximVI f)
  | .vbcr f => some (.v, 0x1A#6, encVI f, ximVI f)
  | .vbcc f => some (.v, 0x1B#6, encVI f, ximVI f)
  | .vredr f => some (.v, 0x1C#6, encVR f, ximVR f)
  | .vredc f => some (.v, 0x1D#6, encVR f, ximVR f)
  | .vscanr f => some (.v, 0x1E#6, encVR f, ximVR f)
  | .vtrn f => some (.v, 0x1F#6, encVR f, ximVR f)
  | .vpermr f => some (.v, 0x20#6, encVR f, ximVR f)
  | .vcmx f => some (.v, 0x21#6, encVR f, ximVR f)
  | .vmask f => some (.v, 0x22#6, encVR f, ximVR f)
  | .vld f => some (.v, 0x24#6, encVM f, ximVM f)
  | .vst f => some (.v, 0x25#6, encVM f, ximVM f)
  | .vgath f => some (.v, 0x26#6, encVG f, ximVG f)
  | .vscat f => some (.v, 0x27#6, encVG f, ximVG f)
  | .mldw f => some (.m, 0x01#6, encMX f, ximMX f)
  | .mswap f => some (.m, 0x02#6, encMX f, ximMX f)
  | .mfeed f => some (.m, 0x03#6, encMX f, ximMX f)
  | .mma f => some (.m, 0x04#6, encMX f, ximMX f)
  | .mmag f => some (.m, 0x05#6, encMX f, ximMX f)
  | .mcfg f => some (.m, 0x06#6, encMX f, ximMX f)
  | .mdrain f => some (.m, 0x07#6, encMX f, ximMX f)
  | .mclr f => some (.m, 0x08#6, encMX f, ximMX f)
  | .mstat f => some (.m, 0x09#6, encMX f, ximMX f)
  | .cpy f => some (.c, 0x01#6, encCX f, ximCX f)
  | .cpyg f => some (.c, 0x02#6, encCX f, ximCX f)
  | .cpys f => some (.c, 0x03#6, encCX f, ximCX f)
  | .cpyx f => some (.c, 0x04#6, encCX f, ximCX f)
  | .cpymc f => some (.c, 0x05#6, encCX f, ximCX f)
  | .fill f => some (.c, 0x06#6, encCX f, ximCX f)
  | .pref f => some (.c, 0x07#6, encCX f, ximCX f)
  | .cscl f => some (.c, 0x08#6, encCX f, ximCX f)
  | .permit f => some (.c, 0x09#6, encCX f, ximCX f)
  | .hset f => some (.c, 0x0A#6, encCX f, ximCX f)
  | .tladv f => some (.c, 0x0B#6, encCX f, ximCX f)
  | .send f => some (.c, 0x0C#6, encCX f, ximCX f)
  | .recv f => some (.c, 0x0D#6, encCX f, ximCX f)
  | .loop f => some (.a, 0x01#6, encAL f, ximAL f)
  | .strb f => some (.a, 0x02#6, encAS f, ximAS f)
  | .strs f => some (.a, 0x03#6, encAS f, ximAS f)
  | .strld f => some (.a, 0x04#6, encAS f, ximAS f)
  | .stradv f => some (.a, 0x05#6, encAS f, ximAS f)
  | .rotb f => some (.a, 0x06#6, encAS f, ximAS f)
  | .brbs f => some (.a, 0x07#6, encAS f, ximAS f)
  | .loopx f => some (.a, 0x08#6, encAL f, ximAL f)
  | _ => none

/-- The slot word of a native instruction under a predicate, with its class and XIMM. -/
def encodeSlot (psel : BitVec 4) (neg : Bool) (i : Instr) : Option (SlotClass × SlotWord × BitVec 16) :=
  match encodeParts i with
  | none => none
  | some (k, op, body, x) => some (k, body ++ bit1 neg ++ psel ++ op, x)

/-- The first PM bit of a class. -/
def firstBit (k : SlotClass) : Nat :=
  match k with
  | .s => 0
  | .v => 1
  | .m => 3
  | .c => 4
  | .a => 6

/-- The operator value and the record of a Loryil operator: the inverse of `opsL`. -/
def recParts : Instr → Option (BitVec 8 × LRec)
  | .lNop _ r => some (0x00#8, r)
  | .lLoop _ r => some (0x01#8, r)
  | .lEndloop _ r => some (0x02#8, r)
  | .lBrk _ r => some (0x03#8, r)
  | .lIf _ r => some (0x04#8, r)
  | .lElse _ r => some (0x05#8, r)
  | .lEndif _ r => some (0x06#8, r)
  | .lCall _ r => some (0x07#8, r)
  | .lRet _ r => some (0x08#8, r)
  | .lLaunch _ r => some (0x09#8, r)
  | .lSyncchild _ r => some (0x0A#8, r)
  | .lConst _ r => some (0x10#8, r)
  | .lSop _ r => some (0x11#8, r)
  | .lScmp _ r => some (0x12#8, r)
  | .lSel _ r => some (0x13#8, r)
  | .lDim _ r => some (0x14#8, r)
  | .lIdx _ r => some (0x15#8, r)
  | .lAlloc _ r => some (0x20#8, r)
  | .lFree _ r => some (0x21#8, r)
  | .lView _ r => some (0x22#8, r)
  | .lLoad _ r => some (0x23#8, r)
  | .lStore _ r => some (0x24#8, r)
  | .lRelayout _ r => some (0x25#8, r)
  | .lCast _ r => some (0x26#8, r)
  | .lPad _ r => some (0x27#8, r)
  | .lConcat _ r => some (0x28#8, r)
  | .lMatmul _ r => some (0x30#8, r)
  | .lConv _ r => some (0x31#8, r)
  | .lEwu _ r => some (0x32#8, r)
  | .lEwb _ r => some (0x33#8, r)
  | .lEwt _ r => some (0x34#8, r)
  | .lReduce _ r => some (0x35#8, r)
  | .lSoftmax _ r => some (0x36#8, r)
  | .lNorm _ r => some (0x37#8, r)
  | .lRope _ r => some (0x38#8, r)
  | .lAttn _ r => some (0x39#8, r)
  | .lGather _ r => some (0x3A#8, r)
  | .lScatter _ r => some (0x3B#8, r)
  | .lTopk _ r => some (0x3C#8, r)
  | .lSort _ r => some (0x3D#8, r)
  | .lPermute _ r => some (0x3E#8, r)
  | .lCumsum _ r => some (0x3F#8, r)
  | .lStage _ r => some (0x50#8, r)
  | .lEndstage _ r => some (0x51#8, r)
  | .lQdecl _ r => some (0x52#8, r)
  | .lQpush _ r => some (0x53#8, r)
  | .lQpop _ r => some (0x54#8, r)
  | .lWalk _ r => some (0x55#8, r)
  | .lAred _ r => some (0x60#8, r)
  | .lAgath _ r => some (0x61#8, r)
  | .lRscat _ r => some (0x62#8, r)
  | .lA2a _ r => some (0x63#8, r)
  | .lTsend _ r => some (0x64#8, r)
  | .lTrecv _ r => some (0x65#8, r)
  | .lUop _ r => some (0x70#8, r)
  | .lFence _ r => some (0x71#8, r)
  | .lWaith _ r => some (0x72#8, r)
  | .lAssert _ r => some (0x73#8, r)
  | _ => none

/-- An operand word (R51). -/
def encOpd : LOpd → W32
  | .val d i => 0#8 ++ i ++ d
  | .param i => 1#4 ++ 0#12 ++ i
  | .imm v => 2#4 ++ v
  | .cpool i => 3#4 ++ 0#8 ++ i

/-- An attribute's words (R55). -/
def encAttr (t : LAttr) : List W32 := (bit1 t.mand ++ 0#1 ++ BitVec.ofNat 14 t.payload.length ++ t.tag) :: t.payload

/-- A record's words (R49). -/
def encodeRec (opc : BitVec 8) (r : LRec) : List W32 :=
  let ats := (r.attrs.map encAttr).flatten
  let n := r.opds.length
  (0#2 ++ r.fuse ++ BitVec.ofNat 8 ats.length ++ (if n < 15 then BitVec.ofNat 4 n else 15#4) ++ r.nres ++ opc)
    :: ((if n < 15 then [] else [BitVec.ofNat 32 n]) ++ r.opds.map encOpd ++ ats)

/-- The bytes of an instruction: a bundle of its one slot with PSEL 0, the empty bundle, or a Loryil record. -/
def encode (i : Instr) : List Byte :=
  match i with
  | .nop h => toBytes (h.toNat * 256) 4
  | _ =>
    match encodeSlot 0 false i with
    | some (k, w, x) => toBytes (x.toNat * 65536 + 2 ^ firstBit k) 4 ++ toBytes w.toNat 6
    | none =>
      match recParts i with
      | some (opc, r) => ((encodeRec opc r).map (fun v => toBytes v.toNat 4)).flatten
      | none => []

end Sys2Proof
end

