-- ==== Sys2Proof/Machine/Flags.lean ====
section
/-! DEFINITION. Conditions and orders: the machine has no flag register; compares write an integer, a predicate or a mask (R242, R246,
R280), and minimum, maximum and sorting follow R124 and R133. -/
namespace Sys2Proof.Machine

/-- `CMP`'s condition (R242): 0 EQ, 1 NE, 2 LT, 3 LE, 4 GT, 5 GE, 6 LTU, 7 LEU. -/
def cmpCond (k : Nat) (a b : W64) : Bool :=
  match k with
  | 0 => a == b
  | 1 => a != b
  | 2 => a.slt b
  | 3 => a.sle b
  | 4 => b.slt a
  | 5 => b.sle a
  | 6 => a.ult b
  | _ => a.ule b

/-- The six conditions EQ, NE, LT, LE, GT, GE on values: false with a NaN but for NE (R246, R280). -/
def numCond (k : Nat) (a b : Num) : Bool :=
  match k with
  | 0 => a.eq b
  | 1 => !a.eq b
  | 2 => a.lt b
  | 3 => a.lt b || a.eq b
  | 4 => b.lt a
  | _ => b.lt a || a.eq b

/-- The six conditions on integers. -/
def intCond (k : Nat) (a b : Int) : Bool :=
  match k with
  | 0 => a == b
  | 1 => a != b
  | 2 => decide (a < b)
  | 3 => decide (a ≤ b)
  | 4 => decide (b < a)
  | _ => decide (b ≤ a)

/-- `PLOG` (R244). -/
def plogFn (k : Nat) (a b : Bool) : Bool :=
  match k with
  | 0 => a && b
  | 1 => a || b
  | 2 => xor a b
  | 3 => a && !b
  | 4 => true
  | 5 => false
  | 6 => !a
  | _ => a

/-- Minimum: NaN if either is NaN; −0 below +0 (R124). -/
def Num.min (a b : Num) : Num :=
  if a.isNan || b.isNan then .nan
  else if a.lt b then a else if b.lt a then b else if a.sign then a else b

/-- Maximum (R124). -/
def Num.max (a b : Num) : Num :=
  if a.isNan || b.isNan then .nan
  else if a.lt b then b else if b.lt a then a else if a.sign then b else a

/-- The total order of R133: below, with −0 below +0 and every NaN last and equal. -/
def Num.below (a b : Num) : Bool :=
  if a.isNan then false
  else if b.isNan then true
  else a.lt b || (a.eq b && a.sign && !b.sign)

end Sys2Proof.Machine
end

