-- ==== Sys2Proof/Machine/Scalar.lean ====
section
/-! DEFINITION. Scalar integer, predicate and floating-point instructions of the S slot, and the empty bundle (spec/08 R239 to R249). -/
namespace Sys2Proof.Machine

/-! ### Shared operations -/

/-- sD := g(sA, src2) with a latency (R239). -/
def intOp (f : SA) (lat : Nat) (g : W64 → W64 → W64) : SlotM Unit := do
  let a ← rdS f.a.toNat
  let b ← src2 f
  wrS f.d.toNat (g a b) lat

/-- The divider accepts an instruction when it is free, and is busy for its latency in CCLK cycles outside freezes (R249). -/
def useDivider (lat : Nat) : SlotM Unit := do
  let s ← get
  let k := s.core s.iss.core
  if k.ncyc < k.divFree then stallS
  else set (s.setCore s.iss.core { k with divFree := k.ncyc + lat })

/-- Bits of the exact product above 63: signed × signed, unsigned × unsigned, signed × unsigned (R239). -/
def mulhFn (fn : Nat) (a b : W64) : W64 :=
  match fn with
  | 0 => w64 (fdiv (a.toInt * b.toInt) (2 ^ 64))
  | 1 => w64 ((a.toNat * b.toNat / 2 ^ 64 : Nat))
  | _ => w64 (fdiv (a.toInt * b.toNat) (2 ^ 64))

/-- The quotient truncated toward zero (R239): signed or unsigned. -/
def divFn (fn : Nat) (a b : W64) : W64 := if fn = 0 then w64 (a.toInt.tdiv b.toInt) else a / b

/-- The matching remainder (R239). -/
def remFn (fn : Nat) (a b : W64) : W64 := if fn = 0 then w64 (a.toInt.tmod b.toInt) else a % b

/-- `DIV` and `REM`: a zero divisor raises ARITH (R239, R266). -/
def divOp (f : SA) (g : W64 → W64 → W64) : SlotM Unit := do
  useDivider 20
  let a ← rdS f.a.toNat
  let b ← src2 f
  if b = 0 then trapS 0x04 (BitVec.ofNat 64 (src2Num f))
  wrS f.d.toNat (g a b) 20

/-- A left shift by an unsigned amount (R239). -/
def shlFn (a n : W64) : W64 := if 64 ≤ n.toNat then 0 else a <<< n.toNat

/-- A logical right shift (R239). -/
def shrFn (a n : W64) : W64 := if 64 ≤ n.toNat then 0 else a >>> n.toNat

/-- An arithmetic right shift (R239). -/
def sraFn (a n : W64) : W64 := a.sshiftRight (Nat.min n.toNat 64)

/-- Leading or trailing zeros, 64 for zero (R239). -/
def clzFn (fn : Nat) (a : W64) : W64 :=
  if a = 0 then 64#64 else if fn = 0 then BitVec.ofNat 64 (63 - Nat.log2 a.toNat) else BitVec.ofNat 64 (ctz a.toNat 64)

/-- Position and cut length of a bit field (R240): from sB, or from the immediate. -/
def bitField (f : SA) : SlotM (Nat × Nat) := do
  let v ← match f.src with
    | .reg _ _ b => do pure (← rdS b.toNat).toNat
    | .imm _ v => pure v.toNat
  let p := v % 64
  pure (p, Nat.min (bitsN v 6 7) (64 - p))

/-- `EXTB`'s field, zero- or sign-extended (R240). -/
def extbFn (fn p n : Nat) (a : W64) : W64 :=
  let x := bitsN a.toNat p n
  if fn = 0 then BitVec.ofNat 64 x else w64 (sext x n)

/-- `INSB`: the base with n bits at p replaced (R240). -/
def insbFn (p n : Nat) (base val : W64) : W64 :=
  let m := (2 ^ n - 1) * 2 ^ p
  (base &&& ~~~(BitVec.ofNat 64 m)) ||| (BitVec.ofNat 64 (val.toNat % 2 ^ n * 2 ^ p))

/-- The SR addend of a lane, which steps once for each rounded element under SR (R34). -/
def addendS (mode lane : Nat) : SlotM Nat := do
  let x ← curSl
  let (r, x') := x.addend mode lane
  modSl fun _ => x'
  pure r

/-- One rounding of a scalar floating-point result of format ty (0 FP32, 1 BF16, 2 FP16), on lane 2,688 (R245). -/
def roundS (ty rnd : Nat) (v : Num) : SlotM Nat := do
  let m := (← curSl).mode rnd
  let r ← addendS m 2688
  pure (roundTo ty m r false v).1

/-- Whether the rounding mode is RDN: the sign of an exact zero sum (R31). -/
def isRdn (rnd : Nat) : SlotM Bool := do return (← curSl).mode rnd == 2

/-- A scalar operand of a floating-point format (R245). -/
def rdF (ty r : Nat) : SlotM Num := do return decode ty ((← rdS r).toNat % 2 ^ fmtBits ty)

/-- √x: −0 of −0, NaN below zero (R246). -/
def fsqrt : Num → Num
  | .fin s n d => if n = 0 then .fin s 0 1 else if s then .nan else sqrtNum n d 200
  | .inf s => if s then .nan else .inf false
  | .nan => .nan

/-- `FOP`'s arithmetic functions (R246). -/
def fopFn (fn : Nat) (rdn : Bool) (a b : Num) : Num :=
  match fn with
  | 0 => a.add rdn b
  | 1 => a.add rdn b.negate
  | 2 => a.mul b
  | 3 => a.div b
  | 4 => a.min b
  | 5 => a.max b
  | 6 => fsqrt a
  | 7 => a.abs
  | _ => a.negate

/-- `FOP` (R246). -/
def fopOp (f : SA) : SlotM Unit := do
  let fn := f.fn.toNat
  let md := modOf f
  let ty := modTy md
  let lat := if fn = 3 ∨ fn = 6 then 12 else 4
  if lat = 12 then useDivider 12
  let a ← rdF ty f.a.toNat
  let b ← if fn = 6 ∨ fn = 7 ∨ fn = 8 then pure Num.zero else rdF ty (fieldB f)
  if 9 ≤ fn then wrS f.d.toNat (if numCond (fn - 9) a b then 1 else 0) lat
  else
    let rdn ← isRdn (modRnd md)
    let v ← roundS ty (modRnd md) (fopFn fn rdn a b)
    wrS f.d.toNat (BitVec.ofNat 64 v) lat

/-- `FMA` (R247). -/
def fmaOp (f : SA) : SlotM Unit := do
  let md := modOf f
  let ty := modTy md
  let a ← rdF ty f.a.toNat
  let b ← rdF ty (fieldB f)
  let c ← match f.src with
    | .reg _ c _ => rdF ty c.toNat
    | .imm _ _ => pure Num.zero
  let rdn ← isRdn (modRnd md)
  let p := a.mul b
  let v := (if 2 ≤ f.fn.toNat then p.negate else p).add rdn (if f.fn.toNat % 2 = 1 then c.negate else c)
  wrS f.d.toNat (BitVec.ofNat 64 (← roundS ty (modRnd md) v)) 4

/-- The 64-bit form of an element: signed formats sign-extend (R245). -/
def widen (f x : Nat) : W64 := if f = 7 ∨ f = 8 ∨ f = 9 then w64 (sext x (fmtBits f)) else BitVec.ofNat 64 x

/-- `FCVT` (R248). -/
def fcvtOp (f : SA) : SlotM Unit := do
  let src := f.fn.toNat
  let dst := fieldB f % 16
  let md := modOf f
  let a ← rdF src f.a.toNat
  let x ← curSl
  let m := x.mode (modRnd md)
  let r ← addendS m 2688
  let (v, c) := roundTo dst m r (x.sat (modEs md)) a
  wrS f.d.toNat (widen dst v) 3
  pendCnt 3 0 0 (if c then 1 else 0) 0

/-! ### Meanings -/

/-- `NOP`: the empty bundle changes nothing but the tick count, which the issue advances (R207). -/
def execNop (_ : BitVec 4) (s : State) : Host.Outcome State Fault Refusal := .next s

def execAdd (f : SA) (s : State) : Host.Outcome State Fault Refusal := runSlot (intOp f 1 (· + ·)) s
def execSub (f : SA) (s : State) : Host.Outcome State Fault Refusal := runSlot (intOp f 1 (· - ·)) s
def execMul (f : SA) (s : State) : Host.Outcome State Fault Refusal := runSlot (intOp f 3 (· * ·)) s
def execMulh (f : SA) (s : State) : Host.Outcome State Fault Refusal := runSlot (intOp f 3 (mulhFn f.fn.toNat)) s
def execDiv (f : SA) (s : State) : Host.Outcome State Fault Refusal := runSlot (divOp f (divFn f.fn.toNat)) s
def execRem (f : SA) (s : State) : Host.Outcome State Fault Refusal := runSlot (divOp f (remFn f.fn.toNat)) s
def execAnd (f : SA) (s : State) : Host.Outcome State Fault Refusal := runSlot (intOp f 1 (· &&& ·)) s
def execOr (f : SA) (s : State) : Host.Outcome State Fault Refusal := runSlot (intOp f 1 (· ||| ·)) s
def execXor (f : SA) (s : State) : Host.Outcome State Fault Refusal := runSlot (intOp f 1 (· ^^^ ·)) s
def execShl (f : SA) (s : State) : Host.Outcome State Fault Refusal := runSlot (intOp f 1 shlFn) s
def execShr (f : SA) (s : State) : Host.Outcome State Fault Refusal := runSlot (intOp f 1 shrFn) s
def execSra (f : SA) (s : State) : Host.Outcome State Fault Refusal := runSlot (intOp f 1 sraFn) s

/-- Signed or unsigned minimum (R239). -/
def minFn (fn : Nat) (a b : W64) : W64 := if (if fn = 0 then b.slt a else b.ult a) then b else a

/-- Signed or unsigned maximum (R239). -/
def maxFn (fn : Nat) (a b : W64) : W64 := if (if fn = 0 then a.slt b else a.ult b) then b else a

def execMin (f : SA) (s : State) : Host.Outcome State Fault Refusal := runSlot (intOp f 1 (minFn f.fn.toNat)) s
def execMax (f : SA) (s : State) : Host.Outcome State Fault Refusal := runSlot (intOp f 1 (maxFn f.fn.toNat)) s

/-- `CLZ` (R239): B is MZ. -/
def execClz (f : SA) (s : State) : Host.Outcome State Fault Refusal :=
  runSlot (do let a ← rdS f.a.toNat; wrS f.d.toNat (clzFn f.fn.toNat a) 1) s

/-- `POPC` (R239). -/
def execPopc (f : SA) (s : State) : Host.Outcome State Fault Refusal :=
  runSlot (do let a ← rdS f.a.toNat; wrS f.d.toNat (BitVec.ofNat 64 (popc a.toNat 64)) 1) s

/-- `EXTB` (R240). -/
def execExtb (f : SA) (s : State) : Host.Outcome State Fault Refusal :=
  runSlot (do
    let a ← rdS f.a.toNat
    let (p, n) ← bitField f
    wrS f.d.toNat (extbFn f.fn.toNat p n a) 1) s

/-- `INSB` (R240): with IM = 1 the base is the old sD and sA the value. -/
def execInsb (f : SA) (s : State) : Host.Outcome State Fault Refusal :=
  runSlot (do
    let a ← rdS f.a.toNat
    let (p, n) ← bitField f
    let v ← match f.src with
      | .reg _ c _ => do pure (insbFn p n a (← rdS c.toNat))
      | .imm _ _ => do pure (insbFn p n (← rdS f.d.toNat) a)
    wrS f.d.toNat v 1) s

/-- `MOVI` (R241). -/
def execMovi (f : SI) (s : State) : Host.Outcome State Fault Refusal := runSlot (wrS f.d.toNat (siImm f) 1) s

/-- `CMP` (R242). -/
def execCmp (f : SA) (s : State) : Host.Outcome State Fault Refusal :=
  runSlot (do
    let a ← rdS f.a.toNat
    let b ← src2 f
    let r := cmpCond (f.fn.toNat % 8) a b
    if f.fn.getLsbD 3 then pendW 1 (.pred f.d.toNat r) else wrS f.d.toNat (if r then 1 else 0) 1) s

/-- `SEL` (R243): both sources are read. -/
def execSel (f : SA) (s : State) : Host.Outcome State Fault Refusal :=
  runSlot (do
    let a ← rdS f.a.toNat
    let b ← src2 f
    let x ← curSl
    wrS f.d.toNat (if xor (x.pget (f.fn.toNat % 8)) (f.fn.getLsbD 3) then a else b) 1) s

/-- `PLOG` (R244). -/
def execPlog (f : SA) (s : State) : Host.Outcome State Fault Refusal :=
  runSlot (do
    let x ← curSl
    pendW 1 (.pred f.d.toNat (plogFn f.fn.toNat (x.pget (f.a.toNat % 16)) (x.pget (fieldB f % 16))))) s

def execFop (f : SA) (s : State) : Host.Outcome State Fault Refusal := runSlot (fopOp f) s
def execFma (f : SA) (s : State) : Host.Outcome State Fault Refusal := runSlot (fmaOp f) s
def execFcvt (f : SA) (s : State) : Host.Outcome State Fault Refusal := runSlot (fcvtOp f) s

end Sys2Proof.Machine
end

