-- ==== Sys2Proof/Machine/Memory.lean ====
section
/-! DEFINITION. Scalar loads, stores and atomics (spec/11 R344, R345). A load reads memory when it issues, a store and an atomic are
performed when they issue: one order of those that the memory model allows (DESIGN CHOICE, log 5). -/
namespace Sys2Proof.Machine

/-- Adds counter events to a core's counters, which saturate (R42). -/
def Core.counted (k : Core) (ovf nan sat trn : Nat) : Core :=
  let top := 2 ^ 32 - 1
  { k with cntOvf := Nat.min top (k.cntOvf + ovf), cntNan := Nat.min top (k.cntNan + nan),
           cntSat := Nat.min top (k.cntSat + sat), cntTrn := Nat.min top (k.cntTrn + trn) }

/-- Counter events of a write performed at issue. -/
def countNow (ovf nan sat trn : Nat) : SlotM Unit :=
  modify fun s => s.updCore s.iss.core fun k => k.counted ovf nan sat trn

/-- The destination value of a loaded number of n bytes: zero- or sign-extended (R344). -/
def extend (u : Bool) (n v : Nat) : W64 := if u then BitVec.ofNat 64 v else w64 (sext v (8 * n))

/-- The bytes of an access code W (R218). -/
def accBytes (w : BitVec 2) : Nat := 2 ^ w.toNat

/-- `LD` (R344): the value is read at issue and lands at tick t + ARR. -/
def execLd (f : SM) (s : State) : Host.Outcome State Fault Refusal :=
  runSlot (do
    let a ← smAddress f
    let n := accBytes f.w
    let k ← addrS f.sp.toNat a n 0
    let s ← get
    let v := extend (f.fn.getLsbD 0) n (s.rdN k n)
    let w ← destS f.d.toNat v
    land false f.arr.toNat (arrBound f.sp.toNat s.iss.core a.toNat 0) a (globalPages f.sp.toNat [a.toNat]) w) s

/-- `ST` (R344). -/
def execSt (f : SM) (s : State) : Host.Outcome State Fault Refusal :=
  runSlot (do
    let a ← smAddress f
    let v ← rdS f.d.toNat
    let n := accBytes f.w
    let k ← addrS f.sp.toNat a n 1
    modify fun s => s.wrN k n v.toNat) s

/-- The aligned 8-byte unit that an `LDK` reads: through the constant cache, whose entry or whose location's present value may answer
(R341, log 13). -/
def kread (k : Nat) : SlotM W64 := do
  let s ← get
  let c := s.iss.core
  let now := BitVec.ofNat 64 (s.rdN (k / 8 * 8) 8)
  match (s.core c).kcache.find (k / 8) with
  | some old =>
    if Config.freeBool s.fresh then
      set { s with fresh := s.fresh + 1 }
      pure old
    else
      set { (s.updCore c fun q => { q with kcache := q.kcache.upd (k / 8) now }) with fresh := s.fresh + 1 }
      pure now
  | none =>
    set (s.updCore c fun q => { q with kcache := q.kcache.upd (k / 8) now })
    pure now

/-- `LDK` (R344, R341). -/
def execLdk (f : SM) (s : State) : Host.Outcome State Fault Refusal :=
  runSlot (do
    let a ← smAddress f
    let n := accBytes f.w
    let k ← addrS f.sp.toNat a n 3
    let u ← kread k
    let v := extend (f.fn.getLsbD 0) n (bitsN u.toNat (8 * (k % 8)) (8 * n))
    let w ← destS f.d.toNat v
    land false f.arr.toNat 1024 a (globalPages f.sp.toNat [a.toNat]) w) s

/-- The new value of an atomic on n bytes: m the old value, b the operand, d the old sD (R345). -/
def amoFn (op n m b d : Nat) : Nat :=
  let w := 8 * n
  let sm := sext m w
  let sb := sext b w
  match op with
  | 0 => (m + b) % 2 ^ w
  | 1 => if sb < sm then b else m
  | 2 => if sm < sb then b else m
  | 3 => if b < m then b else m
  | 4 => if m < b then b else m
  | 5 => Nat.land m b
  | 6 => Nat.lor m b
  | 7 => Nat.xor m b
  | 8 => b
  | 9 => if m = d then b else m
  | 10 => (roundTo 0 0 0 false ((decode 0 m).add false (decode 0 b))).1
  | _ => (roundTo 1 0 0 false ((decode 1 m).add false (decode 1 b))).1

/-- `AMO` (R345): one indivisible read and write; the old value lands in sD. -/
def execAmo (f : SQ) (s : State) : Host.Outcome State Fault Refusal :=
  runSlot (do
    let a ← rdS f.a.toNat
    let b ← rdS f.b.toNat
    let n := accBytes f.w
    let d ← if f.aop = 9 then rdS f.d.toNat else pure 0
    let k ← addrS f.sp.toNat a n 4
    let s ← get
    let m := s.rdN k n
    let w ← destS f.d.toNat (BitVec.ofNat 64 m)
    land false f.arr.toNat (arrBound f.sp.toNat s.iss.core a.toNat 2) a (globalPages f.sp.toNat [a.toNat]) w
    modify fun s => s.wrN k n (amoFn f.aop.toNat n m (b.toNat % 2 ^ (8 * n)) (d.toNat % 2 ^ (8 * n)))) s

end Sys2Proof.Machine
end

