-- ==== Sys2Proof/Machine/Matrix.lean ====
section
/-! DEFINITION. The M slot: checks against the issue-order view, and the entry of each instruction into its path (spec/10 R298 to R320). -/
namespace Sys2Proof.Machine

/-! ### Shared operations -/

/-- Bank rows by mode (R299). -/
def matKA (mode : Nat) : Nat :=
  match mode with
  | 0 => 512
  | 1 => 1024
  | _ => 4096

/-- Bits of a bank element by mode: BF16, INT8, TERN (R299). -/
def matBits (mode : Nat) : Nat :=
  match mode with
  | 0 => 16
  | 1 => 8
  | _ => 2

/-- Bytes of a feed element by mode (R312). -/
def feedW (mode : Nat) : Nat := if mode = 0 then 2 else 1

/-- A buffer's class for a mode: 0 BF16, 1 INT8 (R299). -/
def feedCls (mode : Nat) : Nat := if mode = 0 then 0 else 1

/-- MATRIX_RANGE with its operand field and opcode (R324). -/
def matRange {α : Type} (field op : Nat) : SlotM α := trapS 0x30 (BitVec.ofNat 64 (field + op * 16))

/-- The slots of a group (R303). -/
def groupSlots (slot g : Nat) : List Nat := (List.range g).map fun i => (slot + i) % 8

/-- The slots that an instruction that has not completed holds busy (R306): a multiply from its issue, a drain from its start. -/
def MOp.busy (o : MOp) : List Nat :=
  match o.work with
  | .mma _ _ _ slot m n _ => if m = 0 ∨ n = 0 then [] else groupSlots slot (cdiv n 128)
  | .mmag _ _ slot _ n _ _ _ _ _ => groupSlots slot (cdiv n 128)
  | .drain slot g _ _ _ _ _ _ _ _ _ => if o.start.isSome then groupSlots slot g else []
  | .drainV slot g _ _ _ _ _ _ _ => if o.start.isSome then groupSlots slot g else []
  | _ => []

/-- Whether an instruction is a gang's `MMAG`: no slice of its cores ends before it has completed (R315). -/
def MOp.gangs (o : MOp) : Bool :=
  match o.work with
  | .mmag _ _ _ _ _ _ _ _ _ _ => true
  | _ => false

/-- Whether a core takes part in an `MMAG` that has not completed. -/
def Core.inGang (k : Core) : Bool := k.sl.mx.ops.any MOp.gangs

/-- Whether a ring slot is busy. -/
def Matrix.busy (mx : Matrix) (slot : Nat) : Bool := mx.ops.any fun o => o.busy.contains slot

def Matrix.slot (mx : Matrix) (i : Nat) : RSlot := AMap.get RSlot.free mx.slots i

def Matrix.setSlot (mx : Matrix) (i : Nat) (r : RSlot) : Matrix := { mx with slots := mx.slots.put RSlot.free i r }

def Core.setMx (k : Core) (f : Matrix → Matrix) : Core := { k with sl := { k.sl with mx := f k.sl.mx } }

def State.updMx (s : State) (c : Nat) (f : Matrix → Matrix) : State := s.updCore c fun k => k.setMx f

/-- A path holds up to four instructions that have not started; a full path stalls the bundle (R305). -/
def Matrix.pathFull (mx : Matrix) (path : Nat) : Bool := 4 ≤ (mx.ops.filter fun o => o.path == path && o.start.isNone).length

def needPath (path : Nat) : SlotM Unit := do
  if (← curSl).mx.pathFull path then stallS

/-- The next number of a slice timeline (R308, R357). -/
def takeTl (k : Nat) : SlotM Nat := do
  let p := ((← curSl).tl k).take
  modSl fun x => x.setTl k p.2
  pure p.1

/-- Puts an instruction into a core's path. -/
def State.enterOp (s : State) (c id path num : Nat) (w : MWork) : State :=
  let k := s.core c
  let o : MOp :=
    { id := id, path := path, num := num, iss := k.ncyc, start := none, last := 0, done := 0,
      orec := s.recWords s.iss.core, lop := s.recLop s.iss.core, bundle := s.iss.pc, work := w }
  s.updMx c fun mx => { mx with ops := mx.ops ++ [o] }

/-- Issues an instruction on the issuing core's path under timeline k. -/
def issueOp (path k : Nat) (w : MWork) : SlotM Unit := do
  let num ← takeTl k
  let (id, s) := (← get).newId
  set (s.enterOp s.iss.core id path num w)

/-- An operand address in R134's ADDR form with SP 0 or 1; the space and the address. -/
def matLoc (v : W64) (field op : Nat) : SlotM (Nat × Nat) := do
  let sp := v.toNat / 2 ^ 62
  let a := v.toNat % 2 ^ 62
  if 2 ≤ sp ∨ (if sp = 0 then 2 ^ 21 else 2 ^ 25) ≤ a then matRange field op
  pure (sp, a)

/-- Whether n bytes at an address lie in one scratchpad of the space. -/
def padInside (sp a n : Nat) : Bool := a < (if sp = 0 then 2 ^ 21 else 2 ^ 25) && a % 2 ^ 21 + n ≤ 2 ^ 21

/-- The flat address of a private or cluster-shared address of a core. -/
def padFlat (c sp a : Nat) : Nat := if sp = 0 then padKey c a else padKey (16 * clOf c) a

/-- The live region that holds offset `off` of a core's scratchpad: its handle and the offset past its granules there (R302, R310). -/
def State.regionAt (s : State) (ctx core off : Nat) : Option (Nat × Nat) :=
  ((s.cluster (clOf core)).hnd.find? fun p =>
      p.1 / 4096 == ctx && p.2.st != 0 && p.2.region.space ≤ 1 && p.2.region.cores.contains core
        && p.2.region.g0 * 4096 ≤ off && off < (p.2.region.g0 + p.2.region.n) * 4096).map
    fun p => (p.1 % 4096, (p.2.region.g0 + p.2.region.n) * 4096)

/-! ### Gangs (R310, R315) -/

/-- GANG_STATE with its reason and the local index concerned (R324). -/
def gangState {α : Type} (reason l : Nat) : SlotM α := trapS 0x34 (BitVec.ofNat 64 (reason + l * 16))

/-- The gang of a core: cores 4j to 4j + 3. -/
def gangOf (c : Nat) : List Nat := (List.range 4).map (c / 4 * 4 + ·)

/-- The issuer leads a gang whose four cores all run slices of its context. -/
def needGang : SlotM (List Nat) := do
  let s ← get
  let c := s.iss.core
  if c % 4 ≠ 0 then gangState 0 (c % 16)
  let ctx := s.ctxOf c
  match (gangOf c).find? fun d => !((s.core d).run.any fun r => r.ctx == ctx) with
  | some d => gangState 1 (d % 16)
  | none => pure (gangOf c)

/-! ### Weight loads and swaps (R310, R311) -/

/-- The source record of an `MLDW`, checked. -/
def ldwSrc (f : MX) : SlotM WSrc := do
  let a ← rdS f.a.toNat
  let b ← rdS f.b.toNat
  let p ← rdS f.c.toNat
  let mode := f.mode.toNat
  let (sp, ad) ← matLoc a 1 1
  let kw := bitsN b.toNat 0 13
  let nw := bitsN b.toNat 16 10
  if b.toNat ≠ kw + nw * 65536 ∨ matKA mode < kw ∨ 512 < nw then matRange 2 1
  let rb := cdiv (nw * matBits mode) 8
  if p.toNat = 0 ∨ p.toNat % 64 ≠ 0 ∨ p.toNat < rb ∨ p.getLsbD 63 then matRange 3 1
  if ad % 64 ≠ 0 then matRange 5 1
  let n := if kw = 0 ∨ nw = 0 then 0 else (kw - 1) * p.toNat + rb
  if !padInside sp ad n then matRange 1 1
  let s ← get
  let core := if sp = 0 then s.iss.core else 16 * clOf s.iss.core + ad / 2 ^ 21
  let h ← if n = 0 then pure none else
    match s.regionAt (s.ctxOf s.iss.core) core (ad % 2 ^ 21) with
    | some (h, e) => if e < ad % 2 ^ 21 + n then matRange 1 1 else pure (some h)
    | none => pure none
  pure { addr := a, mode := mode, kw := kw, nw := nw, pitch := p.toNat, hnd := h }

/-- A private source address in cluster-shared form (R310). -/
def sharedForm (c : Nat) (a : W64) : W64 :=
  if a.toNat / 2 ^ 62 = 0 then BitVec.ofNat 64 (2 ^ 62 + c % 16 * 2 ^ 21 + a.toNat) else a

/-- The view's shadow bank takes an `MLDW`'s mode and source record; the region that its old record named is no longer pinned (R310). -/
def Matrix.takeSrc (mx : Matrix) (w : WSrc) : Matrix := { mx with vShd := w.mode, vSrcS := some w }

/-- `MLDW`, `MLDW.G`: the view's shadow bank takes the mode and the source record. -/
def execMldw (f : MX) (s : State) : Host.Outcome State Fault Refusal :=
  runSlot (do
    needPath 0
    let src ← ldwSrc f
    let c := (← get).iss.core
    if f.fn.getLsbD 0 then
      let gang ← needGang
      let s ← get
      if gang.any fun d => (s.core d).sl.mx.pathFull 0 then stallS
      let num ← takeTl 3
      let (id, s) := (← get).newId
      set (gang.foldl (fun s d =>
        let w := if d = c then src else { src with addr := sharedForm c src.addr }
        (s.enterOp d id 0 (if d = c then num else 0) (.ldw w true)).updMx d fun mx => mx.takeSrc w) s)
    else
      issueOp 0 3 (.ldw src false)
      modify fun s => s.updMx c fun mx => mx.takeSrc src) s

/-- `MSWAP`. -/
def execMswap (_ : MX) (s : State) : Host.Outcome State Fault Refusal :=
  runSlot (do
    needPath 2
    issueOp 2 3 .swap
    modify fun s => s.updMx s.iss.core fun mx =>
      { mx with vAct := mx.vShd, vShd := mx.vAct, vSrcA := mx.vSrcS, vSrcS := mx.vSrcA }) s

/-! ### The A feed (R312) -/

/-- A feed stream: its space must be 0 or 1. MX has no space field, so bits [6:5] of the detail word are free (DESIGN CHOICE, log 4). -/
def feedStream (n : Nat) : SlotM (Nat × W64) := do
  let s ← get
  let sp := (AMap.get Strm.zero (s.sl s.iss.core).strms n).sp.toNat
  if 2 ≤ sp then trapS 0x07 (ssDetail n sp ((Config.freeWord s.fresh).toNat % 4) false)
  let cur ← useStream n sp
  pure (sp, cur)

/-- The view's class and log length of a buffer. -/
def Matrix.vCls (mx : Matrix) (f1 : Bool) : Nat := if f1 then mx.vCls1 else mx.vCls0
def Matrix.vLog (mx : Matrix) (f1 : Bool) : Nat := if f1 then mx.vLog1 else mx.vLog0

def Matrix.setView (mx : Matrix) (f1 : Bool) (cls log : Nat) : Matrix :=
  if f1 then { mx with vCls1 := cls, vLog1 := log } else { mx with vCls0 := cls, vLog0 := log }

/-- Rows of a feed: each starts aligned to its element width, and its bytes lie in one scratchpad. -/
def feedRows (sp : Nat) (cur : W64) (pitch : W64) (rows w bytes op : Nat) : SlotM Unit :=
  ((List.range rows).map fun r => (cur + BitVec.ofNat 64 r * pitch).toNat).forM fun a => do
    if a % w ≠ 0 then matRange 5 op
    if !padInside sp a bytes ∧ 0 < bytes then matRange 1 op

/-- `MFEED`. -/
def execMfeed (f : MX) (s : State) : Host.Outcome State Fault Refusal :=
  runSlot (do
    needPath 1
    let a ← rdS f.a.toNat
    let b ← rdS f.b.toNat
    let p ← rdS f.c.toNat
    let mode := f.mode.toNat
    let f1 := f.fn.getLsbD 0
    let z := f.fn.getLsbD 1
    let (sp, cur) ← feedStream f.str.toNat
    if 64 < a.toNat then matRange 1 3
    let m := a.toNat
    let k0 := bitsN b.toNat 0 16
    let kn := bitsN b.toNat 16 16
    if b.toNat ≠ k0 + kn * 65536 ∨ matKA mode < k0 + kn then matRange 2 3
    feedRows sp cur p (Nat.max m 1) (feedW mode) (if m = 0 then 0 else kn * feedW mode) 3
    let mx := (← curSl).mx
    let cls := if z then 3 else mx.vCls f1
    let log := if z then 0 else mx.vLog f1
    let act := m ≠ 0 ∧ kn ≠ 0
    if act ∧ cls ≠ 3 ∧ cls ≠ feedCls mode then matRange 6 3
    if act ∧ 32 ≤ log then matRange 4 3
    issueOp 1 3 (.feed f1 z ⟨cur, sp, m, k0, kn, p.toInt, mode⟩)
    modify fun s => s.updMx s.iss.core fun mx =>
      if act then mx.setView f1 (feedCls mode) (log + 1) else mx.setView f1 cls log) s

/-! ### Multiplies (R313 to R315) -/

/-- The checks of R313 after the ranges, in order: a trap code with its detail, a stall, or neither. `cls` is the buffer's class; a gang
multiply has no buffer. -/
def Matrix.checkMul (mx : Matrix) (mode grp slot n : Nat) (cls : Option Nat) : Except Stop Unit := do
  let g := cdiv n 128
  let ss := groupSlots slot g
  let bad := match cls with
    | some c => c != 3 && c != feedCls mode
    | none => false
  if (mx.vAct ≠ mode ∧ mx.vAct ≠ 3) ∨ bad = true then
    throw (Stop.trap 0x31 (BitVec.ofNat 64 (mode + mx.vAct * 4 + cls.getD 3 * 16)) 0xFFFF)
  let order := Stop.trap 0x32 (BitVec.ofNat 64 (slot + mx.opnt * 16 + mx.dpnt * 256)) 0xFFFF
  if grp % 2 = 1 then
    if slot ≠ mx.opnt % 8 then throw order
    match ss.find? fun i => (mx.slot i).st == 1 || ((mx.slot i).st == 2 && !(mx.slot i).freeing) with
    | some i => throw (Stop.trap 0x33 (BitVec.ofNat 64 (i + (mx.slot i).st * 16)) 0xFFFF)
    | none => if ss.any fun i => mx.busy i || (mx.slot i).st != 0 then throw Stop.stall
  else
    let r := mx.slot slot
    if r.st ≠ 1 ∨ r.first ≠ slot ∨ r.g ≠ g ∨ r.int48 ≠ (mode != 0) then throw order
    if ss.any fun i => mx.busy i then throw Stop.stall

/-- CPNT advances over committed groups that lie directly after it (R303). -/
def Matrix.commit : Nat → Matrix → Matrix
  | 0, mx => mx
  | k + 1, mx =>
    let r := mx.slot (mx.cpnt % 8)
    if mx.cpnt ≠ mx.opnt ∧ r.st = 2 ∧ r.g ≠ 0 then Matrix.commit k { mx with cpnt := (mx.cpnt + r.g) % 16 } else mx

/-- The view after a multiply's group rules. -/
def Matrix.viewMul (mx : Matrix) (mode grp slot n : Nat) : Matrix :=
  let g := cdiv n 128
  let ss := groupSlots slot g
  let mx := if grp % 2 = 1 then
      { ss.foldl (fun m i => m.setSlot i ⟨1, mode != 0, g, slot, false⟩) mx with opnt := (mx.opnt + g) % 16 }
    else mx
  if 2 ≤ grp then Matrix.commit 8 (ss.foldl (fun m i => m.setSlot i { m.slot i with st := 2 }) mx) else mx

/-- `MMA` (R313). -/
def execMma (f : MX) (s : State) : Host.Outcome State Fault Refusal :=
  runSlot (do
    needPath 2
    let m := (← rdS f.a.toNat).toNat
    let n := (← rdS f.b.toNat).toNat
    let k := (← rdS f.c.toNat).toNat
    let mode := f.mode.toNat
    let f1 := f.fn.getLsbD 0
    if 64 < m then matRange 1 4
    if 512 < n then matRange 2 4
    if matKA mode < k then matRange 3 4
    let w := MWork.mma mode f.grp.toNat f1 f.sl.toNat m n k
    if m = 0 ∨ n = 0 then issueOp 2 3 w
    else
      let mx := (← curSl).mx
      match mx.checkMul mode f.grp.toNat f.sl.toNat n (some (mx.vCls f1)) with
      | .error e => throw e
      | .ok _ =>
        issueOp 2 3 w
        modify fun s => s.updMx s.iss.core fun mx => mx.viewMul mode f.grp.toNat f.sl.toNat n) s

/-- Rows of a gang multiply that fall to gang position j (R315). -/
def gangRows (m j : Nat) : Nat := Nat.min 64 (m - 64 * j)

/-- `MMAG` (R315). With no rows at all, or N = 0, it is a no-op on every core. -/
def execMmag (f : MX) (s : State) : Host.Outcome State Fault Refusal :=
  runSlot (do
    needPath 2
    let gang ← needGang
    let m := (← rdS f.a.toNat).toNat
    let n := (← rdS f.b.toNat).toNat
    let kp ← rdS f.c.toNat
    let mode := f.mode.toNat
    let k := bitsN kp.toNat 0 16
    let pitch := sext (bitsN kp.toNat 32 32) 32
    let (sp, cur) ← feedStream f.str.toNat
    if 256 < m then matRange 1 5
    if 384 < n then matRange 2 5
    if matKA mode < k ∨ bitsN kp.toNat 16 16 ≠ 0 then matRange 3 5
    feedRows sp cur (w64 pitch) (Nat.max m 1) (feedW mode) (if m = 0 then 0 else k * feedW mode) 5
    let c := (← get).iss.core
    let work := fun d => MWork.mmag mode f.grp.toNat f.sl.toNat (gangRows m (d % 4)) n k cur sp pitch c
    if m = 0 ∨ n = 0 then issueOp 2 3 (.mma mode f.grp.toNat false f.sl.toNat 0 0 k)
    else
      let s ← get
      gang.forM fun d => do
        match (s.core d).sl.mx.checkMul mode f.grp.toNat f.sl.toNat n none with
        | .ok _ => if (s.core d).sl.mx.pathFull 2 then stallS
        | .error (.trap code w h) => if d = c then throw (Stop.trap code w h) else gangState 2 (d % 16)
        | .error e => throw e
      let num ← takeTl 3
      let (id, s) := (← get).newId
      set (gang.foldl (fun s d => (s.enterOp d id 2 (if d = c then num else 0) (work d)).updMx d fun mx =>
        mx.viewMul mode f.grp.toNat f.sl.toNat n) s)) s

/-! ### Configuration, drains, clearing and status (R316 to R320) -/

/-- `MCFG` (R316). -/
def execMcfg (f : MX) (s : State) : Host.Outcome State Fault Refusal :=
  runSlot (do
    let v ← rdS f.a.toNat
    let b ← rdS f.b.toNat
    let g := v.toNat
    if 2 ^ 17 ≤ g ∨ bitsN g 14 2 ≠ 0 ∨ bitsN g 11 2 = 3 ∨ bitsN g 8 3 = 7 ∨ [11, 12, 15].contains (bitsN g 4 4) ∨ 5 < bitsN g 0 4 then
      matRange 1 6
    let (_, a) ← matLoc b 2 6
    if a % 4 ≠ 0 then matRange 5 6
    modify fun s => s.updMx s.iss.core fun mx => { mx with cfg := v, bias := b }) s

/-- The captured configuration of a drain, with RND and ES resolved at issue (R316, R30, R216). -/
def Slice.drainCfg (x : Slice) : W64 :=
  let g := x.mx.cfg.toNat
  let rnd := x.mode (bitsN g 8 3)
  let es := if x.sat (bitsN g 11 2) then 1 else 0
  BitVec.ofNat 64 (g - bitsN g 8 5 * 256 + rnd * 256 + es * 2048)

/-- The checks and the issue of `MDRAIN` with operands a, b and pitch p (R318). -/
def drainIssue (f : MX) (a b p : W64) : SlotM Unit := do
  let hold := f.fn.getLsbD 1
  let x ← curSl
  let mx := x.mx
  let first := mx.dpnt % 8
  let r := mx.slot first
  if mx.opnt = mx.dpnt ∨ r.st = 0 then trapS 0x32 (BitVec.ofNat 64 (f.sl.toNat + mx.opnt * 16 + mx.dpnt * 256))
  let g := r.g
  let cfg := x.drainCfg
  let fmt := bitsN cfg.toNat 4 4
  let bias := mx.bias
  let biasOk := fun (c0 n : Nat) =>
    !bitN cfg.toNat 13 || n == 0 || padInside (bias.toNat / 2 ^ 62) (bias.toNat % 2 ^ 62 + 4 * c0) (4 * n)
  if f.fn.getLsbD 0 then
    let row0 := bitsN b.toNat 0 6
    let col0 := bitsN b.toNat 16 9
    if 32 ≤ a.toNat then matRange 1 7
    if b.toNat ≠ row0 + col0 * 65536 ∨ row0 % 16 ≠ 0 ∨ col0 % 64 ≠ 0 ∨ 128 * g < col0 + 64 then matRange 2 7
    if [0, 1, 2, 7, 13].contains fmt = false then matRange 7 7
    if !biasOk col0 64 then matRange 8 7
    issueOp 3 2 (.drainV first g r.int48 hold (x.phys a.toNat) row0 col0 cfg bias)
  else
    let (sp, ad) ← matLoc a 1 7
    let m := bitsN b.toNat 0 7
    let n := bitsN b.toNat 16 10
    let h := bitsN b.toNat 32 16
    if b.toNat ≠ m + n * 65536 + h * 2 ^ 32 ∨ 64 < m ∨ 512 < n ∨ 128 * g < n ∨ (h ≠ 0xFFFF ∧ 4096 ≤ h) then matRange 2 7
    if p.toNat % 64 ≠ 0 then matRange 3 7
    if ad % 64 ≠ 0 then matRange 5 7
    let rb := packedBytes fmt n
    if n ≠ 0 ∧ (List.range m).any (fun i => !padInside sp ((BitVec.ofNat 64 ad + BitVec.ofNat 64 i * p).toNat) rb) then matRange 1 7
    if !biasOk 0 n then matRange 8 7
    issueOp 3 2 (.drain first g r.int48 hold m n a p.toInt (if h = 0xFFFF then none else some h) cfg bias)
  if !hold then
    modify fun s => s.updMx s.iss.core fun mx =>
      { (groupSlots first g).foldl (fun m i => m.setSlot i { m.slot i with freeing := true }) mx with
        dpnt := (mx.dpnt + g) % 16 }

/-- `MDRAIN`, `MDRAIN.V` (R318). -/
def execMdrain (f : MX) (s : State) : Host.Outcome State Fault Refusal :=
  runSlot (do
    needPath 3
    let a ← rdS f.a.toNat
    let b ← rdS f.b.toNat
    let p ← if f.fn.getLsbD 0 then pure 0 else rdS f.c.toNat
    let h := bitsN b.toNat 32 16
    naming (if f.fn.getLsbD 0 ∨ 4096 ≤ h then none else some h) (drainIssue f a b p)) s

/-- `MCLR` (R319): waits for every earlier instruction and drain; the view is cleared at issue. -/
def execMclr (f : MX) (s : State) : Host.Outcome State Fault Refusal :=
  runSlot (do
    if !(← curSl).mx.ops.isEmpty then stallS
    issueOp 2 3 (.clr (f.fn.getLsbD 0) (f.fn.getLsbD 1) (f.fn.getLsbD 2))
    modify fun s => s.updMx s.iss.core fun mx =>
      let mx := if f.fn.getLsbD 0 then { mx with slots := [], opnt := 0, cpnt := 0, dpnt := 0 } else mx
      let mx := if f.fn.getLsbD 1 then { mx with vAct := 3, vShd := 3, vSrcA := none, vSrcS := none } else mx
      if f.fn.getLsbD 2 then { mx with vCls0 := 3, vCls1 := 3, vLog0 := 0, vLog1 := 0 } else mx) s

/-- The items of `MSTAT` (R320). -/
def mstatVal (k : Core) (fn slot : Nat) : Nat :=
  let mx := k.sl.mx
  match fn with
  | 0 =>
    let r := mx.slot slot
    let e := AMap.get Ring.empty mx.ring slot
    e.ovf + e.nan * 2 ^ 16 + r.st * 2 ^ 32 + (if e.pois then 2 ^ 34 else 0) + (if r.int48 then 2 ^ 35 else 0) + r.g * 2 ^ 36
  | 1 => k.cntOvf
  | 2 => k.cntNan
  | 3 => k.cntSat
  | 4 => k.cntTrn
  | 5 => mx.opnt + mx.cpnt * 16 + mx.dpnt * 256
  | 6 => mx.cfg.toNat
  | _ => mx.act.mode + mx.shd.mode * 4

/-- `MSTAT`. -/
def execMstat (f : MX) (s : State) : Host.Outcome State Fault Refusal :=
  runSlot (do
    if !(← curSl).mx.ops.isEmpty then stallS
    let s ← get
    wrS f.a.toNat (BitVec.ofNat 64 (mstatVal (s.core s.iss.core) f.fn.toNat f.sl.toNat)) 2) s

end Sys2Proof.Machine
end

