-- ==== Sys2Proof/Machine/Vector.lean ====
section
/-! DEFINITION. The vector instructions that compute, move or compare register contents (spec/09 R267 to R297). An element's index is
64·row + col. -/
namespace Sys2Proof.Machine

/-! ### Elements (R267) -/

/-- Container i of a register. -/
def VReg.elem (v : VReg) (i : Nat) : Nat := v.toNat / 2 ^ (32 * i) % 2 ^ 32

/-- The format of an element type. -/
def tyFmt (ty : Nat) : Nat :=
  match ty with
  | 0 => 0
  | 1 => 7
  | 2 => 13
  | 3 => 1
  | _ => 2

/-- A floating-point element type. -/
def tyF (ty : Nat) : Bool := ty == 0 || 3 ≤ ty

/-- A container's code at a type. -/
def codeOf (ty c : Nat) : Nat := if 3 ≤ ty then c / 65536 else c

/-- A code's container at a type: the low half of BF16 and FP16 is zero. -/
def contOf (ty code : Nat) : Nat := if 3 ≤ ty then code * 65536 else code

/-- The value of a container. -/
def elemNum (ty c : Nat) : Num := decode (tyFmt ty) (codeOf ty c)

/-- The value of an integer container. -/
def elemInt (ty c : Nat) : Int := if ty = 1 then sext c 32 else (c : Int)

/-- The range of an integer type. -/
def tyRange (ty : Nat) : Int × Int := if ty = 1 then (-2 ^ 31, 2 ^ 31 - 1) else (0, 2 ^ 32 - 1)

/-- An integer result: wrapped, or clamped and counted (R272). -/
def intRes (ty : Nat) (clamp : Bool) (v : Int) : Nat × Nat :=
  let r := tyRange ty
  if clamp then (bitsZ (satZ v r.1 r.2) 32, if v < r.1 ∨ r.2 < v then 1 else 0) else (bitsZ v 32, 0)

/-- A floating-point result rounded once to its type, with SAT = 0 (R271). -/
def fltRes (ty mode r : Nat) (v : Num) : Nat × Nat := (contOf ty (roundTo (tyFmt ty) mode r false v).1, 0)

/-! ### Units and results -/

/-- The vector unit, 0 or 1, that a V slot binds to (R228): a fenced unit's slot goes to the other. -/
def Core.vu (k : Core) (slot : Nat) : Nat :=
  let u := slot - 1
  if k.ufence.contains (u + 1) then 1 - u else u

/-- Takes the slot's unit for `occ` cycles (R273). Two slots of one bundle on one unit are served in turn over two cycles (R229). -/
def useVU (occ lat : Nat) : SlotM Nat := do
  let s ← get
  let c := s.iss.core
  let k := s.core c
  let u := k.vu s.iss.slot
  let busy := if u = 0 then k.vu0Free else k.vu1Free
  let put := fun (k : Core) n => if u = 0 then { k with vu0Free := n } else { k with vu1Free := n }
  if s.iss.units.contains u then
    set (s.setCore c { put k (busy + occ) with extra := k.extra + 1 + (busy + occ - k.ncyc - lat - 1) })
    pure u
  else if k.ncyc < busy then stallS
  else
    let s := s.setCore c (put k (k.ncyc + occ))
    set { s with iss := { s.iss with units := u :: s.iss.units } }
    pure u

/-- The containers of enabled elements in ascending order, with the counted elements; an SR rounding steps each lane once (R270, R34). -/
def vbuild (mode base : Nat) (m : VMask) : List (Nat → Nat × Nat) → Nat → Slice → Nat × Nat × Slice
  | [], _, x => (0, 0, x)
  | f :: r, i, x =>
    if m.getLsbD i then
      let p := x.addend mode (base + i)
      let v := f p.1
      let w := vbuild mode base m r (i + 1) p.2
      (w.1 * 2 ^ 32 + v.1, w.2.1 + v.2, w.2.2)
    else
      let w := vbuild mode base m r (i + 1) x
      (w.1 * 2 ^ 32, w.2)

/-- Schedules a register result under a mask, with its counter events. -/
def wrV (lat d : Nat) (m : VMask) (u mode : Nat) (fs : List (Nat → Nat × Nat)) : SlotM Unit := do
  let x ← curSl
  let w := vbuild mode (1024 * u) m fs 0 x
  modSl fun _ => w.2.2
  pendW lat (.vreg (x.phys d) m (BitVec.ofNat 32768 w.1))
  pendCnt lat 0 0 w.2.1 0

/-- Every element's mask. -/
def vmAll : VMask := BitVec.allOnes 1024

/-- Indices of the elements. -/
def vidx : List Nat := List.range 1024

/-- An elementwise instruction without rounding: f takes the index. -/
def moveOp (occ lat d m : Nat) (f : Nat → Nat) : SlotM Unit := do
  let u ← useVU occ lat
  wrV lat d ((← curSl).mget m) u 0 (vidx.map fun i _ => (f i, 0))

/-- A rounding or integer elementwise instruction of VR: `g a b c r` of the containers and the addend gives a container and its count. -/
def elemOp (f : VR) (occ lat : Nat) (mode : Nat) (g : Nat → Nat → Nat → Nat → Nat × Nat) : SlotM Unit := do
  let u ← useVU occ lat
  let x ← curSl
  let a := x.vget f.a.toNat
  let b := x.vget f.b.toNat
  let c := x.vget f.c.toNat
  wrV lat f.d.toNat (x.mget f.m.toNat) u mode (vidx.map fun i r => g (a.elem i) (b.elem i) (c.elem i) r)

/-- The mode of a rounding VR instruction on a floating-point type; integers do not round. -/
def vrMode (f : VR) : SlotM Nat := do
  let x ← curSl
  pure (if tyF f.ty.toNat then x.mode f.rnd.toNat else 0)

/-! ### Elementwise arithmetic (R278 to R280) -/

/-- A two-operand function at a type. -/
def arith2 (ty mode : Nat) (clamp : Bool) (gf : Num → Num → Num) (gi : Int → Int → Int) (a b r : Nat) : Nat × Nat :=
  if tyF ty then fltRes ty mode r (gf (elemNum ty a) (elemNum ty b))
  else intRes ty clamp (gi (elemInt ty a) (elemInt ty b))

def execVadd (f : VR) (s : State) : Host.Outcome State Fault Refusal :=
  runSlot (do
    let m ← vrMode f
    elemOp f 4 6 m fun a b _ r => arith2 f.ty.toNat m (f.fn == 1) (Num.add (m == 2)) (· + ·) a b r) s

def execVsub (f : VR) (s : State) : Host.Outcome State Fault Refusal :=
  runSlot (do
    let m ← vrMode f
    elemOp f 4 6 m fun a b _ r => arith2 f.ty.toNat m (f.fn == 1) (fun x y => x.add (m == 2) y.negate) (· - ·) a b r) s

/-- `VMUL`; FN 2 `.HI` takes bits 63 to 32 of the exact product. -/
def execVmul (f : VR) (s : State) : Host.Outcome State Fault Refusal :=
  runSlot (do
    let m ← vrMode f
    elemOp f 4 6 m fun a b _ r =>
      arith2 f.ty.toNat m (f.fn == 1) Num.mul (fun x y => if f.fn = 2 then fdiv (x * y) (2 ^ 32) else x * y) a b r) s

/-- `VFMA`. -/
def execVfma (f : VR) (s : State) : Host.Outcome State Fault Refusal :=
  runSlot (do
    let m ← vrMode f
    let ty := f.ty.toNat
    elemOp f 4 6 m fun a b c r =>
      let p := (elemNum ty a).mul (elemNum ty b)
      let z := elemNum ty c
      fltRes ty m r ((if 2 ≤ f.fn.toNat then p.negate else p).add (m == 2) (if f.fn.toNat % 2 = 1 then z.negate else z))) s

/-- The chosen element of `VMIN` and `VMAX`: an exact choice, so its one rounding changes nothing but a NaN. -/
def pick2 (ty : Nat) (gf : Num → Num → Num) (gi : Int → Int → Int) (a b : Nat) : Nat × Nat :=
  if tyF ty then fltRes ty 1 0 (gf (elemNum ty a) (elemNum ty b)) else intRes ty false (gi (elemInt ty a) (elemInt ty b))

def execVmin (f : VR) (s : State) : Host.Outcome State Fault Refusal :=
  runSlot (elemOp f 4 6 0 fun a b _ _ => pick2 f.ty.toNat Num.min (fun x y => if y < x then y else x) a b) s

def execVmax (f : VR) (s : State) : Host.Outcome State Fault Refusal :=
  runSlot (elemOp f 4 6 0 fun a b _ _ => pick2 f.ty.toNat Num.max (fun x y => if x < y then y else x) a b) s

def execVabs (f : VR) (s : State) : Host.Outcome State Fault Refusal :=
  runSlot (elemOp f 4 6 0 fun a _ _ _ =>
    if tyF f.ty.toNat then fltRes f.ty.toNat 1 0 (elemNum f.ty.toNat a).abs
    else intRes f.ty.toNat (f.fn == 1) (elemInt f.ty.toNat a).natAbs) s

def execVneg (f : VR) (s : State) : Host.Outcome State Fault Refusal :=
  runSlot (elemOp f 4 6 0 fun a _ _ _ =>
    if tyF f.ty.toNat then fltRes f.ty.toNat 1 0 (elemNum f.ty.toNat a).negate
    else intRes f.ty.toNat (f.fn == 1) (-elemInt f.ty.toNat a)) s

/-- `VAND`; FN 1 is a AND NOT b (R279). -/
def execVand (f : VR) (s : State) : Host.Outcome State Fault Refusal :=
  runSlot (elemOp f 4 6 0 fun a b _ _ => (if f.fn = 1 then Nat.land a (2 ^ 32 - 1 - b) else Nat.land a b, 0)) s

def execVor (f : VR) (s : State) : Host.Outcome State Fault Refusal := runSlot (elemOp f 4 6 0 fun a b _ _ => (Nat.lor a b, 0)) s
def execVxor (f : VR) (s : State) : Host.Outcome State Fault Refusal := runSlot (elemOp f 4 6 0 fun a b _ _ => (Nat.xor a b, 0)) s

/-- A VI instruction over one register: `g src a` gives a container and its count. -/
def shiftOp (f : VI) (g : W64 → Nat → Nat × Nat) : SlotM Unit := do
  let v ← viVal f
  let u ← useVU 4 6
  let x ← curSl
  let a := x.vget f.a.toNat
  wrV 6 f.d.toNat (x.mget f.m.toNat) u 0 (vidx.map fun i _ => g v (a.elem i))

/-- `VSHL` (R280): every amount of 64 or more acts as 64. -/
def execVshl (f : VI) (s : State) : Host.Outcome State Fault Refusal :=
  runSlot (shiftOp f fun v a =>
    intRes f.ty.toNat (f.fn == 1) (elemInt f.ty.toNat a * 2 ^ (Nat.min v.toNat 64))) s

/-- `VSHR` (R280). -/
def execVshr (f : VI) (s : State) : Host.Outcome State Fault Refusal :=
  runSlot (shiftOp f fun v a =>
    let n := Nat.min v.toNat 64
    let z := elemInt f.ty.toNat a
    (bitsZ (fdiv (if f.fn = 1 ∧ 1 ≤ n then z + 2 ^ (n - 1) else z) (2 ^ n)) 32, 0)) s

/-! ### Compare and select (R281, R282) -/

/-- A mask of the elements that meet p. -/
def maskOf (p : Nat → Bool) : VMask := BitVec.ofNat 1024 (vidx.foldr (fun i w => w * 2 + if p i then 1 else 0) 0)

/-- `VCMP`: every bit of the mask is written. -/
def execVcmp (f : VR) (s : State) : Host.Outcome State Fault Refusal :=
  runSlot (do
    let _ ← useVU 4 6
    let x ← curSl
    let a := x.vget f.a.toNat
    let b := x.vget f.b.toNat
    let ty := f.ty.toNat
    let c := fun i => if tyF ty then numCond f.fn.toNat (elemNum ty (a.elem i)) (elemNum ty (b.elem i))
      else intCond f.fn.toNat (elemInt ty (a.elem i)) (elemInt ty (b.elem i))
    pendW 6 (.vmask (f.d.toNat % 8) (x.mget f.m.toNat &&& maskOf c))) s

/-- `VSEL`: every element is written. -/
def execVsel (f : VR) (s : State) : Host.Outcome State Fault Refusal :=
  runSlot (do
    let u ← useVU 4 6
    let x ← curSl
    let a := x.vget f.a.toNat
    let b := x.vget f.b.toNat
    let m := x.mget f.m.toNat
    wrV 6 f.d.toNat vmAll u 0 (vidx.map fun i _ => (if m.getLsbD i then a.elem i else b.elem i, 0))) s

/-! ### Conversion and special functions (R283 to R286) -/

/-- The container that holds a converted value (R283). -/
def cvtCont (g code : Nat) : Nat :=
  match g with
  | 1 | 2 => code * 65536
  | 3 | 4 | 5 | 6 => toF32 (decode g code)
  | 8 => bitsZ (sext code 16) 32
  | 9 => bitsZ (sext code 8) 32
  | 10 => bitsZ (sext code 4) 32
  | _ => code

/-- `VCVT`. -/
def execVcvt (f : VR) (s : State) : Host.Outcome State Fault Refusal :=
  runSlot (do
    let x ← curSl
    let m := x.mode f.rnd.toNat
    let sat := x.sat f.es.toNat
    let g := f.fn.toNat % 16
    elemOp f 4 6 m fun a _ _ r =>
      let v := roundTo g m r sat (elemNum f.ty.toNat a)
      (cvtCont g v.1, if v.2 then 1 else 0)) s

/-- `VSFU`: the rounding field has no effect. -/
def execVsfu (f : VR) (s : State) : Host.Outcome State Fault Refusal :=
  runSlot (elemOp f 8 12 0 fun a _ _ _ => (sfu (f.fn.toNat % 8) a, 0)) s

/-- a · 2^n exactly; beyond ±1,000 every n acts alike, since the result then overflows or underflows. -/
def scaleNum (v : Num) (n : Int) : Num :=
  match v with
  | .fin s a d => let p := scale2 a d (satZ n (-1000) 1000); .fin s p.1 p.2
  | x => x

/-- `VSCALE`. -/
def execVscale (f : VR) (s : State) : Host.Outcome State Fault Refusal :=
  runSlot (do
    let m ← vrMode f
    elemOp f 4 6 m fun a b _ r => fltRes f.ty.toNat m r (scaleNum (elemNum f.ty.toNat a) (sext b 32))) s

/-- Byte j of a container, signed or unsigned. -/
def byteZ (signed : Bool) (c j : Nat) : Int := if signed then sext (bitsN c (8 * j) 8) 8 else (bitsN c (8 * j) 8 : Int)

/-- `VDOT4`: `.SS`, `.UU`, `.SU`. -/
def execVdot4 (f : VR) (s : State) : Host.Outcome State Fault Refusal :=
  runSlot (elemOp f 4 6 0 fun a b c _ =>
    let t := [0, 1, 2, 3].map fun j => byteZ (f.fn != 1) a j * byteZ (f.fn == 0) b j
    intRes 1 true (sext c 32 + sumZ t)) s

/-! ### Iota, splat and single elements (R287 to R290) -/

/-- `VIOTA`: linear, `.COL`, `.ROW`. -/
def execViota (f : VI) (s : State) : Host.Outcome State Fault Refusal :=
  runSlot (do
    let v ← viVal f
    moveOp 4 6 f.d.toNat f.m.toNat fun i =>
      let k := match f.fn.toNat with
        | 0 => i
        | 1 => i % 64
        | _ => i / 64
      let z := (k : Int) + v.toInt
      if f.ty = 0 then toF32 (.int z) else bitsZ z 32) s

/-- The container that a scalar value fills (R288, R290). -/
def splatOf (ty : Nat) (v : W64) : Nat := if 3 ≤ ty then v.toNat % 65536 * 65536 else v.toNat % 2 ^ 32

/-- `VSPLAT`. -/
def execVsplat (f : VI) (s : State) : Host.Outcome State Fault Refusal :=
  runSlot (do
    let v ← viVal f
    moveOp 4 6 f.d.toNat f.m.toNat fun _ => splatOf f.ty.toNat v) s

/-- The scalar form of a container (R289). -/
def scalarOf (ty c : Nat) : W64 := if ty = 1 then w64 (sext c 32) else BitVec.ofNat 64 (codeOf ty c)

/-- `VMOVS`. -/
def execVmovs (f : VI) (s : State) : Host.Outcome State Fault Refusal :=
  runSlot (do
    let p ← viVal f
    let _ ← useVU 1 4
    let a := (← curSl).vget f.a.toNat
    wrS (32 * (f.fn.toNat % 2) + f.d.toNat) (scalarOf f.ty.toNat (a.elem (p.toNat % 1024))) 4) s

/-- `VINS`: one element. -/
def execVins (f : VI) (s : State) : Host.Outcome State Fault Refusal :=
  runSlot (do
    let v ← viVal f
    let _ ← useVU 1 4
    let x ← curSl
    let i := bitsN v.toNat 32 10
    pendW 4 (.vreg (x.phys f.d.toNat) (BitVec.ofNat 1024 (2 ^ i)) (BitVec.ofNat 32768 (splatOf f.ty.toNat v * 2 ^ (32 * i))))) s

/-! ### Rotations and broadcasts (R291) -/

/-- A move along an axis: `pick src row col` names the source element, none for zero bits. -/
def axisOp (f : VI) (lat : Nat) (pick : W64 → Nat → Nat → Option Nat) : SlotM Unit := do
  let v ← viVal f
  let a := (← curSl).vget f.a.toNat
  moveOp 2 lat f.d.toNat f.m.toNat fun i => match pick v (i / 64) (i % 64) with
    | some j => a.elem j
    | none => 0

/-- An index moved by a signed amount, if it stays below n (R291 `.Z`). -/
def shiftIdx (i n : Nat) (v : W64) : Option Nat :=
  let z := (i : Int) + v.toInt
  if 0 ≤ z ∧ z < n then some z.toNat else none

def execVrotr (f : VI) (s : State) : Host.Outcome State Fault Refusal :=
  runSlot (axisOp f 3 fun v row col =>
    if f.fn = 1 then (shiftIdx col 64 v).map (64 * row + ·) else some (64 * row + (col + v.toNat % 64) % 64)) s

def execVrotc (f : VI) (s : State) : Host.Outcome State Fault Refusal :=
  runSlot (axisOp f 2 fun v row col =>
    if f.fn = 1 then (shiftIdx row 16 v).map (64 * · + col) else some (64 * ((row + v.toNat % 16) % 16) + col)) s

def execVbcr (f : VI) (s : State) : Host.Outcome State Fault Refusal :=
  runSlot (axisOp f 3 fun v row _ => some (64 * row + v.toNat % 64)) s

def execVbcc (f : VI) (s : State) : Host.Outcome State Fault Refusal :=
  runSlot (axisOp f 2 fun v _ col => some (64 * (v.toNat % 16) + col)) s

/-! ### Reductions and scans (R292, R293, R40) -/

/-- An addition rounded under RNE to FP32. -/
def addF32 (a b : Num) : Num := decode 0 (toF32 (a.add false b))

/-- The operation of a reduction on values: 0 add, 1 max, 2 min. -/
def redNum (fn : Nat) : Num → Num → Num :=
  match fn with
  | 0 => addF32
  | 1 => Num.max
  | _ => Num.min

/-- The operation of a reduction on integers. -/
def redInt (fn : Nat) (a b : Int) : Int :=
  match fn with
  | 0 => a + b
  | 1 => if a < b then b else a
  | _ => if b < a then b else a

/-- The identity on values (R126). -/
def idNum (fn : Nat) : Num :=
  match fn with
  | 0 => .zero
  | 1 => .inf true
  | _ => .inf false

/-- The identity on integers of a type (R126). -/
def idInt (fn ty : Nat) : Int :=
  match fn with
  | 0 => 0
  | 1 => (tyRange ty).1
  | _ => (tyRange ty).2

/-- The pairwise tree of R40: for d = 2^(k−1) down to 1, element c takes c ∘ (c + d) for every c < d. -/
def treeRed {α : Type} (op : α → α → α) : Nat → List α → List α
  | 0, l => l
  | k + 1, l => treeRed op k (List.zipWith op (l.take (2 ^ k)) (l.drop (2 ^ k)))

/-- An input of a reduction: a value, or an integer. -/
def redIn (fn ty : Nat) (a : VReg) (m : VMask) (i : Nat) : Num ⊕ Int :=
  if tyF ty then .inl (if m.getLsbD i then elemNum ty (a.elem i) else idNum fn)
  else .inr (if m.getLsbD i then elemInt ty (a.elem i) else idInt fn ty)

/-- The operation of a reduction on either kind. -/
def redOp (fn : Nat) : Num ⊕ Int → Num ⊕ Int → Num ⊕ Int
  | .inl a, .inl b => .inl (redNum fn a b)
  | .inr a, .inr b => .inr (redInt fn a b)
  | a, _ => a

/-- `result(acc)`: rounded to BF16 or FP16, kept as FP32, or clamped and counted. -/
def redRes (ty mode r : Nat) : Num ⊕ Int → Nat × Nat
  | .inl v => fltRes ty (if ty = 0 then 0 else mode) r v
  | .inr z => intRes ty true z

/-- The results of the lines of a reduction, in order, with the lane of each (R292). -/
def redLines (ty mode base : Nat) : List (Nat × (Num ⊕ Int)) → Slice → List Nat × Nat × Slice
  | [], x => ([], 0, x)
  | (lane, v) :: r, x =>
    let p := if 3 ≤ ty then x.addend mode (base + lane) else (0, x)
    let y := redRes ty mode p.1 v
    let w := redLines ty mode base r p.2
    (y.1 :: w.1, w.2.1 + y.2, w.2.2)

/-- `VREDR` and `VREDC`: lines of 2^k elements; `at_ line j` is element j of a line, `line i` the line of element i. -/
def redVec (f : VR) (lat lines k : Nat) (at_ : Nat → Nat → Nat) (lineOf : Nat → Nat) : SlotM Unit := do
  let u ← useVU 4 lat
  let x ← curSl
  let fn := f.fn.toNat % 4
  let ty := f.ty.toNat
  let a := x.vget f.a.toNat
  let m := x.mget f.m.toNat
  let ls := (List.range lines).map fun l =>
    (at_ l 0, (treeRed (redOp fn) k ((List.range (2 ^ k)).map fun j => redIn fn ty a m (at_ l j))).headD (.inr 0))
  let (vs, cnt, y) := redLines ty (x.mode f.rnd.toNat) (1024 * u) ls x
  modSl fun _ => y
  wrV lat f.d.toNat vmAll u 0 (vidx.map fun i _ =>
    (if f.fn.getLsbD 2 || at_ (lineOf i) 0 == i then vs.getD (lineOf i) 0 else 0, 0))
  pendCnt lat 0 0 cnt 0

def execVredr (f : VR) (s : State) : Host.Outcome State Fault Refusal :=
  runSlot (redVec f 7 16 6 (fun l j => 64 * l + j) (· / 64)) s

def execVredc (f : VR) (s : State) : Host.Outcome State Fault Refusal :=
  runSlot (redVec f 5 64 4 (fun l j => 64 * j + l) (· % 64)) s

/-- The accumulators of a serial scan of one row: before each element, or after it. -/
def scanAcc {α : Type} (op : α → α → α) (ex : Bool) : α → List α → List α
  | _, [] => []
  | acc, v :: r => (if ex then acc else op acc v) :: scanAcc op ex (op acc v) r

/-- `VSCANR`. -/
def execVscanr (f : VR) (s : State) : Host.Outcome State Fault Refusal :=
  runSlot (do
    let u ← useVU 8 16
    let x ← curSl
    let fn := f.fn.toNat % 4
    let ty := f.ty.toNat
    let a := x.vget f.a.toNat
    let m := x.mget f.m.toNat
    let mode := if 3 ≤ ty then x.mode f.rnd.toNat else 0
    let id : Num ⊕ Int := if tyF ty then .inl (idNum fn) else .inr (idInt fn ty)
    let acc := (List.range 16).flatMap fun l =>
      scanAcc (redOp fn) (f.fn.getLsbD 2) id ((List.range 64).map fun j => redIn fn ty a m (64 * l + j))
    wrV 16 f.d.toNat vmAll u mode (acc.map fun v r => redRes ty mode r v)) s

/-! ### Transpose, permutation, compare-exchange (R294 to R296) -/

def execVtrn (f : VR) (s : State) : Host.Outcome State Fault Refusal :=
  runSlot (do
    let a := (← curSl).vget f.a.toNat
    moveOp 4 6 f.d.toNat f.m.toNat fun i =>
      let row := i / 64
      let col := i % 64
      a.elem (64 * (col % 16) + 16 * (col / 16) + row)) s

/-- `VPERMR`: FN bit 0 `.Z`, bit 1 `.2`. -/
def execVpermr (f : VR) (s : State) : Host.Outcome State Fault Refusal :=
  runSlot (elemIdx f fun a c x row =>
    let w := if f.fn.getLsbD 1 then 7 else 6
    let t := x % 2 ^ w
    if f.fn.getLsbD 0 && x / 2 ^ w != 0 then 0
    else if t < 64 then a.elem (64 * row + t) else c.elem (64 * row + (t - 64))) s
where
  elemIdx (f : VR) (g : VReg → VReg → Nat → Nat → Nat) : SlotM Unit := do
    let x ← curSl
    let b := x.vget f.b.toNat
    moveOp 4 6 f.d.toNat f.m.toNat fun i => g (x.vget f.a.toNat) (x.vget f.c.toNat) (b.elem i) (i / 64)

/-- Whether x stands above y in the order of R133 at a type (R296). -/
def above (ty x y : Nat) : Bool :=
  if tyF ty then (elemNum ty y).below (elemNum ty x) else decide (elemInt ty y < elemInt ty x)

/-- Whether the pair of element i is exchanged; i has bit J clear (R296). -/
def cmxSwap (ty j dir : Nat) (a : VReg) (i : Nat) : Bool :=
  let x := a.elem i
  let y := a.elem (i + 2 ^ j)
  if dir = 10 ∨ (dir ≤ 9 ∧ bitN i dir = false) then above ty x y else above ty y x

/-- `VCMX`. -/
def execVcmx (f : VR) (s : State) : Host.Outcome State Fault Refusal :=
  runSlot (do
    let u ← useVU 4 6
    let x ← curSl
    let j := f.fn.toNat % 16
    let a := x.vget f.a.toNat
    let c := x.vget f.c.toNat
    let sw := fun i => cmxSwap f.ty.toNat j f.b.toNat a (if bitN i j then i - 2 ^ j else i)
    let from_ := fun i => if sw i then (if bitN i j then i - 2 ^ j else i + 2 ^ j) else i
    wrV 6 f.d.toNat vmAll u 0 (vidx.map fun i _ => (a.elem (from_ i), 0))
    if f.fn.getLsbD 4 then wrV 6 f.c.toNat vmAll u 0 (vidx.map fun i _ => (c.elem (from_ i), 0))) s

/-! ### Mask operations (R297) -/

/-- The logic functions of `VMASK`. -/
def maskFn (fn : Nat) (a b : VMask) : VMask :=
  match fn with
  | 0 => a &&& b
  | 1 => a ||| b
  | 2 => a ^^^ b
  | 3 => a &&& ~~~b
  | 4 => ~~~a
  | 5 => vmAll
  | 6 => 0
  | _ => a

/-- `VMASK`. -/
def execVmask (f : VR) (s : State) : Host.Outcome State Fault Refusal :=
  runSlot (do
    let fn := f.fn.toNat
    let x ← curSl
    if fn = 8 then
      let _ ← useVU 4 6
      let a := x.vget f.a.toNat
      pendW 6 (.vmask (f.d.toNat % 8) (maskOf fun i => a.elem i != 0))
    else if fn = 9 then
      let u ← useVU 4 6
      let m := x.mget (f.a.toNat % 8)
      wrV 6 f.d.toNat vmAll u 0 (vidx.map fun i _ => (if m.getLsbD i then (if f.ty = 0 then 0x3F800000 else 1) else 0, 0))
    else
      let _ ← useVU 1 2
      pendW 2 (.vmask (f.d.toNat % 8) (maskFn fn (x.mget (f.a.toNat % 8)) (x.mget (f.b.toNat % 8))))) s

end Sys2Proof.Machine
end

