-- ==== Sys2Proof/Machine/VecMem.lean ====
section
/-! DEFINITION. Vector loads, stores, gathers and scatters (spec/11 R346, R347). -/
namespace Sys2Proof.Machine

/-! ### Formats in memory and in containers (R346, R27) -/

/-- Formats whose container holds the encoding itself. -/
def sameFmt (g : Nat) : Bool := [0, 1, 2, 7, 13].contains g

/-- The container of a loaded code, with 1 for TERN's reserved code (R25). -/
def loadCont (g code : Nat) : Nat × Nat :=
  if g = 1 ∨ g = 2 then (code * 65536, 0)
  else if sameFmt g then (code, 0)
  else
    match g with
    | 8 => (bitsZ (sext code 16) 32, 0)
    | 9 => (bitsZ (sext code 8) 32, 0)
    | 10 => (bitsZ (sext code 4) 32, 0)
    | 11 => (if code = 1 then 1 else if code = 3 then 2 ^ 32 - 1 else 0, if code = 2 then 1 else 0)
    | 14 => (code, 0)
    | _ => (toF32 (decode g code), 0)

/-- The class's format of a stored format's container: FP32, INT32 or UINT32. -/
def contFmt (g : Nat) : Nat := if g = 14 then 13 else if 7 ≤ g then 7 else 0

/-- The code that a store writes for a container, and whether it is counted: bits unchanged where the container holds the encoding. -/
def storeCode (g mode : Nat) (sat : Bool) (c r : Nat) : Nat × Bool :=
  if g = 1 ∨ g = 2 then (c / 65536, false)
  else if sameFmt g then (c, false)
  else roundTo g mode r sat (decode (contFmt g) c)

/-- Bytes of a row of 64 elements. -/
def rowBytes (g : Nat) : Nat := 8 * fmtBits g

/-- Element j of a row held as a little-endian number. -/
def rowElem (g row j : Nat) : Nat := bitsN row (fmtBits g * j) (fmtBits g)

/-! ### Checks and addresses -/

/-- MEM_ALIGN when `ok` fails. -/
def alignOr (ok : Bool) (sp a el : Nat) : SlotM Unit := if ok then pure () else trapS 0x11 (memDetail sp a el)

/-- Runs a check on every element of a list. -/
def forAll {α : Type} (g : α → SlotM Unit) : List α → SlotM Unit
  | [] => pure ()
  | a :: r => do g a; forAll g r

/-- Collects a value for every element of a list. -/
def collect {α β : Type} (g : α → SlotM β) : List α → SlotM (List β)
  | [] => pure []
  | a :: r => do
    let b ← g a
    return b :: (← collect g r)

/-- The flat addresses of the 64-byte pieces of n bytes at an address: a part follows its own page (R336). -/
def piecesS (sp a n acc : Nat) : SlotM (List (Nat × Nat)) :=
  collect (fun j => do
    let k ← flatS sp (a + 64 * j) acc
    pure (k, Nat.min 64 (n - 64 * j))) (List.range (cdiv n 64))

/-- The row addresses of `VLD` and `VST`, the base first, checked in the order of R326, with their flat pieces. -/
def vmRows (f : VM) (acc : Nat) : SlotM (List Nat × List (List (Nat × Nat))) := do
  let base ← vmAddress f
  let n := rowBytes f.fmt.toNat
  let sp := f.sp.toNat
  let pitch : W64 ← match f.fn.toNat with
    | 0 => pure (BitVec.ofNat 64 (Nat.max 64 (64 * cdiv n 64)))
    | 1 => rdS (f.a.toNat + 1)
    | _ => pure 0
  let rows := (List.range (if f.fn = 2 then 1 else 16)).map fun r => (base + BitVec.ofNat 64 r * pitch).toNat
  forAll (fun a => checkRange sp a n 0) rows
  alignOr (base.toNat % 64 == 0 && pitch.toNat % 64 == 0) sp base.toNat 0
  let ps ← collect (fun a => piecesS sp a n acc) rows
  forAll (fun a => touchChip sp a n) rows
  pure (rows, ps)

/-- The bytes of a row as a number. -/
def State.rdPieces (s : State) : List (Nat × Nat) → Nat
  | [] => 0
  | (k, n) :: r => s.rdN k n + 2 ^ (8 * n) * s.rdPieces r

/-- Stores a number into a row's pieces. -/
def State.wrPieces (s : State) (v : Nat) : List (Nat × Nat) → State
  | [] => s
  | (k, n) :: r => (s.wrN k n v).wrPieces (v / 2 ^ (8 * n)) r

/-- Packs containers, element 0 lowest. -/
def packV : List Nat → Nat
  | [] => 0
  | c :: r => packV r * 2 ^ 32 + c

/-- `VLD` (R346): lands at tick t + ARR; the landing write does not occupy the unit. -/
def execVld (f : VM) (s : State) : Host.Outcome State Fault Refusal :=
  runSlot (do
    let _ ← useVU 4 f.arr.toNat
    let (as_, ps) ← vmRows f 0
    let base := as_.headD 0
    let s ← get
    let x ← curSl
    let m := x.mget f.m.toNat
    let g := f.fmt.toNat
    let rows := ps.map s.rdPieces
    let cs := vidx.map fun i => loadCont g (rowElem g (rows.getD (if f.fn = 2 then 0 else i / 64) 0) (i % 64))
    let trn := ((cs.zip vidx).filter fun p => m.getLsbD p.2 && p.1.2 == 1).length
    let b := rowBytes g * ps.length
    land true f.arr.toNat (arrBound f.sp.toNat s.iss.core base (cdiv b 512)) (BitVec.ofNat 64 base)
      (globalPages f.sp.toNat (as_.flatMap fun a => [a, a + rowBytes g - 1])) (some (.vreg (x.phys f.d.toNat) m (BitVec.ofNat 32768 (packV (cs.map (·.1))))))
    pendCnt f.arr.toNat 0 0 0 trn) s

/-- The codes that a store writes for a list of (element, old code, container), in ascending order, with the counted ones: a disabled
element keeps its old code and steps no lane (R270, R32). -/
def storeCodes (g mode base : Nat) (sat : Bool) (m : VMask) : List (Nat × Nat × Nat) → Slice → List Nat × Nat × Slice
  | [], x => ([], 0, x)
  | (i, old, c) :: r, x =>
    if m.getLsbD i then
      let p := if sameFmt g then (0, x) else x.addend mode (base + i)
      let v := storeCode g mode sat c p.1
      let w := storeCodes g mode base sat m r p.2
      (v.1 :: w.1, w.2.1 + (if v.2 then 1 else 0), w.2.2)
    else
      let w := storeCodes g mode base sat m r x
      (old :: w.1, w.2)

/-- Packs codes of a format into a row's number. -/
def packRow (g : Nat) : List Nat → Nat
  | [] => 0
  | c :: r => packRow g r * 2 ^ fmtBits g + c

/-- `VST` (R346): performed at issue. -/
def execVst (f : VM) (s : State) : Host.Outcome State Fault Refusal :=
  runSlot (do
    let u ← useVU 4 4
    let (_, ps) ← vmRows f 1
    let x ← curSl
    let g := f.fmt.toNat
    let v := x.vget f.d.toNat
    let m := x.mget f.m.toNat
    forAll (fun p => do
      let s ← get
      let y ← curSl
      let old := s.rdPieces p.2
      let es := (List.range 64).map fun j => (64 * p.1 + j, rowElem g old j, v.elem (64 * p.1 + j))
      let w := storeCodes g (y.mode f.rnd.toNat) (1024 * u) (y.sat f.es.toNat) m es y
      modSl fun _ => w.2.2
      modify fun s => s.wrPieces (packRow g w.1) p.2
      countNow 0 0 w.2.1 0) ((List.range 16).zip ps)) s

/-- The address sA + x·z of an element: exact (R4), so that a sum below zero or beyond 64 bits stays out of every range; a negative one is
written modulo 2^64, above every space. -/
def vgAddr (base : W64) (ix z : Nat) : Nat :=
  let a : Int := base.toNat + sext ix 32 * z
  if 0 ≤ a then a.toNat else bitsZ a 64

/-- The addresses of the enabled elements of a gather or scatter, each checked in the order of R326, in ascending index (R347). Space 2 is the
element's lane slice. -/
def vgAddrs (f : VG) : SlotM (List (Nat × Nat)) := do
  let base ← rdS f.a.toNat
  let x ← curSl
  let ix := x.vget f.ix.toNat
  let m := x.mget f.m.toNat
  let z := fmtBits f.fmt.toNat / 8
  let sp := f.sp.toNat
  let as_ := (vidx.filter fun i => m.getLsbD i).map fun i => (i, vgAddr base (ix.elem i) z)
  forAll (fun p => do
    if sp = 2 then (if 4096 < p.2 + z then trapS 0x10 (memDetail sp p.2 p.1) else pure ()) else checkRange sp p.2 z p.1
    alignOr (p.2 % z == 0) sp p.2 p.1) as_
  pure as_

/-- Reads an element of z bytes at a checked address of a gather. -/
def vgRead (s : State) (sp z i a : Nat) : Nat :=
  if sp = 2 then ofBytes ((List.range z).map fun j => AMap.get 0 (s.sl s.iss.core).lanes (4096 * (i % 64) + a + j))
  else s.rdN ((if sp = 0 then padKey s.iss.core a else padKey (16 * clOf s.iss.core) a)) z

/-- Writes bytes of a lane slice. -/
def Slice.wrLane (x : Slice) (k : Nat) : List Byte → Slice
  | [] => x
  | b :: r => { x with lanes := x.lanes.put 0 k b }.wrLane (k + 1) r

/-- Writes an element of a scatter. -/
def vgWrite (s : State) (sp z i a v : Nat) : State :=
  if sp = 2 then s.updSl s.iss.core fun x => x.wrLane (4096 * (i % 64) + a) (toBytes v z)
  else s.wrN (if sp = 0 then padKey s.iss.core a else padKey (16 * clOf s.iss.core) a) z v

/-- The largest number of distinct 16-byte units read in one bank of one scratchpad: 32 banks of 16 bytes (R11, R331). -/
def bankConflicts (as_ : List Nat) : Nat :=
  let us := (as_.map (· / 16)).eraseDups
  maxN (us.map fun u => (us.filter fun v => v % 32 == u % 32 && v / 2 ^ 17 == u / 2 ^ 17).length)

/-- The bound of a gather's arrival (R331). -/
def vgBound (sp c : Nat) (as_ : List Nat) : Nat :=
  match sp with
  | 0 => 8 + bankConflicts as_
  | 1 => 6 + 2 * maxN (as_.map fun a => hops (c % 16) (a / 2 ^ 21 % 16)) + bankConflicts as_
  | _ => 12

/-- `VGATH` (R347). -/
def execVgath (f : VG) (s : State) : Host.Outcome State Fault Refusal :=
  runSlot (do
    let arr := f.top.toNat
    let _ ← useVU 4 arr
    let as_ ← vgAddrs f
    let s ← get
    let x ← curSl
    let z := fmtBits f.fmt.toNat / 8
    let sp := f.sp.toNat
    let v := as_.foldl (fun w p => w + (loadCont f.fmt.toNat (vgRead s sp z p.1 p.2)).1 * 2 ^ (32 * p.1)) 0
    land true arr (vgBound sp s.iss.core (as_.map (·.2))) (← rdS f.a.toNat) []
      (some (.vreg (x.phys f.d.toNat) (x.mget f.m.toNat) (BitVec.ofNat 32768 v)))) s

/-- `VSCAT` (R347): in ascending index, so the highest index remains at one address. -/
def execVscat (f : VG) (s : State) : Host.Outcome State Fault Refusal :=
  runSlot (do
    let u ← useVU 4 4
    let as_ ← vgAddrs f
    let x ← curSl
    let g := f.fmt.toNat
    let z := fmtBits g / 8
    let v := x.vget f.d.toNat
    let rnd := f.top.toNat / 32
    let es := f.top.toNat / 8 % 4
    let w := storeCodes g (x.mode rnd) (1024 * u) (x.sat es) vmAll (as_.map fun p => (p.1, 0, v.elem p.1)) x
    modSl fun _ => w.2.2
    modify fun s => (as_.zip w.1).foldl (fun s p => vgWrite s f.sp.toNat z p.1.1 p.1.2 p.2) s
    countNow 0 0 w.2.1 0) s

end Sys2Proof.Machine
end

