-- ==== Sys2Proof/Machine/Queues.lean ====
section
/-! DEFINITION. Pushes on their way to a queue, their arrival, and posts to the hardware mailboxes (spec/05 R142, R144, R145, spec/15
R428). -/
namespace Sys2Proof.Machine

/-- The agents that a queue delivers to: the tile-walk engines of its instance that pop it, and the cores of the bind records whose stages read it.
-/
def State.readersOf (s : State) (n : Nat) (x : Queue) : List Nat :=
  match s.insts.find x.inst with
  | none => []
  | some i =>
    ((i.ewalks.filter fun p => if p.2.store then p.2.dq == n else p.2.pq == n).map fun p => 256 + p.1)
      ++ ((s.cluster x.cluster).binds.filter fun p => p.2.v && p.2.inst == x.inst && (match i.stages[p.2.stage]? with
        | some g => g.qs.any fun q => q.1 == n && (q.2.1 == 0 || q.2.1 == 2)
        | none => false)).flatMap fun p => maskCores x.cluster p.2.crew.toNat

/-- The hops that a push to queue n may take: those to its farthest reader (R14, R21). -/
def State.pushHops (s : State) (n : Nat) (x : Queue) (src : Nat) : Nat :=
  maxN ((s.readersOf n x).map fun a => stopHops (agentStop src) (agentStop a))

/-- A push leaves its producer. It arrives at a free cycle within the delivery bound of R21 for a physical queue, 8 + 2h cycles after its issue, of
which `used` have passed, and after every earlier push of the same producer (R142, log 18). -/
def State.pushFly (s : State) (q src used : Nat) (v : W64) : State :=
  match s.queues.find q with
  | none => s
  | some x =>
    let d := if x.phys then Config.freeNat s.fresh % Nat.max 1 (9 + 2 * s.pushHops q x src - used) else Config.freeNat s.fresh
    let at_ := Nat.max (s.ccyc + d) (maxN ((x.fly.filter fun p => p.src == src).map (·.at_)))
    { (s.updQ q fun y => { y with fly := y.fly ++ [⟨at_, src, v⟩] }) with fresh := s.fresh + 1 }

/-- The push in flight that arrives next: the earliest cycle, then the lowest producer, then the order of issue (R142). -/
def Queue.nextFly (x : Queue) : Option QPush :=
  x.fly.foldl (fun m p => match m with
    | none => some p
    | some q => if p.at_ < q.at_ ∨ (p.at_ = q.at_ ∧ p.src < q.src) then some p else some q) none

/-- The cycle of the next arrival at a queue. -/
def Queue.flyAt (x : Queue) : Option Nat := x.nextFly.map (·.at_)

/-- The bytes of a word list, little-endian. -/
def wordsBytes (ws : List Nat) : List Byte := ws.flatMap (toBytes · 8)

/-- The virtual address of a queue's memory image, from the context's queue table; 0 for none (R145, R396). -/
def State.imageOf (s : State) (ctx vq : Nat) : Nat := match s.ctx? ctx with
  | some x => s.rdN (x.save + 0x8000 + 16 * vq) 8 % 2 ^ 52
  | none => 0

/-- `QUEUE_PUSH_ARRIVAL`: the next push in flight whose cycle has come becomes an item (R142); a memory-resident queue's image follows. -/
def execEQueuePush (q : Nat) (s : State) : Host.Outcome State Fault Refusal :=
  match s.queues.find q with
  | none => .next s
  | some x =>
    match x.nextFly with
    | none => .next s
    | some p =>
      if s.ccyc < p.at_ then .next s
      else
        let s := s.imageItem x x.tail p.val
        .next (s.updQ q fun y => { y with items := y.items ++ [⟨p.val, 0, p.src⟩], fly := y.fly.erase p, tail := y.tail + 1 })

/-! ### Mailboxes (R428) -/

/-- Puts an entry in its place: posts of one cycle stand by ascending SENDER (R428). -/
def postIn (t : W64) (e : Mail) : List Mail → List Mail
  | [] => [e]
  | m :: r => if m.tag >>> 8 = t >>> 8 ∧ t.setWidth 8 < m.tag.setWidth 8 then e :: m :: r else m :: postIn t e r

/-- A post to mailbox m: its tag holds the sender and GCYC; a full mailbox takes nothing (R428, R429). Records for ERR's mailbox 12 go to
mailbox 8 when ERR has failed (R439). Answers whether it was posted. -/
def State.postMail (s : State) (m0 sender : Nat) (data : List Byte) : Bool × State :=
  let m := if m0 = 12 ∧ s.ctl.failed.contains 3 = true then 8 else m0
  let l := AMap.get [] s.ctl.mail m
  if 64 ≤ l.length ∨ 14 ≤ m then (false, s)
  else
    let tag := BitVec.ofNat 64 (sender % 256 + s.gcyc % 2 ^ 56 * 256)
    (true, { s with ctl := { s.ctl with mail := s.ctl.mail.upd m (postIn tag ⟨tag, (data ++ List.replicate 64 0).take 64⟩ l) } })

end Sys2Proof.Machine
end

