-- ==== Sys2Proof/Machine/Tensor.lean ====
section
/-! DEFINITION. Tensors in memory as an engine reaches them: places of rows and elements (spec/03 R60, R61, spec/02 R27), reads and
writes of elements, and engine accesses with the faults that they meet (spec/12 R370). Copy operations and built-in operators share
them. -/
namespace Sys2Proof.Machine

/-- A tensor as an engine sees it: space, base address, format, layout, extents and outer strides (R59). -/
structure Side where
  sp : Nat
  base : Int
  fmt : Nat
  lay : Nat
  ext : List Nat
  str : List Int
  deriving DecidableEq, Repr

/-- An engine's work on the state: an answer, or a fault's code and detail word; what was written before a fault stays (R370). -/
abbrev EngM := ExceptT (Nat × W64) (StateM State)

/-- A fault that an engine meets. -/
def faultE {α : Type} (code : Nat) (detail : W64) : EngM α := throw (code, detail)

/-- The detail word for an engine's address. -/
def engDetail (sp : Nat) (a : Int) : W64 := memDetail sp (bitsZ a 52) 0

/-- The flat address of one byte that an engine serving a core and context reaches. -/
def engFlat (core ctx sp : Nat) (a : Int) (acc : Nat) : EngM Nat := do
  let s ← get
  let top : Int := match sp with
    | 0 => 2 ^ 21
    | 1 => 2 ^ 25
    | 2 => 2 ^ 23 * s.chipS
    | _ => 2 ^ 52
  if a < 0 ∨ top ≤ a then faultE 0x10 (engDetail sp a)
  else match sp with
    | 0 => pure (padKey core a.toNat)
    | 1 => pure (padKey (16 * clOf core) a.toNat)
    | 2 => pure (chipKey a.toNat)
    | _ => match s.xlate (clOf core) ctx a.toNat acc with
      | .ok (k, s') => do
        set s'
        pure k
      | .error (code, lv) => faultE code (xlDetail a.toNat lv acc)

/-- One byte at an address. -/
def engByte (core ctx sp : Nat) (a : Int) : EngM Byte := do
  let k ← engFlat core ctx sp a 0
  return (← get).rd8 k

/-- Does `g` on every element. -/
def eachE {α : Type} (g : α → EngM Unit) : List α → EngM Unit
  | [] => pure ()
  | a :: r => do g a; eachE g r

/-- Collects a value for every element. -/
def collectE {α β : Type} (g : α → EngM β) : List α → EngM (List β)
  | [] => pure []
  | a :: r => do
    let b ← g a
    return b :: (← collectE g r)

/-- Outer indices times strides. -/
def dotZ : List Nat → List Int → Int
  | i :: is, s :: ss => i * s + dotZ is ss
  | _, _ => 0

/-- Every index of the extents, in ascending linear number. -/
def indices : List Nat → List (List Nat)
  | [] => [[]]
  | n :: r => (List.range n).flatMap fun i => (indices r).map (i :: ·)

/-- The linear number of an index. -/
def linOf : List Nat → List Nat → Nat
  | _ :: es, i :: is => i * prodN es + linOf es is
  | _, _ => 0

/-- The index of a linear number, the first extent most significant (R85). -/
def levelIdx : List Nat → Nat → List Nat
  | [], _ => []
  | _ :: r, i => i / prodN r :: levelIdx r (i % prodN r)

/-- The address of byte b of the row with outer indices `row` (R61). -/
def Side.byteAt (t : Side) (row : List Nat) (b : Nat) : Int :=
  let i := row.getLastD 0
  t.base + dotZ row t.str + (128 * (b / 128) + 16 * ((b / 16 % 8) ^^^ (i % 2 ^ t.lay)) + b % 16 : Nat)

/-- The bytes of a row (R60). -/
def Side.rowBytes (t : Side) : Nat := packedBytes t.fmt (t.ext.getLastD 0)

/-- The element at an index, read through `rd` (R27). -/
def Side.readElem (t : Side) (rd : Int → EngM Byte) (ix : List Nat) : EngM Nat := do
  let w := fmtBits t.fmt
  let bit := w * ix.getLastD 0
  let bs ← collectE (fun j => rd (t.byteAt ix.dropLast (bit / 8 + j))) (List.range (cdiv (bit % 8 + w) 8))
  pure (bitsN (ofBytes bs) (bit % 8) w)

/-- The bytes that a row's codes write: for each its mask and value; an element without a code is not written, and unused positions of the
last group are written as zero codes (R27). -/
def rowCells (g : Nat) (cs : List (Option Nat)) : List (Nat × Nat) :=
  let n := packedBytes g cs.length
  if cs.all (·.isSome) then (toBytes (packRow g (cs.map (·.getD 0))) n).map fun b => (255, b.toNat)
  else
    let w := fmtBits g
    (List.range n).map fun b =>
      let ps := (List.range 8).map fun p =>
        let e := (8 * b + p) / w
        if cs.length ≤ e then ((cs.getLastD none).isSome, false)
        else match cs.getD e none with
          | some c => (true, bitN c ((8 * b + p) % w))
          | none => (false, false)
      let num := fun (l : List Bool) => l.foldr (fun x a => 2 * a + if x then 1 else 0) 0
      (num (ps.map (·.1)), num (ps.map (·.2)))

/-- Writes one row; `fl` gives the flat address of a place, and `keep` names bytes that a later operation has written (R358). Answers the
flat addresses written. -/
def Side.writeRow (t : Side) (fl : Int → EngM Nat) (keep : Nat → Bool) (row : List Nat) (cs : List (Option Nat)) : EngM (List Nat) := do
  let cells := (rowCells t.fmt cs).zip (List.range t.rowBytes)
  let ks ← collectE (fun (p : (Nat × Nat) × Nat) => do
    if p.1.1 = 0 then pure none
    else
      let k ← fl (t.byteAt row p.2)
      let s ← get
      let v := BitVec.ofNat 8 (Nat.lor (Nat.land (s.rd8 k).toNat (255 - p.1.1)) p.1.2)
      set (if keep k then s else s.wr8 k v)
      pure (some k)) cells
  pure (ks.filterMap id)

/-- Splits a list into runs of n. -/
def chunksOf {α : Type} (n : Nat) : Nat → List α → List (List α)
  | 0, _ => []
  | k + 1, l => l.take n :: chunksOf n k (l.drop n)

/-- Writes a whole tensor's codes, in ascending order. -/
def Side.write (t : Side) (fl : Int → EngM Nat) (keep : Nat → Bool) (cs : List (Option Nat)) : EngM (List Nat) := do
  let rows := indices t.ext.dropLast
  let ks ← collectE (fun p => t.writeRow fl keep p.1 p.2) (rows.zip (chunksOf (t.ext.getLastD 0) rows.length cs))
  pure ks.flatten

/-- Reads every element through `rd`, in ascending order. -/
def Side.read (t : Side) (rd : Int → EngM Byte) : EngM (List Nat) := collectE (t.readElem rd) (indices t.ext)

/-- The lowest byte reached and one past the highest; none when an extent is 0 (R364). -/
def Side.span (t : Side) : Option (Int × Int) :=
  if t.ext.contains 0 ∨ t.ext = [] then none
  else if t.lay = 0 then
    let es := t.ext.dropLast.zip t.str
    some (t.base + sumZ (es.map fun p => min 0 ((p.1 - 1 : Int) * p.2)),
      t.base + sumZ (es.map fun p => max 0 ((p.1 - 1 : Int) * p.2)) + t.rowBytes)
  else
    let as_ := (indices t.ext.dropLast).flatMap fun r => (List.range t.rowBytes).map (t.byteAt r)
    some (as_.foldl min (as_.headD 0), as_.foldl max (as_.headD 0) + 1)

/-- Whether every row that the side has starts on a 64-byte boundary (R60, R361). -/
def Side.aligned (t : Side) : Bool :=
  t.ext.contains 0 || (t.base % 64 == 0 && (t.ext.dropLast.zip t.str).all fun p => p.1 ≤ 1 || p.2 % 64 == 0)

/-- Strides of a dense tensor (R60). -/
def denseStr (g lay : Nat) (ext : List Nat) : List Int :=
  let u := if lay = 3 then 128 else 64
  let pitch := u * cdiv (packedBytes g (ext.getLastD 0)) u
  let rec go : List Nat → List Int × Nat
    | [] => ([], pitch)
    | n :: r => let p := go r; ((p.2 : Int) :: p.1, p.2 * n)
  (go ext.dropLast).1

/-- The scale tensor of a block-scaled pair over element extents, at a base (R28, R59, R361). -/
def scaleSide (sp : Nat) (base : Int) (ext : List Nat) : Side :=
  let e := ext.dropLast ++ [cdiv (ext.getLastD 0) 32]
  ⟨sp, base, 12, 0, e, denseStr 12 0 e⟩

/-- Runs of consecutive flat addresses as (first, count). -/
def runsOf : List Nat → List (Nat × Nat)
  | [] => []
  | a :: r => match runsOf r with
    | (b, n) :: q => if a + 1 = b then (a, n + 1) :: q else (a, 1) :: (b, n) :: q
    | [] => [(a, 1)]

/-- Whether a flat address lies in one of the runs. -/
def inRuns (rs : List (Nat × Nat)) (k : Nat) : Bool := rs.any fun p => p.1 ≤ k && k < p.1 + p.2

/-! ### Conversion (R365, R29) -/

/-- The converted code of an element, with counted saturations and TERN codes: `sc` is the block scale's byte of an MX pair. -/
def convert (sf df mode r : Nat) (sat : Bool) (sc : Option Nat) (c : Nat) : Nat × Nat × Nat :=
  let trn := if sf = 11 ∧ c = 2 then 1 else 0
  let x := decode sf c
  let v : Num := match sc with
    | none => x
    | some 255 => .nan
    | some e => x.mul (Num.dy false 1 ((e : Int) - 127))
  let p := roundTo df mode r sat v
  (p.1, if p.2 then 1 else 0, trn)

end Sys2Proof.Machine
end

