-- ==== Sys2Proof/Machine/Copy.lean ====
section
/-! DEFINITION. The copy slots: checks at issue and the entry of each operation into its unit or the block-transfer engine (spec/12 R356
to R386). -/
namespace Sys2Proof.Machine

/-! ### Units and timelines (R356, R357, R400) -/

/-- The copy unit that serves a slot: its own, or the other one when its own is fenced. -/
def Core.copyUnit (k : Core) (slot : Nat) : Nat :=
  let u := slot - 4
  if k.ufence.contains (4 + u) then 1 - u else u

/-- Operations that a unit holds, `CSCL` until it lands included. -/
def State.unitHeld (s : State) (c u : Nat) : Nat :=
  let k := s.core c
  (s.eops.filter fun e => e.core == c && e.unit == u && !e.ended).length
    + (k.sl.pend.filter fun p => match p.wr with
      | .scale _ tl _ => k.copyUnit (tl + 4) == u
      | _ => false).length

/-- The issuing slot's unit; a full unit stalls the bundle (R356). The second slot of one bundle on one unit takes a further cycle (R229). `units`
holds copy unit u as 10 + u. -/
def needUnit : SlotM Nat := do
  let s ← get
  let u := (s.core s.iss.core).copyUnit s.iss.slot
  if 8 ≤ s.unitHeld s.iss.core u then stallS
  if s.iss.units.contains (10 + u) then set (s.updCore s.iss.core fun k => { k with extra := k.extra + 1 })
  else set { s with iss := { s.iss with units := (10 + u) :: s.iss.units } }
  pure u

/-- Copy unit u of core c starts an operation: its next start is in a later cycle (R356). -/
def State.unitStarts (s : State) (c u : Nat) : State :=
  s.updCore c fun k => if u = 0 then { k with cu0At := k.ncyc + 1 } else if u = 1 then { k with cu1At := k.ncyc + 1 } else k

/-- Puts an operation of the issuing slot in order of issue. -/
def enterCopy (unit tl num : Nat) (hnd : Option Nat) (eff tstamp : Nat) (work : CWork) : SlotM Unit := do
  let (id, s) := (← get).newId
  let c := s.iss.core
  let e : EOp :=
    { id := id, sid := (s.sl c).id, core := c, slot := s.iss.slot, unit := unit, ctx := s.ctxOf c, tl := tl, num := num, hnd := hnd,
      bytes := 0, iss := (s.core c).ncyc, start := none, endAt := 0, ended := false, eff := eff, tstamp := tstamp, wrote := [], waits := false,
      fault := none, orec := s.recWords c, lop := s.recLop c, bundle := s.iss.pc, work := work }
  set { s with eops := s.eops ++ [e] }

/-- The handle under H (R359). -/
def cxH (f : CX) (bit : Nat) : Option Nat := if f.fn.getLsbD bit then some (cxImm f) else none

/-- The next number of the issuing slot's timeline, tl0 or tl1 (R357, R230). -/
def slotTl : SlotM (Nat × Nat) := do
  let k := (← get).iss.slot - 4
  pure (k, ← takeTl k)

/-! ### Descriptors (R360 to R365) -/

/-- Field of a descriptor word. -/
def dfield (w : List W64) (i lo n : Nat) : Nat := bitsN (w.getD i 0).toNat lo n

def descRank (w : List W64) : Nat := dfield w 2 48 4
def descSf (w : List W64) : Nat := dfield w 2 60 4
def descDf (w : List W64) : Nat := dfield w 2 56 4
def descMx (w : List W64) : Bool := dfield w 2 47 1 == 1
def descCmp (w : List W64) : Bool := dfield w 2 46 1 == 1
def descPerm (w : List W64) : List Nat := (List.range (descRank w)).map fun d => dfield w 2 (4 * d) 4
def descIdent (w : List W64) : Bool := descPerm w == List.range (descRank w)
def descExt (w : List W64) : List Nat := (List.range (descRank w)).map fun d => dfield w (4 + d) 0 31
def descOrg (w : List W64) : List Int := (List.range (descRank w)).map fun d => sext (dfield w (29 + d) 32 32) 32
def descVal (w : List W64) : List Nat := (List.range (descRank w)).map fun d => dfield w (29 + d) 0 32

/-- The source extents: VAL(d) along source dimension PERM(d) (R360). -/
def descSrcExt (w : List W64) : List Nat :=
  (List.range (descRank w)).map fun p => (descVal w).getD ((firstIdx (· == p) (descPerm w)).getD 0) 0

/-- Strides of a side from word i on. -/
def descStr (w : List W64) (i : Nat) : List Int := (List.range (descRank w - 1)).map fun d => (w.getD (i + d) 0).toInt

def descSrc (w : List W64) : Side :=
  ⟨dfield w 0 62 2, dfield w 0 0 62, descSf w, dfield w 2 54 2, descSrcExt w, descStr w 13⟩

def descDst (w : List W64) : Side :=
  ⟨dfield w 1 62 2, dfield w 1 0 62, descDf w, dfield w 2 52 2, descExt w, descStr w 21⟩

/-- The scale tensor of a block-scaled source (R361). -/
def descScale (w : List W64) : Option Side :=
  if descMx w then some (scaleSide (dfield w 3 62 2) (dfield w 3 0 62) (descSrcExt w)) else none

/-- R362 check 1: the first word at fault. -/
def descBad1 (w : List W64) : Option Nat :=
  let r := descRank w
  let nz := fun i => w.getD i 0 != 0
  let bad2 := dfield w 2 36 10 != 0 || r == 0 || 9 < r || descSf w == 15 || descDf w == 15
    || !((List.range r).all (descPerm w).contains) || dfield w 2 (4 * r) (36 - 4 * r) != 0
  let bad := fun i =>
    if i = 2 then bad2
    else if i = 3 then nz 3 && !descMx w
    else if i < 4 then false
    else if i < 13 then dfield w i 31 33 != 0 || (r ≤ i - 4 && nz i)
    else if i < 21 then r ≤ i - 13 + 1 && nz i
    else if i < 29 then r ≤ i - 21 + 1 && nz i
    else if i < 38 then r ≤ i - 29 && nz i
    else if i = 38 then dfield w 38 32 32 != 0
    else nz i
  (List.range 40).find? bad

/-- Spaces that a copy allows for its source and destination: `true` for global only (R365). -/
def spaceOk (glob : Bool) (sp : Nat) : Bool := (sp == 3) == glob

/-- Whether a pairing of formats is allowed: `plain` for `CPY`; CMP for `CPYG` alone, SMX for `CPYG` and `CPYX` (R365). -/
def pairOk (plain cmp mx : Bool) (w : List W64) : Bool :=
  let sf := descSf w
  let df := descDf w
  if plain then sf == df && !descMx w && !descCmp w
  else df != 12 && (df != 11 || sf == 11) && (!descCmp w || cmp) && (!descMx w || (mx && 3 ≤ sf && sf ≤ 6))

/-- The address field for a trap that names a side. -/
def sideDetail (t : Side) : W64 := memDetail t.sp t.base.toNat 0

/-- R362 check 4 for one side in a scratchpad: its span lies in its space. -/
def checkSide (t : Side) : SlotM Unit :=
  if t.sp = 3 then pure () else
  match t.span with
  | none => pure ()
  | some (lo, hi) => checkSpan t.sp lo hi (sideDetail t)

/-- The flat span of a scratchpad side: private and cluster-shared addresses compare as the same bytes (R364). -/
def flatSpan (c : Nat) (t : Side) : Option (Int × Int) :=
  match t.span with
  | none => none
  | some (lo, hi) =>
    let b : Option Nat := match t.sp with
      | 0 => some (padKey c 0)
      | 1 => some (padKey (16 * clOf c) 0)
      | 2 => some (chipKey 0)
      | _ => none
    b.map fun b => (lo + b, hi + b)

/-- R364: a copy that permutes may not overlap. -/
def checkOverlap (w : List W64) : SlotM Unit := do
  let c := (← get).iss.core
  match flatSpan c (descSrc w), flatSpan c (descDst w) with
  | some (a, b), some (p, q) =>
    if descIdent w = false ∧ max a p < min b q then
      let off := p - ((descDst w).span.getD (0, 0)).1
      trapS 0x41 (memDetail (descDst w).sp (max a p - off).toNat 0)
    else pure ()
  | _, _ => pure ()

/-- Reads and checks a descriptor at issue (R360, R362). -/
def readDesc (f : CX) (srcGlob dstGlob plain cmp mx : Bool) : SlotM (List W64) := do
  let a ← rdS f.a.toNat
  checkRange 0 a.toNat 320 0
  if a.toNat % 64 ≠ 0 then trapS 0x11 (memDetail 0 a.toNat 0)
  let s ← get
  let w := (List.range 40).map fun i => BitVec.ofNat 64 (s.rdN (padKey s.iss.core (a.toNat + 8 * i)) 8)
  match descBad1 w with
  | some i => trapS 0x40 (BitVec.ofNat 64 (1 + 16 * i))
  | none =>
    if !spaceOk srcGlob (dfield w 0 62 2) then trapS 0x40 2
    if !spaceOk dstGlob (dfield w 1 62 2) then trapS 0x40 (2 + 16)
    if descMx w ∧ spaceOk srcGlob (dfield w 3 62 2) = false then trapS 0x40 (2 + 48)
    if !pairOk plain cmp mx w then trapS 0x40 (3 + 32)
    let sides := [descSrc w, descDst w] ++ (descScale w).toList
    forAll checkSide (if descCmp w then [descDst w] else sides)
    forAll (fun t => if t.sp ≠ 3 ∧ t.aligned = false then trapS 0x11 (sideDetail t) else pure ()) sides
    checkOverlap w
    pure w

/-! ### The four descriptor copies (R365, R366) -/

/-- A copy on a copy unit: a number of the slot's timeline, and tl no. after 2 ticks. -/
def unitCopy (f : CX) (conv : Bool) : SlotM Unit := do
  let u ← needUnit
  let w ← readDesc f false false (!conv) false conv
  let x ← curSl
  let (k, n) ← slotTl
  enterCopy u k n (cxH f 0) 0 0 (.copy conv (x.mode f.rnd.toNat) (x.sat f.es.toNat) w)
  wrS f.b.toNat (BitVec.ofNat 64 n) 2

/-- Operations that wait in a cluster's block-transfer engine. -/
def State.bteHeld (s : State) (cl : Nat) : Nat :=
  (s.eops.filter fun e => e.unit == 2 && e.start.isNone && !e.ended && clOf e.core == cl).length

/-- A copy through the block-transfer engine with issue time t (0 for none): a number of tl8 and an entry with its effective time. -/
def bteCopy (f : CX) (t : Nat) (h : Option Nat) (w : List W64) : SlotM Unit := do
  let x ← curSl
  let s ← get
  let cl := clOf s.iss.core
  let p := (s.ctl_ cl (s.ctxOf s.iss.core) 8).take
  let s := s.setCtl cl (s.ctxOf s.iss.core) 8 p.2
  set (if 0 < t ∧ t < s.gcyc then s.updCl cl fun k => { k with late := k.late + 1 } else s)
  enterCopy 2 8 p.1 h (Nat.max t s.gcyc) t (.copy true (x.mode f.rnd.toNat) (x.sat f.es.toNat) w)
  wrS f.b.toNat (BitVec.ofNat 64 p.1) 2

/-- The stalls of `CPYG` and `CPYS`: a full unit, a full buffer (R356, R366). -/
def needBte : SlotM Unit := do
  let _ ← needUnit
  let s ← get
  if 256 ≤ s.bteHeld (clOf s.iss.core) then stallS

/-- `CPY`. -/
def execCpy (f : CX) (s : State) : Host.Outcome State Fault Refusal := runSlot (naming (cxH f 0) (unitCopy f false)) s

/-- `CPYX`. -/
def execCpyx (f : CX) (s : State) : Host.Outcome State Fault Refusal := runSlot (naming (cxH f 0) (unitCopy f true)) s

/-- `CPYG`: sC is the issue time T. -/
def execCpyg (f : CX) (s : State) : Host.Outcome State Fault Refusal :=
  runSlot (naming (cxH f 0) do
    needBte
    let t ← rdS f.c.toNat
    bteCopy f t.toNat (cxH f 0) (← readDesc f true false false true true)) s

/-- `CPYS`. -/
def execCpys (f : CX) (s : State) : Host.Outcome State Fault Refusal :=
  runSlot (do
    needBte
    bteCopy f 0 none (← readDesc f false true false false false)) s

/-! ### Multicast, fill, prefetch, scales (R371 to R374) -/


/-- `CPYMC` (R371): the source is read at issue; the store lands at c + 24. -/
def execCpymc (f : CX) (s : State) : Host.Outcome State Fault Refusal :=
  runSlot (naming (cxH f 0) do
    let u ← needUnit
    let a ← rdS f.a.toNat
    let b ← rdS f.b.toNat
    let d ← rdS f.c.toNat
    let s ← get
    let n := (bitsN b.toNat 16 5 + 1) * 16
    let cs := maskCores (clOf s.iss.core) (bitsN b.toNat 0 16)
    if cs.any fun j => (s.core j).run.any fun r => r.ctx != s.ctxOf s.iss.core then trapS 0x03 4
    if 2 ^ 21 < a.toNat + n then trapS 0x10 (memDetail 0 a.toNat 0)
    if b.toNat / 2 ^ 21 ≠ 0 ∨ 2 ^ 21 < d.toNat + n then trapS 0x10 (memDetail 0 d.toNat 0)
    match cs.find? fun j => (s.core j).fenced with
    | some j => trapS 0x12 (BitVec.ofNat 64 (j % 16))
    | none =>
      if a.toNat % 16 ≠ 0 then trapS 0x11 (memDetail 0 a.toNat 0)
      if d.toNat % 16 ≠ 0 then trapS 0x11 (memDetail 0 d.toNat 0)
      let (k, m) ← slotTl
      enterCopy u k m (cxH f 0) 0 0 (.multi (s.rdBytes (padKey s.iss.core a.toNat) n) (bitsN b.toNat 0 16) d.toNat)
      modify fun s => { s with eops := s.eops.map fun e =>
        if e.id + 1 = s.ids then { e with start := some (s.core e.core).ncyc, endAt := s.ccyc + 24 } else e }
      modify fun s => s.unitStarts s.iss.core u) s

/-- `FILL` (R372): checked at issue. -/
def execFill (f : CX) (s : State) : Host.Outcome State Fault Refusal :=
  runSlot (naming (cxH f 2) do
    let u ← needUnit
    let a ← rdS f.a.toNat
    let b ← rdS f.b.toNat
    let p ← rdS f.c.toNat
    let z := 2 ^ (f.fn.toNat % 4)
    let sp := a.toNat / 2 ^ 62
    let ad := a.toNat % 2 ^ 62
    if 2 ^ 32 < b.toNat then trapS 0x10 (memDetail sp ad 0)
    if sp ≠ 3 then checkRange sp ad b.toNat 0
    if ad % z ≠ 0 ∨ b.toNat % z ≠ 0 then trapS 0x11 (memDetail sp ad 0)
    let (k, m) ← slotTl
    enterCopy u k m (cxH f 2) 0 0 (.fill z a b.toNat p)) s

/-- `PREF` (R373): no state that a program can see changes. -/
def execPref (f : CX) (s : State) : Host.Outcome State Fault Refusal :=
  runSlot (do
    let _ ← needUnit
    let _ ← rdS f.a.toNat
    let _ ← rdS f.b.toNat) s

/-- `CSCL` (R374): the contents become the registers' value at issue tick t + 16. -/
def execCscl (f : CX) (s : State) : Host.Outcome State Fault Refusal :=
  runSlot (do
    let _ ← needUnit
    let a ← rdS f.a.toNat
    let all := f.fn.getLsbD 2
    checkRange 0 a.toNat (if all then 2048 else 512) 0
    if a.toNat % 64 ≠ 0 then trapS 0x11 (memDetail 0 a.toNat 0)
    let s ← get
    let rd := fun i => BitVec.ofNat 4096 (s.rdN (padKey s.iss.core (a.toNat + 512 * i)) 512)
    let js := if all then (List.range 4).map fun j => (j, rd j) else [(f.fn.toNat % 4, rd 0)]
    let (k, n) ← slotTl
    pendW 16 (.scale js k n)) s

/-! ### Permits, handles, software timelines (R375 to R377) -/

/-- The handle sA + imm; HANDLE_RANGE from 4,096 on. -/
def handleOf (f : CX) : SlotM Nat := do
  let h := (← rdS f.a.toNat) + BitVec.ofNat 64 (cxImm f)
  if 4096 ≤ h.toNat then trapS 0x20 h
  pure h.toNat

/-- The permit queue of walk j of the pipeline of a core's stage walk. -/
def State.permitQ (s : State) (c j : Nat) : Option Nat :=
  match (s.core c).run, (s.sl c).walk with
  | some r, some _ => match s.insts.find r.inst with
    | some i => (i.ewalks.find j).map (·.pq)
    | none => none
  | _, _ => none

/-- The item (HND, GEN, INDEX) of R141. -/
def mkItem (h g i : Nat) : W64 := BitVec.ofNat 64 (h % 65536 * 2 ^ 48 + g % 65536 * 2 ^ 32 + i % 2 ^ 32)

/-- `PERMIT` (R375). -/
def execPermit (f : CX) (s : State) : Host.Outcome State Fault Refusal :=
  runSlot (do
    let _ ← needUnit
    let h ← handleOf f
    let s ← get
    let c := s.iss.core
    match s.permitQ c f.fn.toNat with
    | none => trapH 0x61 (qpDetail 0 f.fn.toNat 2) h
    | some q =>
      match s.queues.find q with
      | none => trapH 0x61 (qpDetail 0 f.fn.toNat 2) h
      | some x =>
        if x.full then trapH 0x62 (BitVec.ofNat 64 x.vq) h
        else set (s.pushFly q c 0 (mkItem h (s.genOf (clOf c) (s.ctxOf c) h) 0))) s

/-- `HSET` (R376). A handle whose granules are still being zeroed reaches FULL when they are zero (R105). -/
def execHset (f : CX) (s : State) : Host.Outcome State Fault Refusal :=
  runSlot (do
    let _ ← needUnit
    let h ← handleOf f
    let n ← rdS f.b.toNat
    let s ← get
    let cl := clOf s.iss.core
    let ctx := s.ctxOf s.iss.core
    let e := s.handle cl ctx h
    if (match f.fn.toNat with
      | 0 => e.st != 2
      | 1 => e.st != 1
      | _ => !e.counts s.ccyc) then trapH 0x22 (BitVec.ofNat 64 (h + e.st * 2 ^ 16 + f.fn.toNat * 2 ^ 18)) h
    set (s.setHandle cl ctx h (match f.fn.toNat with
      | 0 => { e with st := 1, tgt := n.toNat, cnt := 0 }.settle s.ccyc
      | 1 => if e.zeroAt.isSome then { e with tgt := 0 } else { e with st := 2, gen := (e.gen + 1) % 65536 }
      | _ => { e with cnt := e.cnt + n.toNat }.settle s.ccyc))) s

/-- `TLADV` (R377): it waits in the unit, and takes no number; `num` holds the slot's last number. -/
def execTladv (f : CX) (s : State) : Host.Outcome State Fault Refusal :=
  runSlot (do
    let u ← needUnit
    let upTo ← if f.fn.getLsbD 2 then do pure (some (← rdS f.a.toNat).toNat) else pure none
    let s ← get
    let k := s.iss.slot - 4
    enterCopy u k ((s.sl s.iss.core).tl k).iss none 0 0 (.tladv (f.imm.toNat % 16) upTo)) s

/-! ### Capability channels (R378 to R381) -/

/-- The address of entry i of a context's capability table (R378, R396). -/
def State.capAt (s : State) (ctx i : Nat) : Nat :=
  match s.ctx? ctx with
  | some x => x.save + 0x2000 + 32 * i
  | none => 0

/-- FABRIC installs entries 248 to 255 of a context that has none, for the collective engine (R189): V and KIND 2; the rest of word 0 is free (DESIGN
CHOICE, log 17). -/
def State.installPeers (s : State) (ctx : Nat) : State :=
  (List.range 8).foldl (fun (s : State) (k : Nat) =>
    let a := s.capAt ctx (248 + k)
    let w := s.rdN a 8
    if bitN w 63 ∧ bitsN w 59 2 = 2 then s
    else { (s.wrN a 8 (2 ^ 63 + 2 ^ 60 + (Config.freeWord s.fresh).toNat % 2 ^ 48 / 2 ^ 32 * 2 ^ 32 + (Config.freeWord s.fresh).toNat % 2 ^ 16)) with
      fresh := s.fresh + 1 }) s

/-- CAP_FAULT (R386). -/
def capFault {α : Type} (i reason : Nat) : SlotM α := trapS 0x43 (BitVec.ofNat 64 (i + reason * 256))

/-- The checks of R381 on an entry and a length, and then on a private range of n bytes at a. -/
def capCheck (f : CX) (send : Bool) (a : W64) (len n : Nat) : SlotM Unit := do
  let s ← get
  let i := f.imm.toNat
  let at_ := s.capAt (s.ctxOf s.iss.core) i
  let e := s.rdN at_ 8
  let kind := bitsN e 59 2
  if bitN e 63 = false ∨ 2 ≤ kind ∨ 248 ≤ i ∨ (kind = 1 ∧ ((bitN e 62 = true ∧ bitN e 61 = true) ∨ bitN e 58 = true)) then capFault i 0
  if !(if send then bitN e 62 else bitN e 61) then capFault i 1
  let allow := s.rdN (at_ + 16) 4
  if send = true ∧ allow = 0 then capFault i 2
  if 4096 < len ∨ len % 64 ≠ 0 ∨ a.toNat % 64 ≠ 0 then trapS 0x11 (memDetail 0 a.toNat 0)
  checkRange 0 a.toNat n 0
  if send = true ∧ allow ≠ 2 ^ 32 - 1 then set (s.wrN (at_ + 16) 4 (allow - 1))

/-- `SEND` (R381): its bytes are read at issue. What it waits for at another chip's ring is not of this chip: a free time (DESIGN CHOICE, log 17). -/
def execSend (f : CX) (s : State) : Host.Outcome State Fault Refusal :=
  runSlot (do
    let u ← needUnit
    let a ← rdS f.a.toNat
    let n ← rdS f.b.toNat
    let item ← rdS f.c.toNat
    capCheck f true a n.toNat n.toNat
    let s ← get
    let (k, m) ← slotTl
    enterCopy u k m none (s.ccyc + Config.freeNat s.fresh) 0
      (.send f.imm.toNat a.toNat n.toNat (some (s.rdBytes (padKey s.iss.core a.toNat) n.toNat)) item)
    modify fun s => { s with fresh := s.fresh + 1 }) s

/-- `RECV` (R381). -/
def execRecv (f : CX) (s : State) : Host.Outcome State Fault Refusal :=
  runSlot (do
    let u ← needUnit
    let a ← rdS f.a.toNat
    let n ← rdS f.b.toNat
    capCheck f false a n.toNat (64 + n.toNat)
    let (k, m) ← slotTl
    enterCopy u k m none 0 0 (.recv f.imm.toNat a.toNat n.toNat)) s

end Sys2Proof.Machine
end

