-- ==== Sys2Proof/Machine/Sync.lean ====
section
/-! DEFINITION. Fences, waits, named barriers and instruction-cache locks (spec/11 R348 to R354). Loads read and stores are performed when
they issue, so a fence never waits for either (DESIGN CHOICE, log 5). -/
namespace Sys2Proof.Machine

/-- sA + IMM, modulo 2^64 (R348). -/
def syBase (f : SY) : SlotM W64 := do return (← rdS f.a.toNat) + w64 (syImm f)

/-- `FENCE` (R349): with `.K` it empties the constant cache. -/
def execFence (f : SY) (s : State) : Host.Outcome State Fault Refusal :=
  runSlot (modify fun s => if f.fn.getLsbD 2 then s.updCore s.iss.core fun k => { k with kcache := [] } else s) s

/-- `KINV` (R349). -/
def execKinv (_ : SY) (s : State) : Host.Outcome State Fault Refusal :=
  runSlot (modify fun s => s.updCore s.iss.core fun k => { k with kcache := [] }) s

/-- Numbers issued and not passed. -/
def Tline.open_ (t : Tline) : Nat := t.iss - t.val

/-- Whether a count is at most its field; 15 ignores it (R350). -/
def atMost (n field : Nat) : Bool := field == 15 || n ≤ field

/-- Copies of the running slice that their timelines have not passed: those of tl0 and tl1, and those that took a number of tl8. -/
def State.copiesOut (s : State) (c : Nat) : Nat :=
  let x := s.sl c
  x.tl0.open_ + x.tl1.open_ + (s.eops.filter fun e => e.sid == x.id && e.tl == 8 && s.tlVal c 8 < e.num).length

/-- `WAITC` (R350): stores are performed when they issue, so their count is 0. -/
def execWaitc (f : SY) (s : State) : Host.Outcome State Fault Refusal :=
  runSlot (do
    let x ← curSl
    let g := fun lo => bitsN f.imm.toNat lo 4
    let loads := (x.lands.filter fun l => !l.here).length
    let copies := (← get).copiesOut (← cur)
    if !(atMost loads (g 0) && atMost 0 (g 4) && atMost copies (g 8)
        && atMost (x.tl2.open_ + x.tl3.open_) (g 12)) then stallS) s

/-- `WAITTL` (R351). -/
def execWaittl (f : SY) (s : State) : Host.Outcome State Fault Refusal :=
  runSlot (do
    let n ← syBase f
    let s ← get
    if s.tlVal s.iss.core f.fn.toNat < n.toNat then stallS) s

/-- `WAITH` (R352): FULL, `.FREE` or `.G`. -/
def execWaith (f : SY) (s : State) : Host.Outcome State Fault Refusal :=
  runSlot (do
    let h ← syBase f
    let g ← if f.fn = 2 then rdS f.d.toNat else pure 0
    if 4096 ≤ h.toNat then trapS 0x20 h
    let s ← get
    let e := s.handle (clOf s.iss.core) (s.ctxOf s.iss.core) h.toNat
    if f.fn = 1 ∧ e.st ≠ 0 then stallS
    else if f.fn = 1 then pure ()
    else if e.st ≠ 2 then stallS
    else if f.fn = 2 ∧ e.gen ≠ g.toNat % 65536 then trapH 0x21 (BitVec.ofNat 64 (g.toNat % 65536)) h.toNat) s

/-! ### Named barriers (R353) -/

/-- BARRIER_RANGE's detail word: IMM, identifier, reason (R355). -/
def barDetail (imm id reason : Nat) : W64 := BitVec.ofNat 64 (imm + id * 2 ^ 16 + reason * 2 ^ 22)

/-- Arrivals that waited in the unit join the count when the target has room for them, or when it is idle. -/
def Bar.admits (b : Bar) : Bar :=
  if b.target = 0 then { b with arrc := b.arrc + b.waiting, waiting := 0 }
  else
    let n := Nat.min b.waiting (b.target - b.arrc)
    { b with arrc := b.arrc + n, waiting := b.waiting - n }

/-- A target fixed after arrivals without a core were counted: those in excess of it wait. -/
def Bar.fix (b : Bar) (n : Nat) : Bar :=
  if n < b.arrc then { b with target := n, arrc := n, waiting := b.waiting + (b.arrc - n) } else { b with target := n }

/-- An arrival without a core: a remote completion signal. -/
def Bar.signal (b : Bar) : Bar := { b with waiting := b.waiting + 1 }.admits

/-- The barrier that an instruction names, after its checks: identifier, N, the barrier (R353). -/
def barOf (f : SY) : SlotM (Nat × Nat × Bar) := do
  let s ← get
  let c := s.iss.core
  let b := (s.sl c).brb.toNat
  let d := bitsN b 8 3 + 1
  let rel := f.imm.toNat % 8
  let n := f.imm.toNat / 256
  let id := (bitsN b 0 6 + (bitsN b 12 3 + rel) % d) % 64
  if d ≤ rel ∨ n = 0 then trapS 0x08 (barDetail f.imm.toNat id 0)
  let q := AMap.get Bar.idle (s.cluster (clOf c)).bars (s.ctxOf c * 64 + id)
  if q.target ≠ 0 ∧ q.target ≠ n then trapS 0x08 (barDetail f.imm.toNat id 1)
  pure (id, n, q)

/-- Stores a barrier of the running context. -/
def State.setBar (s : State) (cl ctx id : Nat) (b : Bar) : State :=
  s.updCl cl fun k => { k with bars := k.bars.put Bar.idle (ctx * 64 + id) b }

/-- `BARA`, `BARA.NW`. -/
def execBara (f : SY) (s : State) : Host.Outcome State Fault Refusal :=
  runSlot (do
    let (id, n, b) ← barOf f
    let s ← get
    let l := s.iss.core % 16
    let nw := f.fn == 1
    if !nw && b.amask.getLsbD l then trapS 0x08 (barDetail f.imm.toNat id 2)
    if b.target ≠ 0 ∧ b.arrc = b.target then stallS
    let b := { b with arrc := b.arrc + 1, amask := if nw then b.amask else b.amask ||| (1#16 <<< l) }.fix n
    set (s.setBar (clOf s.iss.core) (s.ctxOf s.iss.core) id b)) s

/-- `BARW`. -/
def execBarw (f : SY) (s : State) : Host.Outcome State Fault Refusal :=
  runSlot (do
    let (id, _, b) ← barOf f
    let s ← get
    let l := s.iss.core % 16
    if !b.amask.getLsbD l then trapS 0x08 (barDetail f.imm.toNat id 3)
    if b.arrc ≠ b.target then stallS
    let b := { b with amask := b.amask &&& ~~~(1#16 <<< l) }
    let b := if b.amask = 0 then { b with target := 0, arrc := 0 }.admits else b
    set (s.setBar (clOf s.iss.core) (s.ctxOf s.iss.core) id b)) s

/-! ### Instruction-cache locks (R354) -/

/-- The 128-byte line numbers of an operand range. -/
def lockLines (a n : Nat) : List Nat := (List.range n).map (a / 128 + ·)

/-- Locks lines in ascending order, at most 128; one beyond that sets LOCKOVF. -/
def Core.lockAll (k : Core) : List Nat → Core
  | [] => k
  | l :: r =>
    if k.locks.contains l then k.lockAll r
    else if k.locks.length < 128 then { k with locks := k.locks ++ [l] }.lockAll r
    else { k with lockOvf := true }.lockAll r

/-- `ICLOCK`: every line is translated at issue, a page at a time. -/
def execIclock (f : SY) (s : State) : Host.Outcome State Fault Refusal :=
  runSlot (do
    let a := (← rdS f.a.toNat).toNat / 128 * 128
    let ls := lockLines a f.imm.toNat
    checkRange 3 a (128 * f.imm.toNat) 0
    forEach (fun l => do let _ ← xlateS (128 * l) 2) (ls.filter fun l => 128 * l == a || l % 512 == 0)
    modify fun s => s.updCore s.iss.core fun k => { k with lockCtx := s.ctxOf s.iss.core }.lockAll ls) s
where
  forEach (g : Nat → SlotM Unit) : List Nat → SlotM Unit
    | [] => pure ()
    | a :: r => do g a; forEach g r

/-- `ICUNL`, `ICUNL.RANGE`. -/
def execIcunl (f : SY) (s : State) : Host.Outcome State Fault Refusal :=
  runSlot (do
    let a ← rdS f.a.toNat
    modify fun s => s.updCore s.iss.core fun k =>
      if f.fn = 1 then { k with locks := k.locks.filter fun l => l < a.toNat / 128 || a.toNat / 128 + f.imm.toNat ≤ l }
      else { k with locks := [] }) s

end Sys2Proof.Machine
end

