-- ==== Sys2Proof/Machine/CopyEv.lean ====
section
/-! DEFINITION. What copy operations do after issue: their start, their work, their end, multicasts, software timelines, channels and
`CSCL` landings (spec/12). An operation's whole work is performed at its start; a `WAITTL` or a FULL handle shows it at its end
(R340). An event whose subject is not there leaves the state as it is. -/
namespace Sys2Proof.Machine

/-! ### Timelines of operations -/

/-- A slice's state by its number: on a core or in a slice record. -/
def State.sliceOf (s : State) (sid : Nat) : Option Slice :=
  match s.cores.find? fun p => p.2.sl.id == sid with
  | some p => some p.2.sl
  | none => (s.recs.find? fun r => r.sl.any fun x => x.id == sid).bind (·.sl)

/-- Whether an operation's timeline has passed it. The timeline of a slice that is gone has passed it when every earlier operation that
was running has ended. -/
def State.passed (s : State) (e : EOp) : Bool :=
  if e.tl < 4 then (match s.sliceOf e.sid with
    | some x => e.num ≤ (x.tl e.tl).val
    | none => !(s.eops.any fun o => o.sid == e.sid && o.tl == e.tl && o.num < e.num && !o.ended))
  else e.num ≤ (s.ctl_ (clOf e.core) e.ctx e.tl).val

/-- Forgets ended operations that their timelines have passed. -/
def State.cleanOps (s : State) : State := { s with eops := s.eops.filter fun e => !(e.ended && s.passed e) }

def State.updOp (s : State) (id : Nat) (f : EOp → EOp) : State :=
  { s with eops := s.eops.map fun e => if e.id = id then f e else e }

/-- Whether e is a later operation of o's timeline (R358). -/
def EOp.later (o e : EOp) : Bool :=
  o.tl == e.tl && o.num < e.num && (if o.tl < 4 then o.sid == e.sid else o.ctx == e.ctx && clOf o.core == clOf e.core)

/-- Bytes that a later operation of the same timeline has written: they keep its value (R358). -/
def State.keeps (s : State) (o : EOp) (k : Nat) : Bool := s.eops.any fun e => o.later e && inRuns e.wrote k

/-! ### Compressed streams (R368, R369) -/

/-- Why a block is corrupt: 0 consumption, 1 length, 2 code or width, 3 check byte, 4 method or MZ (R386). -/
abbrev BlockRes := Except Nat (List Byte)

/-- ZRL tokens. -/
def decZrl : Nat → List Byte → BlockRes
  | 0, l => if l = [] then .ok [] else .error 0
  | _ + 1, [] => .ok []
  | k + 1, c :: r =>
    if c.toNat < 128 then
      if r.length < c.toNat + 1 then .error 0
      else (decZrl k (r.drop (c.toNat + 1))).map (r.take (c.toNat + 1) ++ ·)
    else (decZrl k r).map (List.replicate (c.toNat - 127) 0 ++ ·)

/-- BPK: MIN, element size, width, then fields. -/
def decBpk (l : List Byte) : BlockRes :=
  let esz := (l.getD 4 0).toNat
  let w := (l.getD 5 0).toNat
  let z := 2 ^ esz
  if l.length < 8 then .error 0
  else if 2 < esz ∨ 8 * z < w ∨ l.getD 6 0 ≠ 0 ∨ l.getD 7 0 ≠ 0 then .error 2
  else if l.length ≠ 8 + cdiv (4096 / z * w) 8 then .error 0
  else
    let v := ofBytes (l.drop 8)
    .ok ((List.range (4096 / z)).flatMap fun i => toBytes ((ofBytes (l.take 4) + bitsN v (w * i) w) % 2 ^ (8 * z)) z)

/-- TRN tokens as codes. -/
def decTrn : List Byte → Except Nat (List Nat)
  | [] => .ok []
  | c :: r => if c.toNat / 64 = 2 then .error 2 else (decTrn r).map (List.replicate (c.toNat % 64 + 1) (c.toNat / 64) ++ ·)

/-- Packs TERN codes, four to a byte. -/
def packTern : List Nat → List Byte
  | a :: b :: c :: d :: r => BitVec.ofNat 8 (a + 4 * b + 16 * c + 64 * d) :: packTern r
  | _ => []

/-- XOR of all bytes. -/
def xorBytes (l : List Byte) : Byte := l.foldl (· ^^^ ·) 0

/-- A decoded block from its header and payload. -/
def decBlock (hdr : Nat) (pay : List Byte) : BlockRes :=
  let m := bitsN hdr 16 3
  if bitsN hdr 40 24 ≠ 0 ∨ bitsN hdr 19 13 ≠ 0 ∨ bitsN hdr 13 3 ≠ 0 ∨ 4 ≤ m then .error 4
  else
    let out : BlockRes := match m with
      | 0 => if pay.length = 4096 then .ok pay else .error 0
      | 1 => decZrl pay.length pay
      | 2 => decBpk pay
      | _ => match decTrn pay with
        | .error e => .error e
        | .ok cs => if cs.length = 16384 then .ok (packTern cs) else .error 1
    match out with
    | .error e => .error e
    | .ok l => if l.length ≠ 4096 then .error 1 else if (xorBytes l).toNat ≠ bitsN hdr 32 8 then .error 3 else .ok l

/-- Reads blocks b, b + 1, … of a stream at a global address: n of them. -/
def readBlocks (core ctx : Nat) : Nat → Nat → Int → EngM (List Byte)
  | 0, _, _ => pure []
  | n + 1, b, a => do
    let h := ofBytes (← collectE (fun j => engByte core ctx 3 (a + (j : Nat))) (List.range 8))
    let len := bitsN h 0 13
    if len = 0 ∨ 4096 < len then faultE 0x42 (BitVec.ofNat 64 b)
    else
      let pay ← collectE (fun j => engByte core ctx 3 (a + 8 + (j : Nat))) (List.range len)
      match decBlock h pay with
      | .error e => faultE 0x42 (BitVec.ofNat 64 (b + e * 2 ^ 32))
      | .ok l => return l ++ (← readBlocks core ctx n (b + 1) (a + 64 * cdiv (8 + len) 64))

/-! ### A descriptor copy (R363) -/

/-- The source index of a destination index; none outside the source. -/
def srcIndex (w : List W64) (ix : List Nat) : Option (List Nat) :=
  let js := (ix.zip (descOrg w)).map fun p => (p.1 : Int) + p.2
  if (js.zip (descVal w)).all fun p => 0 ≤ p.1 && p.1 < p.2 then
    some ((List.range (descRank w)).map fun p => (js.getD ((firstIdx (· == p) (descPerm w)).getD 0) 0).toNat)
  else none

/-- The first lane of the copy unit that performs an operation: its unit, or, for one of the block-transfer engine, the one bound to its slot
(R32, R230). -/
def State.lanePlace (s : State) (e : EOp) : Nat := 2560 + 64 * (if e.unit < 2 then e.unit else (s.core e.core).copyUnit e.slot)

/-- Converts the read codes in ascending destination order, on the 64 lanes from `lane` on: a pad, a code, its scale byte (R363, R32). -/
def convAll (w : List W64) (lane mode : Nat) (sat : Bool) :
    List (Nat × Option (Nat × Option Nat)) → Slice → List (Option Nat) × Nat × Nat × Slice
  | [], x => ([], 0, 0, x)
  | (_, none) :: r, x =>
    let q := convAll w lane mode sat r x
    ((if (descDst w).sp = 3 then none else some (dfield w 38 0 (fmtBits (descDf w)))) :: q.1, q.2)
  | (i, some (c, sc)) :: r, x =>
    if descSf w = descDf w ∧ sc = none then
      let q := convAll w lane mode sat r x
      (some c :: q.1, q.2)
    else
      let p := x.addend mode (lane + i % 64)
      let v := convert (descSf w) (descDf w) mode p.1 sat sc c
      let q := convAll w lane mode sat r p.2
      (some v.1 :: q.1, q.2.1 + v.2.1, q.2.2.1 + v.2.2, q.2.2.2)

/-- Performs a copy: every source element is read before any is written. Answers the flat addresses written. In the image of a compressed
stream a row start off a 64-byte boundary faults with MEM_ALIGN (R361), and one before offset 0 with MEM_RANGE (DESIGN CHOICE, log 32). -/
def copyWork (e : EOp) (mode : Nat) (sat : Bool) (w : List W64) : EngM (List Nat) := do
  let src := descSrc w
  let dst := descDst w
  let ixs := (indices dst.ext).map (srcIndex w)
  if src.sp = 3 ∧ descCmp w = false ∧ src.aligned = false ∧ ixs.any (·.isSome) = true then faultE 0x11 (engDetail 3 src.base)
  if dst.sp = 3 ∧ dst.aligned = false then faultE 0x11 (engDetail 3 dst.base)
  let scale := descScale w
  let rd ← (if descCmp w then do
      if src.base % 64 ≠ 0 then faultE 0x11 (engDetail 3 src.base)
      let img : Side := { src with base := 0 }
      let used := (ixs.filterMap id).map List.dropLast
      if used.any fun r => dotZ r img.str % 64 != 0 then faultE 0x11 (engDetail 3 src.base)
      if used.any fun r => decide (dotZ r img.str < 0) then faultE 0x10 (engDetail 3 src.base)
      let top := maxN ((ixs.filterMap id).map fun ix =>
        (img.byteAt ix.dropLast ((fmtBits src.fmt * ix.getLastD 0 + fmtBits src.fmt - 1) / 8)).toNat + 1)
      let bytes ← readBlocks e.core e.ctx (cdiv top 4096) 0 src.base
      pure fun (a : Int) => (pure (bytes.getD (a - src.base).toNat 0) : EngM Byte)
    else pure (engByte e.core e.ctx src.sp))
  let cells ← collectE (fun (o : Option (List Nat)) => match o with
    | none => pure none
    | some ix => do
      let c ← src.readElem rd ix
      match scale with
      | none => pure (some (c, none))
      | some t => do
        let k ← t.readElem (engByte e.core e.ctx t.sp) (ix.dropLast ++ [ix.getLastD 0 / 32])
        pure (some (c, some k))) ixs
  let s ← get
  let q := convAll w (s.lanePlace e) mode sat ((List.range cells.length).zip cells) (s.sl e.core)
  set (s.updCore e.core fun k => { (k.counted 0 0 q.2.1 q.2.2.1) with sl := q.2.2.2 })
  dst.write (fun a => engFlat e.core e.ctx dst.sp a 1) (s.keeps e) q.1

/-- Performs a fill. -/
def fillWork (e : EOp) (z : Nat) (a : W64) (n : Nat) (p : W64) : EngM (List Nat) := do
  let s ← get
  collectE (fun j => do
    let k ← engFlat e.core e.ctx (a.toNat / 2 ^ 62) ((a.toNat % 2 ^ 62 + j : Nat) : Int) 1
    modify fun t => if s.keeps e k then t else t.wr8 k (BitVec.ofNat 8 (p.toNat / 2 ^ (8 * (j % z))))
    pure k) (List.range n)

/-- The work of an operation that a unit or the block-transfer engine starts. -/
def EOp.run (e : EOp) : EngM (List Nat) :=
  match e.work with
  | .copy _ mode sat w => copyWork e mode sat w
  | .fill z a n p => fillWork e z a n p
  | .multi _ _ _ => pure []
  | .tladv _ _ => pure []
  | .send _ _ _ _ _ => pure []
  | .recv _ _ _ => pure []
  | .glaze _ => pure []

/-- The ring hops that a cluster-shared side adds (R385). -/
def sideHops (c sp a : Nat) : Nat := if sp = 1 then 2 * hops (c % 16) (a / 2 ^ 21 % 16) else 0

/-- The duration after the start in the unit's cycles; a free one where R385 gives none (DESIGN CHOICE, log 6). -/
def EOp.duration (e : EOp) (s : State) (n : Nat) : Nat :=
  match e.work with
  | .copy conv _ _ w =>
    if e.unit = 2 then 1 + Config.freeNat s.fresh
    else (if conv = false ∧ descIdent w then 4 + cdiv n 256 else 8 + cdiv (prodN (descExt w)) 64)
      + sideHops e.core (descSrc w).sp (descSrc w).base.toNat + sideHops e.core (descDst w).sp (descDst w).base.toNat
  | .fill _ a m _ =>
    if a.toNat / 2 ^ 62 = 3 then 1 + Config.freeNat s.fresh
    else 2 + cdiv m 256 + sideHops e.core (a.toNat / 2 ^ 62) (a.toNat % 2 ^ 62)
  | _ => 1

/-- The cycle count that an operation's times use. -/
def State.opCycle (s : State) (e : EOp) : Nat := if e.unit = 2 then s.ccyc else (s.core e.core).ncyc

/-- Performs an operation: its work, its end's cycle, the fault that it met (R370). -/
def State.beginOp (s : State) (e : EOp) : State :=
  let (r, t) := e.run.run.run s
  let (ks, flt) := match r with
    | .ok ks => (ks, none)
    | .error x => ([], some x)
  let now := s.opCycle e
  { ((t.updOp e.id fun o =>
      { o with start := some (e.start.getD now), endAt := now + e.duration s ks.length, bytes := ks.length, wrote := runsOf ks, waits := false,
               fault := flt }).unitStarts e.core e.unit)
    with fresh := s.fresh + 1 }

/-- Whether an operation touches chip-scratchpad units in transition: its accesses wait (R327). -/
def State.inPhase (s : State) (e : EOp) : Bool :=
  let hit := fun (sp : Nat) (p : Option (Int × Int)) => sp == 2 && (match p with
    | some (lo, hi) => lo < 2 ^ 23 * s.phaseHi && (2 ^ 23 * s.phaseLo : Int) < hi
    | none => false)
  s.ccyc < s.phaseEnd && (match e.work with
    | .copy _ _ _ w => hit (descSrc w).sp (descSrc w).span || hit (descDst w).sp (descDst w).span
        || (descScale w).any fun t => hit t.sp t.span
    | .fill _ a n _ => hit (a.toNat / 2 ^ 62) (some ((a.toNat % 2 ^ 62 : Nat), (a.toNat % 2 ^ 62 + n : Nat)))
    | _ => false)

/-- The first operation of a copy unit that has not started. -/
def State.unitHead (s : State) (c u : Nat) : Option EOp :=
  s.eops.find? fun e => e.core == c && e.unit == u && e.start.isNone && !e.ended

/-- Whether a unit's head may start now: issued in an earlier cycle, and no other start of the unit in this cycle (R356, R385). -/
def State.unitReady (s : State) (e : EOp) : Bool :=
  let k := s.core e.core
  e.iss < k.ncyc && (if e.unit = 0 then k.cu0At else k.cu1At) != k.ncyc + 1

/-- Whether `COPY_OP_START` is due for a unit. -/
def State.copyDue (s : State) (c u : Nat) : Bool :=
  match s.unitHead c u with
  | some e => s.unitReady e && !s.inPhase e && (match e.work with
    | .copy _ _ _ _ => true
    | .fill _ _ _ _ => true
    | _ => false)
  | none => false

/-- `COPY_OP_START` (R356). -/
def execECopyStart (c u : Nat) (s : State) : Host.Outcome State Fault Refusal :=
  match s.unitHead c u with
  | some e => .next (if s.copyDue c u then s.beginOp e else s)
  | none => .next s

/-- The entry that a cluster's block-transfer engine starts: the smallest E that is not above GCYC, the earlier issue on a tie (R366). -/
def State.bteHead (s : State) (cl : Nat) : Option EOp :=
  (s.eops.filter fun e => e.unit == 2 && e.start.isNone && !e.ended && clOf e.core == cl && e.eff ≤ s.gcyc).foldl
    (fun m e => match m with
      | none => some e
      | some o => if e.eff < o.eff then some e else some o) none

/-- A started operation of a cluster's block-transfer engine whose accesses no longer wait (R327). -/
def State.bteResume (s : State) (cl : Nat) : Option EOp :=
  s.eops.find? fun e => e.unit == 2 && clOf e.core == cl && e.waits && !e.ended && !s.inPhase e

/-- Whether `BTE_START` is due: an access that waited goes on, or an entry starts, at most one in a cycle. -/
def State.bteDue (s : State) (cl : Nat) : Bool :=
  (s.bteResume cl).isSome
    || (s.bteHead cl).isSome && !(s.eops.any fun o => o.unit == 2 && clOf o.core == cl && o.start == some s.ccyc)

/-- An entry starts while units that it accesses are in transition: the entry is free, and its accesses wait (R327, R366). -/
def State.beginLate (s : State) (e : EOp) : State := s.updOp e.id fun o => { o with start := some s.ccyc, waits := true }

/-- The end of an operation: credits, its timeline with the fault flag after a fault, and the record of the fault with the remaining bytes
credited (R363, R370). -/
def State.endOp (s : State) (e : EOp) (flt : Option (Nat × W64)) : State :=
  let cl := clOf e.core
  let n := match flt, e.hnd with
    | some _, some h => let q := s.handle cl e.ctx h; q.tgt - q.cnt
    | _, _ => e.bytes
  let s := s.credit cl e.ctx e.hnd n
  let s := s.endTl e.sid cl e.ctx e.tl e.num
  let s := match flt with
    | some (code, d) =>
      (s.flagTl e.sid cl e.ctx e.tl e.num).engTrap e.ctx e.core e.slot code e.orec e.hnd e.bundle d e.tl e.num
    | none => s
  let s := match e.work with
    | .glaze (some (mac, slot)) => s.engTrap e.ctx e.core e.slot 0x35 e.orec e.hnd e.bundle (BitVec.ofNat 64 (mac % 32 + slot * 32)) e.tl e.num
    | _ => s
  (s.updOp e.id fun o => { o with ended := true }).cleanOps

/-- The detail word of CORE_LOST, UNIT_LOST and ENGINE_LOST (R391): COREID or 16·cluster, and the unit or engine. -/
def lostDetail (core unit : Nat) : W64 := BitVec.ofNat 64 (core % 256 + unit % 16 * 256)

/-- `BTE_START` (R366); an operation on a fenced engine faults (R400). -/
def execEBteStart (cl : Nat) (s : State) : Host.Outcome State Fault Refusal :=
  if s.bteDue cl = false then .next s
  else
    let lost := (s.cluster cl).fences.contains 11
    match s.bteResume cl, s.bteHead cl with
    | some e, _ => .next (if lost then s.endOp e (some (0x83, lostDetail (16 * cl) 11)) else s.beginOp e)
    | none, some e => .next (if lost then s.endOp e (some (0x83, lostDetail (16 * cl) 11))
        else if s.inPhase e then s.beginLate e else s.beginOp e)
    | none, none => .next s

/-- Whether an operation's end is due. -/
def State.endDue (s : State) (e : EOp) : Bool :=
  e.start.isSome && !e.ended && !e.waits && e.endAt ≤ s.opCycle e && (match e.work with
    | .multi _ _ _ => false
    | _ => true)

/-- The codes with which R391 lets an engine report a fault. -/
def engCode (code : Nat) : Bool :=
  [0x10, 0x11, 0x13, 0x14, 0x15, 0x16, 0x17, 0x34, 0x35, 0x42, 0x44, 0x63, 0x70, 0x71, 0x73, 0x74, 0x75, 0x76, 0x83].contains code

/-- `COPY_OP_END` (R370, R385): a fault that an engine meets may end an operation at any time; another code is no such fault. -/
def execECopyEnd (id : Nat) (k : EndKind) (s : State) : Host.Outcome State Fault Refusal :=
  match s.eops.find? fun e => e.id == id && !e.ended with
  | none => .next s
  | some e => match k with
    | .fault code d => .next (if engCode code then s.endOp e (some (code, BitVec.ofNat 64 d)) else s)
    | .ok => .next (if s.endDue e then s.endOp e e.fault else s)

/-- `MULTICAST_LANDING` at c + 24 (R371, R339): every target at once, each named core's credit, and the operation's end. -/
def execEMulticast (id : Nat) (s : State) : Host.Outcome State Fault Refusal :=
  match s.eops.find? fun e => e.id == id && !e.ended with
  | none => .next s
  | some e => match e.work with
    | .multi data mask dst =>
      if s.ccyc < e.endAt then .next s
      else
        let cs := maskCores (clOf e.core) mask
        let ks := cs.flatMap fun j => (List.range data.length).map fun i => (padKey j (dst + i), data.getD i 0)
        let t := ks.foldl (fun t p => if s.keeps e p.1 then t else t.wr8 p.1 p.2) s
        let t := cs.foldl (fun t _ => t.credit (clOf e.core) e.ctx e.hnd data.length) t
        let t := t.updOp id fun o => { o with wrote := cs.map fun j => (padKey j dst, data.length) }
        .next ((t.endTl e.sid (clOf e.core) e.ctx e.tl e.num).updOp id fun o => { o with ended := true }).cleanOps
    | _ => .next s

/-! ### Software timelines (R377) -/

/-- Whether a `TLADV` at its unit's head may advance: every earlier operation of its slot has passed its timeline. -/
def State.tladvDue (s : State) (e : EOp) : Bool :=
  s.unitReady e && !(s.eops.any fun o => o.sid == e.sid && o.slot == e.slot && o.id < e.id)
    && (match s.sliceOf e.sid with
      | some x => e.num ≤ (x.tl e.tl).val
      | none => true)

/-- `TIMELINE_ADVANCE`. -/
def execETladv (c u : Nat) (s : State) : Host.Outcome State Fault Refusal :=
  match s.unitHead c u with
  | none => .next s
  | some e => match e.work with
    | .tladv k upTo =>
      if s.tladvDue e then
        let cl := clOf e.core
        let v := (s.ctl_ cl e.ctx k).val
        let v := match upTo with
          | none => (v + 1) % 2 ^ 64
          | some n => Nat.max v n
        .next ({ (s.setCtl cl e.ctx k ⟨v, v, [], (s.ctl_ cl e.ctx k).flt⟩) with eops := s.eops.filter (·.id != e.id) }.unitStarts c u)
      else .next s
    | _ => .next s

/-! ### Capability channels (R379 to R383) -/

/-- A ring's header: HEAD, TAIL, SLOTB, DEPTH; none when it is faulty (R382). -/
def State.ring (s : State) (a : Nat) : Option (Nat × Nat × Nat × Nat) :=
  let w := s.rdN (a + 0x10) 8
  let slot := w / 2 ^ 32
  let depth := bitsN w 0 13
  if bitsN w 13 19 ≠ 0 ∨ s.rdN (a + 0x18) 40 ≠ 0 ∨ depth = 0 ∨ 4096 < depth ∨ slot = 0 ∨ slot % 64 ≠ 0 ∨ 4096 < slot then none
  else some (s.rdN a 8, s.rdN (a + 8) 8, slot, depth)

/-- The address of message n of a ring. -/
def ringSlot (a slot depth n : Nat) : Nat := a + 0x40 + (64 + slot) * (n % depth)

/-- CHAN_SIZE's detail word (R386). -/
def chanDetail (cap len : Nat) (recv bad : Bool) : W64 :=
  BitVec.ofNat 64 (cap + len % 8192 * 256 + (if recv then 2 ^ 21 else 0) + if bad then 2 ^ 22 else 0)

/-- A capability entry's word 0, and the flat address of its ring, which for KIND 1 lies in control-core memory (R378, R380). -/
def State.capWords (s : State) (e : EOp) (i : Nat) : Nat × Nat :=
  let a := s.capAt e.ctx i
  let r := bitsN (s.rdN (a + 8) 8) 0 46
  (s.rdN a 8, if bitsN (s.rdN a 8) 59 2 = 1 then ctlKey r else r)

/-- Whether a capability's receiving context has been killed (R382). -/
def State.deadCtx (s : State) (ctx : Nat) : Bool := match s.ctx? ctx with
  | some x => x.state == 3
  | none => true

/-- The barrier signal of a delivery (R383): taken by a resident receiver, kept for a non-resident one, dropped for a killed one. -/
def State.signal (s : State) (ctx cl bar : Nat) : State :=
  match s.ctx? ctx with
  | none => { s with dropsig := s.dropsig + 1 }
  | some x =>
    if x.state = 3 then { s with dropsig := s.dropsig + 1 }
    else if x.state = 0 then
      let a := x.save + 0x1000 + 4 * (64 * cl + bar)
      s.wrN a 4 (s.rdN a 4 + 1)
    else s.setBar cl ctx bar (AMap.get Bar.idle (s.cluster cl).bars (ctx * 64 + bar)).signal

/-- Puts message n into a ring, then advances TAIL (R379, R381). -/
def State.ringPut (s : State) (a slot depth n : Nat) (item : W64) (info : Nat) (data : List Byte) : State :=
  let m := ringSlot a slot depth n
  (((s.wrN m 8 item.toNat).wrN (m + 8) 8 info).wrBytes (m + 64) data).wrN (a + 8) 8 ((n + 1) % 2 ^ 64)

/-- Whether a capability's endpoint is on another chip. -/
def State.capFar (s : State) (w0 : Nat) : Bool := bitsN w0 32 16 != s.group.chip % 65536

/-- A `SEND` that no ring of this chip receives: its endpoint is another chip's, or a killed context's (R382). -/
def State.sendAway (s : State) (w0 : Nat) : Bool := s.capFar w0 || (bitsN w0 59 2 == 0 && s.deadCtx (bitsN w0 0 16))

/-- Whether a unit's head `SEND` may end: its receiver has been killed, another chip's ring has had room by its free time (DESIGN CHOICE, log 17),
its ring is faulty, the message is too long, or there is room. -/
def State.sendDue (s : State) (e : EOp) : Bool :=
  match e.work with
  | .send cap _ len _ _ =>
    let (w0, r) := s.capWords e cap
    s.unitReady e && (if s.capFar w0 then decide (e.eff ≤ s.ccyc) else s.sendAway w0 || (match s.ring r with
      | none => true
      | some (h, t, slot, depth) => slot < len || (t + 2 ^ 64 - h) % 2 ^ 64 < depth))
  | _ => false

/-- An operation that ends in the next cycle, with what it met. -/
def State.endSoon (s : State) (e : EOp) (flt : Option (Nat × W64)) : State :=
  let now := s.opCycle e
  (s.updOp e.id fun o => { o with start := some now, endAt := now + 1, fault := flt }).unitStarts e.core e.unit

/-- A `SEND` of another chip reaches a ring of this one, which has room for it: the message, TAIL and the signal; a killed receiver gets nothing
(R381 to R383). -/
def State.farDeliver (s : State) (f : FarSend) : State :=
  let sig := fun (t : State) => match f.sig with
    | some (cl, bar) => t.signal f.ectx cl bar
    | none => t
  if s.deadCtx f.ectx then sig s
  else match s.ring f.ring with
    | none => s
    | some (h, t, slot, depth) =>
      if slot < f.data.length ∨ depth ≤ (t + 2 ^ 64 - h) % 2 ^ 64 then s
      else sig (s.ringPut f.ring slot depth t f.item (f.data.length + f.chip % 65536 * 2 ^ 16 + f.ctx % 65536 * 2 ^ 32) f.data)

/-- `SEND_DELIVERY` (R381 to R383, R380 for a mailbox ring's notice): the head of a copy unit, or another chip's `SEND`. -/
def execESendDeliver (c : Nat) (u : SendFrom) (s : State) : Host.Outcome State Fault Refusal :=
  match u with
  | .far f => .next (s.farDeliver f)
  | .unit u => match s.unitHead c u with
  | none => .next s
  | some e => match e.work with
    | .send cap src len kept item =>
      if s.sendDue e = false then .next s
      else
        let data := kept.getD (s.rdBytes (padKey e.core src) len)
        let (w0, r) := s.capWords e cap
        let kind := bitsN w0 59 2
        let rc := bitsN w0 0 16
        if s.sendAway w0 then
          let t := s.endSoon e none
          .next (if s.capFar w0 = false ∧ bitN w0 58 = true then t.signal rc (bitsN w0 48 4) (bitsN w0 52 6) else t)
        else match s.ring r with
          | none => .next (s.endSoon e (some (0x44, chanDetail cap data.length false true)))
          | some (_, t, slot, depth) =>
            if slot < data.length then .next (s.endSoon e (some (0x44, chanDetail cap data.length false false)))
            else
              let info := data.length + s.group.chip % 65536 * 2 ^ 16 + e.ctx % 65536 * 2 ^ 32
              let v := (s.ringPut r slot depth t item info data).endSoon e none
              if kind = 1 then
                .next (v.postMail 8 (0x20 + clOf e.core) (toBytes (e.ctx % 65536) 2 ++ toBytes cap 1 ++ List.replicate 5 0 ++ toBytes (t + 1) 8)).2
              else if bitN w0 58 then .next (v.signal rc (bitsN w0 48 4) (bitsN w0 52 6))
              else .next v
    | _ => .next s

/-- Whether a unit's head `RECV` may end: its ring is faulty or holds a message. -/
def State.recvDue (s : State) (e : EOp) : Bool :=
  match e.work with
  | .recv cap _ _ => s.unitReady e && (match s.ring (s.capWords e cap).2 with
    | none => true
    | some (h, t, _, _) => h != t)
  | _ => false

/-- Stores an operation's bytes at rising addresses, but for those that a later operation of its timeline has written (R358). -/
def State.wrKept (s : State) (e : EOp) (a : Nat) : List Byte → State
  | [] => s
  | b :: r => (if s.keeps e a then s else s.wr8 a b).wrKept e (a + 1) r

/-- `RECV_TAKE` (R381, R382). -/
def execERecvTake (c u : Nat) (s : State) : Host.Outcome State Fault Refusal :=
  match s.unitHead c u with
  | none => .next s
  | some e => match e.work with
    | .recv cap dst len =>
      if s.recvDue e = false then .next s
      else
        let r := (s.capWords e cap).2
        match s.ring r with
        | none => .next (s.endSoon e (some (0x44, chanDetail cap len true true)))
        | some (h, _, slot, depth) =>
          let m := ringSlot r slot depth h
          let n := bitsN (s.rdN (m + 8) 8) 0 13
          let k := padKey e.core dst
          let v := (s.wrKept e k (s.rdBytes m 16)).wrKept e (k + 64) (s.rdBytes (m + 64) (Nat.min n len))
          let v := v.wrN r 8 ((h + 1) % 2 ^ 64)
          let v := v.updOp e.id fun o => { o with wrote := [(k, 16), (k + 64, Nat.min n len)] }
          .next (v.endSoon e (if len < n then some (0x44, chanDetail cap n true false) else none))
    | _ => .next s

/-! ### `CSCL` (R374) -/

/-- The first pending result of a core that is due and that p accepts, in issue order (R213). -/
def Slice.duePend (x : Slice) (p : Wr → Bool) : Option Pend :=
  (x.pend.filter fun q => q.due ≤ x.tick && p q.wr).foldl (fun m q => match m with
    | none => some q
    | some o => if q.key < o.key then some q else some o) none

def Wr.isScale : Wr → Bool
  | .scale _ _ _ => true
  | _ => false

/-- `CSCL_LANDING`: at tick t + 16 the operation passes its timeline, and its contents wait for that tick's issue. -/
def execECsclLanding (c : Nat) (s : State) : Host.Outcome State Fault Refusal :=
  let x := s.sl c
  match x.duePend Wr.isScale with
  | none => .next s
  | some p => match p.wr with
    | .scale js tl num =>
      let y := { x with pend := x.pend.erase p, scNew := x.scNew ++ js }
      .next (s.updSl c fun _ => y.setTl tl ((y.tl tl).fin num)).cleanOps
    | _ => .next s

end Sys2Proof.Machine
end

