-- ==== Sys2Proof/Machine/System.lean ====
section
/-! DEFINITION. `MFS`, `MTS` and `PHASE` (spec/13 R387 to R389, spec/11 R327). -/
namespace Sys2Proof.Machine

/-- DEADLINE of the running slice's bind record as it now stands; of one that SCHED has written over, the value at dispatch. -/
def State.deadlineOf (s : State) (c : Nat) (r : Run) : W64 :=
  match (s.cluster (clOf c)).binds.find r.slot with
  | some b => if b.inst = r.inst then b.deadline else r.deadline
  | none => r.deadline

/-- The value of a system register as a core reads it (R388). STAGE is 0 outside a stage, CHIPNO outside a group. -/
def State.sysReg (s : State) (c reg : Nat) : W64 :=
  let k := s.core c
  let x := k.sl
  let n := BitVec.ofNat 64
  match reg with
  | 0x00 => n s.gcyc
  | 0x01 => n s.ccyc
  | 0x02 => if k.run.isSome then n k.budget else 0
  | 0x03 => match k.run with
    | some r => s.deadlineOf c r
    | none => 0
  | 0x04 => n (s.ctxOf c % 65536)
  | 0x05 => n (s.group.chipNo % 65536 * 65536 + c)
  | 0x06 => match k.run with
    | some r => n (r.pipe % 64 * 16 + if x.walk.isSome then r.stage % 16 else 0)
    | none => 0
  | 0x07 => if k.run.isSome then x.item else 0
  | 0x08 => n x.vrotb.toNat
  | 0x09 => x.brb
  | 0x0A => match s.ctx? (s.ctxOf c) with
    | some t => if t.fsm then 1 else 0
    | none => 0
  | 0x0B => match s.ctx? (s.ctxOf c) with
    | some t => n (512 + t.ctxrev % 256)
    | none => 0x202
  | 0x0C => k.frz
  | 0x0D => n s.ccyc - n k.issued - k.frz
  | 0x0E => n k.cntOvf
  | 0x0F => n k.cntNan
  | 0x10 => n k.cntSat
  | 0x11 => n k.cntTrn
  | 0x12 => if x.e4sat then 1 else 0
  | 0x13 => n x.rnddef.toNat
  | 0x14 => n x.seed.toNat
  | 0x15 => n ((if k.lockOvf then 256 else 0) + k.locks.length)
  | 0x16 => n (x.mx.cpnt % 16 * 16 + x.mx.opnt % 16)
  | 0x17 => n (x.mx.dpnt % 16)
  | 0x18 => n (s.cluster (clOf c)).late.toNat
  | 0x19 => n s.dropsig.toNat
  | _ => (s.cluster (clOf c)).kncfg

/-- `MFS` (R387): two issue ticks. -/
def execMfs (f : SY) (s : State) : Host.Outcome State Fault Refusal :=
  runSlot (do
    let s ← get
    wrS f.d.toNat (s.sysReg s.iss.core f.imm.toNat) 2) s

/-- The bits of a register that a context writes: its RW and W1C fields (R5, R388). -/
def rwMask (reg : Nat) : W64 :=
  match reg with
  | 0x08 => 0xF
  | 0x09 => 0x773F
  | 0x12 => 0x1
  | 0x13 => 0x7
  | 0x14 => 0xFFFFFFFF
  | 0x15 => 0x100
  | _ => 0

/-- `MTS` (R387): PRIV when it would change any other bit; the field rules of R30 and R264; visible from tick t + 1. -/
def execMts (f : SY) (s : State) : Host.Outcome State Fault Refusal :=
  runSlot (do
    let v ← rdS f.a.toNat
    let s ← get
    let reg := f.imm.toNat
    if (v ^^^ s.sysReg s.iss.core reg) &&& ~~~rwMask reg ≠ 0 then trapS 0x03 (BitVec.ofNat 64 (3 + reg * 256))
    if reg = 0x13 ∧ 6 ≤ v.toNat then trapS 0x02 (Config.freeWord s.fresh)
    if reg = 0x09 ∧ (bitsN v.toNat 8 3 < bitsN v.toNat 12 3 ∨ brbOk v.toNat = false) then trapS 0x08 v
    pendW 1 (match reg with
      | 0x08 => .vrotb (v.setWidth 4)
      | 0x09 => .brb v
      | _ => .sys reg v)) s

/-- The effect of a system-register write when it becomes visible. -/
def Core.writeSys (k : Core) (reg : Nat) (v : W64) : Core :=
  match reg with
  | 0x12 => { k with sl := { k.sl with e4sat := v.getLsbD 0 } }
  | 0x13 => { k with sl := { k.sl with rnddef := v.setWidth 3 } }
  | 0x14 => { k with sl := { k.sl with seed := v.setWidth 32, gens := [] } }
  | 0x15 => if v.getLsbD 8 then { k with lockOvf := false } else k
  | _ => k

/-- The share that the Saltern's chip pool follows: the former one until a transition ends (R389). -/
def State.poolS (s : State) : Nat :=
  if s.ccyc < s.phaseEnd then (if s.phaseTo = s.phaseHi then s.phaseLo else s.phaseHi) else s.chipS

/-- The first unit from lo to hi − 1 with a granule of a live region; a unit holds 2,048 granules (R104, R389). -/
def State.liveUnit (s : State) (lo hi : Nat) : Option Nat :=
  ((List.range hi).filter (lo ≤ ·)).find? fun u => s.cgran.any fun p => p.1 / 2048 == u && p.2 != 0

/-- `PHASE` (R389, R327). A joining unit reads as zero and a leaving one loses its contents; no access sees either before the end. -/
def execPhase (f : SY) (s : State) : Host.Outcome State Fault Refusal :=
  runSlot (do
    let v ← rdS f.a.toNat
    let s ← get
    if s.ccyc < s.phaseEnd then stallS
    if (match s.ctx? (s.ctxOf s.iss.core) with
      | some x => !x.cso
      | none => true) then trapS 0x03 2
    if 24 < v.toNat then trapS 0x10 (Config.freeWord s.fresh)
    let n := v.toNat
    match s.liveUnit n s.chipS with
    | some u => trapS 0x80 (BitVec.ofNat 64 u)
    | none =>
      if n = s.chipS then pure ()
      else
        let lo := Nat.min n s.chipS
        let hi := Nat.max n s.chipS
        let t := s.clear (chipKey (2 ^ 23 * lo)) (2 ^ 23 * (hi - lo))
        set { t with chipS := n, phaseLo := lo, phaseHi := hi, phaseEnd := s.ccyc + 4096 * (hi - lo) + 2048, phaseTo := n }) s

end Sys2Proof.Machine
end

