-- ==== Sys2Proof/Machine/CoreEv.lean ====
section
/-! DEFINITION. Events of a core and its cluster: pending results become visible, load data arrives and lands (spec/07 R213, spec/11 R330
to R332), page walks and invalidations (R329), the end of a `PHASE` (R327), and the delivery of trap records (spec/13 R393). An
event whose subject is not there leaves the state as it is. -/
namespace Sys2Proof.Machine

/-! ### Visible results (R213) -/

/-- A write of a stream's stride or increment. -/
def Strm.setStr (t : Strm) (lv : Nat) (v : W32) : Strm :=
  match lv with
  | 0 => { t with str0 := v }
  | 1 => { t with str1 := v }
  | 2 => { t with str2 := v }
  | 3 => { t with str3 := v }
  | _ => { t with inc := v }

/-- Changes a stream. -/
def Slice.updStrm (x : Slice) (n : Nat) (f : Strm → Strm) : Slice :=
  { x with strms := x.strms.put Strm.zero n (f (AMap.get Strm.zero x.strms n)) }

/-- Sets bit i of an 8-bit register. -/
def setBit8 (x : BitVec 8) (i : Nat) (b : Bool) : BitVec 8 := if b then x ||| (1#8 <<< i) else x &&& ~~~(1#8 <<< i)

/-- Containers of x where the mask is set, of `old` elsewhere. -/
def mergeV (m : VMask) (x old : VReg) : VReg :=
  BitVec.ofNat 32768 (packV (vidx.map fun i => if m.getLsbD i then x.elem i else old.elem i))

/-- The effect of a write on the slice's own registers. -/
def Slice.applyWr (x : Slice) : Wr → Slice
  | .sreg r v => if r = 0 then x else { x with sreg := x.sreg.put 0 r v }
  | .pred r b =>
    if r = 0 then x
    else if r < 8 then { x with preds := setBit8 x.preds r b }
    else { x with gpreds := setBit8 x.gpreds (r - 8) b }
  | .vreg p m v => { x with vreg := x.vreg.put 0 p (if m = BitVec.allOnes 1024 then v else mergeV m v (AMap.get 0 x.vreg p)) }
  | .vmask r v => if r = 0 then x else { x with vmask := x.vmask.put 0 r v }
  | .strm n t => x.updStrm n fun _ => t
  | .strb n clr b sp => x.updStrm n fun t => if clr then { Strm.zero with base := b, sp := sp } else { t with base := b, sp := sp, off := 0 }
  | .strs n lv v => x.updStrm n (·.setStr lv v)
  | .stradv n set v => x.updStrm n fun t => { t with off := if set then v else t.off + v }
  | .vrotb b => { x with vrotb := b }
  | .brb v => { x with brb := v }
  | _ => x

/-- The effect of a write when it becomes visible; `used` cycles of a push's delivery bound have passed. -/
def State.applyWr (s : State) (c used : Nat) (w : Wr) : State :=
  match w with
  | .port q v => (s.updQ q fun x => { x with room := x.room - 1 }).pushFly q c used v
  | .sys r v => s.updCore c fun k => k.writeSys r v
  | .count a b d e => s.updCore c fun k => k.counted a b d e
  | _ => s.updSl c fun x => x.applyWr w

/-- A write of a register that a load can write too. -/
def Wr.isReg : Wr → Bool
  | .sreg _ _ => true
  | .vreg _ _ _ => true
  | _ => false

/-- Whether a due write may become visible: a register waits for the next bundle's routine, whose swap-in copy comes first (R238). -/
def Slice.seen (x : Slice) (w : Wr) : Bool := x.orec.isSome || !w.isReg

/-- The first due result of a core, `CSCL` aside. -/
def Slice.dueWr (x : Slice) : Option Pend := x.duePend fun w => !w.isScale && x.seen w

/-- `RESULT_VISIBLE`: the oldest due result of a core. -/
def execEResultVisible (c : Nat) (s : State) : Host.Outcome State Fault Refusal :=
  let x := s.sl c
  match x.dueWr with
  | none => .next s
  | some p => .next ((s.updSl c fun y => { y with pend := y.pend.erase p }).applyWr c (x.tick - p.key / 8) p.wr)

/-! ### Landings (R330 to R332) -/

/-- The first due landing of a core, in issue order. -/
def Slice.dueLand (x : Slice) : Option Land :=
  (x.lands.filter fun l => l.due ≤ x.tick && x.seen l.wr).foldl (fun m l => match m with
    | none => some l
    | some o => if l.key < o.key then some l else some o) none

/-- `LOAD_DATA_ARRIVAL`: the data of the load with key k is there; `bad` flags it uncorrectable. -/
def execELoadDataArrival (c k : Nat) (bad : Bool) (s : State) : Host.Outcome State Fault Refusal :=
  .next (s.updSl c fun x => { x with lands := x.lands.map fun l =>
    if l.key = k ∧ l.here = false then { l with here := true, bad := bad } else l })

/-- Marks the page of a context's virtual address poisoned and drops cached translations of it (R332, R400). -/
def State.poison (s : State) (ctx va : Nat) : State :=
  match s.ctx? ctx with
  | none => s
  | some x => match s.walk x.root va 0 with
    | .error _ => s
    | .ok p =>
      let t := s.wrN p.1 8 (Nat.lor p.2.2 64)
      let b := pageBits p.2.1
      { t with clusters := t.clusters.map fun q =>
        (q.1, { q.2 with tlb := q.2.tlb.filter fun e => !(e.ctx == ctx && e.bits == b && e.va == va / 2 ^ b * 2 ^ b) }) }

/-- Removes a landing-buffer entry, and ends the freeze. -/
def State.dropLand (s : State) (c : Nat) (l : Land) : State :=
  s.updCore c fun k => { k with frzRun := 0, sl := { k.sl with lands := k.sl.lands.filter fun m => m.key != l.key } }

/-- `LANDING`: the oldest due load whose data has arrived is written; uncorrectable data raises DATA_POISON at the landing tick, which
names the load's bundle and slot, and its page is marked poisoned: a free one of those that the load reads; a load outside global memory reads
none. -/
def execELanding (c : Nat) (s : State) : Host.Outcome State Fault Refusal :=
  match (s.sl c).dueLand with
  | none => .next s
  | some l =>
    if !l.here then .next s
    else
      let t := s.dropLand c l
      if l.bad then
        let u := { t.takeTrap c (l.key % 8) 0x17 (BitVec.ofNat 64 (l.addr.toNat % 2 ^ 52)) 0xFFFF l.bundle with fresh := s.fresh + 1 }
        .next (match l.pages[Config.freeNat s.fresh % Nat.max 1 l.pages.length]? with
          | some va => u.poison (s.ctxOf c) va
          | none => u)
      else .next (t.applyWr c l.arr l.wr)

/-- `LANDING_TIMEOUT`: a freeze of 2^20 cycles for the oldest due load ends with the trap. -/
def execELandingTimeout (c : Nat) (s : State) : Host.Outcome State Fault Refusal :=
  match (s.sl c).dueLand with
  | none => .next s
  | some l =>
    if l.here ∨ (s.core c).frzRun < 2 ^ 20 then .next s
    else .next ((s.dropLand c l).takeTrap c (l.key % 8) 0x18 (BitVec.ofNat 64 (l.arr + if l.vec then 256 else 0)) 0xFFFF l.bundle)

/-! ### Translation (R329) -/

/-- `PAGE_WALK`: a walk that succeeds sets A and D and is cached; one that fails leaves the access to trap when it is tried again. -/
def execEPageWalk (cl ctx va acc : Nat) (s : State) : Host.Outcome State Fault Refusal :=
  let s := { s with iss := { s.iss with want := none } }
  match s.ctx? ctx with
  | none => .next s
  | some x => match s.walk x.root va acc with
    | .error _ => .next s
    | .ok p => .next (s.fillTlb cl ctx va acc p)

/-- `TLB_INVALIDATE` by MEM. -/
def execETlbInvalidate (cl ctx va : Nat) (s : State) : Host.Outcome State Fault Refusal :=
  .next (s.updCl cl fun k => { k with tlb := k.tlb.filter fun e => !(e.ctx == ctx && va / 2 ^ e.bits == e.va / 2 ^ e.bits) })

/-- `PHASE_TRANSITION_END` (R327). -/
def execEPhaseEnd (s : State) : Host.Outcome State Fault Refusal :=
  .next (if s.ccyc < s.phaseEnd then s else { s with phaseEnd := 0, phaseLo := 0, phaseHi := 0 })

/-! ### Trap records (R393) -/

/-- Writes a context's STATE, GONE, CSO and REV1 to its descriptor in memory (R396). -/
def State.syncCtx (s : State) (ctx : Nat) : State :=
  match s.ctx? ctx with
  | none => s
  | some x =>
    let b := fun (p : Bool) (i : Nat) => if p then 2 ^ i else 0
    let w := x.state % 4 * 2 ^ 62 + b x.gone.isSome 61 + b x.cso 60 + b (x.rev1) 59 + ctx % 65536
    (s.wrN (x.save + 0x20) 8 w).wrN (x.save + 0x2C) 4 (x.tqdrop % 2 ^ 32)

/-- A core whose slice is asked to stop for a pre-emption in cycle `now`: at an operator boundary it stops at once (R394). -/
def Core.askStop (k : Core) (now : Nat) : Core :=
  if k.run.isSome ∧ k.stop = .none then { k with stop := .preempt now, stopped := k.sl.id != 0 && k.sl.orec.isNone } else k

/-- Stops a context: every slice of it is pre-empted and withheld from dispatch until STOPPED is cleared (R393). -/
def State.stopCtx (s : State) (ctx : Nat) : State :=
  let s := s.updCtx ctx fun x => { x with stopped := true, state := if x.state = 1 then 2 else x.state }
  let s := s.syncCtx ctx
  { s with cores := s.cores.map fun p =>
      if p.2.run.any fun r => r.ctx == ctx then (p.1, p.2.askStop s.ccyc) else p }

/-- Writes a trap record into its context's trap queue, or counts it in TQDROP and stops the context. -/
def State.queueTrap (s : State) (r : TRec) : State :=
  match s.ctx? r.ctx with
  | none => s
  | some x =>
    let seq := r.words.getD 7 0
    match s.ring x.tq with
    | some (h, t, slot, depth) =>
      if (t + 2 ^ 64 - h) % 2 ^ 64 < depth then
        s.ringPut x.tq slot depth t seq (64 + s.group.chip % 65536 * 2 ^ 16 + r.ctx % 65536 * 2 ^ 32)
          (wordsBytes (r.words.map (·.toNat)))
      else (s.updCtx r.ctx fun x => { x with tqdrop := x.tqdrop + 1 }).stopCtx r.ctx
    | none => (s.updCtx r.ctx fun x => { x with tqdrop := x.tqdrop + 1 }).stopCtx r.ctx

/-- Whether a record's delivery can advance: to the queue at once, to ERR when its mailbox has room. -/
def State.trapDue (s : State) (r : TRec) : Bool :=
  r.queue || (r.err && (AMap.get [] s.ctl.mail (if s.ctl.failed.contains 3 then 8 else 12)).length < 64)

/-- `TRAP_RECORD_DELIVERY`: the context's oldest record that can advance; one whose ERR column is ticked goes to mailbox 12 as well. -/
def execETrapDeliver (ctx : Nat) (s : State) : Host.Outcome State Fault Refusal :=
  match firstIdx (fun r => r.ctx == ctx && s.trapDue r) s.traps with
  | none => .next s
  | some i =>
    match s.traps[i]? with
    | none => .next s
    | some r =>
      let t := if r.queue then s.queueTrap r else s
      let core := bitsN (r.words.getD 2 0).toNat 40 8
      let (ok, u) := if r.err then t.postMail 12 (0x20 + core / 16) (wordsBytes (r.words.map (·.toNat))) else (true, t)
      .next { u with traps := if ok then u.traps.eraseIdx i else setAt u.traps i { r with queue := false } }

end Sys2Proof.Machine
end

