-- ==== Sys2Proof/Machine/Records.lean ====
section
/-! DEFINITION. Slice records as they stand in memory (spec/13 R396, R397): a record's bytes, the release of records, and a slice's sequence of
pool entries. Places inside the areas that R397 lists together are the model's (DESIGN CHOICE, log 10). -/
namespace Sys2Proof.Machine

/-- The size of a slice record. -/
def recSize : Nat := 2 ^ 20

/-- The address of slice record i of a context's pool, if the context exists. -/
def State.recAt (s : State) (ctx i : Nat) : Option Nat := (s.ctx? ctx).map fun x => x.srbase + i * recSize

/-- Packs 16-bit fields, the first lowest. -/
def pack16 : List Nat → Nat
  | [] => 0
  | a :: r => a % 65536 + 65536 * pack16 r

/-- Word 0 of a record's header: V and KIND. -/
def SRec.word0 (q : SRec) : Nat := 2 ^ 63 + q.kind % 4 * 2 ^ 61

/-- A record's header of 256 bytes: V and KIND, RESUME, the bind record's slot, the stage, ITEM, the tile, tl0 to tl3, the remaining reservations of the
eight queue ports (inputs, then outputs), and the shadow operator record. -/
def SRec.head (q : SRec) : List Nat :=
  let x := q.sl.getD Slice.zero
  let sh : List W64 := match x.shadow with
    | some w => w.words
    | none => []
  let port := fun (m : AMap Nat) => (List.range 8).map fun k => AMap.get 0 m k
  let ins := port (x.walk.elim [] (·.ins))
  let outs := port (x.walk.elim [] (·.outs))
  [q.word0, q.resume.toNat % 2 ^ 52, q.run.slot, q.run.stage, x.item.toNat, recTile (x.orec.elim [] (·.words)), x.tl0.val, x.tl1.val, x.tl2.val,
    x.tl3.val, pack16 (ins.take 4), pack16 (ins.drop 4), pack16 (outs.take 4), pack16 (outs.drop 4), 0, 0]
    ++ (sh.map BitVec.toNat ++ List.replicate 16 0).take 16

/-- A loop level's eight words. -/
def LoopLv.words (v : LoopLv) : List Nat :=
  [if v.act then 1 else 0, v.lc, v.idx, v.start, v.stop, if v.rot then 1 else 0, v.s, if v.xs then 1 else 0]

/-- A stream's words. -/
def Strm.words (t : Strm) : List Nat :=
  [t.base.toNat + t.sp.toNat * 2 ^ 62, t.off.toNat, t.str0.toNat, t.str1.toNat, t.str2.toNat, t.str3.toNat, t.inc.toNat]

/-- Stores words at an address. -/
def State.wrWords (s : State) (a : Nat) (ws : List Nat) : State := s.wrBytes a (wordsBytes ws)

/-- Stores each entry of a map at the place that f gives its key, as a number of n bytes. -/
def State.wrMap {α : Type} (s : State) (m : AMap α) (n : Nat) (f : Nat → Option Nat) (g : α → Nat) : State :=
  m.foldl (fun (s : State) (p : Nat × α) => match f p.1 with
    | some a => s.wrN a n (g p.2)
    | none => s) s

/-- Writes a slice's registers, masks, scale registers, vector registers, ring slots and lane slices into the record at b. -/
def State.wrSlice (s : State) (b : Nat) (x : Slice) : State :=
  let s := s.wrMap x.sreg 8 (fun r => if 0 < r ∧ r < 56 then some (b + 0x100 + 8 * (r - 1)) else none) (·.toNat)
  let s := (s.wrN (b + 0x2B8) 1 x.preds.toNat).wrN (b + 0x2B9) 1 x.gpreds.toNat
  let s := x.loops.foldl (fun (s : State) p => s.wrWords (b + 0x300 + 64 * p.1) p.2.words) s
  let s := x.strms.foldl (fun (s : State) p => s.wrWords (b + 0x400 + 64 * p.1) p.2.words) s
  let s := s.wrWords (b + 0x600) [x.vrotb.toNat, x.brb.toNat, if x.e4sat then 1 else 0, x.rnddef.toNat, x.seed.toNat]
  let s := s.wrMap x.vmask 128 (fun r => if 0 < r ∧ r < 8 then some (b + 0x1000 + 128 * (r - 1)) else none) (·.toNat)
  let s := s.wrMap x.scale 512 (fun j => some (b + 0x1380 + 512 * j)) (·.toNat)
  let s := s.wrMap x.vreg 4096 (fun r => some (b + 0x2000 + 4096 * r)) (·.toNat)
  let s := s.wrWords (b + 0x52000) [x.mx.opnt, x.mx.cpnt, x.mx.dpnt, x.mx.cfg.toNat, x.mx.bias.toNat]
  let s := x.mx.ring.foldl (fun (s : State) (p : Nat × Ring) =>
    let r := x.mx.slot p.1
    let s := s.wrWords (b + 0x52100 + 64 * p.1) [r.st, if r.int48 then 1 else 0, r.g, if p.2.pois then 1 else 0, p.2.ovf, p.2.nan]
    s.wrMap p.2.rows 768 (fun m => some (b + 0x56000 + 49152 * p.1 + 768 * m)) (·.toNat)) s
  s.wrMap x.lanes 1 (fun k => some (b + 0xB6000 + k)) (·.toNat)

/-- Writes a record's bytes. -/
def State.wrRec (s : State) (q : SRec) : State :=
  match s.recAt q.ctx q.idx with
  | none => s
  | some b =>
    let s := (s.clear b recSize).wrWords b q.head
    match q.sl with
    | some x => s.wrSlice b x
    | none => s

/-- A NEW SLICE RECORD, in the model's own form and as bytes (R397). -/
def State.putRec (s : State) (q : SRec) : State := { s.wrRec q with recs := s.recs ++ [q] }

/-- Frees the records that satisfy a condition: V is 0. -/
def State.dropRecs (s : State) (p : SRec → Bool) : State :=
  let t := (s.recs.filter p).foldl (fun (t : State) (q : SRec) => match t.recAt q.ctx q.idx with
    | some b => t.wrN b 8 0
    | none => t) s
  { t with recs := s.recs.filter fun q => !p q }

/-- Gives a record another KIND. -/
def State.setKind (s : State) (ctx i kind : Nat) : State :=
  let t := match s.recAt ctx i with
    | some b => s.wrN b 8 (2 ^ 63 + kind % 4 * 2 ^ 61)
    | none => s
  { t with recs := s.recs.map fun q => if q.ctx = ctx ∧ q.idx = i then { q with kind := kind } else q }

/-- RESUME of a record as its bytes hold it. -/
def State.resumeOf (s : State) (q : SRec) : W64 := match s.recAt q.ctx q.idx with
  | some b => BitVec.ofNat 64 (s.rdN (b + 8) 8 % 2 ^ 52)
  | none => q.resume

end Sys2Proof.Machine
end

