-- ==== Sys2Proof/Machine/Desc.lean ====
section
/-! DEFINITION. Value and tensor descriptors, attributes, and tensors as values of a walk: their bytes and where each byte lies (spec/03
R55 to R62, spec/04 R100 to R105). Refusal codes number the rows of R64's table from 1. -/
namespace Sys2Proof.Machine

/-! ### Descriptors (R58 to R62) -/

/-- A dimension word: an extent, or DYN. -/
def parseDim (w : W32) : Except Nat (Option Nat) :=
  if w.getLsbD 31 then (if w.toNat % 2 ^ 31 = 0 then .ok none else .error 2) else .ok (some w.toNat)

/-- Applies a partial function to every element. -/
def mapE {α β : Type} (f : α → Except Nat β) : List α → Except Nat (List β)
  | [] => .ok []
  | a :: r => match f a, mapE f r with
    | .error e, _ => .error e
    | _, .error e => .error e
    | .ok b, .ok c => .ok (b :: c)

/-- Pairs of words as signed 64-bit numbers, low word first. -/
def pairWords : List W32 → List Int
  | a :: b :: r => sext (a.toNat + 2 ^ 32 * b.toNat) 64 :: pairWords r
  | _ => []

/-- The stride rules of R60 for extents, an extent unknown placing no constraint. -/
def stridesOk (g lay : Nat) (dims : List (Option Nat)) (str : List Int) : Bool :=
  let outer := dims.dropLast
  let big := fun (e : Option Nat) => match e with
    | some n => decide (1 < n)
    | none => false
  let pitch := str.getLastD 64
  let rb := match dims.getLastD none with
    | some n => packedBytes g n
    | none => 0
  (outer.zip str).all (fun p => !big p.1 || p.2 % 64 == 0)
    && (!big (outer.getLastD none) || lay == 0 || (0 < pitch && (rb : Int) ≤ pitch && (lay != 3 || pitch % 128 == 0)))

/-- No repeats. -/
def noDup : List Nat → Bool
  | [] => true
  | a :: r => !r.contains a && noDup r

/-- The sharding words (R62). -/
def parseShard (rank : Nat) (l : List W32) : Except Nat (List Nat × Nat) :=
  let ax := (l.take rank).map (·.toNat)
  let p := (l.getD rank 0).toNat
  if l.length < rank + 1 then .error 1
  else if ax.any (16 ≤ ·) ∨ 256 ≤ p then .error 2
  else if ax.any (fun a => 8 ≤ a && a != 15) then .error 8
  else
    let lv := ax.filter (· != 15)
    if noDup lv = false ∨ lv.any (bitN p ·) then .error 8 else .ok (ax, p)

/-- A TENSOR descriptor whose word 0 is w (R59): the descriptor and the words that follow it. -/
def parseTensor (w : W32) (l : List W32) : Except Nat (TDesc × List W32) :=
  let x := w.toNat
  let g := bitsN x 0 4
  let rank := bitsN x 4 4
  let lay := bitsN x 8 4
  let sh := bitN x 12
  let st := bitN x 13
  let mx := bitN x 14
  let ns := if st then 2 * (rank - 1) else 0
  if bitsN x 15 13 ≠ 0 ∨ g = 15 ∨ 4 ≤ lay then .error 2
  else if rank = 0 ∨ 9 < rank ∨ (mx = true ∧ (g < 3 ∨ 6 < g)) then .error 8
  else if l.length < rank + ns then .error 1
  else
    match mapE parseDim (l.take rank) with
    | .error e => .error e
    | .ok dims =>
      let str := pairWords ((l.drop rank).take ns)
      let rest := l.drop (rank + ns)
      if st = true ∧ stridesOk g lay dims str = false then .error 8
      else if sh then
        match parseShard rank rest with
        | .error e => .error e
        | .ok (ax, p) => .ok ({ fmt := g, mx := mx, lay := lay, dims := dims, strs := if st then some str else none, axes := ax, part := p },
            rest.drop (rank + 1))
      else .ok ({ fmt := g, mx := mx, lay := lay, dims := dims, strs := if st then some str else none,
                  axes := List.replicate rank 15, part := 0 }, rest)

/-- A value descriptor (R58). -/
def parseDesc : List W32 → Except Nat (VDesc × List W32)
  | [] => .error 1
  | w :: r =>
    match w.toNat / 2 ^ 28 with
    | 0 => match parseTensor w r with
      | .error e => .error e
      | .ok (t, q) => .ok (.ten t, q)
    | 1 => if w.toNat % 2 ^ 28 = 0 then .ok (.i64, r) else .error 2
    | 2 => if w.toNat % 2 ^ 28 = 0 then .ok (.tok, r) else .error 2
    | _ => .error 2

/-- n value descriptors. -/
def parseDescs : Nat → List W32 → Except Nat (List VDesc × List W32)
  | 0, l => .ok ([], l)
  | n + 1, l => match parseDesc l with
    | .error e => .error e
    | .ok (d, r) => match parseDescs n r with
      | .error e => .error e
      | .ok (ds, q) => .ok (d :: ds, q)

end Sys2Proof.Machine

namespace Sys2Proof

/-! ### Attributes (R55 to R57) -/

/-- The payload of a record's attribute. -/
def LRec.attr (r : LRec) (tag : Nat) : Option (List W32) := (r.attrs.find? fun a => a.tag.toNat == tag).map (·.payload)

/-- The first payload word of an attribute, or a default. -/
def LRec.word (r : LRec) (tag dflt : Nat) : Nat := match r.attr tag with
  | some p => (p.headD 0).toNat
  | none => dflt

/-- The rounding code of a record: DEF when it carries no ROUND (R91). -/
def LRec.round (r : LRec) : Nat := r.word 3 6

/-- The SAT payload of a record: 2 when it carries none (R91). -/
def LRec.satw (r : LRec) : Nat := r.word 4 2

/-- The results' descriptors of a TYPE attribute. -/
def LRec.types (r : LRec) : List Machine.VDesc :=
  match r.attr 1 with
  | none => []
  | some p => match Machine.parseDescs r.nres.toNat p with
    | .ok (ds, _) => ds
    | .error _ => []

end Sys2Proof

namespace Sys2Proof.Machine

/-- The operator value and the record of a Loryil instruction. -/
def lrecOf (i : Instr) : Nat × LRec := match recParts i with
  | some (o, r) => (o.toNat, r)
  | none => (0, ⟨0, 0, 0, [], []⟩)

/-! ### Tensor values -/

/-- Strides of a descriptor for given extents (R60). -/
def TDesc.strides (t : TDesc) (ext : List Nat) : List Int := match t.strs with
  | some s => s
  | none => denseStr t.fmt t.lay ext

/-- The extents of a descriptor with its DYN dimensions taken from a list, outermost first. -/
def fillDyn : List (Option Nat) → List Nat → List Nat
  | [], _ => []
  | some n :: r, l => n :: fillDyn r l
  | none :: r, l => l.headD 0 :: fillDyn r (l.drop 1)

/-- The extents of a tensor as it lies in memory: those of the larger one for a block (R63). -/
def TRef.inMem (t : TRef) : List Nat := if t.offs = [] then t.ext else t.mext

/-- The index in memory of a tensor's element. -/
def TRef.memIx (t : TRef) (ix : List Nat) : List Nat := if t.offs = [] then ix else List.zipWith (· + ·) ix t.offs

/-- The element tensor in memory as a side whose addresses count from the tensor's base. -/
def TRef.side (t : TRef) : Side := ⟨0, 0, t.fmt, t.lay, t.inMem, t.str⟩

/-- Bytes of a row rounded up to the units that its layout permutes. -/
def rowSpan (g lay n : Nat) : Nat :=
  let rb := packedBytes g n
  if lay = 0 then rb else 16 * 2 ^ lay * cdiv rb (16 * 2 ^ lay)

/-- The lowest offset and the byte count of an element tensor: the pitched extent when it is dense (R60, R102). -/
def elemSpan (g lay : Nat) (ext : List Nat) (str : List Int) : Int × Nat :=
  if ext.contains 0 ∨ ext = [] then (0, 0)
  else
    let rs := rowSpan g lay (ext.getLastD 0)
    match ext, str with
    | n :: _ :: _, st :: _ =>
      if str = denseStr g lay ext then (0, n * st.toNat)
      else
        let es := ext.dropLast.zip str
        let lo := sumZ (es.map fun p => min 0 ((p.1 - 1 : Int) * p.2))
        let hi := sumZ (es.map fun p => max 0 ((p.1 - 1 : Int) * p.2))
        (lo, (hi - lo).toNat + rs)
    | _, _ => (0, rs)

/-- The offset of the scale tensor from the base of an MX pair (R59). -/
def scaleOff (g lay : Nat) (ext : List Nat) (str : List Int) : Int :=
  let p := elemSpan g lay ext str
  (64 * cdiv (p.1 + p.2).toNat 64 : Nat)

/-- The lowest offset and the bytes of a tensor, the scales of an MX pair included. -/
def tensorSpan (g lay : Nat) (mx : Bool) (ext : List Nat) (str : List Int) : Int × Nat :=
  let p := elemSpan g lay ext str
  if mx then
    let e := ext.dropLast ++ [cdiv (ext.getLastD 0) 32]
    (p.1, (scaleOff g lay ext str - p.1).toNat + (elemSpan 12 0 e (denseStr 12 0 e)).2)
  else p

def TRef.span (t : TRef) : Int × Nat := tensorSpan t.fmt t.lay t.mx t.inMem t.str

/-- Elements of a tensor. -/
def TRef.count (t : TRef) : Nat := prodN t.ext

/-- Bytes that the elements occupy, rows whole: what a writer of the tensor writes (R101). -/
def TRef.written (t : TRef) : Nat := prodN t.ext.dropLast * packedBytes t.fmt (t.ext.getLastD 0)

/-- Space and address of the byte at an offset from the tensor's base (R103, R134). -/
def TRef.place (t : TRef) (off : Int) : Nat × Int :=
  let a : Nat := t.base.toNat % 2 ^ 62
  if t.crew = [] then (t.base.toNat / 2 ^ 62, (a : Int) + off)
  else
    let b : Nat := ((t.voff : Int) + off).toNat
    let c := t.crew.length
    (1, (t.crew.getD (b / 4096 % c) 0 * 2 ^ 21 + a % 2 ^ 21 + 4096 * (b / (4096 * c)) + b % 4096 : Nat))

/-- The flat address of a byte of a tensor, for an engine of cluster cl. -/
def TRef.flat (t : TRef) (cl ctx acc : Nat) (off : Int) : EngM Nat :=
  engFlat (16 * cl) ctx (t.place off).1 (t.place off).2 acc

/-- A byte of a tensor. -/
def TRef.byte (t : TRef) (cl ctx : Nat) (off : Int) : EngM Byte := do
  let k ← t.flat cl ctx 0 off
  return (← get).rd8 k

/-- The offset of a tensor's scales from its base, and the scale tensor as a side (R59). -/
def TRef.scaleSide (t : TRef) : Side := Machine.scaleSide 0 (scaleOff t.fmt t.lay t.inMem t.str) t.inMem

/-- The code of element i. -/
def TRef.codeAt (t : TRef) (cl ctx i : Nat) : EngM Nat := t.side.readElem (t.byte cl ctx) (t.memIx (levelIdx t.ext i))

/-- The scale of element i's block. -/
def TRef.scaleAt (t : TRef) (cl ctx i : Nat) : EngM Nat :=
  let ix := t.memIx (levelIdx t.ext i)
  t.scaleSide.readElem (t.byte cl ctx) (ix.dropLast ++ [ix.getLastD 0 / 32])

/-- A tensor's contents at the elements that satisfy a condition; the others stand as 0. -/
def TRef.readAt (t : TRef) (cl ctx : Nat) (p : Nat → Bool) : EngM Arg := do
  let cs ← collectE (fun i => if p i then t.codeAt cl ctx i else pure 0) (List.range t.count)
  let sc ← if t.mx then collectE (fun i => if p i then t.scaleAt cl ctx i else pure 0) (List.range t.count) else pure []
  pure ⟨t.fmt, t.mx, t.ext, cs, sc⟩

/-- A tensor's contents. -/
def TRef.read (t : TRef) (cl ctx : Nat) : EngM Arg := t.readAt cl ctx fun _ => true

/-- Values for a tensor's elements as values for the elements of the tensor in memory. -/
def TRef.spread (t : TRef) (cs : List (Option Nat)) : List (Option Nat) :=
  if t.offs = [] then cs
  else (indices t.mext).map fun ix =>
    if (List.zipWith (fun (i : Nat) (p : Nat × Nat) => decide (p.1 ≤ i ∧ i < p.1 + p.2)) ix (t.offs.zip t.ext)).all id then
      cs.getD (linOf t.ext (List.zipWith (· - ·) ix t.offs)) none
    else none

/-- Writes codes into a tensor; `none` leaves an element as it is. Answers the number of bytes written. -/
def TRef.put (t : TRef) (cl ctx : Nat) (cs : List (Option Nat)) : EngM Nat := do
  let ks ← t.side.write (t.flat cl ctx 1) (fun _ => false) (t.spread cs)
  pure ks.length

/-- Writes the scales of a tensor's blocks: each block takes the first scale among its elements', if there is one. -/
def TRef.putScales (t : TRef) (cl ctx : Nat) (sc : List (Option Nat)) : EngM Nat := do
  let n := t.inMem.getLastD 1
  let l := t.spread sc
  let bs := (List.range (prodN t.inMem.dropLast)).flatMap fun r => (List.range (cdiv n 32)).map fun b =>
    ((l.drop (r * n + 32 * b)).take (Nat.min 32 (n - 32 * b))).findSome? id
  let ks ← t.scaleSide.write (t.flat cl ctx 1) (fun _ => false) bs
  pure ks.length

/-! ### Overlap (R94) -/

/-- The byte of a tensor's first element in its row, as an offset from the tensor's base. -/
def TRef.first (t : TRef) : Int :=
  if t.offs = [] then 0 else dotZ t.offs t.str + ((t.offs.getLastD 0 * fmtBits t.fmt / 8 : Nat) : Int)

/-- The bytes of a side's rows, between bytes lo and hi of each, as runs (offset, count): whole under L_ROW, the units of 16 bytes that the layout
permutes else (R61). -/
def Side.runs (t : Side) (rows : List (List Nat)) (lo hi : Nat) : List (Int × Nat) :=
  rows.flatMap fun r =>
    if t.lay = 0 then [(t.byteAt r lo, hi - lo)]
    else (List.range (cdiv hi 16)).filterMap fun u =>
      let a := Nat.max lo (16 * u)
      let b := Nat.min hi (16 * u + 16)
      if a < b then some (t.byteAt r a, b - a) else none

/-- The bytes that a tensor names, as runs of offsets from its base: its rows' elements and the scales of an MX pair, no padding between rows (R94,
R114). -/
def TRef.runs (t : TRef) : List (Int × Nat) :=
  if t.ext.contains 0 ∨ t.ext = [] then []
  else
    let n := t.ext.getLastD 0
    let e := t.offs.getLastD 0
    let rows := (indices t.ext.dropLast).map fun r => (t.memIx (r ++ [0])).dropLast
    let w := fmtBits t.fmt
    let hi := if e + n = t.inMem.getLastD 0 then packedBytes t.fmt (e + n) else cdiv (w * (e + n)) 8
    t.side.runs rows (w * e / 8) hi ++ (if t.mx then t.scaleSide.runs rows (e / 32) (cdiv (e + n) 32) else [])

/-- A run's bytes where they lie: space, address, count. A CREW region's bytes change core every 4,096 (R103). -/
def TRef.placed (t : TRef) (r : Int × Nat) : List (Nat × Int × Nat) :=
  if t.crew = [] then let p := t.place r.1; [(p.1, p.2, r.2)]
  else
    let b : Nat := ((t.voff : Int) + r.1).toNat
    (List.range (cdiv (b % 4096 + r.2) 4096)).map fun k =>
      let lo := Nat.max b (b / 4096 * 4096 + 4096 * k)
      let p := t.place ((lo : Int) - t.voff)
      (p.1, p.2, Nat.min (b + r.2) (b / 4096 * 4096 + 4096 * (k + 1)) - lo)

/-- The bytes that a tensor names, where they lie. -/
def TRef.pieces (t : TRef) : List (Nat × Int × Nat) := t.runs.flatMap t.placed

/-- Whether two tensors name one byte (R94). -/
def TRef.overlaps (t u : TRef) : Bool :=
  t.pieces.any fun p => u.pieces.any fun q => p.1 == q.1 && decide (p.2.1 < q.2.1 + q.2.2) && decide (q.2.1 < p.2.1 + p.2.2)

/-- Exactly the same storage (R94). -/
def TRef.same (t u : TRef) : Bool :=
  t.base == u.base && t.crew == u.crew && t.voff == u.voff && t.ext == u.ext && t.str == u.str && t.lay == u.lay
    && fmtBits t.fmt == fmtBits u.fmt && t.mx == u.mx && t.mext == u.mext && t.offs == u.offs

end Sys2Proof.Machine
end

