-- ==== Sys2Proof/Machine/Seq.lean ====
section
/-! DEFINITION. The operator sequencer: walks, values, dispatch conditions and the sequencer's precise traps (spec/03 R49 to R68, spec/13
R392). A record is dispatched by its own instruction, which names the walk; its operands count from the walk's own place. An
instruction whose dispatch conditions do not hold leaves the state as it is: the walk waits. -/
namespace Sys2Proof.Machine

/-- Why a record is not dispatched: it waits, or it traps with a code, a detail word, a handle and a tile (R392, kind D). -/
inductive SeqStop where
  | wait
  | trap (code : Nat) (detail : W64) (hnd tile : Nat)
  deriving DecidableEq, Repr

/-- A record's meaning at the sequencer. -/
abbrev SeqM := StateT State (Except SeqStop)

/-- A precise trap at dispatch that involves no tile. -/
def trapQ {α : Type} (code : Nat) (detail : W64) (hnd : Nat) : SeqM α := throw (SeqStop.trap code detail hnd (2 ^ 32 - 1))

/-- The walk waits at the record. -/
def waitQ {α : Type} : SeqM α := throw SeqStop.wait

/-- Where a walk stands: its number, itself, its innermost frame, its instance and object; the record that it dispatches; the extents of
its launch's levels. -/
structure Cur where
  w : Nat
  wk : Walk
  fr : Frame
  inst : Inst
  obj : Obj
  rec_ : LRec
  lev : List Nat
  deriving DecidableEq, Repr

/-- The record of no operator. -/
def LRec.none_ : LRec := ⟨0, 0, 0, [], []⟩

/-- The levels' extents of an instance's launch. -/
def State.levExt (s : State) (i : Inst) : List Nat := match s.launches.find i.launch with
  | some l => l.levels.map (·.extent)
  | none => []

/-- The extent of an instance's own block of a dimension of extent e sharded over level a: `dim` yields it (R63, R84). -/
def blockExt (ext idx : List Nat) (e a : Nat) : Nat :=
  if 8 ≤ a then e
  else
    let b := cdiv e (Nat.max (ext.getD a 1) 1)
    let j := idx.getD a 0
    Nat.min ((j + 1) * b) e - j * b

/-- The index in the whole tensor of a block's first element (R63). -/
def blockOff (ext idx : List Nat) (e a : Nat) : Nat :=
  if 8 ≤ a then 0 else Nat.min (idx.getD a 0 * cdiv e (Nat.max (ext.getD a 1) 1)) e

/-- The own block of a tensor of which the instance holds the whole, for instance i of a launch with the given levels' extents (DEDUCED, log 23): it
lies where the tensor's elements lie. -/
def TRef.ownBlock (t : TRef) (lev : List Nat) (i : Nat) : TRef :=
  if t.axes.all (8 ≤ ·) then t
  else
    let ix := levelIdx lev i
    let es := t.ext.zip t.axes
    let o := es.map fun p => blockOff lev ix p.1 p.2
    { t with ext := es.map fun p => blockExt lev ix p.1 p.2, whole := t.ext, mext := t.inMem,
             offs := if t.offs = [] then o else List.zipWith (· + ·) o t.offs }

/-- A tensor as the sharding of a SHARD attribute, or of a parameter, names it (R56, R63): a value that the instance holds whole becomes its own block;
another sharding of a block names what the instance does not hold. -/
def TRef.shardAs (t : TRef) (lev : List Nat) (i : Nat) (axes : List Nat) (part : Nat) : Option TRef :=
  if t.axes = axes then some { t with part := part }
  else if t.axes.all (8 ≤ ·) then some ({ t with axes := axes, part := part }.ownBlock lev i)
  else none

/-- Whether a stage walk's slice runs on its core and no stop is requested; a walk of an instance's function needs no core. -/
def State.walkHere (s : State) (w : Nat) (wk : Walk) : Bool :=
  match wk.stage with
  | none => true
  | some _ =>
    let k := s.core wk.core
    (k.sl.walk.any fun h => h.walk == w) && k.run.isSome && (match k.stop with
      | .none => true
      | .preempt _ => !k.stopped
      | _ => false)

/-- Where walk w stands, while it is active and its context runs. -/
def State.curOf (s : State) (w : Nat) : Option Cur :=
  match s.walks.find w with
  | none => none
  | some wk =>
    match wk.frames.getLast?, s.insts.find wk.inst with
    | some fr, some i =>
      match s.objs.find i.obj, s.ctx? i.ctx with
      | some o, some x => if wk.st = 0 ∧ i.killed = false ∧ i.done = false ∧ x.state = 1 ∧ o.fenced = false ∧ s.walkHere w wk = true then some ⟨w, wk, fr, i, o, LRec.none_, s.levExt i⟩ else none
      | _, _ => none
    | _, _ => none

/-- The body of a function. -/
def Obj.body (o : Obj) (f : Nat) : List Instr := match o.funcs[f]? with
  | some g => g.body
  | none => []

/-- The record that walk w reaches next. -/
def State.nextRec (s : State) (w : Nat) : Option Instr :=
  match s.curOf w with
  | some c => (c.obj.body c.fr.fn)[c.fr.ip]?
  | none => none

/-- Whether what number n names has completed: an operator in flight, or a child launch; 0 names nothing (R65). -/
def State.opDone (s : State) (n : Nat) : Bool :=
  n == 0 || ((s.lops.find n).isNone && (match s.launches.find n with
    | some l => l.done
    | none => true))

/-- A constant-pool tensor as a value: read-only and complete (R80). -/
def constRef (t : TDesc) (va : Nat) : TRef :=
  let ext := fillDyn t.dims []
  { fmt := t.fmt, mx := t.mx, lay := t.lay, ext := ext, whole := ext, str := t.strides ext, base := BitVec.ofNat 64 (3 * 2 ^ 62 + va), hnd := none,
    gen := 0, alloc := 0, crew := [], voff := 0, prod := 0, fixed := true, axes := t.axes, part := t.part }

/-- The value that an operand names (R51). -/
def Cur.val (c : Cur) (o : LOpd) : Val :=
  match o with
  | .val d k => AMap.get (Val.i64 0) c.fr.vals (16 * (c.fr.ip - d.toNat) + k.toNat)
  | .param i => c.fr.params.getD i.toNat (.i64 0)
  | .imm v => .i64 (w64 (sext v.toNat 28))
  | .cpool i => match c.obj.consts[i.toNat]? with
    | some (.i64 v) => .i64 v
    | some (.ten t va) => .ten ((constRef t va).ownBlock c.lev c.inst.idx)
    | none => .i64 0

/-- The values of a record's operands. -/
def Cur.vals (c : Cur) (r : LRec) : List Val := r.opds.map c.val

/-- An I64 operand's value as a signed number. -/
def Val.int : Val → Int
  | .i64 v => v.toInt
  | _ => 0

/-- The operators that must have completed before a record that takes the value is dispatched (R65). -/
def Val.ready (s : State) : Val → Bool
  | .i64 _ => true
  | .tok n => s.opDone n
  | .ten t => t.hnd.isSome || s.opDone t.prod

/-- What produces a value, 0 for none. -/
def Val.prod : Val → Nat
  | .i64 _ => 0
  | .tok n => n
  | .ten t => t.prod

/-- The tensors among values. -/
def tensorsOf (vs : List Val) : List TRef := vs.filterMap fun v => match v with
  | .ten t => some t
  | _ => none

/-! ### Traps (R392) -/

/-- The lowest free record of a context's slice-record pool (R396, R397). -/
def State.freeRec (s : State) (ctx : Nat) : Option Nat :=
  match s.ctx? ctx with
  | none => none
  | some x => (List.range x.srcount).find? fun i => !(s.recs.any fun r => r.ctx == ctx && r.idx == i)

/-- The run of no slice. -/
def Run.zero : Run := ⟨0, 0, 0, 0, 0, 0, 0⟩

/-- SAVE_FULL: no record is free; the context stops (R397). -/
def State.saveFull (s : State) (ctx core : Nat) : State :=
  (s.trapRec ctx 0x86 0xFFFF 0 (2 ^ 32 - 1) 0xFFFF 0 core 0 0 0 0 0 0).stopCtx ctx

/-- Saves a held walk or operator that no core runs, in a record of kind HELD. -/
def State.holdRec (s : State) (ctx core : Nat) (run : Run) (walk lop : Nat) : State :=
  match s.freeRec ctx with
  | none => s.saveFull ctx core
  | some i => s.putRec { ctx := ctx, idx := i, kind := 2, resume := 0, run := run, sl := none, ops := [], walk := walk, lop := lop }

/-- A TRAP OF THE SEQUENCER (R68, R392): the record names the operator, and the walk is HELD at it. A stage walk's slice stops and is saved
with the walk; another walk has a record of its own. -/
def State.seqTrap (s : State) (c : Cur) (off code : Nat) (detail : W64) (hnd tile : Nat) : State :=
  let s := s.trapRec c.inst.ctx code c.fr.fn off tile hnd (s.genOf c.inst.cluster c.inst.ctx hnd) (16 * c.inst.cluster) 0 17 0 detail 0 0
  let s := s.updWalk c.w fun k => { k with st := 1 }
  match c.wk.stage with
  | some _ => s.updCore c.wk.core fun k => { k with stop := .held }
  | none => s.holdRec c.inst.ctx (16 * c.inst.cluster) { Run.zero with ctx := c.inst.ctx, inst := c.wk.inst } c.w 0

/-! ### Dispatch (R65) -/

/-- The static handles of a context take their entries of a cluster's table at its first record there; none when the table has no room
(R99, R414). An entry not yet taken has `inst` 0. -/
def State.takeStatic (s : State) (cl ctx : Nat) : Option State :=
  let new := ((s.cluster cl).hnd.filter fun p => p.1 / 4096 == ctx && p.2.static && p.2.inst == 0).length
  if new = 0 then some s
  else if 4096 < new + (s.cluster cl).bound then none
  else some (s.updCl cl fun k => { k with hnd := k.hnd.map fun (p : Nat × HEnt) =>
    if p.1 / 4096 = ctx ∧ p.2.static = true then (p.1, { p.2 with inst := 1 }) else p })

/-- Dispatches record r of walk w by m, once the producers that R65 names have completed. -/
def runSeq (w : Nat) (r : LRec) (m : Cur → SeqM Unit) (s : State) : Host.Outcome State Fault Refusal :=
  match s.curOf w with
  | none => .next s
  | some c =>
    if (c.vals r).all (Val.ready s) then
      match s.takeStatic c.inst.cluster c.inst.ctx with
      | none => .next (s.seqTrap c r.off 0x23 1 0xFFFF (2 ^ 32 - 1))
      | some s1 => match (m { c with rec_ := r }).run s1 with
        | .ok (_, s') => .next s'
        | .error .wait => .next s
        | .error (.trap code d h t) => .next { (s1.seqTrap c r.off code d h t) with fresh := s.fresh + 1 }
    else .next s

/-- Changes the innermost frame of a walk. -/
def State.updFrame (s : State) (w : Nat) (f : Frame → Frame) : State :=
  s.updWalk w fun k => match k.frames.getLast? with
    | some fr => { k with frames := k.frames.dropLast ++ [f fr] }
    | none => k

/-- Results of the record at `at_`. -/
def Frame.setRes (fr : Frame) (at_ : Nat) (vs : List Val) : Frame :=
  { fr with vals := ((List.range vs.length).zip vs).foldl (fun m p => m.upd (16 * at_ + p.1) p.2) fr.vals }

/-- Whether a value agrees with a descriptor: a static extent must be its own (R57, R71). -/
def VDesc.agrees (d : VDesc) (v : Val) : Bool :=
  match d, v with
  | .i64, .i64 _ => true
  | .tok, .tok _ => true
  | .ten t, .ten u => t.fmt == u.fmt && t.mx == u.mx && t.lay == u.lay && t.dims.length == u.whole.length
      && (t.dims.zip u.whole).all fun p => match p.1 with
        | some n => n == p.2
        | none => true
  | _, _ => false

/-- The handle of a value, 0xFFFF for one that has none. -/
def Val.hndOf : Val → Nat
  | .ten t => t.hnd.getD 0xFFFF
  | _ => 0xFFFF

/-- The sharding that a record names for result i, a tensor of some rank: that of SHARD, else one that its TYPE carries (R56, R62). -/
def shardOf (r : LRec) (i rank : Nat) : Option (List Nat × Nat) :=
  let ty := match r.types[i]? with
    | some (.ten d) => if d.axes.all (8 ≤ ·) && d.part == 0 then none else some (d.axes, d.part)
    | _ => none
  match r.attr 2 with
  | some p => if (p.headD 0).toNat = i then (parseShard rank (p.drop 1)).toOption else ty
  | none => ty

/-- A result under its record's sharding (R56): none where the instance does not hold what it names. -/
def Cur.shardVal (c : Cur) (r : LRec) (i : Nat) (v : Val) : Option Val :=
  match v with
  | .ten t => match shardOf r i t.ext.length with
    | some q => (t.shardAs c.lev c.inst.idx q.1 q.2).map .ten
    | none => some v
  | _ => some v

/-- The results of record r under its sharding, or the first of which the instance does not hold what that names. -/
def Cur.sharded (c : Cur) (r : LRec) (vs : List Val) : Except Nat (List Val) :=
  let us := ((List.range vs.length).zip vs).map fun p => c.shardVal r p.1 p.2
  match firstIdx Option.isNone us with
  | some i => .error i
  | none => .ok (us.filterMap id)

/-- The results of record r under its sharding, or the first that its TYPE or its sharding contradicts (R57). -/
def Cur.typed (c : Cur) (r : LRec) (vs : List Val) : Except Nat (List Val) :=
  match firstIdx (fun p => !VDesc.agrees p.1 p.2) (r.types.zip vs) with
  | some i => .error i
  | none => c.sharded r vs

/-- The record's results, and the walk goes on at the next record; a result that its TYPE or SHARD contradicts raises SHAPE_MISMATCH with the
handle of the value (R57, R68). -/
def doneQ (c : Cur) (vs : List Val) : SeqM Unit :=
  match c.typed c.rec_ vs with
  | .error i => trapQ 0x53 (BitVec.ofNat 64 i) (vs.getD i (.i64 0)).hndOf
  | .ok ws => modify fun s => s.updFrame c.w fun fr => { (fr.setRes fr.ip ws) with ip := fr.ip + 1 }

/-- The results that a walk gives record `at_` of frame fr's function, which it does not stand at, and what the walk does then; SHAPE_MISMATCH names
that record (R57). -/
def resultAt (c : Cur) (fr : Frame) (at_ : Nat) (vs : List Val) (go : State → List Val → State) : SeqM Unit :=
  let q := (lrecOf (((c.obj.body fr.fn)[at_]?).getD (.lNop 0 LRec.none_))).2
  match c.typed q vs with
  | .error i => modify fun s => s.seqTrap { c with fr := fr } q.off 0x53 (BitVec.ofNat 64 i) (vs.getD i (.i64 0)).hndOf (2 ^ 32 - 1)
  | .ok ws => modify fun s => go s ws

/-- The walk goes on at another place. -/
def goQ (c : Cur) (f : Frame → Frame) : SeqM Unit := modify fun s => s.updFrame c.w f

/-- The close of a region that opens before record i: `els` also stops at an `else` of this region. -/
def findClose (els : Bool) : List Instr → Nat → Nat → Option Nat
  | [], _, _ => none
  | x :: r, i, d =>
    match x with
    | .lLoop _ _ => findClose els r (i + 1) (d + 1)
    | .lIf _ _ => findClose els r (i + 1) (d + 1)
    | .lStage _ _ => findClose els r (i + 1) (d + 1)
    | .lElse _ _ => if d = 0 ∧ els = true then some i else findClose els r (i + 1) d
    | .lEndloop _ _ => if d = 0 then some i else findClose els r (i + 1) (d - 1)
    | .lEndif _ _ => if d = 0 then some i else findClose els r (i + 1) (d - 1)
    | .lEndstage _ _ => if d = 0 then some i else findClose els r (i + 1) (d - 1)
    | _ => findClose els r (i + 1) d

/-- The close of the region that encloses record i of a walk's body, or that record i opens. -/
def Cur.close (c : Cur) (els : Bool) (i : Nat) : Nat :=
  (findClose els ((c.obj.body c.fr.fn).drop (i + 1)) (i + 1) 0).getD i

/-! ### Operators in flight -/

/-- Context, cluster of a walk's instance. -/
def Cur.ctx (c : Cur) : Nat := c.inst.ctx
def Cur.cl (c : Cur) : Nat := c.inst.cluster

/-- A new operator in flight for record r, of a kind, with its outputs; its number. -/
def newLop (c : Cur) (r : LRec) (i : Instr) (kind : Nat) (args : List Val) (outs : List TRef)
    (deps : List Nat) (waits : List (Nat × Nat × Nat)) : SeqM Nat := do
  let (id, s) := (← get).newId
  let o : LOp :=
    { inst := c.wk.inst, walk := c.w, ctx := c.ctx, cluster := c.cl, func := c.fr.fn, off := r.off, kind := kind, ins := i, args := args,
      outs := outs, deps := deps, waits := waits, ntile := 0, tiles := [], live := 0, csize := 0, rtn := 0, set_ := [], rank := 0,
      seq := 0, tl9 := 0, fault := none }
  set { s with lops := s.lops.upd id o }
  pure id

/-- What an operator waits for in its source tensors: their producers, and their handles in state FULL (R101). -/
def srcWaits (s : State) (ts : List TRef) : List Nat × List (Nat × Nat × Nat) :=
  ((ts.map (·.prod)).filter fun n => !s.opDone n,
   ts.filterMap fun t => t.hnd.map fun h => (h, t.alloc, 2))

/-- Whether a value's contents stand: its producer has completed, and a region that `alloc` has reserved is FULL (R65, R76). -/
def Val.stands (s : State) (c : Cur) : Val → Bool
  | .ten t => s.opDone t.prod && (match t.hnd with
    | some h =>
      let e := s.handle c.cl c.ctx h
      !(e.alloc == t.alloc && e.st == 1 && (e.gen + 1) % 65536 == t.gen)
    | none => true)
  | v => s.opDone v.prod

/-- A handle that a record names as destination: dead raises HANDLE_STALE, FILLING waits (R101). -/
def destReady (c : Cur) (t : TRef) : SeqM Unit := do
  match t.hnd with
  | none => pure ()
  | some h =>
    let e := (← get).handle c.cl c.ctx h
    if e.alloc ≠ t.alloc ∨ e.st = 0 ∨ e.st = 3 then trapQ 0x21 (BitVec.ofNat 64 (t.gen % 65536)) h
    else if e.st = 1 then waitQ
    else pure ()

/-- A destination goes from FULL to FILLING for a writer of n bytes (R101). -/
def destFill (c : Cur) (t : TRef) (n : Nat) : SeqM Unit := do
  match t.hnd with
  | none => pure ()
  | some h =>
    let s ← get
    let e := s.handle c.cl c.ctx h
    set (s.setHandle c.cl c.ctx h ({ e with st := 1, tgt := n, cnt := 0 }.settle s.ccyc))

/-- The result that names a destination's storage with the contents that operator n gives it (R92). -/
def resultOf (s : State) (c : Cur) (t : TRef) (n : Nat) : TRef :=
  { t with prod := n, gen := match t.hnd with
    | some h => ((s.handle c.cl c.ctx h).gen + 1) % 65536
    | none => 0 }

/-- The state of a wait on a handle (0 FREE, 2 FULL), or on the arrival of a queue's pushes up to cycle p.2.1 (3): 0 it goes on, 1 it is
over, 2 the handle is dead. -/
def State.waitSt (s : State) (o : LOp) (p : Nat × Nat × Nat) : Nat :=
  let e := s.handle o.cluster o.ctx p.1
  if p.2.2 = 3 then (match s.queues.find p.1 with
    | some q => if q.fly.all (p.2.1 < ·.at_) then 1 else 0
    | none => 1)
  else if p.2.2 = 0 then (if p.1 < 4096 ∧ (e.alloc ≠ p.2.1 ∨ e.st = 0) then 1 else 0)
  else if 4096 ≤ p.1 then 1
  else if e.alloc ≠ p.2.1 ∨ e.st = 0 ∨ e.st = 3 then 2
  else if e.st = 2 then 1 else 0

/-- Whether an operator's waits are over: every producer has completed and every handle is in its state, or is dead. -/
def State.lopReady (s : State) (o : LOp) : Bool := o.deps.all s.opDone && o.waits.all fun p => s.waitSt o p != 0

/-- The members of an operator's fusing group among the operators in flight, in record order (R138). -/
def State.group_ (s : State) (o : LOp) : List (Nat × LOp) := if o.grp = 0 then [] else s.lops.filter fun p => p.2.grp == o.grp

/-- The handles that operators write. -/
def outHandles (g : List (Nat × LOp)) : List Nat := g.flatMap fun p => p.2.outs.filterMap (·.hnd)

/-- Whether the waits of an operator's tiles are over: in a fused group the order of its tiles stands for what another member writes (R101, R138). -/
def State.tileReady (s : State) (o : LOp) : Bool :=
  if o.fuse = 2 then
    let g := s.group_ o
    (o.deps.all fun n => (g.map (·.1)).contains n || s.opDone n) && o.waits.all fun p => (outHandles g).contains p.1 || s.waitSt o p != 0
  else s.lopReady o

/-- The first dead handle that an operator names. -/
def State.lopStale (s : State) (o : LOp) : Option Nat := (o.waits.find? fun p => s.waitSt o p == 2).map (·.1)

end Sys2Proof.Machine
end

