-- ==== Sys2Proof/Machine/LCtl.lean ====
section
/-! DEFINITION. Control and scalar operators (spec/03 R69 to R75, R79 to R85). -/
namespace Sys2Proof.Machine

/-! ### Control (R70 to R75) -/

/-- `nop` (R70). -/
def execLNop (w : Nat) (r : LRec) (s : State) : Host.Outcome State Fault Refusal := runSeq w r (fun c => doneQ c []) s

/-- `loop` (R71): with no iteration the walk goes past `endloop`, whose results are the initial values. An initial value that the loop's TYPE
contradicts is found at `endloop`, and without an iteration at `loop` (DEDUCED, log 22). -/
def execLLoop (w : Nat) (r : LRec) (s : State) : Host.Outcome State Fault Refusal :=
  runSeq w r (fun c => do
    let vs := c.vals r
    let n := ((vs.headD (.i64 0)).int).toNat
    let at_ := c.fr.ip
    if n = 0 then
      match firstIdx (fun p => !VDesc.agrees p.1 p.2) (r.types.zip (.i64 0 :: vs.drop 1)) with
      | some i => trapQ 0x53 (BitVec.ofNat 64 i) (vs.getD i (.i64 0)).hndOf
      | none => resultAt c c.fr (c.close false at_) (vs.drop 1) fun s us =>
          s.updFrame c.w fun fr => { (fr.setRes (c.close false at_) us) with ip := c.close false at_ + 1 }
    else match c.sharded r (.i64 0 :: vs.drop 1) with
      | .error i => trapQ 0x53 (BitVec.ofNat 64 i) (vs.getD i (.i64 0)).hndOf
      | .ok us => goQ c fun fr => { (fr.setRes at_ us) with ip := at_ + 1, ctl := fr.ctl ++ [⟨0, at_, 0, n, vs.drop 1⟩] }) s

/-- Whether a carried value keeps the kind, format, rank and layout of another (R71, R73). -/
def Val.agrees : Val → Val → Bool
  | .i64 _, .i64 _ => true
  | .tok _, .tok _ => true
  | .ten t, .ten u => t.fmt == u.fmt && t.mx == u.mx && t.lay == u.lay && t.ext.length == u.ext.length
  | _, _ => false

/-- `endloop` (R71). -/
def execLEndloop (w : Nat) (r : LRec) (s : State) : Host.Outcome State Fault Refusal :=
  runSeq w r (fun c => do
    let vs := c.vals r
    match c.fr.ctl.getLast? with
    | none => doneQ c vs
    | some k =>
      let q := (lrecOf (((c.obj.body c.fr.fn)[k.at_]?).getD (.lNop 0 r))).2
      let bad := firstIdx (fun (p : Val × Val × Option VDesc) => !p.1.agrees p.2.1 || (match p.2.2 with
        | some d => !d.agrees p.1 || !d.agrees p.2.1
        | none => false)) (vs.zip (k.carry.zip ((List.range vs.length).map fun i => q.types[i + 1]?)))
      match bad with
      | some i => trapQ 0x53 (BitVec.ofNat 64 i) (vs.getD i (.i64 0)).hndOf
      | none =>
        if k.i + 1 < k.n then
          match c.sharded q (.i64 (BitVec.ofNat 64 (k.i + 1)) :: vs) with
          | .error i => trapQ 0x53 (BitVec.ofNat 64 (i - 1)) (vs.getD (i - 1) (.i64 0)).hndOf
          | .ok us => goQ c fun fr =>
            { (fr.setRes k.at_ us) with ip := k.at_ + 1, ctl := fr.ctl.dropLast ++ [{ k with i := k.i + 1, carry := vs }] }
        else resultAt c c.fr c.fr.ip vs fun s us =>
          s.updFrame c.w fun fr => { (fr.setRes fr.ip us) with ip := fr.ip + 1, ctl := fr.ctl.dropLast }) s

/-- Drops open regions up to and with the innermost loop. -/
def dropLoop (l : List LCtl) : List LCtl := (l.reverse.dropWhile (·.kind != 0)).drop 1 |>.reverse

/-- `brk` (R72). -/
def execLBrk (w : Nat) (r : LRec) (s : State) : Host.Outcome State Fault Refusal :=
  runSeq w r (fun c => do
    let vs := c.vals r
    match c.fr.ctl.reverse.find? (·.kind == 0) with
    | some k =>
      if (vs.headD (.i64 0)).int = 0 then doneQ c []
      else
        let e := c.close false k.at_
        resultAt c c.fr e (vs.drop 1) fun s us => s.updFrame c.w fun fr => { (fr.setRes e us) with ip := e + 1, ctl := dropLoop fr.ctl }
    | none => doneQ c []) s

/-- `if` (R73). -/
def execLIf (w : Nat) (r : LRec) (s : State) : Host.Outcome State Fault Refusal :=
  runSeq w r (fun c => do
    let v := ((c.vals r).headD (.i64 0)).int
    let at_ := c.fr.ip
    if v ≠ 0 then goQ c fun fr => { fr with ip := at_ + 1, ctl := fr.ctl ++ [⟨1, at_, 0, 0, []⟩] }
    else
      let e := c.close true at_
      match (c.obj.body c.fr.fn)[e]? with
      | some (.lElse _ _) => goQ c fun fr => { fr with ip := e + 1, ctl := fr.ctl ++ [⟨2, at_, 0, 0, []⟩] }
      | _ => goQ c fun fr => { fr with ip := e + 1 }) s

/-- `else` (R73): the end of the first region, whose values are `endif`'s results. -/
def execLElse (w : Nat) (r : LRec) (s : State) : Host.Outcome State Fault Refusal :=
  runSeq w r (fun c => do
    let e := c.close false c.fr.ip
    resultAt c c.fr e (c.vals r) fun s us => s.updFrame c.w fun fr => { (fr.setRes e us) with ip := e + 1, ctl := fr.ctl.dropLast }) s

/-- `endif` (R73). -/
def execLEndif (w : Nat) (r : LRec) (s : State) : Host.Outcome State Fault Refusal :=
  runSeq w r (fun c => resultAt c c.fr c.fr.ip (c.vals r) fun s us =>
    s.updFrame c.w fun fr => { (fr.setRes fr.ip us) with ip := fr.ip + 1, ctl := fr.ctl.dropLast }) s

/-- A value as a parameter of a function names it: a tensor under the parameter's sharding (R63, R84). -/
def Cur.asParam (c : Cur) (f i : Nat) (v : Val) : Option Val :=
  match v, (c.obj.funcs[f]?).bind fun g => g.params[i]? with
  | .ten t, some (.ten d) => (t.shardAs c.lev c.inst.idx d.axes d.part).map .ten
  | _, _ => some v

/-- `call` (R74): frame 64 would be one too many. A parameter's sharding holds for its argument. -/
def execLCall (w : Nat) (r : LRec) (s : State) : Host.Outcome State Fault Refusal :=
  runSeq w r (fun c => do
    let vs := c.vals r
    let ps := ((List.range vs.length).zip vs).map fun p => c.asParam (r.word 5 0) p.1 p.2
    if 64 ≤ c.wk.frames.length then trapQ 0x56 (Config.freeWord (← get).fresh) 0xFFFF
    else match firstIdx Option.isNone ps with
      | some i => trapQ 0x53 (BitVec.ofNat 64 i) (vs.getD i (.i64 0)).hndOf
      | none => modify fun s => s.updWalk c.w fun k => { k with frames := k.frames ++ [⟨r.word 5 0, 0, [], ps.filterMap id, []⟩] }) s

/-- `ret` (R75): the caller goes on with the results; in the entry function the walk ends. -/
def execLRet (w : Nat) (r : LRec) (s : State) : Host.Outcome State Fault Refusal :=
  runSeq w r (fun c => do
    let vs := c.vals r
    match c.wk.frames.dropLast.getLast? with
    | none => modify fun s => s.updWalk c.w fun k => { k with st := 2 }
    | some up => resultAt c up up.ip vs fun s us =>
        (s.updWalk c.w fun k => { k with frames := k.frames.dropLast }).updFrame c.w fun fr => { (fr.setRes fr.ip us) with ip := fr.ip + 1 }) s

/-! ### Scalars (R79 to R85) -/

/-- Operand i of a record as a signed number. -/
def Cur.argZ (c : Cur) (r : LRec) (i : Nat) : Int := ((c.vals r).getD i (.i64 0)).int

/-- One I64 result. -/
def resZ (c : Cur) (v : Int) : SeqM Unit := doneQ c [.i64 (w64 v)]

/-- `const` (R80). -/
def execLConst (w : Nat) (r : LRec) (s : State) : Host.Outcome State Fault Refusal :=
  runSeq w r (fun c => doneQ c (c.vals r)) s

/-- The ceiling of a quotient. -/
def cdivZ (a b : Int) : Int := -((-a).fdiv b)

/-- An unsigned reading of a 64-bit number. -/
def uns (a : Int) : Nat := bitsZ a 64

/-- `sop`'s result for codes 0 to 16 and divisors that do not trap (R81). -/
def sopFn (op : Nat) (a b : Int) : Int :=
  match op with
  | 0 => a + b
  | 1 => a - b
  | 2 => a * b
  | 3 => a.tdiv b
  | 4 => a - b * a.tdiv b
  | 5 => cdivZ a b
  | 6 => min a b
  | 7 => max a b
  | 8 => if uns a ≤ uns b then a else b
  | 9 => if uns a ≤ uns b then b else a
  | 10 => (Nat.land (uns a) (uns b) : Nat)
  | 11 => (Nat.lor (uns a) (uns b) : Nat)
  | 12 => (Nat.xor (uns a) (uns b) : Nat)
  | 13 => if 64 ≤ uns b then 0 else a * 2 ^ uns b
  | 14 => if 64 ≤ uns b then 0 else (uns a / 2 ^ uns b : Nat)
  | 15 => a.fdiv (2 ^ Nat.min (uns b) 64 : Nat)
  | _ => cdivZ a b * b

/-- `sop` (R81). -/
def execLSop (w : Nat) (r : LRec) (s : State) : Host.Outcome State Fault Refusal :=
  runSeq w r (fun c => do
    let op := r.word 0x100 0 % 32
    let b := c.argZ r 1
    if (3 ≤ op ∧ op ≤ 5 ∧ b = 0) ∨ (op = 16 ∧ b ≤ 0) then trapQ 0x04 1 0xFFFF
    else resZ c (sopFn op (c.argZ r 0) b)) s

/-- `scmp`'s comparison (R82). -/
def scmpFn (code : Nat) (a b : Int) : Bool :=
  match code with
  | 0 => a == b
  | 1 => a != b
  | 2 => decide (a < b)
  | 3 => decide (a ≤ b)
  | 4 => decide (b < a)
  | 5 => decide (b ≤ a)
  | 6 => decide (uns a < uns b)
  | _ => decide (uns a ≤ uns b)

/-- `scmp`. -/
def execLScmp (w : Nat) (r : LRec) (s : State) : Host.Outcome State Fault Refusal :=
  runSeq w r (fun c => resZ c (if scmpFn (r.word 0x100 0 % 16) (c.argZ r 0) (c.argZ r 1) then 1 else 0)) s

/-- `sel` (R83). -/
def execLSel (w : Nat) (r : LRec) (s : State) : Host.Outcome State Fault Refusal :=
  runSeq w r (fun c => doneQ c [(c.vals r).getD (if c.argZ r 0 ≠ 0 then 1 else 2) (.i64 0)]) s

/-- `dim` (R84): of a sharded tensor, the instance's own block. -/
def execLDim (w : Nat) (r : LRec) (s : State) : Host.Outcome State Fault Refusal :=
  runSeq w r (fun c => do
    let a := (c.argZ r 1).toNat
    match tensorsOf ((c.vals r).take 1) with
    | t :: _ =>
      resZ c (t.ext.getD a 0)
    | [] => resZ c 0) s

/-- `idx` (R85). -/
def execLIdx (w : Nat) (r : LRec) (s : State) : Host.Outcome State Fault Refusal :=
  runSeq w r (fun c => do
    let l := (c.argZ r 0).toNat
    resZ c (if l = 8 then c.inst.idx else (levelIdx c.lev c.inst.idx).getD l 0)) s

end Sys2Proof.Machine
end

