-- ==== Sys2Proof/Machine/LMem.lean ====
section
/-! DEFINITION. The Saltern and the operators over handles: `alloc`, `free`, `view`, `fence`, `waith`, `assert` (spec/04 R98 to R107, R112
to R114, R135 to R137). -/
namespace Sys2Proof.Machine

/-! ### Crews (R110, R153, R160) -/

/-- Whether a bind record is in force: V, no reserved class, MINC at most MAXC (R160). -/
def Bind.ok (b : Bind) : Bool := b.v && b.cls != 3 && b.minc ≤ b.maxc

/-- The cores of a bind record's crew, ascending. -/
def Bind.cores (b : Bind) (cl : Nat) : List Nat := maskCores cl b.crew.toNat

/-- The crew of an instance's operators outside its stages: that of its record in the lowest slot; its unit when it has none (DEDUCED, log 22). -/
def State.instCrew (s : State) (i : Nat) (x : Inst) : List Nat :=
  match (s.cluster x.cluster).binds.find? fun p => p.2.ok && p.2.inst == i with
  | some p => p.2.cores x.cluster
  | none => x.cores.filter fun c => clOf c == x.cluster

/-- The crew of a walk: its core inside a stage (R153). -/
def State.crewOf (s : State) (c : Cur) : List Nat :=
  match c.wk.stage with
  | some _ => [c.wk.core]
  | none => s.instCrew c.wk.inst c.inst

/-! ### Granules (R102 to R106) -/

/-- Runs of consecutive numbers in an ascending list as (first, length). -/
def freeRuns (l : List Nat) : List (Nat × Nat) := runsOf l

/-- The shortest run of at least m, the lowest on equal length (R103). -/
def pickRun (m : Nat) (rs : List (Nat × Nat)) : Option Nat :=
  ((rs.filter fun r => m ≤ r.2).foldl (fun b r => match b with
    | none => some r
    | some q => if r.2 < q.2 then some r else some q) none).map (·.1)

/-- Granules of the allocation pool free on every core of a list. -/
def State.poolFree (s : State) (cl : Nat) (cores : List Nat) : List Nat :=
  let g := (s.cluster cl).gran
  (List.range 320).filter fun i => cores.all fun c => AMap.get 0 g (c * 512 + i) == 0

/-- Granules of a context's live regions in a cluster's pools (R106). -/
def State.liveGran (s : State) (cl ctx : Nat) : Nat :=
  ((s.cluster cl).hnd.filter fun p => p.1 / 4096 == ctx && p.2.st != 0 && p.2.region.space ≤ 1).foldl
    (fun n p => n + p.2.region.n * p.2.region.cores.length) 0

/-- Each 16-byte unit of n bytes at a flat address reads as zero or keeps its bytes, freely (R105, log 16). -/
def State.scrub (s : State) (a n : Nat) : State :=
  { s with mem := s.mem.filter (fun c => c.1 < a || a + n ≤ c.1 || Config.freeBool (s.fresh + (c.1 - a) / 16)),
           fresh := s.fresh + cdiv n 16 }

/-- Grants one granule of a core to a context: zeroed when another context held it last (R105). Answers whether it was zeroed. -/
def State.grantOne (s : State) (cl ctx core g : Nat) : Bool × State :=
  let k := core * 512 + g
  let old := AMap.get 0 (s.cluster cl).last k
  let a := padKey core (4096 * g)
  let t := s.updCl cl fun q => { q with gran := q.gran.put 0 k (ctx + 1), last := q.last.put 0 k (ctx + 1) }
  if old = ctx + 1 then (false, t.scrub a 4096) else (true, t.clear a 4096)

/-- Grants a list of granules of cores; the largest number zeroed on one core. -/
def State.grantAll (s : State) (cl ctx g0 n : Nat) : List Nat → Nat × State
  | [] => (0, s)
  | c :: r =>
    let p := (List.range n).foldl (fun (q : Nat × State) i =>
      let z := q.2.grantOne cl ctx c (g0 + i)
      (q.1 + (if z.1 then 1 else 0), z.2)) (0, s)
    let q := State.grantAll p.2 cl ctx g0 n r
    (Nat.max p.1 q.1, q.2)

/-- Granules of the chip scratchpad share that are free (R104). -/
def State.chipFree (s : State) : List Nat := (List.range (2048 * s.poolS)).filter fun i => AMap.get 0 s.cgran i == 0

/-- The lowest-numbered FREE handle of a context in a cluster, or why there is none: 0 no FREE handle, 1 no free entry (R98, R99). -/
def State.freeHandle (s : State) (cl ctx : Nat) : Except Nat Nat :=
  match (List.range 4096).find? fun h => (s.handle cl ctx h).st == 0 with
  | none => .error 0
  | some h => if 4096 ≤ (s.cluster cl).bound then .error 1 else .ok h

/-- Binds a handle to a granted region; it is FULL once its granules are zero (R101, R105, R112). -/
def State.bindHandle (s : State) (cl ctx h : Nat) (rg : Region) (zeroed : Nat) : State :=
  let e := s.handle cl ctx h
  let (id, s) := s.newId
  s.setHandle cl ctx h
    ({ e with st := 1, region := rg, tgt := 0, cnt := 0, alloc := id, wait := [], static := false,
              zeroAt := if zeroed = 0 then none else some (s.ccyc + 8 * zeroed) }.settle s.ccyc)

/-- Takes a region of n bytes for handle h, or the trap that refuses it: code, detail and part (R103 to R106). `crew` are the cores. -/
def State.takeRegion (s : State) (cl ctx qreg space h n : Nat) (crew : List Nat) : Except (Nat × Nat × Nat) State :=
  match space with
  | 2 =>
    if (match s.ctx? ctx with
      | some x => !x.cso
      | none => true) then .error (0x03, 6, 0)
    else
      let m := cdiv n 4096
      let fr := freeRuns s.chipFree
      if m = 0 then .ok (s.bindHandle cl ctx h ⟨2, [], 0, 0, 0, 0⟩ 0)
      else match pickRun m fr with
        | none => .error (0x51, m + 2 ^ 32 * maxN (fr.map (·.2)), 0)
        | some g =>
          let p := (List.range m).foldl (fun (q : Nat × State) i =>
            let k := g + i
            let t := { q.2 with cgran := q.2.cgran.put 0 k (ctx + 1), clast := q.2.clast.put 0 k (ctx + 1) }
            if AMap.get 0 q.2.clast k = ctx + 1 then (q.1, t.scrub (chipKey (4096 * k)) 4096)
            else (q.1 + 1, t.clear (chipKey (4096 * k)) 4096)) (0, s)
          .ok (p.2.bindHandle cl ctx h ⟨2, [], g, m, n, 4096 * g⟩ p.1)
  | 3 =>
    match s.ctx? ctx with
    | none => .error (0x51, cdiv n 65536, 0)
    | some x =>
      let m := cdiv n 65536
      let fr := freeRuns ((List.range x.heapN).filter fun g => !x.heap.contains g)
      if m = 0 then .ok (s.bindHandle cl ctx h ⟨3, [], 0, 0, 0, 0⟩ 0)
      else match pickRun m fr with
        | none => .error (0x51, m + 2 ^ 32 * maxN (fr.map (·.2)), 0)
        | some g =>
          .ok ((s.updCtx ctx fun y => { y with heap := y.heap ++ (List.range m).map (g + ·) }).bindHandle cl ctx h
            ⟨3, [], g, m, n, x.heapVA + 65536 * g⟩ 0)
  | _ =>
    let m := cdiv (cdiv n 4096) crew.length
    let live := s.liveGran cl ctx
    match (List.range crew.length).find? fun i => qreg < live + (i + 1) * m with
    | some i => .error (0x50, m + 2 ^ 32 * live, i)
    | none =>
      let fr := freeRuns (s.poolFree cl crew)
      if m = 0 then .ok (s.bindHandle cl ctx h ⟨space, crew, 0, 0, 0, 0⟩ 0)
      else match pickRun m fr with
        | none => .error (0x51, m + 2 ^ 32 * maxN (fr.map (·.2)), 0)
        | some g =>
          let p := s.grantAll cl ctx g m crew
          .ok (p.2.bindHandle cl ctx h ⟨space, crew, g, m, n, 4096 * g⟩ p.1)

/-- Returns a region's storage (R101). -/
def State.dropRegion (s : State) (cl ctx : Nat) (rg : Region) : State :=
  match rg.space with
  | 2 => { s with cgran := (List.range rg.n).foldl (fun m i => m.put 0 (rg.g0 + i) 0) s.cgran }
  | 3 => s.updCtx ctx fun x => { x with heap := x.heap.filter fun g => g < rg.g0 || rg.g0 + rg.n ≤ g }
  | 4 => s
  | _ => s.updCl cl fun k => { k with gran := rg.cores.foldl (fun m c =>
      (List.range rg.n).foldl (fun m i => m.put 0 (c * 512 + rg.g0 + i) 0) m) k.gran }

/-- A handle becomes FREE and its granules return; GEN stays (R98, R101). -/
def State.freeH (s : State) (cl ctx h : Nat) : State :=
  let e := s.handle cl ctx h
  (s.dropRegion cl ctx e.region).setHandle cl ctx h { HEnt.free with gen := e.gen }

/-- The quota of a walk's launch (R106). -/
def State.quota (s : State) (i : Inst) : Nat := match s.launches.find i.launch with
  | some l => l.qreg
  | none => 0

/-! ### Operators -/

/-- The dynamic extents of a TYPE from operands at `from_` on; out of range raises SHAPE_RANGE (R67, R112). -/
def dynExts (c : Cur) (r : LRec) (t : TDesc) (from_ : Nat) : SeqM (List Nat) := do
  let n := (t.dims.filter (·.isNone)).length
  let zs := (List.range n).map fun i => c.argZ r (from_ + i)
  match firstIdx (fun z => z < 0 || 2 ^ 31 - 1 < z) zs with
  | some i => trapQ 0x52 (BitVec.ofNat 64 (from_ + i)) 0xFFFF
  | none => pure (fillDyn t.dims (zs.map (·.toNat)))

/-- Extents that an instance holds of a tensor: its own blocks of sharded dimensions (R63). -/
def Cur.ownExt (c : Cur) (ext axes : List Nat) : List Nat :=
  (ext.zip axes).map fun p => blockExt c.lev (levelIdx c.lev c.inst.idx) p.1 p.2

/-- The first tensor descriptor of a record's TYPE, its SHARD words for result 0 included (R56). -/
def tensorTypeOf (r : LRec) : Option TDesc :=
  match r.types.head? with
  | some (.ten t) => match shardOf r 0 t.dims.length with
    | some q => some { t with axes := q.1, part := q.2 }
    | none => some t
  | _ => none

/-- `alloc` (R112): the handle is reserved, then the region granted; on a trap nothing is granted. -/
def execLAlloc (w : Nat) (r : LRec) (s : State) : Host.Outcome State Fault Refusal :=
  runSeq w r (fun c => do
    match tensorTypeOf r with
    | none => doneQ c [.i64 0]
    | some t =>
      let s ← get
      let whole ← dynExts c r t 0
      let ext := c.ownExt whole t.axes
      match s.freeHandle c.cl c.ctx with
      | .error e => trapQ 0x23 (BitVec.ofNat 64 e) 0xFFFF
      | .ok h =>
        let space := r.word 0x100 0 % 4
        let crew := s.crewOf c
        let pos := r.word 0x101 0 % 65536
        if space = 0 ∧ crew.length ≤ pos then trapQ 0x52 0xFFFFFFFF h
        else
          let str := t.strides ext
          let sp := tensorSpan t.fmt t.lay t.mx ext str
          let cores := if space = 0 then [crew.getD pos 0] else if space = 1 then crew else []
          match s.takeRegion c.cl c.ctx (s.quota c.inst) space h sp.2 cores with
          | .error (code, d, part) => throw (SeqStop.trap code (BitVec.ofNat 64 d) h part)
          | .ok s' =>
            let e := s'.handle c.cl c.ctx h
            set (s'.setHandle c.cl c.ctx h { e with inst := c.wk.inst })
            let off := ((e.region.base : Int) - sp.1).toNat
            let base : Nat := match space with
              | 2 => 2 * 2 ^ 62 + off
              | 3 => 3 * 2 ^ 62 + off
              | _ => 2 ^ 62 + cores.headD 0 % 16 * 2 ^ 21 + off
            doneQ c [.ten
              { fmt := t.fmt, mx := t.mx, lay := t.lay, ext := ext, whole := whole, str := str, base := BitVec.ofNat 64 base, hnd := some h,
                gen := if e.st = 2 then e.gen else (e.gen + 1) % 65536, alloc := e.alloc,
                crew := if space = 1 then cores.map (· % 16) else [], voff := 0, prod := 0, fixed := false, axes := t.axes,
                part := t.part }]) s

/-- `GRANULE_ZERO_FILL` (R105): the granules granted from another context are zero; the handle may reach FULL. -/
def execEZeroFill (cl ctx h : Nat) (s : State) : Host.Outcome State Fault Refusal :=
  let e := s.handle cl ctx h
  match e.zeroAt with
  | none => .next s
  | some t => .next (if s.ccyc < t then s else s.setHandle cl ctx h ({ e with zeroAt := none }.settle s.ccyc))

/-- The bank of a slice whose live source record names a handle: 0 active, 1 shadow. -/
def Slice.pins (x : Slice) (h : Nat) : Option Nat :=
  let src := fun (b : Option WSrc) => b.any fun w => w.hnd == some h
  if src x.mx.vSrcA then some 0 else if src x.mx.vSrcS then some 1 else none

/-- The live weight bank that a region feeds in a cluster (R107): of a slice on a core, or of one in a slice record (R302, R322). -/
def State.pinned (s : State) (cl ctx h : Nat) : Option Nat :=
  ((List.range 16).findSome? fun l =>
      let k := s.core (16 * cl + l)
      if k.run.any fun r => r.ctx == ctx then k.sl.pins h else none)
    <|> s.recs.findSome? fun r =>
      if r.ctx == ctx && (s.insts.find r.run.inst).any (fun x => x.cluster == cl) then r.sl.bind fun x => x.pins h else none

/-- Operators in flight of a context and cluster whose tiles name a handle; `fence`, `waith` and `free` run no tile. -/
def State.namers (s : State) (cl ctx h alloc : Nat) : List Nat :=
  (s.lops.filter fun p => p.2.cluster == cl && p.2.ctx == ctx && p.2.kind != 3 && p.2.kind != 4
    && (tensorsOf p.2.args ++ p.2.outs).any fun t => t.hnd == some h && t.alloc == alloc).map (·.1)

/-- A FULL handle becomes DRAINING until the operators dispatched before have completed (R101). -/
def State.drainH (s : State) (cl ctx h self : Nat) : State :=
  let e := s.handle cl ctx h
  s.setHandle cl ctx h { e with st := 3, wait := (s.namers cl ctx h e.alloc).filter (· < self) }

/-- `free` (R113): its token completes when the handle is FREE. A FILLING handle is awaited first. -/
def execLFree (w : Nat) (r : LRec) (s : State) : Host.Outcome State Fault Refusal :=
  runSeq w r (fun c => do
    match tensorsOf ((c.vals r).take 1) with
    | [] => doneQ c [.tok 0]
    | t :: _ =>
      match t.hnd with
      | none => trapQ 0x03 5 0xFFFF
      | some h =>
        let s ← get
        let e := s.handle c.cl c.ctx h
        if e.alloc ≠ t.alloc ∨ e.st = 0 ∨ e.st = 3 then trapQ 0x21 (BitVec.ofNat 64 (t.gen % 65536)) h
        else match s.pinned c.cl c.ctx h with
          | some b => trapQ 0x36 (BitVec.ofNat 64 b) h
          | none =>
            if e.st = 2 then
              let n ← newLop c r (.lFree w r) 3 [] [] [] [(h, t.alloc, 0)]
              modify fun s => s.drainH c.cl c.ctx h n
              doneQ c [.tok n]
            else
              let n ← newLop c r (.lFree w r) 4 [.ten t] [] [] [(h, t.alloc, 2)]
              doneQ c [.tok n]) s

/-- `HANDLE_RELEASE` (R101). -/
def execEHandleRelease (cl ctx h : Nat) (s : State) : Host.Outcome State Fault Refusal :=
  let e := s.handle cl ctx h
  .next (if e.st = 3 ∧ e.wait.all s.opDone = true then s.freeH cl ctx h else s)

/-- Where offset 0 of a tensor stands among its region's bytes: an address, or the offset from a CREW region's base. -/
def TRef.origin (t : TRef) : Int := if t.crew = [] then ((t.base.toNat % 2 ^ 62 : Nat) : Int) else t.voff

/-- The interval of the source's region: of the handle's, or of the bytes of a tensor without one (R114). -/
def State.regionSpan (s : State) (c : Cur) (t : TRef) : Int × Int :=
  match t.hnd with
  | none => (t.origin + t.span.1, t.origin + t.span.1 + t.span.2)
  | some h =>
    let g := (s.handle c.cl c.ctx h).region
    match g.space with
    | 0 => let b : Int := ((g.cores.headD 0 % 16) * 2 ^ 21 + g.base : Nat); (b, b + g.bytes)
    | 1 => (0, g.bytes)
    | _ => (g.base, (g.base + g.bytes : Nat))

/-- A tensor of descriptor d and given extents at an offset from the first element of t, whose handle it shares (R114). -/
def TRef.viewed (t : TRef) (d : TDesc) (ext whole : List Nat) (off : Int) : TRef :=
  { t with fmt := d.fmt, mx := d.mx, lay := d.lay, ext := ext, whole := whole, str := d.strides ext, axes := d.axes, part := d.part, mext := [], offs := [],
           base := if t.crew = [] then t.base + w64 (t.first + off) else t.base,
           voff := if t.crew = [] then 0 else ((t.voff : Int) + t.first + off).toNat }

/-- Whether every byte that a tensor names, its offset 0 at `a`, lies in an interval. -/
def TRef.within (t : TRef) (a : Int) (g : Int × Int) : Bool := t.runs.all fun r => decide (g.1 ≤ a + r.1) && decide (a + r.1 + r.2 ≤ g.2)

/-- `view` (R114): it shares the handle; a byte that it names outside the source's region raises SHAPE_RANGE at the offset operand. -/
def execLView (w : Nat) (r : LRec) (s : State) : Host.Outcome State Fault Refusal :=
  runSeq w r (fun c => do
    match tensorsOf ((c.vals r).take 1), tensorTypeOf r with
    | t :: _, some d =>
      let whole ← dynExts c r d 2
      let s ← get
      let ext := c.ownExt whole d.axes
      let off := c.argZ r 1
      let u := t.viewed d ext whole off
      if u.within (t.origin + t.first + off) (s.regionSpan c t) then doneQ c [.ten u]
      else trapQ 0x52 1 (t.hnd.getD 0xFFFF)
    | _, _ => doneQ c [.i64 0]) s

/-- The cores whose constant path a fence's K flag reaches: those of its instance, its cluster's, or all, by SCOPE (R135, R334). -/
def State.fenceCores (s : State) (o : LOp) (scope : Nat) : Nat → Bool := fun c => match scope with
  | 0 => (s.insts.find o.inst).any fun x => x.cores.contains c
  | 1 => clOf c == o.cluster
  | _ => true

/-- A fence's release: under FN bit 0 later constant-path reads see the released writes (R135). -/
def State.fenceK (s : State) (o : LOp) : State :=
  match o.ins with
  | .lFence _ r =>
    if bitN (r.word 0x101 0) 0 then
      { s with cores := s.cores.map fun p => if s.fenceCores o (r.word 0x100 2 % 4) p.1 then (p.1, { p.2 with kcache := [] }) else p }
    else s
  | _ => s

/-- `fence` (R135): its token completes when every operand's producer has (an `alloc`, when its region is FULL), and its K flag acts then. Its release adds no other order to this model's
memory (DESIGN CHOICE, log 5). -/
def execLFence (w : Nat) (r : LRec) (s : State) : Host.Outcome State Fault Refusal :=
  runSeq w r (fun c => do
    let s ← get
    let vs := c.vals r
    let fresh := vs.filter fun v => s.opDone v.prod && !v.stands s c
    let n ← newLop c r (.lFence w r) 3 vs [] ((vs.map Val.prod).filter fun n => !s.opDone n)
      ((tensorsOf fresh).filterMap fun t => t.hnd.map fun h => (h, t.alloc, 2))
    doneQ c [.tok n]) s

/-- `waith` (R136; a record without STATE waits for FULL, DESIGN CHOICE, log 31): the result is the operand, which its readers await; without a
handle, FREE never comes (R100). -/
def execLWaith (w : Nat) (r : LRec) (s : State) : Host.Outcome State Fault Refusal :=
  runSeq w r (fun c => do
    match tensorsOf ((c.vals r).take 1) with
    | [] => doneQ c [.i64 0]
    | t :: _ =>
      let free := r.word 0x100 0 % 4 == 1
      let wt : List (Nat × Nat × Nat) := match t.hnd with
        | some h => [(h, t.alloc, if free then 0 else 2)]
        | none => if free then [(0xFFFF, 0, 0)] else []
      let n ← newLop c r (.lWaith w r) 3 [] [] (if t.hnd.isSome then [] else [t.prod]) wt
      doneQ c [.ten { t with prod := n }]) s

/-- `assert` (R137); a record without CODE reports 0 (DESIGN CHOICE, log 31). -/
def execLAssert (w : Nat) (r : LRec) (s : State) : Host.Outcome State Fault Refusal :=
  runSeq w r (fun c =>
    if c.argZ r 0 = 0 then trapQ 0x55 (BitVec.ofNat 64 (r.word 0x100 0)) 0xFFFF else doneQ c [.tok 0]) s

end Sys2Proof.Machine
end

