-- ==== Sys2Proof/Machine/MatrixEv.lean ====
section
/-! DEFINITION. The matrix engine's own steps: an instruction starts on its path, streams, completes; a drain starts and ends; repeats
and replays after a restore (spec/10 R305 to R323). Every time is in CCLK cycles outside freezes. -/
namespace Sys2Proof.Machine

/-! ### When an instruction starts (R305) -/

/-- Started, and its last cycle has passed. -/
def MOp.over (o : MOp) (now : Nat) : Bool := o.start.isSome && decide (o.last < now)

/-- A repeat or a replay (R322). -/
def MOp.again (o : MOp) : Bool :=
  match o.work with
  | .reload _ _ _ => true
  | .replay _ _ => true
  | _ => false

/-- The events of its row of R305 that an instruction waits for, among those issued earlier. -/
def MOp.waits (o p : MOp) : Bool :=
  p.path == o.path || (match o.work, p.work with
    | .ldw _ _, .swap => true
    | .feed f1 _ _, .mma _ _ g1 _ _ _ _ => f1 == g1
    | .mma _ _ f1 _ _ _ _, .feed g1 _ _ => f1 == g1
    | .swap, .ldw _ _ => true
    | _, _ => false)

/-- A drain's group is committed and no multiply into it is incomplete. -/
def Matrix.drainReady (mx : Matrix) (slot g : Nat) : Bool :=
  (groupSlots slot g).all fun i => (mx.slot i).st == 2 && !(mx.ops.any fun p => p.path == 2 && p.busy.contains i)

/-- Whether an instruction starts in cycle `now`. -/
def Matrix.eligible (mx : Matrix) (now : Nat) (o : MOp) : Bool :=
  o.start.isNone && decide (o.iss < now) && (!mx.replay || o.again)
    && (mx.ops.takeWhile (·.id != o.id)).all (fun p => !o.waits p || p.over now)
    && (match o.work with
      | .drain slot g _ _ _ _ _ _ _ _ _ => mx.drainReady slot g
      | .drainV slot g _ _ _ _ _ _ _ => mx.drainReady slot g
      | _ => true)

/-- The next instruction of a path. -/
def Matrix.head (mx : Matrix) (path : Nat) : Option MOp := mx.ops.find? fun o => o.path == path && o.start.isNone

/-- The cores on which an instruction of a gang waits: those that hold it. -/
def State.holders (s : State) (c id : Nat) : List Nat := (gangOf c).filter fun d => (s.core d).sl.mx.ops.any fun o => o.id == id

/-- Whether a core's copy of an instruction starts now. -/
def State.copyReady (s : State) (d id : Nat) : Bool :=
  let k := s.core d
  k.sl.mx.ops.any fun o => o.id == id && k.sl.mx.eligible k.ncyc o

/-- An instruction starts: its last cycle and its completion, after n cycles and m more. -/
def State.startOp (s : State) (c id n m : Nat) : State :=
  let now := (s.core c).ncyc
  s.updMx c fun mx => { mx with ops := mx.ops.map fun o =>
    if o.id = id then { o with start := some now, last := now + n - 1, done := now + n - 1 + m } else o }

def State.dropOp (s : State) (c id : Nat) : State := s.updMx c fun mx => { mx with ops := mx.ops.filter (·.id != id) }

/-- The next instruction of a path if it may start: a gang instruction starts on all its cores together. -/
def State.nextStart (s : State) (c path : Nat) : Option MOp :=
  match (s.core c).sl.mx.head path with
  | none => none
  | some o =>
    let gang := match o.work with
      | .ldw _ g => g
      | .mmag _ _ _ _ _ _ _ _ _ _ => true
      | _ => false
    if gang then (if (s.holders c o.id).all fun d => s.copyReady d o.id then some o else none)
    else if s.copyReady c o.id then some o else none

/-! ### Loads and feeds (R310, R312) -/

/-- A bank row from its packed bytes: TERN's reserved code becomes 0; the count of those codes. -/
def bankRow (mode nw raw : Nat) : BitVec 8192 × Nat :=
  let v := raw % 2 ^ (nw * matBits mode)
  if mode = 2 then
    let ones := (4 ^ nw - 1) / 3
    let bad := Nat.land (v / 2) ones - Nat.land (Nat.land (v / 2) ones) v
    (BitVec.ofNat 8192 (v - 2 * bad), popc bad (2 * nw))
  else (BitVec.ofNat 8192 v, 0)

/-- The rows that a source record loads on a core, with TERN's reserved codes. -/
def State.loadRows (s : State) (c : Nat) (w : WSrc) : AMap (BitVec 8192) × Nat :=
  let base := padFlat c (w.addr.toNat / 2 ^ 62) (w.addr.toNat % 2 ^ 62)
  let rb := cdiv (w.nw * matBits w.mode) 8
  let rs := (List.range w.kw).map fun k => (k, bankRow w.mode w.nw (s.rdN (base + k * w.pitch) rb))
  (rs.map fun p => (p.1, p.2.1), (rs.map fun p => p.2.2).foldl (· + ·) 0)

/-- Duration of a load (R305). -/
def loadCycles (w : WSrc) : Nat := Nat.max 1 (cdiv (w.kw * w.pitch) 512)

/-- A load fills a bank of a core; a repeat counts no TERN code again (R322). -/
def State.fillBank (s : State) (c : Nat) (shadow : Bool) (w : WSrc) (count : Bool) : State :=
  let (rows, trn) := s.loadRows c w
  let b : Bank := { mode := w.mode, src := some w, rows := rows, perr := 0 }
  let s := s.updMx c fun mx => if shadow then { mx with shd := { b with perr := mx.shd.perr } } else { mx with act := { b with perr := mx.act.perr } }
  if count then s.updCore c fun k => k.counted 0 0 0 trn else s

/-- LOAD_PATH_START (R305, R310, R322). -/
def execELoadPathStart (c : Nat) (s : State) : Host.Outcome State Fault Refusal :=
  match s.nextStart c 0 with
  | none => .next s
  | some o =>
    .next ((s.holders c o.id).foldl (fun s d =>
      match (s.core d).sl.mx.ops.find? (·.id == o.id) with
      | some p => match p.work with
        | .ldw w _ => (s.fillBank d true w true).startOp d o.id (loadCycles w) 0
        | .reload sh w _ => (s.fillBank d sh w false).startOp d o.id (loadCycles w) 0
        | _ => s
      | none => s) s)

/-- Rows of a buffer after an entry is fed: elements k0 to k0 + kn − 1 of each row, bits unchanged. -/
def State.feedInto (s : State) (c : Nat) (b : Feed) (e : FeedLog) : Feed :=
  let w := 8 * feedW e.mode
  let rows := (List.range e.m).foldl (fun rows (m : Nat) =>
    let raw := s.rdN (padFlat c e.sp (e.cur + w64 ((m : Int) * e.pitch)).toNat) (e.kn * feedW e.mode)
    let old := (AMap.get 0 rows m).toNat
    let new := old % 2 ^ (w * e.k0) + raw * 2 ^ (w * e.k0) + old / 2 ^ (w * (e.k0 + e.kn)) * 2 ^ (w * (e.k0 + e.kn))
    AMap.put 0 rows m (BitVec.ofNat 32768 new)) b.rows
  { b with rows := rows }

def Matrix.buf (mx : Matrix) (f1 : Bool) : Feed := if f1 then mx.f1 else mx.f0
def Matrix.setBuf (mx : Matrix) (f1 : Bool) (b : Feed) : Matrix := if f1 then { mx with f1 := b } else { mx with f0 := b }

/-- Duration of a feed (R305). -/
def feedCycles (e : FeedLog) : Nat := Nat.max 1 (cdiv (e.m * e.kn * feedW e.mode) 512) * (if e.sp = 0 then 1 else 8)

/-- FEED_PATH_START (R305, R312, R322). -/
def execEFeedPathStart (c : Nat) (s : State) : Host.Outcome State Fault Refusal :=
  match s.nextStart c 1 with
  | none => .next s
  | some o =>
    match o.work with
    | .feed f1 z e =>
      let b := if z then Feed.empty else (s.core c).sl.mx.buf f1
      let b' := s.feedInto c b e
      let b' := if e.m ≠ 0 ∧ e.kn ≠ 0 then { b' with cls := feedCls e.mode, log := b'.log ++ [e] } else b
      .next ((s.updMx c fun mx => mx.setBuf f1 b').startOp c o.id (feedCycles e) 0)
    | .replay f1 e =>
      .next ((s.updMx c fun mx => mx.setBuf f1 (s.feedInto c (mx.buf f1) e)).startOp c o.id (feedCycles e) 0)
    | _ => .next s

/-- LOAD_FEED_PATH_END (R305, R308): tl3 passes the instruction. -/
def execELoadFeedEnd (c : Nat) (feed : Bool) (s : State) : Host.Outcome State Fault Refusal :=
  let k := s.core c
  match k.sl.mx.ops.find? fun o => o.path == (if feed then 1 else 0) && o.over k.ncyc with
  | none => .next s
  | some o =>
    let n := match o.work with
      | .reload _ _ (some n) => n
      | .reload _ _ none => 0
      | .replay _ _ => 0
      | _ => o.num
    let s := s.dropOp c o.id
    .next (if n = 0 then s else s.endSlice k.sl.id 3 n)

/-- MATRIX_STATE_REPLAY (R322): every repeat and replay has ended; the saved instructions enter their paths again. -/
def execEReplay (c : Nat) (s : State) : Host.Outcome State Fault Refusal :=
  let k := s.core c
  if k.sl.mx.replay && !k.sl.mx.ops.any MOp.again then
    .next (s.updMx c fun mx => { mx with replay := false, ops := mx.ops.map fun o => { o with iss := k.ncyc } })
  else .next s

/-! ### The array (R313 to R315, R38, R39) -/

/-- The sum of one group of at most 32 exact products (R38). -/
def dotGroup (ps : List Num) : Num :=
  if ps.any Num.isNan || (ps.any (fun p => p.isInf && p.sign) && ps.any (fun p => p.isInf && !p.sign)) then .nan
  else if ps.any Num.isInf then .inf (ps.any fun p => p.isInf && p.sign)
  else if ps.all Num.isZero then .fin (ps.all Num.sign) 0 1
  else
    let lg := fun p => match p with
      | Num.fin _ n d => lg2 n d
      | _ => 0
    let nz := ps.filter fun p => !p.isZero
    let emax := nz.foldl (fun m p => max m (lg p)) (lg (nz.headD .zero))
    let t := nz.map fun p => match p with
      | Num.fin s n d =>
        let q := scale2 n d (40 - emax)
        signedNum s (q.1 / q.2)
      | _ => 0
    let z := sumZ t
    let w := scale2 z.natAbs 1 (emax - 40)
    decode 0 (toF32 (.fin (decide (z < 0)) w.1 w.2))

/-- The groups of R38 over the products of one output, in ascending k. -/
def dotGroups (first : Bool) : Nat → List Num → Num → Num
  | 0, _, acc => acc
  | k + 1, ps, acc =>
    if ps.isEmpty then acc
    else
      let s := dotGroup (ps.take 32)
      dotGroups false k (ps.drop 32) (if first then s else decode 0 (toF32 (acc.add false s)))

/-- The value of a code of a bank or a feed as an integer: INT8 or TERN. -/
def matInt (bits code : Nat) : Int := if bits = 2 then (if code = 1 then 1 else if code = 3 then -1 else 0) else sext code 8

/-- A ring entry after a multiply: the entry, and whether it counts in OVF and NAN (R38, R39, R41). -/
def mulEntry (mode : Nat) (first : Bool) (old : Nat) (a b : List Nat) : Nat × Nat × Nat :=
  if mode = 0 then
    let ps := List.zipWith (fun x y => (decode 1 x).mul (decode 1 y)) a b
    let e := decode 0 (old % 2 ^ 32)
    let r := dotGroups first (ps.length / 32 + 1) ps e
    (toF32 r, if r.isInf && !e.isInf && !e.isNan then 1 else 0, if r.isNan && !e.isNan then 1 else 0)
  else
    let t := sumZ (List.zipWith (fun x y => matInt 8 x * matInt (matBits mode) y) a b)
    let v := sext old 48 + t
    let w := satZ v (-2 ^ 47) (2 ^ 47 - 1)
    (bitsZ w 48, if v = w then 0 else 1, 0)

/-- The entries of one ring row, one for each column given, lowest column first; the others keep their bits. -/
def mulRow (mode : Nat) (first : Bool) (a : List Nat) : List (List Nat) → Nat → Nat × Nat × Nat
  | [], row => (row, 0, 0)
  | b :: r, row =>
    let e := mulEntry mode first (row % 2 ^ 48) a b
    let w := mulRow mode first a r (row / 2 ^ 48)
    (w.1 * 2 ^ 48 + e.1, w.2.1 + e.2.1, w.2.2 + e.2.2)

/-- One ring slot after a multiply: its entries and counters; the events for the core's counters. -/
def mulSlot (mode : Nat) (first : Bool) (rows : List (Nat × List Nat)) (cols : List (List Nat)) (r : Ring) : Ring × Nat × Nat :=
  rows.foldl (fun (acc : Ring × Nat × Nat) p =>
    let w := mulRow mode first p.2 cols (AMap.get 0 acc.1.rows p.1).toNat
    ({ acc.1 with rows := AMap.put 0 acc.1.rows p.1 (BitVec.ofNat 6144 w.1), ovf := Nat.min 0xFFFF (acc.1.ovf + w.2.1),
                  nan := Nat.min 0xFFFF (acc.1.nan + w.2.2) }, acc.2.1 + w.2.1, acc.2.2 + w.2.2)) (r, 0, 0)

/-- A multiply on a core: `arow m` holds the K codes of its row m. `parity` is the macro of a parity error of the active bank, which counts it
(R321). -/
def State.multiply (s : State) (c mode grp slot m n k : Nat) (arow : Nat → List Nat) (parity : Option Nat) : State :=
  let mx := (s.core c).sl.mx
  let bits := matBits mode
  let brow := (List.range k).map fun i => if mx.act.mode = 3 then 0 else (AMap.get 0 mx.act.rows i).toNat
  let col := fun j => brow.map fun w => bitsN w (bits * j) bits
  let rows := (List.range m).map fun i => (i, arow i)
  let open_ := grp % 2 == 1
  let (rings, ovf, nan) := (List.range (cdiv n 128)).foldl (fun (acc : AMap Ring × Nat × Nat) i =>
    let t := (slot + i) % 8
    let r := if open_ then Ring.empty else AMap.get Ring.empty acc.1 t
    let cols := (List.range (Nat.min 128 (n - 128 * i))).map fun j => col (128 * i + j)
    let w := if k = 0 then (r, 0, 0) else mulSlot mode open_ rows cols r
    let r' := match parity with
      | some p => { w.1 with pois := true, mac := p }
      | none => w.1
    (AMap.put Ring.empty acc.1 t r', acc.2.1 + w.2.1, acc.2.2 + w.2.2)) (mx.ring, 0, 0)
  let s := s.updMx c fun mx =>
    { mx with ring := rings, act := { mx.act with perr := mx.act.perr + (if parity.isSome then 1 else 0) } }
  s.updCore c fun q => q.counted ovf nan 0 0

/-- The codes of a feed row. -/
def feedCodes (mode k : Nat) (row : Nat) : List Nat := (List.range k).map fun i => bitsN row (8 * feedW mode * i) (8 * feedW mode)

/-- `MCLR` acts (R319). -/
def Matrix.clear (mx : Matrix) (r w f : Bool) : Matrix :=
  let mx := if r then { mx with ring := [] } else mx
  let mx := if w then { mx with act := { Bank.empty with perr := mx.act.perr }, shd := { Bank.empty with perr := mx.shd.perr } } else mx
  if f then { mx with f0 := .empty, f1 := .empty } else mx

/-- ARRAY_PATH_START (R305, R311, R313 to R315, R319, R321). -/
def execEArrayPathStart (c : Nat) (parity : Option Nat) (s : State) : Host.Outcome State Fault Refusal :=
  match s.nextStart c 2 with
  | none => .next s
  | some o =>
    match o.work with
    | .swap => .next ((s.updMx c fun mx => { mx with act := mx.shd, shd := mx.act }).startOp c o.id 1 0)
    | .clr r w f => .next ((s.updMx c fun mx => mx.clear r w f).startOp c o.id 1 0)
    | .mma mode grp f1 slot m n k =>
      if m = 0 ∨ n = 0 then .next (s.startOp c o.id 1 0)
      else
        let b := (s.core c).sl.mx.buf f1
        let arow := fun i => feedCodes mode k (AMap.get 0 b.rows i).toNat
        .next ((s.multiply c mode grp slot m n k arow parity).startOp c o.id (8 * m) 24)
    | .mmag _ _ _ _ _ _ _ _ _ lead =>
      let top := maxN ((s.holders c o.id).map fun d => match (s.core d).sl.mx.ops.find? (·.id == o.id) with
        | some p => match p.work with
          | .mmag _ _ _ m _ _ _ _ _ _ => m
          | _ => 0
        | none => 0)
      .next ((s.holders c o.id).foldl (fun s d =>
        match (s.core d).sl.mx.ops.find? (·.id == o.id) with
        | some p => match p.work with
          | .mmag mode grp slot m n k cur sp pitch _ =>
            let arow := fun i => feedCodes mode k
              (s.rdN (padFlat lead sp (cur + w64 ((64 * (d % 4) + i : Nat) * pitch)).toNat) (k * feedW mode))
            let par := if d = c then parity else none
            (s.multiply d mode grp slot m n k arow par).startOp d o.id (Nat.max 1 (8 * m)) (8 * top + 24 - Nat.max 1 (8 * m))
          | _ => s
        | none => s) s)
    | _ => .next s

/-- MMA_COMPLETE (R305, R306, R308): an array instruction ends; its slots leave busy and tl3 passes it. -/
def execEMmaComplete (c : Nat) (s : State) : Host.Outcome State Fault Refusal :=
  let k := s.core c
  match k.sl.mx.ops.find? fun o => o.path == 2 && o.start.isSome && decide (o.done < k.ncyc) with
  | none => .next s
  | some o =>
    let s := s.dropOp c o.id
    .next (if o.num = 0 then s else s.endSlice k.sl.id 3 o.num)

/-! ### The Glaze (R317, R318) -/

/-- The activation of a drain on an FP32 code (R316). -/
def actF (act x : Nat) : Nat :=
  let v := decode 0 x
  match act with
  | 0 => x
  | 1 => toF32 (v.max .zero)
  | 2 => toF32 ((v.max .zero).min (.int 6))
  | 3 => sfu 6 x
  | 4 => sfu 5 x
  | _ => toF32 (v.mul (decode 0 (sfu 6 x)))

/-- The activation on an integer: none, relu, relu6. -/
def actI (act : Nat) (z : Int) : Int :=
  match act with
  | 0 => z
  | 1 => max z 0
  | _ => min (max z 0) 6

/-- What a drain reads of one column: its scale and its bias, when the configuration uses them. -/
structure GzCol where
  n : Nat
  scale : Option Nat
  bias : Option Nat
  deriving DecidableEq, Repr

/-- One drained element: its code, the counted events, and the slice state after a stochastic step (R317). -/
def drainElem (cfg : Nat) (int48 pois : Bool) (x : Slice) (g : GzCol) (e : Nat) : Nat × Nat × Slice :=
  let fmt := bitsN cfg 4 4
  let act := bitsN cfg 0 4
  if pois then (canonNan fmt, 0, x)
  else
    let z := sext e 48
    let xi := satZ z (-2 ^ 31) (2 ^ 31 - 1)
    let c0 := if int48 ∧ xi ≠ z then 1 else 0
    if int48 ∧ g.scale = none ∧ g.bias = none ∧ act ≤ 2 ∧ (intRange fmt).isSome then
      let v := roundTo fmt 0 0 false (.int (actI act xi))
      (v.1, c0 + (if v.2 then 1 else 0), x)
    else
      let a := if int48 then toF32 (.int xi) else e % 2 ^ 32
      let a := match g.scale with
        | some k => toF32 ((decode 0 a).mul (decode 0 k))
        | none => a
      let a := match g.bias with
        | some k => toF32 ((decode 0 a).add false (decode 0 k))
        | none => a
      let a := actF act a
      let mode := bitsN cfg 8 3
      let p := x.addend mode (2048 + g.n)
      let v := roundTo fmt mode p.1 (bitsN cfg 11 2 == 1) (decode 0 a)
      (v.1, c0 + (if v.2 then 1 else 0), p.2)

/-- The elements of one drained row, in ascending column. -/
def drainRow (cfg : Nat) (int48 pois : Bool) (ent : Nat → Nat) : List GzCol → Slice → List Nat × Nat × Slice
  | [], x => ([], 0, x)
  | g :: r, x =>
    let v := drainElem cfg int48 pois x g (ent g.n)
    let w := drainRow cfg int48 pois ent r v.2.2
    (v.1 :: w.1, v.2.1 + w.2.1, w.2.2)

/-- The rows of a drain in ascending order. -/
def drainRows (cfg : Nat) (int48 pois : Bool) (ent : Nat → Nat → Nat) (cols : List GzCol) : List Nat → Slice → List (List Nat) × Nat × Slice
  | [], x => ([], 0, x)
  | m :: r, x =>
    let v := drainRow cfg int48 pois (ent m) cols x
    let w := drainRows cfg int48 pois ent cols r v.2.2
    (v.1 :: w.1, v.2.1 + w.2.1, w.2.2)

/-- Reads scales and bias and drains the given rows and columns of a group; the core's counters gain (R317). -/
def State.drain (s : State) (c slot g : Nat) (int48 : Bool) (cfg bias : W64) (rows cols : List Nat) : List (List Nat) × State :=
  let x := (s.core c).sl
  let ring := fun i => AMap.get Ring.empty x.mx.ring ((slot + i) % 8)
  let pois := (List.range g).any fun i => (ring i).pois
  let cs : List GzCol := cols.map fun n =>
    { n := n
      scale := if bitN cfg.toNat 16 then some (bitsN (AMap.get 0 x.scale (n / 128)).toNat (32 * (n % 128)) 32) else none
      bias := if bitN cfg.toNat 13 then some (s.rdN (padFlat c (bias.toNat / 2 ^ 62) (bias.toNat % 2 ^ 62 + 4 * n)) 4) else none }
  let ent := fun m n => bitsN (AMap.get 0 (ring (n / 128)).rows m).toNat (48 * (n % 128)) 48
  let w := drainRows cfg.toNat int48 pois ent cs rows x
  (w.1, s.updCore c fun k => { k with sl := w.2.2 }.counted 0 0 w.2.1 0)

/-- Packs codes of a format, the lowest first; unused positions of a last group are zero codes (R27). -/
def packCodes (f : Nat) : List Nat → Nat
  | [] => 0
  | c :: r => packCodes f r * 2 ^ fmtBits f + c

/-- GLAZE_DRAIN_START (R305, R317, R318). -/
def execEGlazeStart (c : Nat) (s : State) : Host.Outcome State Fault Refusal :=
  match s.nextStart c 3 with
  | none => .next s
  | some o =>
    match o.work with
    | .drain slot g int48 _ m n dst pitch _ cfg bias =>
      let fmt := bitsN cfg.toNat 4 4
      let rb := packedBytes fmt n
      let m' := if n = 0 then 0 else m
      let (ls, s) := s.drain c slot g int48 cfg bias (List.range m') (List.range n)
      let a := dst.toNat % 2 ^ 62
      let s := (ls.zip (List.range m')).foldl (fun s p =>
        s.wrN (padFlat c (dst.toNat / 2 ^ 62) (BitVec.ofNat 64 a + w64 (p.2 * pitch)).toNat) rb (packCodes fmt p.1)) s
      .next (s.startOp c o.id (Nat.max m (cdiv (m' * rb) 512) + 16) 0)
    | .drainV slot g int48 _ phys row0 col0 cfg bias =>
      let fmt := bitsN cfg.toNat 4 4
      let (ls, s) := s.drain c slot g int48 cfg bias ((List.range 16).map (row0 + ·)) ((List.range 64).map (col0 + ·))
      let v := ls.flatten.foldr (fun e w => w * 2 ^ 32 + (if fmt = 1 ∨ fmt = 2 then e * 65536 else e)) 0
      let s := s.updSl c fun x => { x with vreg := x.vreg.put 0 phys (BitVec.ofNat 32768 v) }
      .next (s.startOp c o.id 32 0)
    | _ => .next s

/-- Slots of a drained group return to FREE (R318). -/
def Matrix.freeGroup (mx : Matrix) (slot g : Nat) : Matrix := (groupSlots slot g).foldl (fun m i => m.setSlot i .free) mx

/-- The parts of a drain that its end needs: first slot, size, `.HOLD`, handle, bytes. -/
def MOp.drainEnd (o : MOp) : Option (Nat × Nat × Bool × Option Nat × Nat) :=
  match o.work with
  | .drain slot g _ hold m n _ _ h cfg _ => some (slot, g, hold, h, m * packedBytes (bitsN cfg.toNat 4 4) n)
  | .drainV slot g _ hold _ _ _ _ _ => some (slot, g, hold, none, 0)
  | _ => none

/-- GLAZE_DRAIN_COMPLETE (R318, R321): the handle's credit, the slots, tl2; a poisoned group raises WEIGHT_PARITY. -/
def execEGlazeComplete (c : Nat) (s : State) : Host.Outcome State Fault Refusal :=
  let k := s.core c
  match k.sl.mx.ops.find? fun o => o.path == 3 && o.over k.ncyc with
  | none => .next s
  | some o =>
    match o.drainEnd with
    | none => .next (s.dropOp c o.id)
    | some (slot, g, hold, h, n) =>
      let bad := (groupSlots slot g).map (fun i => AMap.get Ring.empty k.sl.mx.ring i) |>.find? Ring.pois
      let s := (s.dropOp c o.id).credit (clOf c) (s.ctxOf c) h n
      let s := if hold then s else s.updMx c fun mx => mx.freeGroup slot g
      let s := match bad with
        | some r => (s.flagTl k.sl.id (clOf c) (s.ctxOf c) 2 o.num).engTrap (s.ctxOf c) c 3 0x35 o.orec h o.bundle
            (BitVec.ofNat 64 (r.mac % 32 + slot * 32)) 2 o.num
        | none => s
      .next (s.endSlice k.sl.id 2 o.num)

/-! ### Work whose slice ends (R323, R399) -/

/-- A started drain whose slice is killed: an operation that ends as the drain would have, with its credit and a poisoned group's trap. -/
def MOp.remnant (o : MOp) (k : Core) (c ctx : Nat) : Option EOp :=
  if o.path = 3 ∧ o.start.isSome then
    o.drainEnd.map fun (slot, g, _, h, n) =>
      let bad := (groupSlots slot g).map (fun i => AMap.get Ring.empty k.sl.mx.ring i) |>.find? Ring.pois
      { id := o.id, sid := k.sl.id, core := c, slot := 3, unit := 3, ctx := ctx, tl := 2, num := o.num, hnd := h, bytes := n, iss := o.iss,
        start := o.start, endAt := o.last + 1, ended := false, eff := 0, tstamp := 0, wrote := [], waits := false, fault := none,
        orec := o.orec, lop := o.lop, bundle := o.bundle, work := .glaze (bad.map fun r => (r.mac, slot)) }
  else none

/-- Marks a group's ring slots poisoned. A macro that no rule names is free (DESIGN CHOICE, log 4). -/
def Matrix.poisonGroup (mx : Matrix) (mac slot g : Nat) : Matrix :=
  (groupSlots slot g).foldl (fun m i => { m with ring := AMap.put Ring.empty m.ring i { AMap.get Ring.empty m.ring i with pois := true, mac := mac } }) mx

/-- Core c is fenced while an `MMAG` of its gang has not completed: the `MMAG` ends with a fault on the leader's tl3, the surviving cores' slots of
the group are poisoned, and the context receives GANG_STATE (R323). -/
def State.breakGang (s : State) (c : Nat) : State :=
  match (s.core c).sl.mx.ops.find? MOp.gangs with
  | none => s
  | some o => match o.work with
    | .mmag _ _ slot _ n _ _ _ _ lead =>
      let num := ((s.core lead).sl.mx.ops.find? (·.id == o.id)).elim 0 (·.num)
      let mac := Config.freeNat s.fresh % 32
      let ctx := s.ctxOf lead
      let sid := (s.sl lead).id
      let t := (s.holders c o.id).foldl (fun (t : State) d =>
        let u := t.dropOp d o.id
        if d = c then u else u.updMx d fun mx => mx.poisonGroup mac slot (cdiv n 128)) { s with fresh := s.fresh + 1 }
      ((t.endSlice sid 3 num).flagTl sid (clOf lead) ctx 3 num).engTrap ctx lead 3 0x34 o.orec none o.bundle (BitVec.ofNat 64 (3 + c % 16 * 16)) 3 num
    | _ => s

/-- Every `MMAG` that core c takes part in is broken; its path holds at most four that have not started. -/
def State.breakGangs : Nat → State → Nat → State
  | 0, s, _ => s
  | n + 1, s, c => State.breakGangs n (s.breakGang c) c

end Sys2Proof.Machine
end

