-- ==== Sys2Proof/Machine/TMath.lean ====
section
/-! DEFINITION. The mathematics of the built-in operators (spec/04 R96, R97, R115 to R133): from the operands' codes to one destination element, before
its final rounding. A function of a destination element takes its linear number `i`. -/
namespace Sys2Proof.Machine

/-- A destination element before its final rounding: a code as it stands, with the scale that it had in its block, if it had one; the exact value of
the last FP32 step (R96); or an exact value that converts at once (R35). -/
inductive Res where
  | code (c : Nat) (sc : Option Nat)
  | num (v : Num)
  | exact (v : Num)
  deriving DecidableEq, Repr

/-- A result with the counted events that led to it (R42): saturations, TERN codes, OVF and NAN. -/
structure El where
  res : Res
  sat : Nat
  trn : Nat
  ovf : Nat
  nan : Nat
  deriving DecidableEq, Repr

def El.of (r : Res) : El := ⟨r, 0, 0, 0, 0⟩

/-! ### Indices -/

/-- The source number of a destination index under R97's alignment; an extent of 1 repeats. -/
def bcastLin (src dst ix : List Nat) : Nat :=
  let js := ix.drop (dst.length - src.length)
  linOf src ((src.zip js).map fun p => if p.1 = 1 then 0 else p.2)

/-! ### Operand values -/

/-- The exact value of element i (R23 to R25, R29). -/
def Arg.num (a : Arg) (i : Nat) : Num :=
  let v := decode a.fmt (a.codes.getD i 0)
  if a.mx then
    let e := a.scales.getD i 0
    if e = 255 then .nan else v.mul (Num.dy false 1 ((e : Int) - 127))
  else v

/-- Element i as it stands, with its block's scale. -/
def Arg.raw (a : Arg) (i : Nat) : Res := .code (a.codes.getD i 0) (if a.mx then some (a.scales.getD i 0) else none)

/-- An integer element. -/
def Arg.int (a : Arg) (i : Nat) : Int := match a.num i with
  | .fin s n _ => signedNum s n
  | _ => 0

/-- Whether a format is an integer format (R22). -/
def isIntF (f : Nat) : Bool := (intRange f).isSome

/-- Whether element i is a reserved TERN code (R25). -/
def Arg.trn (a : Arg) (i : Nat) : Nat := if a.fmt = 11 ∧ a.codes.getD i 0 = 2 then 1 else 0

/-- Element i on the FP32 computation type, with the saturation counted (R96). -/
def Arg.f32 (a : Arg) (sat : Bool) (i : Nat) : Num × Nat :=
  let v := a.num i
  if a.mx then let p := roundTo 0 0 0 sat v; (decode 0 p.1, if p.2 then 1 else 0)
  else if a.fmt = 7 ∨ a.fmt = 13 then (decode 0 (toF32 v), 0)
  else (v, 0)

/-- A value rounded to FP32 under RNE. -/
def r32 (v : Num) : Num := decode 0 (toF32 v)

/-- An FP32 code's special function as a value (R37). -/
def sfuN (fn : Nat) (v : Num) : Num := decode 0 (sfu fn (toF32 v))

/-- L2E (R123). -/
def l2e : Num := decode 0 0x3FB8AA3B

/-- exp2(RoundTo(x · L2E)) of an FP32 value. -/
def expN (v : Num) : Num := sfuN 0 (r32 (v.mul l2e))

/-- a − b. -/
def Num.sub (rdn : Bool) (a b : Num) : Num := a.add rdn b.negate

/-! ### Elementwise functions (R123, R124) -/

/-- `ewu` on the FP32 type: the last step's exact value. -/
def ewuF (fn : Nat) (a : Num) : Num :=
  match fn with
  | 0 => a.negate
  | 1 => a.abs
  | 10 => if a.isNan then .nan else a.max .zero
  | 11 => expN a
  | 12 => a.mul (sfuN 6 a)
  | _ => sfuN (fn - 2) a

/-- `ewu` on integers. -/
def ewuI (fn : Nat) (a : Int) : Int :=
  match fn with
  | 0 => -a
  | 1 => a.natAbs
  | _ => max a 0

/-- A comparison of `ewb`, FN 9 to 14: eq, ne, lt, le, gt, ge. -/
def ewCmp (fn : Nat) (a b : Num) : Bool :=
  match fn with
  | 9 => a.eq b
  | 10 => !a.eq b
  | 11 => a.lt b
  | 12 => a.lt b || a.eq b
  | 13 => b.lt a
  | _ => b.lt a || a.eq b

/-- 1 or 0. -/
def boolNum (b : Bool) : Num := .int (if b then 1 else 0)

/-- `ewb` on the FP32 type; `rdn` says that the last step rounds to FP32 under RDN. -/
def ewbF (fn : Nat) (rdn : Bool) (a b : Num) : Res :=
  match fn with
  | 0 => .num (a.add rdn b)
  | 1 => .num (a.sub rdn b)
  | 2 => .num (a.mul b)
  | 3 => .num (a.mul (sfuN 2 b))
  | 4 => .num (a.min b)
  | 5 => .num (a.max b)
  | _ => .exact (boolNum (ewCmp fn a b))

/-- A bitwise function of two integers. -/
def bitI (f : Nat → Nat → Nat) (a b : Int) : Int := sext (f (bitsZ a 64) (bitsZ b 64)) 64

/-- `ewb` on integers, with the division by zero counted. -/
def ewbI (fn : Nat) (a b : Int) : Int × Nat :=
  match fn with
  | 0 => (a + b, 0)
  | 1 => (a - b, 0)
  | 2 => (a * b, 0)
  | 3 => if b = 0 then (0, 1) else (a.tdiv b, 0)
  | 4 => (min a b, 0)
  | 5 => (max a b, 0)
  | 6 => (bitI Nat.land a b, 0)
  | 7 => (bitI Nat.lor a b, 0)
  | 8 => (bitI Nat.xor a b, 0)
  | _ => (if ewCmp fn (.int a) (.int b) then 1 else 0, 0)

/-- An element of an elementwise operator over sources a, b and c broadcast to the destination (R96, R97). `op` is 1 for `ewu`, 2 for
`ewb`, 3 for `ewt`. -/
def ewEl (op fn mode : Nat) (sat : Bool) (df : Nat) (dmx : Bool) (dext : List Nat) (as_ : List Arg) (i : Nat) : El :=
  let flt := as_.any fun a => !isIntF a.fmt
  let rdn := df == 0 && mode == 2
  let ix := levelIdx dext i
  let at_ := as_.map fun a => bcastLin a.ext dext ix
  let pick := fun k => as_.getD k .zero
  let pos := fun k => at_.getD k 0
  let trn := sumN ((as_.zip at_).map fun p => p.1.trn p.2)
  if flt then
    let v := fun k => (pick k).f32 sat (pos k)
    let n := sumN ((as_.zip at_).map fun p => (p.1.f32 sat p.2).2)
    let a := (v 0).1
    let b := (v 1).1
    let c := (v 2).1
    let r : Res := match op, fn with
      | 1, _ => .num (ewuF fn a)
      | 2, _ => ewbF fn rdn a b
      | _, 0 => .num ((a.mul b).add rdn c)
      | _, 1 =>
        let k := if a.isZero then 2 else 1
        if (pick k).fmt = df ∧ (pick k).mx = dmx then (pick k).raw (pos k) else .num (v k).1
      | _, _ => .num ((a.max b).min c)
    ⟨r, n, trn, 0, 0⟩
  else
    let z := fun k => (pick k).int (pos k)
    let r : Int × Nat := match op, fn with
      | 1, _ => (ewuI fn (z 0), 0)
      | 2, _ => ewbI fn (z 0) (z 1)
      | _, 0 => (z 0 * z 1 + z 2, 0)
      | _, 1 => (if z 0 = 0 then z 2 else z 1, 0)
      | _, _ => (min (max (z 0) (z 1)) (z 2), 0)
    ⟨.exact (.int r.1), r.2, trn, 0, 0⟩

/-! ### Reductions (R126, R127) -/

/-- A list filled with an identity to n elements. -/
def fillTo {α : Type} (e : α) (n : Nat) (l : List α) : List α := l ++ List.replicate (n - l.length) e

/-- R126's order: chunks of 64 by the tree of R40, chunk values combined serially. -/
def reduceSeq {α : Type} (op : α → α → α) (e : α) (l : List α) : α :=
  match (chunksOf 64 (cdiv l.length 64) l).map fun c => (treeRed op 6 (fillTo e 64 c)).headD e with
  | [] => e
  | x :: r => r.foldl op x

/-- A reduction of FP32 values. -/
def redF (fn : Nat) (l : List Num) : Num := reduceSeq (redNum fn) (idNum fn) l

/-- A reduction of integers of a format. -/
def redZ (fn fmt : Nat) (l : List Int) : Int :=
  let rg := (intRange fmt).getD (0, 0)
  reduceSeq (redInt fn) (match fn with
    | 0 => 0
    | 1 => rg.1
    | _ => rg.2) l

/-- The source numbers that one destination index of `reduce` reduces, in row-major order of the reduced axes. -/
def reduceIdx (axes : Nat) (src ix : List Nat) : List Nat :=
  let ds := List.range src.length
  let opts := ds.map fun d => if bitN axes d then src.getD d 0 else 1
  (indices opts).map fun js => linOf src (ds.map fun d => if bitN axes d then js.getD d 0 else ix.getD d 0)

/-- `reduce`. -/
def reduceEl (fn axes : Nat) (sat : Bool) (dext : List Nat) (a : Arg) (i : Nat) : El :=
  let ks := reduceIdx axes a.ext (levelIdx dext i)
  let trn := sumN (ks.map a.trn)
  if isIntF a.fmt then ⟨.exact (.int (redZ fn a.fmt (ks.map a.int))), 0, trn, 0, 0⟩
  else ⟨.exact (redF fn (ks.map fun i => (a.f32 sat i).1)), sumN (ks.map fun i => (a.f32 sat i).2), trn, 0, 0⟩

/-! ### Row operators (R125, R128, R129) -/

/-- The elements of the row that holds element i. -/
def rowOf (ext : List Nat) (i : Nat) : List Nat :=
  let n := Nat.max (ext.getLastD 1) 1
  (List.range n).map (i / n * n + ·)

/-- An element whose own source elements count: a result with the saturations and TERN codes of element k of each source. -/
def El.from_ (r : Res) (sat : Bool) (ks : List (Arg × Nat)) : El :=
  ⟨r, sumN (ks.map fun p => (p.1.f32 sat p.2).2), sumN (ks.map fun p => p.1.trn p.2), 0, 0⟩

/-- `softmax` of one row. -/
def softmaxRow (xs : List Num) : List Res :=
  let mx := redF 1 xs
  let es := xs.map fun x => expN (r32 (x.sub false mx))
  let s := redF 0 es
  es.map fun e => .num (e.mul (sfuN 2 s))

/-- `softmax`. -/
def softmaxEl (sat : Bool) (a : Arg) (i : Nat) : El :=
  let row := (rowOf a.ext i).map fun k => (a.f32 sat k).1
  .from_ ((softmaxRow row).getD (i % Nat.max row.length 1) (.exact .zero)) sat [(a, i)]

/-- `norm` of one row: `rms` for FN 1. -/
def normRow (rms : Bool) (eps : Num) (rdn : Bool) (gs bs xs : List Num) : List Res :=
  let rn := r32 ((Num.int 1).div (.int xs.length))
  let mu := if rms then .zero else r32 ((redF 0 xs).mul rn)
  let ds := xs.map fun x => r32 (x.sub false mu)
  let v := r32 ((redF 0 (ds.map fun d => r32 (d.mul d))).mul rn)
  let rs := sfuN 3 (r32 (v.add false eps))
  List.zipWith (fun d (p : Num × Num) => .num ((r32 (d.mul rs)).mul p.1 |>.add rdn p.2)) ds (gs.zip bs)

/-- `norm`. -/
def normEl (rms : Bool) (eps mode df : Nat) (sat : Bool) (a g : Arg) (b : Option Arg) (i : Nat) : El :=
  let n := Nat.max (a.ext.getLastD 1) 1
  let vec := fun (x : Arg) => (List.range n).map fun k => (x.f32 sat k).1
  let bs := match b with
    | some x => vec x
    | none => List.replicate n .zero
  let row := (rowOf a.ext i).map fun k => (a.f32 sat k).1
  .from_ ((normRow rms (decode 0 eps) (df == 0 && mode == 2) (vec g) bs row).getD (i % n) (.exact .zero)) sat
    ((a, i) :: (g, i % n) :: (b.toList.map fun x => (x, i % n)))

/-- The places of a pair of `rope` that element i belongs to: its first and second element, its place in cos and sin, and whether i is the first
(R125). -/
def ropeAt (fn : Nat) (ext : List Nat) (i : Nat) : Nat × Nat × Nat × Bool :=
  let d := Nat.max (ext.getLastD 1) 1
  let t := Nat.max (ext.dropLast.getLastD 1) 1
  let h := d / 2
  let r := i / d
  let j := i % d
  let k := if fn = 0 then j / 2 else j % Nat.max h 1
  if fn = 0 then (r * d + 2 * k, r * d + 2 * k + 1, r % t * h + k, j % 2 == 0) else (r * d + k, r * d + k + h, r % t * h + k, decide (j < h))

/-- `rope` (R125): FN bit 0 pairs halves. -/
def ropeEl (fn mode df : Nat) (sat : Bool) (a c s : Arg) (i : Nat) : El :=
  let rdn := df == 0 && mode == 2
  let (i0, i1, k, fst) := ropeAt fn a.ext i
  let x0 := (a.f32 sat i0).1
  let x1 := (a.f32 sat i1).1
  let cs := (c.f32 sat k).1
  let sn := (s.f32 sat k).1
  .from_ (.num (if fst then (x0.mul cs).sub rdn (r32 (x1.mul sn)) else (x0.mul sn).add rdn (r32 (x1.mul cs)))) sat [(a, i)]

/-- The elements of a line that `cumsum` sums for position j, in order: FN bit 0 leaves j itself out, bit 1 runs from the end (R129). -/
def cumTerms {α : Type} (fn j : Nat) (l : List α) : List α :=
  let n := if bitN fn 0 then 0 else 1
  if bitN fn 1 then (l.drop (j + 1 - n)).reverse else l.take (j + n)

/-- A running sum of FP32 values: every step but the last rounds under RNE; the last is exact (R96, R129). -/
def cumF (rdn : Bool) (l : List Num) : Num :=
  match l.reverse with
  | [] => .zero
  | [x] => x
  | x :: r => match r.reverse with
    | [] => x
    | y :: q => (q.foldl addF32 y).add rdn x

/-- The place of an element in its line along an axis, and the numbers of the line's elements. -/
def lineOf (ext : List Nat) (ax : Nat) (ix : List Nat) : List Nat :=
  (List.range (ext.getD ax 0)).map fun j => linOf ext (setAt ix ax j)

/-- `cumsum` (R129). -/
def cumsumEl (fn ax mode df : Nat) (sat : Bool) (a : Arg) (i : Nat) : El :=
  let ix := levelIdx a.ext i
  let ks := cumTerms fn (ix.getD ax 0) (lineOf a.ext ax ix)
  if isIntF a.fmt then ⟨.exact (.int (sumZ (ks.map a.int))), 0, a.trn i, 0, 0⟩
  else .from_ (.num (cumF (df == 0 && mode == 2) (ks.map fun k => (a.f32 sat k).1))) sat [(a, i)]

/-! ### Moves (R115 to R118, R132) -/

/-- A moved element: a code as it stands when source and destination agree, a value that converts else. -/
def moveEl (df : Nat) (dmx : Bool) (a : Arg) (i : Nat) : El :=
  if a.fmt = df ∧ a.mx = dmx then El.of (a.raw i) else ⟨.exact (a.num i), 0, a.trn i, 0, 0⟩

/-- The source number of a destination index of `pad`, none for padding (R116). -/
def padFrom (low : List Int) (src ix : List Nat) : Option Nat :=
  let js := (ix.zip low).map fun p => (p.1 : Int) - p.2
  if (js.zip src).all fun p => 0 ≤ p.1 && p.1 < p.2 then some (linOf src (js.map (·.toNat))) else none

/-- The source number of a destination index of `permute` (R118). -/
def permFrom (perm src ix : List Nat) : Nat :=
  linOf src ((List.range src.length).map fun a => ix.getD ((firstIdx (· == a) perm).getD 0) 0)

/-- An index under OOB: in range, clamped, or none for zero or skip; `none` outermost traps (R132). -/
def oobIdx (oob n : Nat) (i : Int) : Option (Option Nat) :=
  if 0 ≤ i ∧ i < n then some (some i.toNat)
  else match oob with
    | 0 => none
    | 1 => some (if n = 0 then none else some (if i < 0 then 0 else n - 1))
    | _ => some none

/-- The addition of `scatter` FN 1 into the destination's format under RNE, with a saturation counted. -/
def scatAdd (df : Nat) (sat : Bool) (c : Nat) (v : Num) : Nat × Nat :=
  let p := roundTo df 0 0 sat ((decode df c).add false v)
  (p.1, if p.2 then 1 else 0)

/-- An element of `scatter` that updates `hits` of `upd`, in ascending position, land on (R132): the last replaces it under FN 0, each adds to it under
FN 1. A source of another format converts (DESIGN CHOICE, log 28). -/
def scatterEl (fn df : Nat) (dmx : Bool) (mode : Nat) (sat : Bool) (base upd : Arg) (i : Nat) (hits : List Nat) : El :=
  let b := moveEl df dmx base i
  if hits = [] then b
  else if fn = 0 then moveEl df dmx upd (hits.getLastD 0)
  else if dmx then
    { El.of (.exact (hits.foldl (fun v u => r32 (v.add false (upd.num u))) (base.num i))) with trn := sumN (hits.map upd.trn) }
  else
    let c0 : Nat × Nat := match b.res with
      | .code c _ => (c, 0)
      | _ => let p := roundTo df (if mode = 5 then 0 else mode) 0 sat (base.num i); (p.1, if p.2 then 1 else 0)
    let p := hits.foldl (fun (p : Nat × Nat) u => let q := scatAdd df sat p.1 (upd.num u); (q.1, p.2 + q.2)) c0
    ⟨.code p.1 none, p.2, b.trn + sumN (hits.map upd.trn), 0, 0⟩

/-! ### Sorting (R133) -/

/-- Stable insertion before the first element that is not below. -/
def insBy {α : Type} (lt : α → α → Bool) (x : α) : List α → List α
  | [] => [x]
  | y :: r => if lt y x then y :: insBy lt x r else x :: y :: r

/-- A stable sort. -/
def sortBy {α : Type} (lt : α → α → Bool) (l : List α) : List α := l.foldr (insBy lt) []

/-- A row's element numbers, counted from the row's first, in sorted order. -/
def sortRow (desc : Bool) (a : Arg) (row : List Nat) : List Nat :=
  let v := fun j => a.num (row.getD j 0)
  sortBy (fun i j => if desc then (v j).below (v i) else (v i).below (v j)) (List.range row.length)

/-- Element i of the values, or of the positions, that `sort` and `topk` write, k for each row; a row's first element counts the row's TERN codes
(R25). -/
def sortEl (desc pos : Bool) (k df : Nat) (dmx : Bool) (a : Arg) (i : Nat) : El :=
  let n := Nat.max (a.ext.getLastD 1) 1
  let row := rowOf a.ext (i / Nat.max k 1 * n)
  let j := (sortRow desc a row).getD (i % Nat.max k 1) 0
  if pos then El.of (.code j none)
  else { moveEl df dmx a (row.getD j 0) with trn := if i % Nat.max k 1 = 0 then sumN (row.map a.trn) else 0 }

/-! ### Products (R119 to R121, R131) -/

/-- The mode of a product: 0 `.BF`, 1 `.I8`, 2 `.T` (R119). -/
def prodMode (fa fb : Nat) : Nat := if fa = 9 then (if fb = 11 then 2 else 1) else 0

/-- One output entry: an `MMA` for each chunk of the array's depth (R122, R38, R39). -/
def prodEntry (mode : Nat) (a b : List Nat) : Nat × Nat × Nat :=
  let ka := matKA mode
  let n := cdiv a.length ka
  (((chunksOf ka n a).zip (chunksOf ka n b)).foldl (fun (p : (Nat × Nat × Nat) × Bool) q =>
    let e := mulEntry mode p.2 p.1.1 q.1 q.2
    ((e.1, p.1.2.1 + e.2.1, p.1.2.2 + e.2.2), false)) ((0, 0, 0), true)).1

/-- The Glaze epilogue of an entry (R120, R317): scale, bias, activation. -/
def epiRes (act : Nat) (int48 : Bool) (df : Nat) (scale bias : Option Nat) (e : Nat) : El :=
  let z := sext e 48
  let xi := satZ z (-2 ^ 31) (2 ^ 31 - 1)
  let c0 := if int48 ∧ xi ≠ z then 1 else 0
  if int48 ∧ scale = none ∧ bias = none ∧ act ≤ 2 ∧ isIntF df then
    let v := roundTo df 0 0 false (.int (actI act xi))
    ⟨.code v.1 none, c0 + (if v.2 then 1 else 0), 0, 0, 0⟩
  else
    let a := if int48 then toF32 (.int xi) else e % 2 ^ 32
    let a := match scale with
      | some k => toF32 ((decode 0 a).mul (decode 0 k))
      | none => a
    let a := match bias with
      | some k => toF32 ((decode 0 a).add false (decode 0 k))
      | none => a
    ⟨.exact (decode 0 (actF act a)), c0, 0, 0, 0⟩

/-- The elements of A and B, in ascending k, whose products output i of `matmul` sums, and its column (R119). -/
def matTerms (aext bext dext : List Nat) (i : Nat) : List (Option Nat × Option Nat) × Nat :=
  let m := Nat.max (aext.dropLast.getLastD 1) 1
  let k := aext.getLastD 0
  let n := Nat.max (dext.getLastD 1) 1
  let t := i / n / m
  let bo := if 2 < bext.length then t * k * n else 0
  ((List.range k).map fun j => (some (i / n * k + j), some (bo + j * n + i % n)), i % n)

/-- The output extents of `conv` (R121): the six words of GEOM. -/
def convOut (h kh stride dil pad : Nat) : Nat :=
  let z : Int := ((h : Int) + 2 * pad - dil * ((kh : Int) - 1) - 1).fdiv stride + 1
  z.toNat

/-- The elements of input and filter, in ascending k, whose products output i of `conv` sums, none where x is 0 or k is padding, and its filter
(R121). -/
def convTerms (geom xext fext dext : List Nat) (i : Nat) : List (Option Nat × Option Nat) × Nat :=
  let g := fun j => geom.getD j 0
  let ix := fun j => (levelIdx dext i).getD j 0
  let c := fext.getD 2 0
  let nf := fext.getD 3 0
  ((indices [fext.getD 0 0, fext.getD 1 0, 32 * cdiv c 32]).map fun t =>
    let e := t.getD 2 0
    let y : Int := (ix 1 * g 0 + t.getD 0 0 * g 2 : Nat) - (g 4 : Int)
    let z : Int := (ix 2 * g 1 + t.getD 1 0 * g 3 : Nat) - (g 5 : Int)
    if c ≤ e then (none, none)
    else (if 0 ≤ y ∧ y < xext.getD 1 0 ∧ 0 ≤ z ∧ z < xext.getD 2 0 then some (linOf xext [ix 0, y.toNat, z.toNat, e]) else none,
      some (linOf fext [t.getD 0 0, t.getD 1 0, e, ix 3])), ix 3 % Nat.max nf 1)

/-- An output of `matmul` and `conv` from its terms' codes (R119 to R121). -/
def prodEl (mode act df : Nat) (scale bias : Option Nat) (a b : List Nat) : El :=
  let e := prodEntry mode a b
  { epiRes act (mode != 0) df scale bias e.1 with ovf := e.2.1, nan := e.2.2 }

/-- A partial product without an epilogue, as FP32 or as saturated INT32 (R188). -/
def partEl (mode : Nat) (a b : List Nat) : El := prodEl mode 0 (if mode = 0 then 0 else 7) none none a b

/-- A dot product of BF16 codes under R38, as FP32, with its OVF and NAN events. -/
def dotBF (a b : List Nat) : Num × Nat × Nat := let e := prodEntry 0 a b; (decode 0 e.1, e.2.1, e.2.2)

/-- One key block of `attn` on (mx, l, o) for one column of v, with the events of its product (R131). -/
def attnBlock (ss : List Num) (v : List Nat) (st : Num × Num × Num × Nat × Nat) : Num × Num × Num × Nat × Nat :=
  let (mx, l, o, ovf, nan) := st
  let mn := mx.max (redF 1 ss)
  let dead := mn == .inf true
  let cf := if dead then Num.int 1 else expN (r32 (mx.sub false mn))
  let ps := ss.map fun s => if dead then 0 else (roundTo 1 0 0 false (expN (r32 (s.sub false mn)))).1
  let d := dotBF ps v
  (mn, r32 ((l.mul cf).add false (redF 0 (ps.map (decode 1)))), r32 ((o.mul cf).add false d.1), ovf + d.2.1, nan + d.2.2)

/-- The extents of `attn`: Tq, H, D, Tk, Hk, Dv. -/
structure AttnDim where
  tq : Nat
  h : Nat
  d : Nat
  tk : Nat
  hk : Nat
  dv : Nat
  deriving DecidableEq, Repr

def attnDim (q k v : List Nat) : AttnDim := ⟨q.getD 1 0, q.getD 2 0, q.getD 3 0, k.getD 1 0, k.getD 2 0, v.getD 3 0⟩

/-- The first element of the query row, of key row j, and of the element of v in row j, for element (b, i, h, e) of the destination (R131). -/
def AttnDim.at_ (n : AttnDim) (ix : List Nat) : Nat × (Nat → Nat) × (Nat → Nat) :=
  let b := ix.getD 0 0
  let h := ix.getD 2 0
  let g := h / (n.h / n.hk)
  (((b * n.tq + ix.getD 1 0) * n.h + h) * n.d, fun j => ((b * n.tk + j) * n.hk + g) * n.d, fun j => ((b * n.tk + j) * n.hk + g) * n.dv + ix.getD 3 0)

/-- `attn` (R131): the score products' events count with column 0. -/
def attnEl (scale : Nat) (causal : Bool) (dext : List Nat) (q k v : Arg) (i : Nat) : El :=
  let n := attnDim q.ext k.ext v.ext
  let ix := levelIdx dext i
  let (qa, ka, va) := n.at_ ix
  let row := (q.codes.drop qa).take n.d
  let sc := fun (j : Nat) => dotBF row ((k.codes.drop (ka j)).take n.d)
  let st := (List.range (cdiv n.tk 512)).foldl (fun st blk =>
    let js := (List.range (Nat.min 512 (n.tk - 512 * blk))).map (512 * blk + ·)
    attnBlock (js.map fun (j : Nat) =>
      if causal = true ∧ (ix.getD 1 0 : Int) + n.tk - n.tq < (j : Int) then Num.inf true else r32 ((sc j).1.mul (decode 0 scale)))
      (js.map fun j => v.codes.getD (va j) 0) st) (Num.inf true, Num.zero, Num.zero, 0, 0)
  let ev := fun (f : Num × Nat × Nat → Nat) => if ix.getD 3 0 = 0 then sumN ((List.range n.tk).map fun j => f (sc j)) else 0
  ⟨.num (st.2.2.1.mul (sfuN 2 st.2.1)), 0, 0, st.2.2.2.1 + ev (·.2.1), st.2.2.2.2 + ev (·.2.2)⟩

end Sys2Proof.Machine
end

