-- ==== Sys2Proof/Machine/Tiles.lean ====
section
/-! DEFINITION. The tiles of the built-in operators: their numbers, their elements, the agents that round them and their lanes, their routines, and the
source elements that each element needs (spec/04 R111, R115 to R133, R472). -/
namespace Sys2Proof.Machine

/-! ### Attributes of the records -/

/-- PERM's fields (R91). -/
def permOf (r : LRec) (rank : Nat) : List Nat :=
  let p := (r.attr 0x100).getD []
  let v := (p.getD 0 0).toNat + 2 ^ 32 * (p.getD 1 0).toNat
  (List.range rank).map fun d => bitsN v (4 * d) 4

/-- AXIS of a record, 0 when it carries none (DESIGN CHOICE, log 31). -/
def axisOf (r : LRec) : Nat := r.word 0x100 0 % 16

/-- GEOM of a record: strides and dilations of 1 and no pads when it carries none (DESIGN CHOICE, log 31). -/
def geomOf (r : LRec) : List Nat := ((r.attr 0x101).getD [1, 1, 1, 1, 0, 0]).map (·.toNat)

/-- An extent list with one axis replaced. -/
def withAxis (ext : List Nat) (ax n : Nat) : List Nat := setAt ext ax n

/-! ### Tiles and lanes (R111, R122, R130, R131, R472) -/

/-- The tiles of an operator: their number, each destination element's tile, and its lane by its number among the tile's elements, counted from the
first lane of the agent that rounds: 0 the copy unit, 1 the vector unit, 2 the Glaze. -/
structure Plan where
  ntile : Nat
  tile : Nat → Nat
  lane : Nat → Nat → Nat
  agent : Nat

/-- The elements of tile t among n, ascending. -/
def Plan.elems (p : Plan) (n t : Nat) : List Nat := (List.range n).filter (p.tile · == t)

/-- The first lane of an agent on a core: of the unit that the slot is bound to (R32, R230). -/
def Core.laneBase (k : Core) (agent : Nat) : Nat := match agent with
  | 0 => 2560 + 64 * k.copyUnit 4
  | 1 => 1024 * k.vu 1
  | _ => 2048

/-- Rows of at most 64 KiB to a tile, or pieces of a row. -/
def rowPlan (fmt : Nat) (ext : List Nat) : Plan :=
  let n := Nat.max (ext.getLastD 1) 1
  let rows := if ext.contains 0 then 0 else prodN ext.dropLast
  let rb := packedBytes fmt n
  if rb ≤ 65536 then
    let rt := Nat.max 1 (65536 / Nat.max rb 1)
    ⟨cdiv rows rt, fun i => i / n / rt, fun _ j => j % 64, 0⟩
  else
    let per := 65536 * 8 / fmtBits fmt
    let ps := cdiv rb 65536
    ⟨rows * ps, fun i => i / n * ps + Nat.min (i % n / per) (ps - 1), fun _ j => j % 64, 0⟩

/-- 16 rows by 64 columns. -/
def ewPlan (ext : List Nat) : Plan :=
  let n := Nat.max (ext.getLastD 1) 1
  let rows := if ext.contains 0 then 0 else prodN ext.dropLast
  let nb := cdiv n 64
  ⟨cdiv rows 16 * nb, fun i => i / n / 16 * nb + i % n / 64, fun i _ => 64 * (i / n % 16) + i % n % 64, 1⟩

/-- 16 whole rows. -/
def rowsPlan (ext : List Nat) : Plan :=
  let n := Nat.max (ext.getLastD 1) 1
  let rows := if ext.contains 0 then 0 else prodN ext.dropLast
  ⟨cdiv rows 16, fun i => i / n / 16, fun i _ => 64 * (i / n % 16) + i % n % 64, 1⟩

/-- 16 elements. -/
def elemPlan (ext : List Nat) : Plan := ⟨cdiv (prodN ext) 16, fun i => i / 16, fun i _ => 64 * (i % 16), 1⟩

/-- 16 whole lines along an axis, in row-major order of the other axes. -/
def linePlan (ext : List Nat) (ax : Nat) : Plan :=
  let w := prodN (ext.drop (ax + 1))
  let n := Nat.max (ext.getD ax 1) 1
  let line := fun i => i / (n * w) * w + i % w
  ⟨if ext.contains 0 then 0 else cdiv (prodN (withAxis ext ax 1)) 16, fun i => line i / 16, fun i _ => 64 * (line i % 16) + i / w % n % 64, 1⟩

/-- 128 rows by 512 columns of a product: batches of m rows, n columns. -/
def matPlan (ext : List Nat) : Plan :=
  let n := Nat.max (ext.getLastD 1) 1
  let m := Nat.max (ext.dropLast.getLastD 1) 1
  let nm := cdiv m 128
  let nn := cdiv n 512
  ⟨if ext.contains 0 then 0 else prodN ext.dropLast.dropLast * nn * nm,
   fun i => (i / n / m * nn + i % n / 512) * nm + i / n % m / 128, fun i _ => i % n % 512, 2⟩

/-- 128 pixels by 512 filters. -/
def convPlan (ext : List Nat) : Plan :=
  let n := Nat.max (ext.getLastD 1) 1
  let px := prodN ext.dropLast
  let np := cdiv px 128
  ⟨if ext.contains 0 then 0 else cdiv n 512 * np, fun i => i % n / 512 * np + i / n / 128, fun i _ => i % n % 512, 2⟩

/-- One (b, h) pair and 64 query rows: extents [B, Tq, H, Dv]. -/
def attnPlan (ext : List Nat) : Plan :=
  let tq := Nat.max (ext.getD 1 1) 1
  let h := Nat.max (ext.getD 2 1) 1
  let dv := Nat.max (ext.getD 3 1) 1
  let nq := cdiv tq 64
  ⟨if ext.contains 0 then 0 else ext.getD 0 0 * h * nq,
   fun i => (i / (dv * h * tq) * h + i / dv % h) * nq + i / (dv * h) % tq / 64,
   fun i _ => 64 * (i / (dv * h) % tq % 64 % 16) + i % dv % 64, 1⟩

/-- The source of `concat` that holds position i along the axis, and the place in it (R117). -/
def catAt : List Nat → Nat → Nat → Option (Nat × Nat)
  | [], _, _ => none
  | n :: r, i, k => if i < n then some (k, i) else catAt r (i - n) (k + 1)

/-- The source of destination element i of `concat`, and the element of that source. -/
def catFrom (ax : Nat) (dext : List Nat) (srcs : List (List Nat)) (i : Nat) : Option (Nat × Nat) :=
  let ix := levelIdx dext i
  (catAt (srcs.map (·.getD ax 0)) (ix.getD ax 0) 0).map fun p => (p.1, linOf (srcs.getD p.1 []) (setAt ix ax p.2))

/-- The tiles of `concat`: the rows of each source in turn. -/
def catPlan (fmt ax : Nat) (dext : List Nat) (srcs : List (List Nat)) : Plan :=
  let ps := srcs.map (rowPlan fmt)
  ⟨sumN (ps.map (·.ntile)), fun i => match catFrom ax dext srcs i with
    | some (k, j) => sumN ((ps.take k).map (·.ntile)) + (match ps[k]? with
      | some p => p.tile j
      | none => 0)
    | none => 0, fun _ j => j % 64, 0⟩

/-- The tiles of an operator with a destination of a format and extents, from sources of format sf and the given extents. -/
def planOf (i : Instr) (r : LRec) (fmt : Nat) (dext : List Nat) (sf : Nat) (srcs : List (List Nat)) : Plan :=
  match i with
  | .lConcat _ _ => catPlan sf (axisOf r) dext srcs
  | .lMatmul _ _ => matPlan dext
  | .lConv _ _ => convPlan dext
  | .lEwu _ _ => ewPlan dext
  | .lEwb _ _ => ewPlan dext
  | .lEwt _ _ => ewPlan dext
  | .lRope _ _ => ewPlan dext
  | .lSoftmax _ _ => rowsPlan dext
  | .lNorm _ _ => rowsPlan dext
  | .lTopk _ _ => rowsPlan dext
  | .lSort _ _ => rowsPlan dext
  | .lReduce _ _ => elemPlan dext
  | .lCumsum _ _ => linePlan dext (axisOf r)
  | .lAttn _ _ => attnPlan dext
  | _ => rowPlan fmt dext

/-- The routine of an operator's tiles; `mode` is a product's (R122, R130 to R133). -/
def routineOf (i : Instr) (mode : Nat) : Nat :=
  match i with
  | .lLoad _ _ => 1
  | .lStore _ _ => 2
  | .lRelayout _ _ => 3
  | .lCast _ _ => 4
  | .lPad _ _ => 5
  | .lConcat _ _ => 6
  | .lPermute _ _ => 7
  | .lEwu _ _ => 16
  | .lEwb _ _ => 17
  | .lEwt _ _ => 18
  | .lReduce _ _ => 19
  | .lSoftmax _ _ => 20
  | .lNorm _ _ => 21
  | .lRope _ _ => 22
  | .lCumsum _ _ => 23
  | .lMatmul _ _ => 32 + mode
  | .lConv _ _ => 36 + mode
  | .lAttn _ _ => 48
  | .lGather _ _ => 56
  | .lScatter _ _ => 57
  | .lTopk _ _ => 58
  | .lSort _ _ => 59
  | _ => 0

/-! ### Source elements -/

/-- The element of a moved destination element's source, or none: `idx` is the index that a position of `gather` takes, none for zero. -/
def moveFrom (i : Instr) (r : LRec) (low : List Int) (dext : List Nat) (exts : List (List Nat)) (idx : Nat → Option Nat) (k : Nat) : Option (Nat × Nat) :=
  let ix := levelIdx dext k
  let e := exts.getD 0 []
  match i with
  | .lPad _ _ => (padFrom low e ix).map (0, ·)
  | .lPermute _ _ => some (0, permFrom (permOf r dext.length) e ix)
  | .lGather _ _ => (idx (ix.getD (axisOf r) 0)).map fun j => (0, linOf e (setAt ix (axisOf r) j))
  | .lConcat _ _ => catFrom (axisOf r) dext exts k
  | _ => some (0, k)

/-- The terms of output i of a product: elements of A and B in ascending k, and its column. -/
def prodTerms (ins : Instr) (r : LRec) (dext : List Nat) (exts : List (List Nat)) (i : Nat) : List (Option Nat × Option Nat) × Nat :=
  match ins with
  | .lMatmul _ _ => matTerms (exts.getD 0 []) (exts.getD 1 []) dext i
  | _ => convTerms (geomOf r) (exts.getD 0 []) (exts.getD 1 []) dext i

/-- The elements of source k that destination element i needs; `idx` holds the indices of `gather` that are known. -/
def needsOf (ins : Instr) (r : LRec) (low : List Int) (dext : List Nat) (exts : List (List Nat)) (idx : Nat → Option Nat) (k i : Nat) : List Nat :=
  let e := exts.getD k []
  let ix := levelIdx dext i
  let whole := List.range (prodN e)
  match ins with
  | .lEwu _ _ => [bcastLin e dext ix]
  | .lEwb _ _ => [bcastLin e dext ix]
  | .lEwt _ _ => [bcastLin e dext ix]
  | .lReduce _ _ => reduceIdx (r.word 0x101 0) e ix
  | .lSoftmax _ _ => rowOf e i
  | .lNorm _ _ => if k = 0 then rowOf e i else whole
  | .lRope _ _ => let p := ropeAt (r.word 0x100 0) (exts.getD 0 []) i; if k = 0 then [p.1, p.2.1] else [p.2.2.1]
  | .lCumsum _ _ => lineOf e (axisOf r) ix
  | .lSort _ _ => rowOf e i
  | .lTopk _ _ => let n := Nat.max (e.getLastD 1) 1; rowOf e (i / Nat.max (dext.getLastD 1) 1 * n)
  | .lMatmul _ _ => let p := prodTerms ins r dext exts i; if k = 0 then p.1.filterMap (·.1) else if k = 1 then p.1.filterMap (·.2) else [p.2]
  | .lConv _ _ => let p := prodTerms ins r dext exts i; if k = 0 then p.1.filterMap (·.1) else if k = 1 then p.1.filterMap (·.2) else [p.2]
  | .lAttn _ _ =>
    let n := attnDim (exts.getD 0 []) (exts.getD 1 []) (exts.getD 2 [])
    let (qa, ka, va) := n.at_ ix
    match k with
    | 0 => (List.range n.d).map (qa + ·)
    | 1 => (List.range n.tk).flatMap fun j => (List.range n.d).map (ka j + ·)
    | _ => (List.range n.tk).map va
  | .lScatter _ _ => match k with
    | 0 => [i]
    | 1 => whole
    | _ => (List.range (e.getD (axisOf r) 0)).map fun u => linOf e (setAt ix (axisOf r) u)
  | .lGather _ _ => if k = 1 then [ix.getD (axisOf r) 0] else ((moveFrom ins r low dext exts idx i).map (·.2)).toList
  | _ => match moveFrom ins r low dext exts idx i with
    | some (j, n) => if j = k then [n] else []
    | none => []

end Sys2Proof.Machine
end

