-- ==== Sys2Proof/Machine/LTensor.lean ====
section
/-! DEFINITION. Dispatch of the operators that write tensors (spec/04 R90 to R133): operands, shape and overlap checks, the lowering of
sharding into collectives (spec/06 R187), and the operator in flight with its tiles. What a tile computes is done when it runs. -/
namespace Sys2Proof.Machine

/-! ### Operands -/

/-- The tensor operands with their operand numbers. -/
def tensIdx (vs : List Val) : List (Nat × TRef) :=
  ((List.range vs.length).zip vs).filterMap fun p => match p.2 with
    | .ten t => some (p.1, t)
    | _ => none

/-- The sources and destinations of an operator, which sources may be exactly the destination (R94), and for each source the destination's
dimension that each of its dimensions feeds. -/
structure TSpec where
  srcs : List (Nat × TRef)
  dsts : List (Nat × TRef)
  inpl : List Nat
  maps : List (List (Option Nat))
  deriving DecidableEq, Repr

/-- Dimensions aligned at the innermost one (R97). -/
def alignMap (rs rd : Nat) : List (Option Nat) := (List.range rs).map fun d => if rd < rs then none else some (d + (rd - rs))

/-- A map without one dimension. -/
def dropDim (m : List (Option Nat)) (d : Nat) : List (Option Nat) := setAt m d none

/-- Sources first, then destinations. -/
def specN (n : Nat) (inpl : List Nat) (ts : List (Nat × TRef)) (f : Nat → TRef → Nat → List (Option Nat)) : TSpec :=
  let rd := match (ts.drop n).head? with
    | some p => p.2.ext.length
    | none => 0
  let ss := ts.take n
  ⟨ss, ts.drop n, inpl, ((List.range ss.length).zip ss).map fun p => f p.1 p.2.2 rd⟩

/-- The operands of a tensor operator (R90). -/
def tspec (i : Instr) (r : LRec) (args : List Val) : TSpec :=
  let ts := tensIdx args
  let al := fun (_ : Nat) (t : TRef) (rd : Nat) => alignMap t.ext.length rd
  match i with
  | .lCast _ _ => specN 1 [0] ts al
  | .lEwu _ _ => specN 1 [0] ts al
  | .lCumsum _ _ => specN 1 [0] ts al
  | .lEwb _ _ => specN 2 [0, 1] ts al
  | .lEwt _ _ => specN 3 [0, 1, 2] ts al
  | .lConcat _ _ => specN (ts.length - 1) [] ts al
  | .lReduce _ _ => specN 1 [] ts fun _ t rd =>
      (List.range t.ext.length).map fun d => if bitN (r.word 0x101 0) d ∨ rd ≤ d then none else some d
  | .lNorm _ _ => specN (ts.length - 1) [] ts al
  | .lRope _ _ => specN 3 [] ts al
  | .lAttn _ _ => specN 3 [] ts fun k _ _ => match k with
      | 0 => [some 0, some 1, some 2, none]
      | 1 => [some 0, none, some 2, none]
      | _ => [some 0, none, some 2, some 3]
  | .lGather _ _ => specN 2 [] ts fun k t rd => if k = 0 then dropDim (alignMap t.ext.length rd) (axisOf r) else [some (axisOf r)]
  | .lScatter _ _ => specN 3 [0] ts fun k t rd => match k with
      | 0 => alignMap t.ext.length rd
      | 1 => [none]
      | _ => dropDim (alignMap t.ext.length rd) (axisOf r)
  | .lTopk _ _ => specN 1 [] ts fun _ t rd => dropDim (alignMap t.ext.length rd) (t.ext.length - 1)
  | .lPermute _ _ => specN 1 [] ts fun _ t rd => (List.range t.ext.length).map fun a => firstIdx (· == a) (permOf r rd)
  | .lMatmul _ _ =>
    let rd := match ts[2]? with
      | some p => p.2.ext.length
      | none => 0
    let last := some (rd - 1)
    let ra := match ts[0]? with
      | some p => p.2.ext.length
      | none => 0
    let rb := match ts[1]? with
      | some p => p.2.ext.length
      | none => 0
    ⟨ts.take 2 ++ ts.drop 3, (ts.drop 2).take 1, [],
     [(List.range (ra - 1)).map some ++ [none], (List.range (rb - 2)).map some ++ [none, last]] ++ (ts.drop 3).map fun _ => [last]⟩
  | .lConv _ _ =>
    ⟨ts.take 2 ++ ts.drop 3, (ts.drop 2).take 1, [],
     [[some 0, some 1, some 2, none], [none, none, none, some 3]] ++ (ts.drop 3).map fun _ => [some 3]⟩
  | _ => specN 1 [] ts al

/-! ### Lowering of sharding (R187) -/

/-- The level that a step's collective runs over. -/
def LStep.level : LStep → Option Nat
  | .ared l => some l
  | .rscat l _ => some l
  | .agath l _ => some l
  | .a2a l _ _ => some l
  | .blk _ _ => none
  | .part => none

/-- Steps for one level on an operand's sharding; none where no row of R187 covers the disagreement. `km` is a dimension of K whose
sharding the product itself reduces; `add` says that the consumer keeps partial sums. A dimension that another level shards, and whose result this
level shards, is gathered and cut at that other level. -/
def lowerLevel (res : List Nat) (rpart : Nat) (dm : List (Option Nat)) (ext : List Nat) (add : Bool) (km : Option Nat) (l : Nat)
    (part : Nat) (ax : List Nat) : Option (List LStep × List Nat) :=
  let feeds := fun e => firstIdx (· == some e) dm
  let tgt := firstIdx (· == l) res
  let tgtDim := tgt.bind feeds
  if bitN part l then
    if add = true ∧ bitN rpart l = true then some ([], ax)
    else match tgtDim with
      | some d => some ([.rscat l d], setAt ax d l)
      | none => some ([.ared l], ax)
  else match firstIdx (· == l) ax with
    | some d =>
      if km = some d then some ([], ax)
      else
        let want := match dm.getD d none with
          | some e => res.getD e 15
          | none => 15
        if want = l then some ([], ax)
        else match tgt, tgtDim with
          | some _, some e => some ([.a2a l e d], setAt (setAt ax d 15) e l)
          | some _, none => none
          | none, _ =>
            if bitN rpart l then none
            else if want = 15 then some ([.agath l d], setAt ax d 15)
            else some ([.agath l d, .blk want d], setAt ax d want)
    | none => match tgtDim with
      | some d => if ext.getD d 1 = 1 ∨ ax.getD d 15 < 8 then some ([], ax) else none
      | none => some ([], ax)

/-- Steps for every level, ascending, with the sharding that they leave. -/
def lowerOne (res : List Nat) (rpart : Nat) (t : TRef) (dm : List (Option Nat)) (add : Bool) (km : Option Nat) :
    Option (List LStep × List Nat) :=
  (List.range 8).foldl (fun a l => match a with
    | none => none
    | some (st, ax) => match lowerLevel res rpart dm t.whole add km l t.part ax with
      | none => none
      | some (st', ax') => some (st ++ st', ax')) (some ([], t.axes))

/-- The K dimension of source k of a product. -/
def kDim (i : Instr) (k rank : Nat) : Option Nat :=
  match i, k with
  | .lMatmul _ _, 0 => some (rank - 1)
  | .lMatmul _ _, 1 => some (rank - 2)
  | .lConv _ _, 0 => some 3
  | .lConv _ _, 1 => some 2
  | _, _ => none

/-- The level over which both sources of a product are sharded on K. -/
def kLevel (i : Instr) (sp : TSpec) : Option Nat :=
  match sp.srcs with
  | (_, a) :: (_, b) :: _ =>
    match kDim i 0 a.axes.length, kDim i 1 b.axes.length with
    | some x, some y =>
      let l := a.axes.getD x 15
      if l < 8 ∧ b.axes.getD y 15 = l then some l else none
    | _, _ => none
  | _ => none

/-- The sharding of result 0: its record's, else the destination's (R56). -/
def resShard (r : LRec) (d : TRef) : List Nat × Nat := (shardOf r 0 d.ext.length).getD (d.axes, d.part)

/-- The lowering of an operator: steps and final sharding of each source, and for a product with K sharded its level and what follows:
0 the result stays partial, 1 an `ared`, 2 + e an `rscat` on dimension e. -/
structure Lower where
  steps : List (List LStep)
  axes : List (List Nat)
  kred : Option (Nat × Nat)
  deriving DecidableEq, Repr

/-- Whether an operator keeps partial sums (R187's first row). -/
def keepsPart (i : Instr) (r : LRec) : Bool :=
  match i with
  | .lEwb _ _ => r.word 0x100 0 % 16 == 0
  | .lReduce _ _ => r.word 0x100 0 % 16 == 0
  | _ => false

/-- The dimensions of a product's result that M and N index: the last two of `matmul`, every one of `conv` (R187; the pixels of `conv` are its M,
DEDUCED, log 23). -/
def mnDim (i : Instr) (rank e : Nat) : Bool := match i with
  | .lMatmul _ _ => decide (rank ≤ e + 2)
  | _ => true

/-- What R187 makes of each source, and of a product with K sharded, with the first operand that no row covers. -/
def lowerAll (i : Instr) (r : LRec) (sp : TSpec) : Except Nat Lower :=
  match sp.dsts with
  | [] => .ok ⟨[], [], none⟩
  | (dk, d) :: _ =>
    let q := resShard r d
    let kl := kLevel i sp
    let one := fun (k : Nat) (t : TRef) =>
      lowerOne q.1 (match kl with
        | some l => if bitN q.2 l then q.2 - 2 ^ l else q.2
        | none => q.2) t (sp.maps.getD k []) (keepsPart i r) (if kl.isSome then kDim i k t.axes.length else none)
    let os := ((List.range sp.srcs.length).zip sp.srcs).map fun p => (p.2.1, one p.1 p.2.2)
    match os.find? fun p => p.2.isNone with
    | some p => .error p.1
    | none =>
      let loose := (List.range 8).any fun l => bitN q.2 l && kl != some l && !sp.srcs.any fun p => bitN p.2.part l
      let kred : Option (Option (Nat × Nat)) := match kl with
        | none => some none
        | some l => if bitN q.2 l then some (some (l, 0)) else match firstIdx (· == l) q.1 with
          | some e => if mnDim i q.1.length e then some (some (l, 2 + e)) else none
          | none => some (some (l, 1))
      match loose, kred with
      | false, some kr => .ok ⟨(os.filterMap (·.2)).map (·.1), (os.filterMap (·.2)).map (·.2), kr⟩
      | _, _ => .error dk

/-- The lowering of a record; none when no row of R187 covers it. -/
def lowering (i : Instr) (r : LRec) (sp : TSpec) : Option Lower := (lowerAll i r sp).toOption

/-- The inserted operators of a record in the order of its operands, each with the number of its source; a product with K sharded goes last (R187). -/
def Lower.plan (x : Lower) : List (Nat × LStep) :=
  ((List.range x.steps.length).zip x.steps).flatMap (fun p => p.2.map fun st => (p.1, st)) ++ (match x.kred with
    | some (l, 1) => [(0, .part), (0, .ared l)]
    | some (l, e + 2) => [(0, .part), (0, .rscat l e)]
    | _ => [])

/-! ### Shape checks -/

/-- Whether a source repeats along a destination (R97). -/
def bcastOk (src dst : List Nat) : Bool :=
  src.length ≤ dst.length && (src.zip (dst.drop (dst.length - src.length))).all fun p => p.1 == 1 || p.1 == p.2

/-- The first source whose extents are not the wanted ones. -/
def firstBad (p : List Nat → Bool) (es : List (Nat × List Nat)) : Option (Nat × Nat) :=
  (es.find? fun e => !p e.2).map fun e => (0x53, e.1)

/-- A mismatch at an operand unless the condition holds. -/
def needEq (ok : Bool) (k : Nat) : Option (Nat × Nat) := if ok then none else some (0x53, k)

/-- The first of several checks that fails. -/
def firstOf : List (Option (Nat × Nat)) → Option (Nat × Nat)
  | [] => none
  | none :: r => firstOf r
  | some x :: _ => some x

/-- The global space of a tensor's base. -/
def TRef.isGlobal (t : TRef) : Bool := t.crew.isEmpty && t.base.toNat / 2 ^ 62 == 3

/-- The dispatch checks of an operator on its sources' extents `es` and its destinations: the code and the operand at fault. A destination of `matmul`,
`conv` or `attn` in global memory, which R93 excludes, raises SHAPE_RANGE there (DESIGN CHOICE, log 32). -/
def shapeBad (i : Instr) (r : LRec) (args : List Val) (es : List (Nat × List Nat)) (ds : List (Nat × TRef)) : Option (Nat × Nat) :=
  let e := fun k => ((es[k]?).map (·.2)).getD []
  let d := match ds.head? with
    | some p => p.2.ext
    | none => []
  let dk := match ds.head? with
    | some p => p.1
    | none => 0
  let glob := ds.any fun p => p.2.isGlobal
  let arg := fun k => (args.getD k (.i64 0)).int
  match i with
  | .lStore _ _ => if glob then needEq (e 0 == d) 1 else some (0x52, 1)
  | .lPad _ _ =>
    let low := (List.range d.length).map fun k => arg (2 + k)
    match firstIdx (· < 0) low with
    | some k => some (0x52, 2 + k)
    | none => needEq ((e 0).length == d.length && ((e 0).zip (d.zip low)).all fun p => p.1 + p.2.2.toNat ≤ p.2.1) 1
  | .lConcat _ _ =>
    let ax := axisOf r
    let fits := fun (x y : List Nat) => decide (ax < y.length) && x.length == y.length && withAxis x ax 0 == withAxis y ax 0
    firstOf [firstBad (fits · (e 0)) (es.drop 1),
      needEq (fits d (e 0) && sumN (es.map fun p => p.2.getD ax 0) == d.getD ax 0) dk]
  | .lMatmul _ _ =>
    let n := (e 1).getLastD 0
    if glob then some (0x52, dk)
    else firstOf [needEq (2 ≤ (e 0).length && 2 ≤ (e 1).length && (e 0).getLastD 0 == (e 1).dropLast.getLastD 0
        && ((e 1).length == 2 || (e 1).dropLast.dropLast == (e 0).dropLast.dropLast)) 1, needEq (d == (e 0).dropLast ++ [n]) 2,
      firstBad (· == [n]) (es.drop 2)]
  | .lConv _ _ =>
    let g := geomOf r
    let oh := convOut ((e 0).getD 1 0) ((e 1).getD 0 0) (g.getD 0 1) (g.getD 2 1) (g.getD 4 0)
    let ow := convOut ((e 0).getD 2 0) ((e 1).getD 1 0) (g.getD 1 1) (g.getD 3 1) (g.getD 5 0)
    let n := (e 1).getD 3 0
    if glob then some (0x52, dk)
    else firstOf [needEq ((e 0).length == 4 && (e 1).length == 4 && (e 0).getD 3 0 == (e 1).getD 2 0) 1,
      needEq (d == [(e 0).getD 0 0, oh, ow, n]) 2, firstBad (· == [n]) (es.drop 2)]
  | .lEwb _ _ => firstBad (bcastOk · d) es
  | .lEwt _ _ => firstBad (bcastOk · d) es
  | .lReduce _ _ =>
    let ax := r.word 0x101 0
    needEq ((e 0).length == d.length && ax < 2 ^ (e 0).length
      && (List.range d.length).all fun k => d.getD k 0 == (if bitN ax k then 1 else (e 0).getD k 0)) 0
  | .lNorm _ _ => firstOf [needEq (e 0 == d) 0, firstBad (· == [d.getLastD 0]) (es.drop 1)]
  | .lRope _ _ =>
    let w := d.getLastD 0
    firstOf [needEq (e 0 == d && 2 ≤ d.length && w % 2 == 0) 0, firstBad (· == [d.dropLast.getLastD 0, w / 2]) (es.drop 1)]
  | .lAttn _ _ =>
    let q := e 0
    let k := e 1
    let v := e 2
    let hk := k.getD 2 0
    if glob then some (0x52, dk)
    else firstOf [needEq (q.length == 4 && k.length == 4 && q.getD 2 0 % hk == 0 && k.getD 0 0 == q.getD 0 0
        && k.getD 3 0 == q.getD 3 0) 1, needEq (v.length == 4 && v.take 3 == k.take 3) 2, needEq (d == q.take 3 ++ [v.getD 3 0]) 3]
  | .lGather _ _ =>
    let ax := axisOf r
    firstOf [needEq ((e 1).length == 1) 1, needEq (ax < (e 0).length && d == withAxis (e 0) ax ((e 1).headD 0)) 2]
  | .lScatter _ _ =>
    let ax := axisOf r
    firstOf [needEq (e 0 == d && ax < d.length) 0, needEq ((e 1).length == 1) 1,
      needEq (e 2 == withAxis d ax ((e 1).headD 0)) 2]
  | .lTopk _ _ =>
    let n := (e 0).getLastD 0
    let k := arg 1
    if k < 0 ∨ (n : Int) < k then some (0x52, 1)
    else (ds.find? fun p => p.2.ext != (e 0).dropLast ++ [k.toNat]).map fun p => (0x53, p.1)
  | .lSort _ _ => (ds.find? fun p => p.2.ext != e 0).map fun p => (0x53, p.1)
  | .lPermute _ _ =>
    let p := permOf r d.length
    needEq ((e 0).length == d.length && (List.range d.length).all fun k => d.getD k 0 == (e 0).getD (p.getD k 0) 0) 1
  | .lLoad _ _ => needEq (e 0 == d) 1
  | .lRelayout _ _ => needEq (e 0 == d) 1
  | .lCast _ _ => needEq (e 0 == d) 1
  | _ => firstBad (· == d) es

/-- Whether a row of a tensor is off its boundary (R60). -/
def TRef.misplaced (t : TRef) : Bool :=
  !t.ext.contains 0 && ((if t.crew = [] then t.base.toNat % 64 else t.voff % 64) != 0
    || !stridesOk t.fmt t.lay (t.ext.map some) t.str)

/-- SHAPE_RANGE at the first operand whose rows are off their boundary: an operator whose tiles or engine reach the tensor is the first that uses it;
`alloc`, `view`, `launch`, `dim` and the control operators only name it (R60; DESIGN CHOICE, log 32). -/
def useCheck : List (Nat × TRef) → SeqM Unit
  | [] => pure ()
  | (k, t) :: r => if t.misplaced then trapQ 0x52 (BitVec.ofNat 64 k) (t.hnd.getD 0xFFFF) else useCheck r

/-- COPY_OVERLAP under R94. -/
def overlapCheck (sp : TSpec) : SeqM Unit :=
  let bad := (List.range sp.srcs.length).find? fun k => match sp.srcs[k]? with
    | some (_, t) => sp.dsts.any fun d => t.overlaps d.2 && !(sp.inpl.contains k && t.same d.2)
    | none => false
  match bad.bind fun k => sp.srcs[k]? with
  | some (k, t) => trapQ 0x41 (BitVec.ofNat 64 k) (t.hnd.getD 0xFFFF)
  | none => match sp.dsts with
    | [(_, a), (k, b)] => if a.overlaps b then trapQ 0x41 (BitVec.ofNat 64 k) (b.hnd.getD 0xFFFF) else pure ()
    | _ => pure ()

/-- Does an action for every element. -/
def eachQ {α : Type} (g : α → SeqM Unit) : List α → SeqM Unit
  | [] => pure ()
  | a :: r => do g a; eachQ g r

/-- Results that their record's TYPE and SHARD must agree with, each with the operand that it names (R57, R68). -/
def doneT (c : Cur) (ops : List Nat) (vs : List Val) : SeqM Unit :=
  match c.typed c.rec_ vs with
  | .error i => trapQ 0x53 (BitVec.ofNat 64 (ops.getD i i)) (vs.getD i (.i64 0)).hndOf
  | .ok _ => doneQ c vs

/-- Bytes that a writer of a tensor writes: its rows, and the scales of an MX pair. -/
def TRef.wrBytes (t : TRef) : Nat :=
  t.written + (if t.mx then prodN t.ext.dropLast * cdiv (t.ext.getLastD 0) 32 else 0)

/-! ### Collective sets (R177, R178) -/

/-- The instance numbers of a collective set, in rank order: those that agree at every level outside the mask. -/
def collSet (lev : List Nat) (i mask : Nat) : List Nat :=
  let ix := levelIdx lev i
  (indices ((List.range lev.length).map fun l => if bitN mask l then lev.getD l 1 else 1)).map fun js =>
    linOf lev ((List.range lev.length).map fun l => if bitN mask l then js.getD l 0 else ix.getD l 0)

/-- The next collective of an instance over the levels of a mask: its set, the instance's rank, its number in the set, and its number on tl9 (R177 to
R179). -/
def takeColl (c : Cur) (mask : Nat) : SeqM (List Nat × Nat × Nat × Nat) := do
  let s ← get
  let set_ := (collSet c.lev c.inst.idx mask).map (c.inst.launch * 2 ^ 24 + ·)
  let k := ((s.insts.find c.wk.inst).bind fun x => (x.colls.find? fun p => p.1 == set_).map (·.2)).getD 0 + 1
  let s := s.updInst c.wk.inst fun x => { x with colls := (set_, k) :: x.colls.filter fun p => p.1 != set_ }
  let (num, s) := match s.ctx? c.ctx with
    | some x => let p := x.tl9.take; (p.1, s.updCtx c.ctx fun x => { x with tl9 := p.2 })
    | none => (0, s)
  set s
  pure (set_, (firstIdx (· == c.wk.inst) set_).getD 0, k, num)

/-- An operator waits for a collective. -/
def LOp.atColl (o : LOp) (q : List Nat × Nat × Nat × Nat) : LOp := { o with kind := 2, set_ := q.1, rank := q.2.1, seq := q.2.2.1, tl9 := q.2.2.2 }

/-- Enters an operator among its instance's collectives, over the levels of a mask (R178, R179). -/
def joinColl (c : Cur) (n mask : Nat) : SeqM Unit := do
  let q ← takeColl c mask
  modify fun s => s.updLop n fun o => o.atColl q

/-- Enters a lowered operator among its instance's collectives, once for each that it inserts, over the set of that one's level. -/
def joinSteps (c : Cur) (n : Nat) : List Nat → SeqM (List (List Nat × Nat × Nat × Nat))
  | [] => pure []
  | l :: r => do
    let q ← takeColl c (2 ^ l)
    return q :: (← joinSteps c n r)

/-! ### Tiles (R108 to R111) -/

/-- The extents of an operator's sources as its tiles read them: of what the inserted operators have made, else of the operand. -/
def LOp.srcExts (o : LOp) (sp : TSpec) : List (List Nat) :=
  ((List.range sp.srcs.length).zip sp.srcs).map fun p => match o.vals.find p.1 with
    | some a => a.ext
    | none => p.2.2.ext

/-- The extents of a partial product: of A's and B's blocks (R188). -/
def partExt (i : Instr) (r : LRec) (es : List (List Nat)) : List Nat :=
  let a := es.getD 0 []
  let b := es.getD 1 []
  let g := geomOf r
  match i with
  | .lMatmul _ _ => a.dropLast ++ [b.getLastD 0]
  | _ => [a.getD 0 0, convOut (a.getD 1 0) (b.getD 0 0) (g.getD 0 1) (g.getD 2 1) (g.getD 4 0),
      convOut (a.getD 2 0) (b.getD 1 0) (g.getD 1 1) (g.getD 3 1) (g.getD 5 0), b.getD 3 0]

/-- Whether an operator's tiles form a partial product. -/
def LOp.parts (o : LOp) : Bool := o.steps.head? == some (0, .part)

/-- The format and extents that an operator's tiles write: its first destination's, or those of a partial product. -/
def LOp.tileDst (o : LOp) (sp : TSpec) : Nat × List Nat :=
  let d := o.outs.headD .zero
  if o.parts then (0, partExt o.ins (lrecOf o.ins).2 (o.srcExts sp)) else (d.fmt, d.ext)

/-- The mode of an operator's product, from its sources' formats (R119). -/
def prodModeOf (sp : TSpec) : Nat := match sp.srcs with
  | (_, a) :: (_, b) :: _ => prodMode a.fmt b.fmt
  | _ => 0

/-- The tiles of an operator, those of the epilogue after its sums are reduced among them (R188). -/
def LOp.plan (o : LOp) : Plan :=
  let r := (lrecOf o.ins).2
  let sp := tspec o.ins r o.args
  let d := o.tileDst sp
  if o.epi then ewPlan d.2 else planOf o.ins r d.1 d.2 ((sp.srcs.headD (0, .zero)).2.fmt) (o.srcExts sp)

/-- An operator's tiles open: tile t at position t mod C of the crew at dispatch (R110). -/
def LOp.opened (o : LOp) : LOp :=
  let n := o.plan.ntile
  let m := Nat.max o.crew.length 1
  { o with kind := 0, ntile := n, csize := o.crew.length,
           rtn := if o.epi then 40 else routineOf o.ins (prodModeOf (tspec o.ins (lrecOf o.ins).2 o.args)),
           tiles := (List.range n).map fun t => (t, o.crew.getD (t % m) 0, t % m) }

/-- Enters operator n in the fusing group of its record: the one that an earlier record of the group has opened in this visit, else a new one. -/
def joinFuse (c : Cur) (r : LRec) (n : Nat) : SeqM Unit := modify fun s =>
  if r.fuse = 0 then s
  else
    let g := (s.lops.find? fun p => p.2.walk == c.w && p.2.fuse == 1 && p.2.func == c.fr.fn && (lrecOf p.2.ins).2.fuse == r.fuse).map (·.2.grp)
    s.updLop n fun o => { o with grp := g.getD n, fuse := 1 }

/-- A tensor as an operand of an operator dispatched now, with its handle's generation (R108, R134); one that a `free` has made dead keeps the
generation that it names (R113). -/
def Val.atDispatch (s : State) (c : Cur) : Val → Val
  | .ten t => .ten (match t.hnd with
    | some h =>
      let e := s.handle c.cl c.ctx h
      if e.alloc = t.alloc ∧ (e.st = 1 ∨ e.st = 2) then { t with gen := e.gen } else t
    | none => t)
  | v => v

/-- Every handle among destinations goes from FULL to FILLING, once, for the bytes that the operator writes into its region (R101). -/
def destsFill (c : Cur) (ds : List TRef) (bytes : TRef → Nat) : SeqM Unit :=
  eachQ (fun h => match ds.find? fun d => d.hnd == some h with
    | some d => destFill c d (sumN ((ds.filter fun d => d.hnd == some h).map bytes))
    | none => pure ()) (nubN (ds.filterMap (·.hnd)))

/-- Puts an operator that writes tensors in flight (R66, R94, R95, R101, R110, R187). -/
def dispT (c : Cur) (r : LRec) (i : Instr) : SeqM Unit := do
  let args := (c.vals r).map (Val.atDispatch (← get) c)
  let sp := tspec i r args
  let at_ := fun (k : Nat) => (args.getD k (.i64 0)).hndOf
  eachQ (fun p => destReady c p.2) sp.dsts
  useCheck (sp.srcs ++ sp.dsts)
  match lowerAll i r sp with
  | .error k => trapQ 0x53 (BitVec.ofNat 64 k) (at_ k)
  | .ok lw =>
    let es := (sp.srcs.zip lw.axes).map fun p => (p.1.1, if p.1.2.axes = p.2 then p.1.2.ext else c.ownExt p.1.2.whole p.2)
    match shapeBad i r args es sp.dsts with
    | some (code, k) => trapQ code (BitVec.ofNat 64 k) (at_ k)
    | none =>
      overlapCheck sp
      let s ← get
      let dh := sp.dsts.filterMap fun p => p.2.hnd
      let w := srcWaits s (sp.srcs.map (·.2))
      let n ← newLop c r i 0 args (sp.dsts.map (·.2)) w.1 (w.2.filter fun p => !dh.contains p.1)
      let s ← get
      let res := ((List.range sp.dsts.length).zip sp.dsts).map fun p =>
        let t := resultOf s c p.2.2 n
        if p.1 = 0 then { t with axes := (resShard r t).1, part := (resShard r t).2 } else t
      destsFill c (sp.dsts.map (·.2)) TRef.wrBytes
      let qs ← joinSteps c n (lw.plan.filterMap fun p => p.2.level)
      modify fun s => { (s.updLop n fun o =>
        let o := { o with crew := s.crewOf c, steps := lw.plan, free := s.fresh }
        match lw.plan, qs with
        | (_, .part) :: _, _ => { o with later := qs }.opened
        | _ :: _, q :: l => { o with later := l }.atColl q
        | _, _ => o.opened) with fresh := s.fresh + 2 ^ 64 }
      joinFuse c r n
      doneT c (sp.dsts.map (·.1)) (match i with
        | .lStore _ _ => [.tok n]
        | _ => res.map .ten)

/-! ### The operators: each is dispatched, and computes when it completes -/

/-- `load` (R115). -/
def execLLoad (w : Nat) (r : LRec) (s : State) : Host.Outcome State Fault Refusal := runSeq w r (fun c => dispT c r (.lLoad w r)) s

/-- `store` (R115). -/
def execLStore (w : Nat) (r : LRec) (s : State) : Host.Outcome State Fault Refusal := runSeq w r (fun c => dispT c r (.lStore w r)) s

/-- `relayout` (R115). -/
def execLRelayout (w : Nat) (r : LRec) (s : State) : Host.Outcome State Fault Refusal := runSeq w r (fun c => dispT c r (.lRelayout w r)) s

/-- `cast` (R115). -/
def execLCast (w : Nat) (r : LRec) (s : State) : Host.Outcome State Fault Refusal := runSeq w r (fun c => dispT c r (.lCast w r)) s

/-- `pad` (R116). -/
def execLPad (w : Nat) (r : LRec) (s : State) : Host.Outcome State Fault Refusal := runSeq w r (fun c => dispT c r (.lPad w r)) s

/-- `concat` (R117). -/
def execLConcat (w : Nat) (r : LRec) (s : State) : Host.Outcome State Fault Refusal := runSeq w r (fun c => dispT c r (.lConcat w r)) s

/-- `matmul` (R119, R120). -/
def execLMatmul (w : Nat) (r : LRec) (s : State) : Host.Outcome State Fault Refusal := runSeq w r (fun c => dispT c r (.lMatmul w r)) s

/-- `conv` (R121). -/
def execLConv (w : Nat) (r : LRec) (s : State) : Host.Outcome State Fault Refusal := runSeq w r (fun c => dispT c r (.lConv w r)) s

/-- `ewu` (R123). -/
def execLEwu (w : Nat) (r : LRec) (s : State) : Host.Outcome State Fault Refusal := runSeq w r (fun c => dispT c r (.lEwu w r)) s

/-- `ewb` (R124). -/
def execLEwb (w : Nat) (r : LRec) (s : State) : Host.Outcome State Fault Refusal := runSeq w r (fun c => dispT c r (.lEwb w r)) s

/-- `ewt` (R124). -/
def execLEwt (w : Nat) (r : LRec) (s : State) : Host.Outcome State Fault Refusal := runSeq w r (fun c => dispT c r (.lEwt w r)) s

/-- `reduce` (R127). -/
def execLReduce (w : Nat) (r : LRec) (s : State) : Host.Outcome State Fault Refusal := runSeq w r (fun c => dispT c r (.lReduce w r)) s

/-- `softmax` (R128). -/
def execLSoftmax (w : Nat) (r : LRec) (s : State) : Host.Outcome State Fault Refusal := runSeq w r (fun c => dispT c r (.lSoftmax w r)) s

/-- `norm` (R128). -/
def execLNorm (w : Nat) (r : LRec) (s : State) : Host.Outcome State Fault Refusal := runSeq w r (fun c => dispT c r (.lNorm w r)) s

/-- `rope` (R125). -/
def execLRope (w : Nat) (r : LRec) (s : State) : Host.Outcome State Fault Refusal := runSeq w r (fun c => dispT c r (.lRope w r)) s

/-- `attn` (R131). -/
def execLAttn (w : Nat) (r : LRec) (s : State) : Host.Outcome State Fault Refusal := runSeq w r (fun c => dispT c r (.lAttn w r)) s

/-- `gather` (R132). -/
def execLGather (w : Nat) (r : LRec) (s : State) : Host.Outcome State Fault Refusal := runSeq w r (fun c => dispT c r (.lGather w r)) s

/-- `scatter` (R132). -/
def execLScatter (w : Nat) (r : LRec) (s : State) : Host.Outcome State Fault Refusal := runSeq w r (fun c => dispT c r (.lScatter w r)) s

/-- `topk` (R133). -/
def execLTopk (w : Nat) (r : LRec) (s : State) : Host.Outcome State Fault Refusal := runSeq w r (fun c => dispT c r (.lTopk w r)) s

/-- `sort` (R133). -/
def execLSort (w : Nat) (r : LRec) (s : State) : Host.Outcome State Fault Refusal := runSeq w r (fun c => dispT c r (.lSort w r)) s

/-- `permute` (R118). -/
def execLPermute (w : Nat) (r : LRec) (s : State) : Host.Outcome State Fault Refusal := runSeq w r (fun c => dispT c r (.lPermute w r)) s

/-- `cumsum` (R129). -/
def execLCumsum (w : Nat) (r : LRec) (s : State) : Host.Outcome State Fault Refusal := runSeq w r (fun c => dispT c r (.lCumsum w r)) s

end Sys2Proof.Machine
end

