-- ==== Sys2Proof/Machine/Complete.lean ====
section
/-! DEFINITION. What a tile of a built-in operator does, and the completion of operators (spec/03 R65, spec/04 R95, R100, R101, R108 to R138, R472): a tile's
elements, their final rounding, its writes and counters; operators' next phases; tokens and `free`. A tile does its work whole when it ends (DESIGN CHOICE,
log 9). -/
namespace Sys2Proof.Machine

/-! ### Final rounding (R96, R472) -/

/-- One element's code and its saturations, with the addend of R34. -/
def El.fin (e : El) (df mode : Nat) (sat : Bool) (r : Nat) : Nat × Nat :=
  let rd := fun (v : Num) => let p := roundTo df mode r sat v; (p.1, e.sat + if p.2 then 1 else 0)
  match e.res with
  | .code c _ => (c, e.sat)
  | .num v => rd (if df = 0 then v else r32 v)
  | .exact v => rd v

/-- Whether an element rounds. -/
def El.rounds (e : El) : Bool := match e.res with
  | .code _ _ => false
  | _ => true

/-- A value under a block scale. -/
def underScale (sc : Nat) (v : Num) : Num := v.mul (Num.dy false 1 (127 - (sc : Int)))

/-- An element of a block-scaled destination of format df as its block's scale makes it. -/
def El.scaled (e : El) (df sc : Nat) : El := match e.res with
  | .code c (some k) => if k = sc then e else
      { e with res := .exact (if k = 255 then .nan else underScale sc ((decode df c).mul (Num.dy false 1 ((k : Int) - 127)))) }
  | .code _ none => e
  | .num v => { e with res := .exact (underScale sc (r32 v)) }
  | .exact v => { e with res := .exact (underScale sc v) }

/-- The elements of the block of 32 that element i lies in (R28). -/
def blockOf (ext : List Nat) (i : Nat) : List Nat :=
  let n := Nat.max (ext.getLastD 1) 1
  let b := i % n / 32 * 32
  (List.range (Nat.min 32 (n - b))).map (i / n * n + b + ·)

/-- The number of that block. -/
def blockNo (ext : List Nat) (i : Nat) : Nat := let n := Nat.max (ext.getLastD 1) 1; i / n * cdiv n 32 + i % n / 32

/-- The scale that an element brings from its source's block. -/
def El.scale (e : El) : Option Nat := match e.res with
  | .code _ k => k
  | _ => none

/-- The scale of a destination block: that of its elements when they all move from blocks of one scale; else a free one (DESIGN CHOICE, log 28). -/
def blockScale (els : List El) (free : Nat) : Nat :=
  match els.findSome? El.scale with
  | some k => if els.any El.rounds ∨ (els.filterMap El.scale).any (· != k) then free else k
  | none => free

/-! ### The elements of a tile (R115 to R133, R188) -/

/-- What a tile computes from: its operator; its destination's format and extents; its sources' contents; the index that a position of an index tensor
names; the codes of a product's operands as the array multiplies them; rounding mode and SAT. -/
structure TileIn where
  ins : Instr
  rec_ : LRec
  low : List Int
  fmt : Nat
  mx : Bool
  ext : List Nat
  src : Nat → Arg
  n : Nat
  idx : Nat → Option Nat
  conv : Nat → Nat → Nat
  mode : Nat
  sat : Bool
  part : Bool
  epi : Bool

/-- The extents of the sources. -/
def TileIn.exts (t : TileIn) : List (List Nat) := (List.range t.n).map fun k => (t.src k).ext

/-- A moved element, or padding. -/
def TileIn.move (t : TileIn) (fill i : Nat) : El := match moveFrom t.ins t.rec_ t.low t.ext t.exts t.idx i with
  | some (k, j) => moveEl t.fmt t.mx (t.src k) j
  | none => El.of (.code fill none)

/-- An element of a product: of its partial product, of the epilogue on the reduced sum (R188), or of both in one. -/
def TileIn.prod (t : TileIn) (i : Nat) : El :=
  let p := prodTerms t.ins t.rec_ t.ext t.exts i
  let code := fun (k : Nat) (o : Option Nat) => match o with
    | some j => t.conv k j
    | none => 0
  let a := p.1.map (code 0 ·.1)
  let b := p.1.map (code 1 ·.2)
  let m := prodMode (t.src 0).fmt (t.src 1).fmt
  let fn := t.rec_.word 0x100 0
  let col := i % Nat.max (t.ext.getLastD 1) 1
  let vec := fun (k : Nat) => (t.src k).codes.getD col 0
  let bias := if bitN fn 4 then some (vec 2) else none
  let scale := if bitN fn 5 then some (vec (if bitN fn 4 then 3 else 2)) else none
  if t.part then partEl m a b
  else if t.epi then
    let v := t.src 0
    let e := v.codes.getD i 0
    epiRes (fn % 16) (v.fmt != 0) t.fmt scale bias (if v.fmt = 0 then e else bitsZ (sext e 32) 48)
  else prodEl m (fn % 16) t.fmt scale bias a b

/-- Element i of the operator's destination, or of its second one (R115 to R133). PADV, EPI, FN and OOB count as 0 in a record that carries none, for
which R91 gives no default (DESIGN CHOICE, log 31). -/
def TileIn.el (t : TileIn) (second : Bool) (i : Nat) : El :=
  let fn := t.rec_.word 0x100 0
  let fn1 := t.rec_.word 0x101 0
  let as_ := (List.range t.n).map t.src
  match t.ins with
  | .lPad _ _ => t.move (fn % 2 ^ fmtBits t.fmt) i
  | .lMatmul _ _ => t.prod i
  | .lConv _ _ => t.prod i
  | .lEwu _ _ => ewEl 1 fn t.mode t.sat t.fmt t.mx t.ext as_ i
  | .lEwb _ _ => ewEl 2 fn t.mode t.sat t.fmt t.mx t.ext as_ i
  | .lEwt _ _ => ewEl 3 fn t.mode t.sat t.fmt t.mx t.ext as_ i
  | .lReduce _ _ => reduceEl fn fn1 t.sat t.ext (t.src 0) i
  | .lSoftmax _ _ => softmaxEl t.sat (t.src 0) i
  | .lNorm _ _ => normEl (fn == 1) (t.rec_.word 0x101 0x3727C5AC) t.mode t.fmt t.sat (t.src 0) (t.src 1) (if 2 < t.n then some (t.src 2) else none) i
  | .lRope _ _ => ropeEl fn t.mode t.fmt t.sat (t.src 0) (t.src 1) (t.src 2) i
  | .lAttn _ _ => attnEl fn (bitN fn1 0) t.ext (t.src 0) (t.src 1) (t.src 2) i
  | .lScatter _ _ =>
    let ix := levelIdx t.ext i
    let e := (t.src 2).ext
    let us := (List.range (e.getD (axisOf t.rec_) 0)).filter fun u => t.idx u == some (ix.getD (axisOf t.rec_) 0)
    scatterEl (fn1 % 2) t.fmt t.mx t.mode t.sat (t.src 0) (t.src 2) i (us.map fun u => linOf e (setAt ix (axisOf t.rec_) u))
  | .lTopk _ _ => sortEl (fn % 2 == 0) second (t.ext.getLastD 0) t.fmt t.mx (t.src 0) i
  | .lSort _ _ => sortEl (fn % 2 == 1) second (t.ext.getLastD 0) t.fmt t.mx (t.src 0) i
  | .lCumsum _ _ => cumsumEl fn1 (axisOf t.rec_) t.mode t.fmt t.sat (t.src 0) i
  | _ => t.move 0 i

/-! ### Conversion of a product's sources (R120, R472) -/

/-- The copies in which a tile brings its product's sources to the core, each with its source and that source's elements in order: every chunk of the
array's depth brings its block of A, then its block of B; `conv` brings its input first, whole (R122; their order is a DESIGN CHOICE, log 9). -/
def prodCopies (ins : Instr) (r : LRec) (dext : List Nat) (exts : List (List Nat)) (es : List Nat) : List (Nat × List Nat) :=
  let n := Nat.max (dext.getLastD 1) 1
  let i0 := es.headD 0
  let tm := fun (i : Nat) => (prodTerms ins r dext exts i).1
  let rows := (es.filter fun i => i % n == i0 % n).map tm
  let cols := (es.filter fun i => i / n == i0 / n).map tm
  let len := (rows.headD []).length
  let chunks := List.range (cdiv len 512)
  let ks := fun (c : Nat) => (List.range (Nat.min 512 (len - 512 * c))).map (512 * c + ·)
  let a := fun (c : Nat) => rows.flatMap fun l => (ks c).filterMap fun k => (l.getD k (none, none)).1
  let b := fun (c : Nat) => (ks c).flatMap fun k => cols.filterMap fun l => (l.getD k (none, none)).2
  match ins with
  | .lMatmul _ _ => chunks.flatMap fun c => [(0, a c), (1, b c)]
  | _ =>
    let all := chunks.flatMap a
    (0, (List.range (prodN (exts.getD 0 []))).filter all.contains) :: chunks.map fun c => (1, b c)

/-- Conversions of a product's sources to BF16: the slice with its generators, the codes by 2 · element + source, and the saturations. -/
structure Conv where
  sl : Slice
  codes : AMap Nat
  sat : Nat

/-- One copy of a product's source by the copy unit whose lanes begin at `base`: each element that is not BF16 converts under R34. -/
def Conv.copy (src : Nat → Arg) (mode : Nat) (sat : Bool) (base : Nat) (q : Conv) (p : Nat × List Nat) : Conv :=
  let a := src p.1
  ((List.range p.2.length).zip p.2).foldl (fun (q : Conv) (e : Nat × Nat) =>
    if a.fmt = 1 ∧ a.mx = false then { q with codes := q.codes.upd (2 * e.2 + p.1) (a.codes.getD e.2 0) }
    else
      let g := q.sl.addend mode (base + e.1 % 64)
      let v := roundTo 1 mode g.1 sat (a.num e.2)
      ⟨g.2, q.codes.upd (2 * e.2 + p.1) v.1, q.sat + if v.2 then 1 else 0⟩) q

/-! ### A tile (R109 to R111) -/

/-- What a tile's elements come to: the slice with its generators, codes by element, and the counted events OVF, NAN, SAT, TERN. -/
structure Done where
  sl : Slice
  codes : AMap Nat
  cnt : List Nat

/-- Adds counted events. -/
def addCnts (a b : List Nat) : List Nat := List.zipWith (· + ·) a b

/-- Rounds a tile's elements in ascending order, element i on lane `lane i j` as the tile's j-th. -/
def finTile (df mode : Nat) (sat : Bool) (lane : Nat → Nat → Nat) (x : Slice) (l : List (Nat × El)) : Done :=
  ((List.range l.length).zip l).foldl (fun (q : Done) (p : Nat × Nat × El) =>
    let e := p.2.2
    let g := if e.rounds then q.sl.addend mode (lane p.2.1 p.1) else (0, q.sl)
    let v := e.fin df mode sat g.1
    ⟨g.2, q.codes.upd p.2.1 v.1, addCnts q.cnt [e.ovf, e.nan, v.2, e.trn]⟩) ⟨x, [], [0, 0, 0, 0]⟩

/-- A trap that a tile takes: code and detail. -/
abbrev OpTrap := Nat × W64

/-- Whether an operator's source 1 is an index tensor (R132). -/
def usesIdx : Instr → Bool
  | .lGather _ _ => true
  | .lScatter _ _ => true
  | _ => false

/-- Whether an operator's tiles multiply: those of a product, its epilogue on a reduced sum apart. -/
def LOp.multiplies (o : LOp) : Bool := match o.ins with
  | .lMatmul _ _ => !o.epi
  | .lConv _ _ => !o.epi
  | _ => false

/-- Whether an operator accepts ROUND and SAT (R57, R90): `load`, `store`, `cast`, `cumsum`, and 0x30 to 0x39. -/
def takesRound (opc : Nat) : Bool := [0x23, 0x24, 0x26, 0x3F].contains opc || (0x30 ≤ opc && opc < 0x3A)

/-- Positions of an index tensor a with an index that OOB does not admit: the first traps (R132). -/
def badIdx (oob n : Nat) (a : Arg) (ps : List Nat) : Option OpTrap :=
  (ps.find? fun p => (oobIdx oob n (a.int p)).isNone).map fun p => (0x54, BitVec.ofNat 64 (bitsZ (a.int p) 32 + p * 2 ^ 32))

/-- The source elements of kind k that a tile with destination elements `es` reads: what has been computed before is not read again. -/
def LOp.reads (o : LOp) (sp : TSpec) (low : List Int) (idx : Nat → Option Nat) (es : List Nat) (k : Nat) : List Nat :=
  if (o.epi ∧ k = 1) ∨ (o.parts = true ∧ 2 ≤ k) then []
  else es.flatMap (needsOf o.ins (lrecOf o.ins).2 low (o.tileDst sp).2 (o.srcExts sp) idx k)

/-- Bytes that a tile's elements and their scales occupy in a destination. -/
def TRef.tileBytes (d : TRef) (es : List Nat) : Nat :=
  cdiv (es.length * fmtBits d.fmt) 8 + (if d.mx then (nubN (es.map (blockNo d.ext))).length else 0)

/-- Bytes that a tile has written are credited to its destination's handle, which stays FILLING until the operator ends (R101). -/
def State.tileCredit (s : State) (cl ctx : Nat) (d : TRef) (n : Nat) : State :=
  match d.hnd with
  | none => s
  | some h =>
    let e := s.handle cl ctx h
    if e.st = 1 ∧ e.alloc = d.alloc then s.setHandle cl ctx h { e with cnt := Nat.min (e.cnt + n) (e.tgt - 1) } else s

/-- The slice's generators and the core's counters after rounding. -/
def State.rounded (s : State) (c : Nat) (x : Slice) (cnt : List Nat) : State :=
  s.updCore c fun k =>
    { k.counted (cnt.getD 0 0) (cnt.getD 1 0) (cnt.getD 2 0) (cnt.getD 3 0) with sl := { k.sl with gens := x.gens } }

/-- Rounds and writes a tile's elements of one destination. -/
def putTile (o : LOp) (c : Nat) (t : TileIn) (second : Bool) (d : TRef) (es : List Nat) : EngM Unit := do
  let k := (← get).core c
  let blk := fun (i : Nat) =>
    blockScale ((blockOf d.ext i).map (t.el second)) (Config.freeNat (o.free + blockNo d.ext i) % 256)
  let el := fun (i : Nat) => if d.mx then (t.el second i).scaled d.fmt (blk i) else t.el second i
  let p := o.plan
  let q := finTile d.fmt t.mode t.sat (fun i j => k.laneBase p.agent + p.lane i j) k.sl (es.map fun i => (i, el i))
  let at_ := fun (f : Nat → Nat) => (List.range d.count).map fun i => if es.contains i then some (f i) else none
  let _ ← d.put o.cluster o.ctx (at_ fun i => AMap.get 0 q.codes i)
  if d.mx then
    let _ ← d.putScales o.cluster o.ctx (at_ blk)
  modify fun s => (s.rounded c q.sl q.cnt).tileCredit o.cluster o.ctx d (d.tileBytes es)

/-- The elements of a source: what inserted operators have made of it (R187), else the operand's at the elements asked for. -/
def LOp.source (o : LOp) (sp : TSpec) (k : Nat) (ks : List Nat) : EngM Arg :=
  match o.vals.find k with
  | some a => pure a
  | none => match sp.srcs[k]? with
    | some p => p.2.readAt o.cluster o.ctx ks.contains
    | none => pure .zero

/-- The work of tile `tile` of operator `id` on core c, with the rounding of the core's slice (R30, R91): INDEX_RANGE comes before every effect. -/
def tileWork (id : Nat) (o : LOp) (c tile : Nat) : EngM (Option OpTrap) := do
  let r := (lrecOf o.ins).2
  let sp := tspec o.ins r o.args
  let k := (← get).core c
  let own := takesRound (lrecOf o.ins).1
  let mode := k.sl.mode (if own then r.round else 6)
  let sat := k.sl.sat (if own then r.satw else 2)
  let dst := o.tileDst sp
  let d := o.outs.headD .zero
  let es := o.plan.elems (prodN dst.2) tile
  let all := if d.mx ∧ o.parts = false then nubN (es.flatMap (blockOf dst.2)) else es
  let low := (List.range dst.2.length).map fun j => (o.args.getD (2 + j) (.i64 0)).int
  let exts := o.srcExts sp
  let ia ← if usesIdx o.ins then o.source sp 1 (o.reads sp low (fun _ => none) all 1) else pure .zero
  let oob := r.word 0x102 0 % 4
  let n := (match o.ins with
    | .lGather _ _ => exts.getD 0 []
    | _ => dst.2).getD (axisOf r) 0
  match if usesIdx o.ins then badIdx oob n ia (nubN (o.reads sp low (fun _ => none) es 1)) else none with
  | some tr => pure (some tr)
  | none =>
    let idx := fun (p : Nat) => (oobIdx oob n (ia.int p)).getD none
    let as_ ← collectE (fun j => o.source sp j (o.reads sp low idx all j)) (List.range sp.srcs.length)
    let src := fun (j : Nat) => as_.getD j .zero
    let q : Conv := if o.multiplies ∧ prodModeOf sp = 0 then (prodCopies o.ins r dst.2 exts es).foldl (Conv.copy src mode sat (k.laneBase 0)) ⟨k.sl, [], 0⟩ else ⟨k.sl, [], 0⟩
    let trn := if o.multiplies then sumN ((nubN (o.reads sp low idx es 1)).map (src 1).trn) else 0
    modify fun s => s.rounded c q.sl [0, 0, q.sat, trn]
    let t : TileIn :=
      { ins := o.ins, rec_ := r, low := low, fmt := d.fmt, mx := d.mx, ext := dst.2, src := src, n := as_.length, idx := idx,
        conv := fun j i => (q.codes.find (2 * i + j)).getD ((src j).codes.getD i 0), mode := mode, sat := sat, part := o.parts, epi := o.epi }
    if o.parts then
      let p := finTile (if prodModeOf sp = 0 then 0 else 7) 0 false (fun _ _ => 0) q.sl (es.map fun i => (i, t.el false i))
      modify fun s => (s.rounded c q.sl p.cnt).updLop id fun l => { l with sums := p.codes.foldl (fun m e => m.upd e.1 e.2) l.sums }
      pure none
    else do
      eachE (fun (p : Nat × TRef) => putTile o c (if p.1 = 0 then t else { t with fmt := p.2.fmt, mx := p.2.mx }) (p.1 != 0) p.2 es)
        ((List.range o.outs.length).zip o.outs)
      pure none

/-! ### Phases of an operator (R65, R187, R188) -/

/-- A destination's handle is FULL after the operator's writes (R101). -/
def State.fillDone (s : State) (cl ctx : Nat) (d : TRef) : State :=
  match d.hnd with
  | none => s
  | some h =>
    let e := s.handle cl ctx h
    if e.st = 1 ∧ e.alloc = d.alloc then s.setHandle cl ctx h ({ e with cnt := e.tgt }.settle s.ccyc) else s

/-- An operator in flight has completed. -/
def State.endLop (s : State) (id : Nat) (o : LOp) : State :=
  let s := o.outs.foldl (fun s d => s.fillDone o.cluster o.ctx d) s
  { s with lops := s.lops.erase id }

/-- A slice of a tensor along an axis. -/
def Arg.slice (a : Arg) (ax off n : Nat) : Arg :=
  let e := setAt a.ext ax n
  let at_ := fun (ix : List Nat) => linOf a.ext (setAt ix ax (ix.getD ax 0 + off))
  { a with ext := e, codes := (indices e).map fun ix => a.codes.getD (at_ ix) 0,
           scales := if a.mx then (indices e).map fun ix => a.scales.getD (at_ ix) 0 else [] }

/-- The blocks that an operator's inserted steps cut at once from what they have gathered, on instance i of a launch with the given levels (R187). -/
def LOp.cut (lev : List Nat) (i : Nat) (o : LOp) : List (Nat × LStep) → LOp
  | (k, .blk l ax) :: r =>
    let v := (o.vals.find k).getD .zero
    let ix := levelIdx lev i
    let e := v.ext.getD ax 0
    LOp.cut lev i { o with vals := o.vals.upd k (v.slice ax (blockOff lev ix e l) (blockExt lev ix e l)) } r
  | l => { o with steps := l }

/-- The next phase of an operator once the first of its inserted steps is over: the next collective, or its tiles (R187). -/
def LOp.next (lev : List Nat) (i : Nat) (o : LOp) : LOp :=
  let p := o.cut lev i (o.steps.drop 1)
  match p.steps, p.later with
  | [], _ => p.opened
  | (_, .part) :: _, _ => p.opened
  | _, q :: l => { p with later := l }.atColl q
  | _, [] => p.opened

/-- The extents of the levels of an operator's launch, and its instance's number. -/
def State.lopLev (s : State) (o : LOp) : List Nat × Nat := match s.insts.find o.inst with
  | some x => (s.levExt x, x.idx)
  | none => ([], 0)

/-- A partial product is complete: its sums are the value that the collective after it reduces (R188). -/
def LOp.summed (o : LOp) : LOp :=
  let sp := tspec o.ins (lrecOf o.ins).2 o.args
  let e := (o.tileDst sp).2
  { o with vals := o.vals.upd 0 ⟨if prodModeOf sp = 0 then 0 else 7, false, e, (List.range (prodN e)).map (AMap.get 0 o.sums), []⟩,
           sums := [], epi := true }

/-- The handle and the core of an operator's trap outside every routine (R392, kind P): the tile waits for its release. Inside a stage walk the walk's
slice stops. -/
def State.lopTrap (s : State) (id : Nat) (o : LOp) (code : Nat) (d : W64) (hnd tile : Nat) : State :=
  let core := match o.tiles.find? fun p => p.1 == tile with
    | some p => p.2.1
    | none => o.crew.headD (16 * o.cluster)
  let s := s.trapRec o.ctx code o.func o.off tile hnd (s.genOf o.cluster o.ctx hnd) core 0 1 0 d 0 0
  let s := s.updLop id fun p => { p with fault := some (code, d) }
  match (s.walks.find o.walk).bind fun k => k.stage.map fun _ => k.core with
  | some c => s.updCore c fun k => { k with stop := .held }
  | none => s.holdRec o.ctx core { Run.zero with ctx := o.ctx, inst := o.inst } 0 id

/-- The first destination's handle, or 0xFFFF. -/
def LOp.dstH (o : LOp) : Nat := match o.outs.head? with
  | some d => d.hnd.getD 0xFFFF
  | none => 0xFFFF

/-- Whether an operator's work may run: its instance lives, its context is resident, and in a stage walk the slice is on its core. -/
def State.lopRuns (s : State) (o : LOp) : Bool :=
  o.fault.isNone
    && (match s.insts.find o.inst, s.ctx? o.ctx with
      | some i, some x => !i.killed && x.state == 1
      | _, _ => false)
    && (match s.walks.find o.walk with
      | some k => match k.stage with
        | some _ => s.walkHere o.walk k
        | none => true
      | none => true)

/-! ### Completion (R65) -/

/-- Whether every tile of an operator has ended, with the engine operations that they issued (R65, R134). -/
def State.tilesEnded (s : State) (id : Nat) (o : LOp) : Bool :=
  o.tiles == [] && o.live == 0 && !(s.eops.any fun e => e.lop == id && !e.ended)
    && !(s.cores.any fun p => p.2.sl.mx.ops.any fun m => m.lop == id)
    && !(s.recs.any fun r => (r.ops.any fun e => e.lop == id) || (r.sl.any fun x => x.mx.ops.any fun m => m.lop == id))

/-- Whether `OPERATOR_COMPLETE` is due. -/
def State.lopDue (s : State) (id : Nat) (o : LOp) : Bool :=
  match o.kind with
  | 0 => o.fuse != 1 && s.lopRuns o && s.tilesEnded id o
  | 1 => o.fuse != 1 && s.tilesEnded id o
  | 2 => false
  | 5 => false
  | _ => s.lopReady o || (s.lopStale o).isSome

/-- `OPERATOR_COMPLETE` (R65): a built-in operator's tiles have ended, or it goes on with its collectives (R188); a `uop`'s outputs are FULL (R134); a
token is complete; a `fence` of the K flag ends with the constant caches invalid (R135); a `free` whose handle has become FULL drains it (R101). -/
def execEOpComplete (op : Nat) (s : State) : Host.Outcome State Fault Refusal :=
  match s.lops.find op with
  | none => .next s
  | some o =>
    if s.lopDue op o then
      match o.kind with
      | 0 => if o.parts then .next (s.updLop op fun p => let q := s.lopLev o; p.summed.next q.1 q.2) else .next (s.endLop op o)
      | 4 => match o.waits with
        | (h, a, _) :: _ =>
          if (s.lopStale o).isSome then .next { s with lops := s.lops.erase op }
          else .next ((s.drainH o.cluster o.ctx h op).updLop op fun p => { p with kind := 3, waits := [(h, a, 0)] })
        | [] => .next { s with lops := s.lops.erase op }
      | _ => .next ((s.fenceK o).endLop op o)
    else .next s

end Sys2Proof.Machine
end

