-- ==== Sys2Proof/Machine/Uop.lean ====
section
/-! DEFINITION. `uop`; operator records and run-time descriptors; the shadow bank, operator swap, tiles that pass to another core and fusing groups
(spec/04 R108 to R110, R134, R138). -/
namespace Sys2Proof.Machine

/-- The arguments of a `uop` with their operand numbers: at most 12 operands after the tile count. -/
def uopArgs (args : List Val) : List (Nat × Val) := (((List.range args.length).zip args).drop 1).take 12

/-- The tensors among arguments that OUTS selects, or does not select. -/
def uopTens (outs : Nat) (sel : Bool) (as_ : List (Nat × Val)) : List (Nat × TRef) :=
  as_.filterMap fun p => match p.2 with
    | .ten t => if bitN outs (p.1 - 1) == sel then some (p.1, t) else none
    | _ => none

/-- `uop` (R134): tiles pass to the crew's cores in turn; each output is FILLING until all tiles and their engine operations have
ended. -/
def execLUop (w : Nat) (r : LRec) (s : State) : Host.Outcome State Fault Refusal :=
  runSeq w r (fun c => do
    let args := (c.vals r).map (Val.atDispatch (← get) c)
    let outs := r.word 0x101 0
    let as_ := uopArgs args
    let ds := uopTens outs true as_
    let ss := uopTens outs false as_
    eachQ (fun p => destReady c p.2) ds
    useCheck (tensIdx args)
    let n := (args.headD (.i64 0)).int
    if n < 0 then trapQ 0x52 0 0xFFFF
    let s ← get
    let dh := ds.filterMap fun p => p.2.hnd
    let wt := srcWaits s (ss.map (·.2))
    let id ← newLop c r (.lUop w r) 1 args (ds.map (·.2)) wt.1 (wt.2.filter fun p => !dh.contains p.1)
    let crew := s.crewOf c
    let m := Nat.max crew.length 1
    modify fun s => s.updLop id fun o =>
      { o with ntile := n.toNat, csize := crew.length, rtn := r.word 0x100 0 % 4096, crew := crew,
               tiles := (List.range n.toNat).map fun t => (t, crew.getD (t % m) 0, t % m) }
    let s ← get
    let res := ds.map fun p => resultOf s c p.2 id
    destsFill c (ds.map (·.2)) fun _ => 2 ^ 64
    joinFuse c r id
    doneT c (ds.map (·.1)) (res.map .ten ++ [.tok id])) s

/-! ### Run-time descriptors (R134) -/

/-- Word 0 of a descriptor, in the form that a core uses directly: the base of a CREW region, else the tensor's first byte. -/
def TRef.word0 (t : TRef) (core : Nat) : Nat :=
  let b := bitsZ ((t.base.toNat : Int) + if t.crew = [] then t.first else 0) 64
  if t.crew ≠ [] then 2 ^ 62 + t.crew.headD 0 * 2 ^ 21 + b % 2 ^ 21
  else if b / 2 ^ 62 = 1 ∧ b / 2 ^ 21 % 16 = core % 16 then b % 2 ^ 21
  else b

/-- A descriptor's 24 words. -/
def TRef.desc (t : TRef) (core gen : Nat) : List Nat :=
  let w0 := t.word0 core
  let b := fun (p : Bool) (i : Nat) => if p then 2 ^ i else 0
  let ext := (List.range 9).map fun d => t.ext.getD d 0
  let str := (List.range 8).map fun d => bitsZ (t.str.getD d 0) 64
  [w0, b t.mx 44 + t.lay * 2 ^ 40 + t.ext.length * 2 ^ 36 + t.fmt * 2 ^ 32 + gen % 65536 * 65536 + t.hnd.getD 0xFFFF] ++ ext ++ str
    ++ [if t.mx then
          bitsZ ((w0 : Int) - (if t.crew = [] then t.first else 0) + t.scaleSide.byteAt t.offs.dropLast (t.offs.getLastD 0 / 32)) 64 else 0,
        t.crew.foldl (fun m i => Nat.lor m (2 ^ i)) 0, if t.crew = [] then 0 else bitsZ ((t.voff : Int) + t.first) 64, 0, 0]

/-- The private address of argument k's descriptor: two areas in the transient reserve that successive tiles alternate. -/
def descAt (cnt k : Nat) : Nat := (320 + cnt % 2) * 4096 + 192 * k

/-- The record of a tile (R108): the arguments of a `uop`; the words of a built-in routine's own convention are free, from number `free` on. -/
def tileWords (o : LOp) (t cpos cnt free : Nat) (item : W64) : List W64 :=
  let dst := o.outs.head?
  let ws : List Nat :=
    [o.func % 65536 * 2 ^ 48 + o.off % 2 ^ 32 * 65536 + o.rtn, o.ntile % 2 ^ 32 * 2 ^ 32 + t,
     cpos * 2 ^ 48 + o.csize * 2 ^ 32 + (match dst with
       | some d => d.gen
       | none => 0) * 65536 + o.dstH, item.toNat]
  let as_ := if o.kind = 0 then (List.range 12).map fun k => (Config.freeWord (free + k)).toNat
    else (uopArgs o.args).map fun p => match p.2 with
      | .i64 v => v.toNat
      | .tok _ => 0
      | .ten _ => descAt cnt (p.1 - 1)
  ((ws ++ as_ ++ List.replicate 12 0).take 16).map (BitVec.ofNat 64)

/-- Writes the descriptors of the tensor arguments of a `uop`'s tile on a core. -/
def State.putDescs (s : State) (c cnt : Nat) (o : LOp) : State :=
  if o.kind = 0 then s else (uopArgs o.args).foldl (fun s p => match p.2 with
    | .ten t => s.wrBytes (padKey c (descAt cnt (p.1 - 1))) (wordsBytes (t.desc c t.gen))
    | _ => s) s

/-! ### The shadow bank (R109) -/

/-- Whether a slice that runs on core c runs tiles of an operator: its instance, and its walk inside a stage. -/
def State.runsOp (s : State) (c : Nat) (o : LOp) : Bool :=
  match (s.core c).run with
  | none => false
  | some r => r.inst == o.inst && (match s.walks.find o.walk with
    | some k => match k.stage with
      | some _ => (s.sl c).walk.any fun h => h.walk == o.walk
      | none => (s.sl c).walk.isNone
    | none => false)

/-- Whether a core takes a new tile: a slice runs there, not yet stopped. -/
def Core.takes (k : Core) : Bool := k.run.isSome && k.sl.id != 0 && (match k.stop with
  | .none => true
  | .preempt _ => !k.stopped
  | _ => false)

/-- The object that binds a routine index, with its entry (R412). -/
def State.rtEntry (s : State) (rtn : Nat) : Option (Nat × Obj × RtEnt) :=
  match s.objs.find? fun p => p.2.rtab.any fun e => e.idx == rtn with
  | some (n, b) => (b.rtab.find? fun e => e.idx == rtn).map fun e => (n, b, e)
  | none => none

/-- The chunks that a routine lies in. -/
def RtEnt.chunks (e : RtEnt) : List Nat :=
  (List.range ((e.entry + e.len - 1) / 4096 + 1)).filter fun k => e.entry / 4096 ≤ k

/-- The chunks of a routine that a cluster's routine store lacks; the routine may run when there are none (R418). -/
def State.lacking (s : State) (cl rtn : Nat) : List (Nat × Nat) := match s.rtEntry rtn with
  | some (n, _, e) => (e.chunks.map fun k => (n, k)).filter fun p => !(s.cluster cl).store.contains p
  | none => []

/-- Whether a routine's object is loaded and not fenced. -/
def State.rtOpen (s : State) (rtn : Nat) : Bool := match s.rtEntry rtn with
  | some (_, b, _) => !b.fenced
  | none => false

/-- Whether a tile's turn has come: tile t of a fused group's members waits for the tiles before t, and for those of the members before it, to have
ended with the engine operations of user routines (R138); no tile starts before its group is decided. -/
def State.tileTurn (s : State) (id tile : Nat) (o : LOp) : Bool :=
  match o.fuse with
  | 0 => true
  | 1 => false
  | _ => (s.group_ o).all fun p =>
    p.2.live == 0 && s.tilesEnded p.1 { p.2 with tiles := [] } && !(p.2.tiles.any fun t => t.1 < tile || (t.1 == tile && p.1 < id))

/-- Whether an operator's routine may run on a cluster: a built-in one, or a user routine whose chunks its routine store holds (R418). -/
def State.rtReady (s : State) (cl rtn : Nat) : Bool := rtn < 1024 || (s.rtOpen rtn && s.lacking cl rtn == [])

/-- Whether `SHADOW_RECORD_WRITE` is due: an EMPTY bank, and the lowest tile of operator `id` assigned to the core, whose waits are over (R109,
R110). -/
def State.shadowDue (s : State) (c id tile : Nat) (o : LOp) : Bool :=
  (s.core c).takes && (s.sl c).shadow.isNone && decide (o.kind ≤ 1) && o.fault.isNone && s.runsOp c o
    && ((o.tiles.find? fun p => p.2.1 == c).any fun p => p.1 == tile) && s.tileReady o && s.tileTurn id tile o && s.rtReady o.cluster o.rtn
    && (match s.insts.find o.inst, s.ctx? o.ctx with
      | some i, some x => !i.killed && x.state == 1
      | _, _ => false)

/-- The object and the first bundle's address of a user routine's index in the chip's binding (R412, R413). -/
def State.routine (s : State) (rtn : Nat) : Nat × Nat := match s.rtEntry rtn with
  | some (n, b, e) => (n, b.textVA + e.entry)
  | none => (0, 0)

/-- The record of a tile with the place of its routine's first bundle: a built-in routine stands at a free address. -/
def State.tileRec (s : State) (id tile cpos cnt : Nat) (item : W64) (o : LOp) : OpRec :=
  let ws := tileWords o tile cpos cnt s.fresh item
  if o.rtn < 1024 then ⟨ws, id, 0, (Config.freeWord (s.fresh + 12)).setWidth 52 |>.setWidth 64⟩
  else let p := s.routine o.rtn; ⟨ws, id, p.1, BitVec.ofNat 64 p.2⟩

/-- `SHADOW_RECORD_WRITE` (R109, R134): a tile that names a dead handle raises HANDLE_STALE instead (R113). -/
def execEShadowWrite (c op tile : Nat) (s : State) : Host.Outcome State Fault Refusal :=
  match s.lops.find op with
  | none => .next s
  | some o =>
    if s.shadowDue c op tile o then
      match s.lopStale o with
      | some h =>
        let g := (tensorsOf o.args).foldl (fun g t => if t.hnd = some h then t.gen else g) 0
        .next { (s.lopTrap op o 0x21 (BitVec.ofNat 64 (g % 65536)) h tile) with fresh := s.fresh + 1 }
      | none =>
        let x := s.sl c
        let cpos := match o.tiles.find? fun p => p.1 == tile with
          | some p => p.2.2
          | none => 0
        let t := { (s.putDescs c x.tileCnt o) with fresh := s.fresh + 13 }
        let t := t.updSl c fun y => { y with shadow := some (s.tileRec op tile cpos x.tileCnt x.item o), tileCnt := y.tileCnt + 1 }
        .next (t.updLop op fun o => { o with tiles := o.tiles.filter fun p => p.1 != tile, live := o.live + 1 })
    else .next s

/-- Whether a loaded bank swaps in: no routine runs, and the slice has not stopped. -/
def State.swapDue (s : State) (c : Nat) : Bool :=
  (s.core c).takes && (s.sl c).shadow.isSome && (s.sl c).orec.isNone

/-- Whether a tile is of a built-in operator: its routine is Mladac's (R108). -/
def OpRec.builtin (r : OpRec) : Bool := r.lop != 0 && decide ((r.words.headD 0).toNat % 4096 < 1024)

/-- `OPERATOR_SWAP` (R109): words 0 to 15 go to s40 to s55; the first bundle issues within 12 cycles, a free number of them (DESIGN CHOICE, log 6). A
built-in tile lasts a free number of cycles. -/
def execEOpSwap (c : Nat) (s : State) : Host.Outcome State Fault Refusal :=
  match (s.sl c).shadow with
  | none => .next s
  | some r =>
    if s.swapDue c then
      let (d, t) := s.drawNat 12
      let d := if r.builtin then d + Config.freeNat (s.fresh + 1) else d
      let t := { t with fresh := s.fresh + 2 }
      .next (t.updCore c fun k =>
        { k with extra := k.extra + d,
                 sl := { k.sl with orec := some r, shadow := none, pc := r.entry,
                                   sreg := ((List.range 16).zip r.words).foldl (fun m p => AMap.put 0 m (40 + p.1) p.2) k.sl.sreg } })
    else .next s

/-! ### Tiles that pass to another core (R110) -/

/-- Where a tile outside stage walks passes to: the slice of its instance on its core has ended, and the crew then in force gives it another core or
another position. -/
def State.passTo (s : State) (o : LOp) (crew : List Nat) (t : Nat × Nat × Nat) : Option (Nat × Nat × Nat) :=
  let p := t.2.2 % crew.length
  let q := (t.1, crew.getD p 0, p)
  if crew = [] ∨ q = t ∨ (s.core t.2.1).run.any (fun r => r.inst == o.inst) = true then none else some q

/-- An operator with its tiles passed on. -/
def State.passLop (s : State) (o : LOp) : LOp :=
  match (s.walks.find o.walk).bind (·.stage), s.insts.find o.inst with
  | none, some i =>
    let crew := s.instCrew o.inst i
    { o with tiles := o.tiles.map fun t => (s.passTo o crew t).getD t }
  | _, _ => o

/-- The tiles that are to pass to another core, of the first operator that has some. -/
def State.passStep (s : State) : Option State :=
  s.lops.findSome? fun p => let o := s.passLop p.2; if o.tiles = p.2.tiles then none else some (s.updLop p.1 fun _ => o)

/-! ### Fusing groups (R138) -/

/-- Where the bytes of a tensor's element lie, its block's scale among them. -/
def TRef.elemAt (t : TRef) (i : Nat) : List (Nat × Int) :=
  let ix := t.memIx (levelIdx t.ext i)
  let w := fmtBits t.fmt
  let e := ix.getLastD 0
  ((List.range (cdiv (w * (e + 1)) 8 - w * e / 8)).map fun b => t.place (t.side.byteAt ix.dropLast (w * e / 8 + b)))
    ++ (if t.mx then [t.place (t.scaleSide.byteAt ix.dropLast (e / 32))] else [])

/-- The elements of source k that tile t of an operator can read: of a gathered source every one. -/
def LOp.mayRead (o : LOp) (t k : Nat) : List Nat :=
  let sp := tspec o.ins (lrecOf o.ins).2 o.args
  let dst := (o.tileDst sp).2
  match o.ins, k with
  | .lGather _ _, 0 => List.range (prodN ((o.srcExts sp).getD 0 []))
  | _, _ =>
    let low := (List.range dst.length).map fun j => (o.args.getD (2 + j) (.i64 0)).int
    o.reads sp low (fun _ => none) (o.plan.elems (prodN dst) t) k

/-- The tensors that an operator in flight reads. -/
def LOp.sources (o : LOp) : List TRef :=
  if o.kind = 1 then (uopTens ((lrecOf o.ins).2.word 0x101 0) false (uopArgs o.args)).map (·.2)
  else (tspec o.ins (lrecOf o.ins).2 o.args).srcs.map (·.2)

/-- Whether every tile t of a reads of destination d of b only bytes that tiles 0 to t of b write. -/
def tilesFollow (a b : LOp) (d src : TRef) (k : Nat) : Bool :=
  (List.range a.ntile).all fun t =>
    let after := ((List.range d.count).filter fun i => decide (t < b.plan.tile i)).flatMap d.elemAt
    (a.mayRead t k).all fun i => (src.elemAt i).all fun p => !after.contains p

/-- Whether one member may run beside another: it reads nothing of the other's destinations; or it follows it in record order, both are built-in,
and its tiles read only what the other's tiles up to theirs have written. A `uop` has no tile map, and an earlier reader of a later destination
keeps its order (DESIGN CHOICE, log 9). -/
def fusePair (a b : Nat × LOp) : Bool :=
  ((List.range a.2.sources.length).zip a.2.sources).all fun s => b.2.outs.all fun d =>
    !s.2.overlaps d || (decide (b.1 < a.1) && a.2.kind == 0 && b.2.kind == 0 && tilesFollow a.2 b.2 d s.2 s.1)

/-- The check of a group whose members are all dispatched (R138): their tile counts agree, and so do their tile maps. A member with inserted collectives
has no tiles yet: its group runs unfused (DESIGN CHOICE, log 9). -/
def fuseCheck (g : List (Nat × LOp)) : Bool :=
  g.all (fun p => decide (p.2.kind ≤ 1) && p.2.steps == [] && p.2.ntile == (g.headD p).2.ntile)
    && g.all fun a => g.all fun b => a.1 == b.1 || fusePair a b

/-- The group number of an operator's record. -/
def LOp.fuseNo (o : LOp) : Nat := (lrecOf o.ins).2.fuse.toNat

/-- The destinations of a record. -/
def destsOf (i : Instr) (r : LRec) (vs : List Val) : List TRef :=
  match i with
  | .lUop _ _ => (uopTens (r.word 0x101 0) true (uopArgs vs)).map (·.2)
  | _ => (tspec i r vs).dsts.map (·.2)

/-- Whether a record waits for a member of the group g itself: for an operand that has no handle, or for a destination that a member is filling. -/
def Cur.waitsOn (c : Cur) (i : Instr) (g : List (Nat × LOp)) : Bool :=
  let r := (lrecOf i).2
  let vs := c.vals r
  (vs.any fun v => match v with
    | .i64 _ => false
    | .tok n => (g.map (·.1)).contains n
    | .ten t => t.hnd.isNone && (g.map (·.1)).contains t.prod)
  || (destsOf i r vs).any fun t => t.hnd.any (outHandles g).contains

/-- The records of a function that carry a group number. -/
def groupSize (body : List Instr) (n : Nat) : Nat := (body.filter fun i => (lrecOf i).2.fuse.toNat == n).length

/-- What becomes of the undecided group of operator o: its members run fused or not; none while a member is still to be dispatched and waits for
nothing of the group. -/
def State.fuseOf (s : State) (o : LOp) : Option Bool :=
  let g := s.group_ o
  match s.walks.find o.walk, s.curOf o.walk with
  | some k, some c =>
    let body := c.obj.body o.func
    if groupSize body o.fuseNo = g.length then some (fuseCheck g)
    else if k.st ≠ 0 ∨ c.fr.fn ≠ o.func then some false
    else match body[c.fr.ip]? with
      | some i => if (lrecOf i).2.fuse.toNat = o.fuseNo ∧ c.waitsOn i g = false then none else some false
      | none => some false
  | some k, none => if k.st = 1 ∨ k.st = 2 then some false else none
  | none, _ => some false

/-- The decision on the first undecided fusing group that can be decided (R138). -/
def State.fuseStep (s : State) : Option State :=
  s.lops.findSome? fun p => if p.2.fuse ≠ 1 then none else (s.fuseOf p.2).map fun b =>
    { s with lops := s.lops.map fun (q : Nat × LOp) => if q.2.grp = p.2.grp then (q.1, { q.2 with fuse := if b then 2 else 0 }) else q }

end Sys2Proof.Machine
end

