-- ==== Sys2Proof/Machine/Insts.lean ====
section
/-! DEFINITION. Completion of instances, reorder windows, completion entries (spec/05 R171, R172, spec/15 R435), and kills (spec/13
R399). -/
namespace Sys2Proof.Machine

/-! ### Completion entries (R435) -/

/-- A completion entry's 64 bytes. -/
def complBytes (seq kind status result : Nat) (report : List Byte) : List Byte :=
  toBytes seq 8 ++ toBytes (status + kind * 65536) 8 ++ toBytes result 8 ++ List.replicate 8 0
    ++ ((report ++ List.replicate 32 0).take 32)

/-- A completion entry that waits for room in its queue. -/
def State.complete (s : State) (q : Nat) (data : List Byte) (launch inst : Nat) : State :=
  { s with ctl := { s.ctl with compl := s.ctl.compl ++ [⟨q, data, launch, inst⟩] } }

/-! ### Reorder windows (R171, R172) -/

/-- The number of a launch's instances. -/
def Launch.total (l : Launch) : Nat := if l.levels.any (·.extent == 0) then 0 else prodN (l.levels.map (·.extent))

/-- The launch has released its last instance: its final entry, or its parent's pool entry (R76, R171). -/
def State.launchDone (s : State) (n : Nat) (l : Launch) : State :=
  let s := { s with launches := s.launches.upd n { l with done := true } }
  let s := match l.host with
    | some (q, seq) => s.complete q (complBytes seq 0 0 0 []) n 0
    | none => s
  match l.parent with
  | some _ => s.updCtx l.ctx fun x => { x with pool := x.pool - 1 }
  | none => s

/-- Releases marked instances from the window's base on (R171). -/
def State.releaseGo : Nat → State → Nat → State
  | 0, s, _ => s
  | k + 1, s, n =>
    match s.launches.find n with
    | none => s
    | some l =>
      if l.done then s
      else if l.total ≤ l.b then s.launchDone n l
      else match l.marks.find? fun p => p.1 == l.b with
        | none => s
        | some m =>
          let t := match l.host with
            | some (q, seq) => s.complete q (complBytes seq 1 0 l.b (toBytes (if m.2 then 1 else 0) 8)) n l.b
            | none => s
          State.releaseGo k { t with launches := t.launches.upd n { l with b := l.b + 1, marks := l.marks.filter (·.1 != l.b) } } n

/-- Releases what launch n can release. -/
def State.release (s : State) (n : Nat) : State :=
  match s.launches.find n with
  | none => s
  | some l => State.releaseGo (l.marks.length + 1) s n

/-- Marks an instance in its window, and releases. One already marked or released is discarded (R172). -/
def State.mark (s : State) (n i : Nat) (killed : Bool) : State :=
  match s.launches.find n with
  | none => s
  | some l =>
    if i < l.b ∨ l.total ≤ i ∨ (l.marks.any fun p => p.1 == i) = true then s
    else { s with launches := s.launches.upd n { l with marks := l.marks ++ [(i, killed)], killed := l.killed || killed } }.release n

/-- An instance of this chip has completed: a forwarded launch's goes to the launching chip (R172). -/
def State.markInst (s : State) (n i : Nat) (killed : Bool) : State :=
  match s.launches.find n with
  | none => s
  | some l =>
    let t := s.mark n i killed
    match l.src with
    | some (chip, k) => { t with group := { t.group with reports := t.group.reports ++ [(chip, [1, k, i, if killed then 1 else 0])] } }
    | none => t

/-! ### Kills (R399) -/

/-- Ends the slice on a core without a save: its unstarted engine operations are discarded; started ones, drains among them, end normally. -/
def State.dropSlice (s : State) (c : Nat) : State :=
  let k := s.core c
  { (s.updCore c fun k =>
      { k with sl := Slice.zero, run := none, stop := .none, stopped := false, budget := 0, frzRun := 0, extra := 0 })
    with eops := (s.eops.filter fun e => !(e.sid == k.sl.id && e.start.isNone)) ++ k.sl.mx.ops.filterMap fun o => o.remnant k c (s.ctxOf c) }

/-- Drops a list of slices. -/
def State.dropSlices (s : State) (cs : List Nat) : State := cs.foldl (fun (s : State) (c : Nat) => s.dropSlice c) s

/-- The cores whose slice satisfies a condition. -/
def State.coresWith (s : State) (p : Run → Bool) : List Nat := (s.cores.filter fun q => q.2.run.any p).map (·.1)

/-- Frees a list of handles of a cluster. -/
def State.freeHs (s : State) (cl : Nat) (ks : List Nat) : State :=
  ks.foldl (fun (s : State) (k : Nat) => s.freeH cl (k / 4096) (k % 4096)) s

/-- The handles of an instance in a cluster. -/
def Cluster.handlesOf (k : Cluster) (i : Nat) : List Nat := (k.hnd.filter fun p => p.2.inst == i && p.2.st != 0).map (·.1)

/-- What is left of an instance when it ends: its queues go, its operators and walks end (R143). -/
def State.clearInst (s : State) (i : Nat) : State :=
  { s.dropRecs (fun r => r.run.inst == i) with
    queues := s.queues.filter fun p => p.2.inst != i
    lops := s.lops.filter fun p => p.2.inst != i
    walks := s.walks.filter fun p => p.2.inst != i
    ctl := { s.ctl with needs := s.ctl.needs.filter fun n => n.2.2.inst != i } }

/-- Whether a slice of the given ones must wait for an `MMAG` before it ends (R315). -/
def State.gangHeld (s : State) (p : Run → Bool) : Bool := s.cores.any fun q => q.2.run.any p && q.2.inGang

/-- Stops slices that are to be killed: none issues another bundle. -/
def State.stopKilled (s : State) (p : Run → Bool) : State :=
  { s with cores := s.cores.map fun q => if q.2.run.any p then (q.1, { q.2 with stop := .kill }) else q }

/-- AN INSTANCE KILL (R399): every slice ends, its regions, queues and handles are freed, and it is reported as killed (R171). While an `MMAG` holds
one of its slices they stop, and the kill waits (R315). -/
def State.killInst (s : State) (i : Nat) : State :=
  match s.insts.find i with
  | none => s
  | some x =>
    if x.done then s
    else if s.gangHeld (fun r => r.inst == i) then (s.stopKilled fun r => r.inst == i).updInst i fun y => { y with killing := true }
    else
      let s := s.dropSlices (s.coresWith fun r => r.inst == i)
      let s := s.clearInst i
      let s := s.freeHs x.cluster ((s.cluster x.cluster).handlesOf i)
      let s := s.updInst i fun y => { y with done := true, killed := true, ewalks := [], stages := [] }
      s.markInst x.launch x.idx true

/-- Kills a list of instances. -/
def State.killInsts (s : State) (is_ : List Nat) : State := is_.foldl (fun (s : State) (i : Nat) => s.killInst i) s

/-- A launch none of whose further instances starts: each that has not started is marked killed. -/
def State.killRest (s : State) (n : Nat) : State :=
  match s.launches.find n with
  | none => s
  | some l =>
    if l.done then s
    else
      let idx := (List.range l.total).filter fun i => l.b ≤ i && !(l.marks.any fun p => p.1 == i) && (s.insts.find (n * 2 ^ 24 + i)).isNone
      idx.foldl (fun (s : State) (i : Nat) => s.markInst n i true) s

/-- A CONTEXT KILL (R399): every instance, STATE killed, a CTX_KILLED record. Its slices that no instance holds end too. An `MMAG` that holds one
of its slices delays it (R315). -/
def State.killCtx (s : State) (ctx : Nat) : State :=
  match s.ctx? ctx with
  | none => s
  | some x =>
    if x.state = 3 then s
    else if s.gangHeld (fun r => r.ctx == ctx) then (s.stopKilled fun r => r.ctx == ctx).updCtx ctx fun y => { y with killing := true }
    else
      let s := s.killInsts ((s.insts.filter fun p => p.2.ctx == ctx && !p.2.done).map (·.1))
      let s := ((s.launches.filter fun p => p.2.ctx == ctx).map (·.1)).foldl (fun (s : State) (n : Nat) => s.killRest n) s
      let s := s.dropSlices (s.coresWith fun r => r.ctx == ctx)
      let s := { s.dropRecs (fun r => r.ctx == ctx) with res := s.res.filter fun p => p.2 != ctx }
      let s := (s.updCtx ctx fun y => { y with state := 3 }).syncCtx ctx
      s.trapRec ctx 0x87 0xFFFF 0 (2 ^ 32 - 1) 0xFFFF 0 0 0 0 0 0 0 0

/-- A kill of an instance or a context that waited for an `MMAG`, and can go on. -/
def State.killDue (s : State) : Option State :=
  ((s.insts.find? fun p => p.2.killing && !p.2.done && !s.gangHeld fun r => r.inst == p.1).map fun p => s.killInst p.1)
    <|> ((s.ctxs.find? fun p => p.2.killing && p.2.state != 3 && !s.gangHeld fun r => r.ctx == p.1).map fun p => s.killCtx p.1)

/-- `INSTANCE_KILL` (R399). -/
def execEInstKill (i : Nat) (s : State) : Host.Outcome State Fault Refusal := .next (s.killInst i)

/-- The walk that a core's slice runs ends with the slice: it leaves its stage, and its operators go. -/
def State.dropWalk (s : State) (c : Nat) : State :=
  match (s.sl c).walk, (s.core c).run with
  | some w, some r =>
    { (s.updInst r.inst fun x => { x with stages := x.stages.map fun g => { g with walks := g.walks.filter (· != w.walk) } }) with
      walks := s.walks.erase w.walk, lops := s.lops.filter fun p => p.2.walk != w.walk }
  | _, _ => s

/-- `SLICE_KILL` (R399): the slice ends at the bundle boundary, with its walk; one that an `MMAG` holds stops, and ends after it (R315). -/
def execESliceKill (c : Nat) (s : State) : Host.Outcome State Fault Refusal :=
  .next (if (s.core c).run.isNone then s
    else if (s.core c).inGang then s.updCore c fun k => { k with stop := .kill }
    else (s.dropWalk c).dropSlice c)

/-! ### Completion of an instance (R171) -/

/-- Whether an instance may complete: its walk has ended, its records have completed, its pipeline is DONE, its children have completed. -/
def State.instDue (s : State) (i : Nat) (x : Inst) : Bool :=
  x.started && !x.done
    && (match s.walks.find x.walk with
      | some w => w.st == 2
      | none => false)
    && !(s.lops.any fun p => p.2.inst == i)
    && x.stages.all (·.st == 2) && x.ewalks.all (·.2.done)
    && x.kids.all (fun n => match s.launches.find n with
      | some l => l.done
      | none => true)

/-- `INSTANCE_COMPLETE`: the window marks it; its queue-table entries are free (R143). -/
def execEInstComplete (i : Nat) (s : State) : Host.Outcome State Fault Refusal :=
  match s.insts.find i with
  | none => .next s
  | some x =>
    if s.instDue i x then
      .next (((s.clearInst i).updInst i fun y => { y with done := true, ewalks := [], stages := [] }).markInst x.launch x.idx false)
    else .next s

end Sys2Proof.Machine
end

