-- ==== Sys2Proof/Machine/Pipe.lean ====
section
/-! DEFINITION. Pipelines: queues, stages and their walks, DRAINING and DONE, tile-walk engines (spec/05 R140 to R158). -/
namespace Sys2Proof.Machine

/-! ### Queues (R140 to R145) -/

/-- The key of a queue value of a context (R143). -/
def qkey (ctx : Nat) (v : Int) : Nat := ctx * 4096 + (bitsZ v 16) % 4096

/-- Whether a cluster has room for one more physical queue of a depth (R144). -/
def State.physRoom (s : State) (cl depth : Nat) : Bool :=
  let l := s.queues.filter fun p => p.2.phys && p.2.cluster == cl
  decide (l.length < 256) && decide (l.foldl (fun (n : Nat) (p : Nat × Queue) => n + p.2.depth) depth ≤ 32768)

/-- A new queue of a context in its lowest free entry; none when the table is full (R143, R144, R149). -/
def State.newQueue (s : State) (ctx inst cl depth isize kind infl : Nat) : Option (Nat × State) :=
  match (List.range 4096).find? fun v => (s.queues.find (ctx * 4096 + v)).isNone with
  | none => none
  | some v =>
    let q : Queue :=
      { ctx := ctx, vq := v, inst := inst, cluster := cl, depth := depth, isize := isize, kind := kind, infl := infl, head := 0, tail := 0,
        closed := false, items := [], fly := [], room := 0, phys := s.physRoom cl depth,
        image := s.imageOf ctx v, wdt := 0, wstep := 0 }
    some (v, { s with queues := s.queues.upd (ctx * 4096 + v) q })

/-- `qdecl` (R147, R149): QTABLE_FULL when no entry is free (R143). -/
def execLQdecl (w : Nat) (r : LRec) (s : State) : Host.Outcome State Fault Refusal :=
  runSeq w r (fun c => do
    let p := (r.attr 0x100).getD []
    let w0 := (p.getD 0 0).toNat
    match (← get).newQueue c.ctx c.wk.inst c.cl (bitsN w0 0 13) (p.getD 1 0).toNat (bitsN w0 16 2) (bitsN w0 19 13) with
    | none => trapQ 0x60 0 0xFFFF
    | some (v, s') =>
      set s'
      doneQ c [.i64 (BitVec.ofNat 64 v)]) s

/-- A queue holds no item and none is on its way. -/
def State.qEmpty (s : State) (q : Nat) : Bool := match s.queues.find q with
  | some x => x.items == [] && x.fly == []
  | none => true

/-- A queue is CLOSED and empty. -/
def State.qShut (s : State) (q : Nat) : Bool := match s.queues.find q with
  | some x => x.closed && x.items == [] && x.fly == []
  | none => true

/-- The kind of a queue. -/
def State.qKind (s : State) (q : Nat) : Nat := match s.queues.find q with
  | some x => x.kind
  | none => 0

/-- The producer becomes finished (R154, R156, R157). -/
def State.closeQ (s : State) (q : Nat) : State := s.updQ q fun x => { x with closed := true }

/-- The oldest unreserved item of a queue with its producer, and the rest. -/
def takeOpen : List QItem → Option (QItem × List QItem)
  | [] => none
  | i :: r => if i.by_ = 0 then some (i, r) else (takeOpen r).map fun p => (p.1, i :: p.2)

/-- An engine's pop of a queue's head (R153, R167). -/
def State.engPop (s : State) (q : Nat) : Option (QItem × State) :=
  match s.queues.find q with
  | none => none
  | some x => (takeOpen x.items).map fun p =>
      (p.1, s.updQ q fun y => { y with items := p.2, head := y.head + 1, wdt := 0, wstep := 0 })

/-- Whether a queue has room for one push. -/
def State.qRoom (s : State) (q : Nat) : Bool := match s.queues.find q with
  | some x => !x.full
  | none => false

/-! ### Stages (R147, R150, R151) -/

/-- The stage records of a body. -/
def stageRecs (b : List Instr) : List LRec := b.filterMap fun i => match i with
  | .lStage _ r => some r
  | _ => none

/-- SCHED's words with their defaults (R147). -/
def schedOf (r : LRec) : Nat × Nat × Nat × Nat × Nat :=
  let w := ((r.attr 0x102).getD []).map (·.toNat)
  let w0 := w.getD 0 (16 * 65536 + 256 + 1)
  (w0 % 4, bitsN w0 8 5, bitsN w0 16 5, w.getD 1 (2 ^ 20), w.getD 2 (2 ^ 20))

/-- The entry function's body of an instance: the one that holds its pipeline (R148). -/
def State.pipeBody (s : State) (x : Inst) : List Instr :=
  match s.walks.find x.walk, s.objs.find x.obj with
  | some w, some o => o.body ((w.frames.head?.map (·.fn)).getD 0)
  | _, _ => []

/-- Stages that an instance's pipeline has in all. -/
def State.stageCount (s : State) (x : Inst) : Nat := (stageRecs (s.pipeBody x)).length

/-- The cores of the instance's unit in its cluster: the pipeline's core set (R155, DEDUCED, log 22). -/
def Inst.coreSet (x : Inst) : List Nat := x.cores.filter fun c => clOf c == x.cluster

/-- Whether a stage's output has room for COUNT items: FEEDBACK and PERMIT outputs always do (R151). -/
def State.outRoom (s : State) (p : Nat × Nat × Nat) : Bool :=
  p.2.1 != 1 || (match s.queues.find p.1 with
    | some x => 2 ≤ x.kind || x.items.length + x.fly.length + x.room + p.2.2 ≤ x.depth
    | none => false)

/-- Whether an input holds COUNT unreserved items. -/
def State.inHolds (s : State) (p : Nat × Nat × Nat) : Bool :=
  match s.queues.find p.1 with
  | some x => p.2.2 ≤ (x.items.filter (·.by_ == 0)).length
  | none => false

/-- The input that a new walk of a stage would reserve: none when the stage is not runnable; −1 for every reserved input (R151). -/
def State.startable (s : State) (g : Stage) : Option Int :=
  let ins := ((List.range g.qs.length).zip g.qs).filter fun p => p.2.2.1 == 0
  if 2 ≤ g.st ∨ g.qs.all s.outRoom = false then none
  else if ins = [] then (if g.started then none else some (-1))
  else if g.first then ((ins.find? fun p => s.inHolds p.2).map fun p => (p.1 : Int))
  else if ins.all fun p => s.inHolds p.2 then some (-1) else none

/-! ### DRAINING and DONE (R154) -/

/-- Whether a stage pushes onto a queue. -/
def Stage.pushes (g : Stage) (q : Nat) : Bool := g.qs.any fun p => p.1 == q && p.2.1 % 2 == 1

/-- Whether a queue's producer is DONE or becomes so with the stages `d`: a stage, or a tile-walk engine. -/
def Inst.prodDone (x : Inst) (d : List Nat) (q : Nat) : Bool :=
  ((List.range x.stages.length).zip x.stages).all (fun p => !p.2.pushes q || p.2.st == 2 || d.contains p.1)
    && x.ewalks.all fun e => !((e.2.store && e.2.pq == q) || (!e.2.store && e.2.dq == q) || e.2.nq == some q) || e.2.done

/-- Whether the stages that push onto a queue have no walk. -/
def Inst.prodIdle (x : Inst) (q : Nat) : Bool :=
  x.stages.all fun g => !g.pushes q || g.walks == []

/-- The reserved inputs of a stage. -/
def Stage.rin (g : Stage) : List Nat := (g.qs.filter fun p => p.2.1 == 0).map (·.1)

/-- Whether a stage is DRAINING: no walk of it is left, and no reserved input but FEEDBACK and PERMIT queues can start one; without a reserved
input its one walk has ended. A HELD walk counts as one that has not ended. -/
def State.draining (s : State) (g : Stage) : Bool :=
  g.st < 2 && g.walks == [] && (if g.rin = [] then g.started else (g.rin.filter fun q => s.qKind q < 2).all s.qShut)

/-- Whether a DRAINING stage may become DONE together with the stages `d`: each FEEDBACK input is empty and none that pushes onto it has a walk; one
whose reserved inputs are all FEEDBACK or PERMIT waits for its producers. -/
def State.stageEnds (s : State) (x : Inst) (d : List Nat) (g : Stage) : Bool :=
  (g.qs.filter fun p => p.2.1 % 2 == 0 && s.qKind p.1 == 2).all (fun p => s.qEmpty p.1 && x.prodIdle p.1)
    && (g.rin == [] || g.rin.any (fun q => s.qKind q < 2) || g.rin.all (x.prodDone d))

/-- The stages that become DONE together: of the DRAINING ones, those that are left when every one that may not end is taken out, k times over. -/
def State.endSet (s : State) (x : Inst) : Nat → List Nat
  | 0 => (List.range x.stages.length).filter fun k => (x.stages[k]?).any s.draining
  | n + 1 =>
    let d := s.endSet x n
    d.filter fun k => (x.stages[k]?).any (s.stageEnds x d)

/-- The stages that may become DONE do; their outputs become CLOSED. -/
def State.settleStages (s : State) (i : Nat) : State :=
  match s.insts.find i with
  | none => s
  | some x => (s.endSet x x.stages.length).foldl (fun (s : State) (k : Nat) => match x.stages[k]? with
      | none => s
      | some g => (g.qs.filter fun p => p.2.1 % 2 == 1).foldl (fun (s : State) (p : Nat × Nat × Nat) => s.closeQ p.1)
          (s.updInst i fun y => { y with stages := setAt y.stages k { g with st := 2 } })) s

/-- Whether a pipeline is DONE: every stage is declared and DONE, and every walk has completed. -/
def State.pipeDone (s : State) (x : Inst) : Bool :=
  x.stages.length == s.stageCount x && x.stages.all (·.st == 2) && x.ewalks.all (·.2.done)

/-- Stages that have become DONE, in turn; when the pipeline is, its regions are freed and then the walks' tokens complete (R155). -/
def State.settlePipe (s : State) (i : Nat) : State :=
  match s.insts.find i with
  | none => s
  | some x =>
    let n := x.stages.length
    let s := if n = s.stageCount x then
        (List.range n).foldl (fun (s : State) (_ : Nat) => s.settleStages i) s else s
    match s.insts.find i with
    | none => s
    | some y =>
      if s.pipeDone y then
        let s := s.freeHs y.cluster (y.ewalks.flatMap fun e => e.2.regs.map (hkey y.ctx))
        { (s.updInst i fun z => { z with ewalks := z.ewalks.map fun e => (e.1, { e.2 with regs := [] }) }) with
          lops := s.lops.filter fun p => !(p.2.inst == i && p.2.kind == 5) }
      else s

/-! ### The operators (R146 to R155) -/

/-- `stage` (R150): the walk passes to its `endstage`. PIPE_CREW at the first stage (R174). -/
def execLStage (w : Nat) (r : LRec) (s : State) : Host.Outcome State Fault Refusal :=
  runSeq w r (fun c => do
    let rs := stageRecs (c.obj.body c.fr.fn)
    let mins := (rs.map fun q => (schedOf q).2.1).foldl (· + ·) 0
    let avail := c.inst.cores.length
    if c.inst.stages = [] ∧ avail < mins then trapQ 0x66 (BitVec.ofNat 64 (mins + avail * 65536)) 0xFFFF
    else
      let at_ := c.fr.ip
      let e := c.close false at_
      let spec := (r.attr 0x100).getD []
      let qs := ((List.range r.opds.length).map fun k =>
        (qkey c.ctx (c.argZ r k), (spec.getD k 0).toNat % 4, bitsN (spec.getD k 0).toNat 8 8))
      let (cls, minc, maxc, bud, per) := schedOf r
      let g : Stage :=
        { rec0 := at_, rec1 := e, qs := qs, first := bitN (r.word 0x101 0) 0, cls := cls, minc := minc, maxc := maxc, budget := bud,
          period := per, st := 0, started := false, walks := [] }
      modify fun s => s.updInst c.wk.inst fun x => { x with stages := x.stages ++ [g] }
      goQ c fun fr => { (fr.setRes at_ [.i64 (w64 (-1))]) with ip := e }) s

/-- QUEUE_PROTOCOL's trap at the sequencer. -/
def qpTrap {α : Type} (vq port reason : Nat) : SeqM α := trapQ 0x61 (qpDetail vq port reason) 0xFFFF

/-- `endstage` (R150, R153): a stage walk ends there, once its records have completed (DEDUCED, log 22); the instance's walk passes the last one
when the pipeline is DONE. -/
def execLEndstage (w : Nat) (r : LRec) (s : State) : Host.Outcome State Fault Refusal :=
  runSeq w r (fun c => do
    let s ← get
    match c.wk.stage with
    | some _ =>
      if s.lops.any fun p => p.2.walk == c.w then waitQ
      else match (s.sl c.wk.core).walk with
        | none => waitQ
        | some h => match h.ins.find? fun p => p.2 != 0 with
          | some p => qpTrap (((s.portOf c.wk.core p.1).map fun q => s.vqOf q.1).getD 0) p.1 3
          | none => modify fun s => s.updWalk c.w fun k => { k with st := 2 }
    | none =>
      if (stageRecs ((c.obj.body c.fr.fn).drop (c.fr.ip + 1))).isEmpty then
        let t := s.settlePipe c.wk.inst
        match t.insts.find c.wk.inst with
        | none => waitQ
        | some x =>
          set t
          if t.pipeDone x then goQ c fun fr => { fr with ip := fr.ip + 1 }
      else goQ c fun fr => { fr with ip := fr.ip + 1 }) s

/-- The port of the walk's stage that a queue operand names, for a push or a pop: one of that direction first; 255, which no stage binds, for a queue
that is not the stage's (DESIGN CHOICE, log 22). -/
def Cur.portIdx (c : Cur) (k : Nat) (q : Nat) (push : Bool) : Nat :=
  match c.inst.stages[k]? with
  | some g => ((firstIdx (fun (p : Nat × Nat × Nat) => p.1 == q && (p.2.1 % 2 == 1) == push) g.qs).or
      (firstIdx (fun (p : Nat × Nat × Nat) => p.1 == q) g.qs)).getD 255
  | none => 255

/-- `qpop` (R153). -/
def execLQpop (w : Nat) (r : LRec) (s : State) : Host.Outcome State Fault Refusal :=
  runSeq w r (fun c => do
    let q := qkey c.ctx (c.argZ r 0)
    let s ← get
    let core := c.wk.core
    match c.wk.stage, (s.sl core).walk, s.queues.find q with
    | some k, some h, some x =>
      let p := c.portIdx k q false
      match s.portOf core p, takeItem c.w x.items with
      | some (_, 0, _), some (v, rest) =>
        if AMap.get 0 h.ins p = 0 then qpTrap x.vq p 0
        else
          set ((s.popQ core q rest v).updSl core fun y =>
            { y with walk := y.walk.map fun h => { h with ins := h.ins.upd p (AMap.get 0 h.ins p - 1) } })
          doneQ c [.i64 v]
      | some (_, 2, _), _ =>
        match takeItem 0 x.items with
        | some (v, rest) =>
          set (s.popQ core q rest v)
          doneQ c [.i64 v]
        | none => waitQ
      | none, _ => qpTrap x.vq p 2
      | _, _ => qpTrap x.vq p 0
    | some _, _, _ => waitQ
    | none, _, _ => qpTrap (q % 4096) 0 2) s

/-- The arrival cycle of the push that a core made last. -/
def State.lastPush (s : State) (q src : Nat) : Nat := match s.queues.find q with
  | some x => maxN ((x.fly.filter fun p => p.src == src).map (·.at_))
  | none => 0

/-- `qpush` (R153): its token completes once the item is in the queue. -/
def execLQpush (w : Nat) (r : LRec) (s : State) : Host.Outcome State Fault Refusal :=
  runSeq w r (fun c => do
    let q := qkey c.ctx (c.argZ r 0)
    let s ← get
    let core := c.wk.core
    match c.wk.stage, (s.sl core).walk, s.queues.find q with
    | some k, some h, some x =>
      let p := c.portIdx k q true
      let left := AMap.get 0 h.outs p
      let push : State → SeqM Unit := fun t => do
        let t := t.pushFly q core 0 (w64 (c.argZ r 1))
        set t
        let n ← newLop c r (.lQpush w r) 3 [] [] [] [(q, t.lastPush q core, 3)]
        doneQ c [.tok n]
      match s.portOf core p with
      | some (_, 1, _) =>
        if left = 0 then qpTrap x.vq p 1
        else if 2 ≤ x.kind ∧ x.full = true then trapQ 0x62 (BitVec.ofNat 64 x.vq) 0xFFFF
        else push ((if 2 ≤ x.kind then s else s.updQ q fun y => { y with room := y.room - 1 }).updSl core fun y =>
          { y with walk := y.walk.map fun h => { h with outs := h.outs.upd p (left - 1) } })
      | some (_, 3, _) =>
        if x.full then (if 2 ≤ x.kind then trapQ 0x62 (BitVec.ofNat 64 x.vq) 0xFFFF else waitQ) else push s
      | none => qpTrap x.vq p 2
      | _ => qpTrap x.vq p 1
    | some _, _, _ => waitQ
    | none, _, _ => qpTrap (q % 4096) 0 2) s

/-! ### Tile-walk engines (R155 to R158) -/

/-- Takes a region of one tile of nb bytes on every core of a set, for an instance; the trap that refuses it (R155). -/
def takeTile (c : Cur) (nb : Nat) : SeqM Nat := do
  let s ← get
  match s.freeHandle c.cl c.ctx with
  | .error e => trapQ 0x23 (BitVec.ofNat 64 e) 0xFFFF
  | .ok h =>
    let cs := c.inst.coreSet
    match s.takeRegion c.cl c.ctx (s.quota c.inst) 1 h (4096 * cdiv nb 4096 * cs.length) cs with
    | .error (code, d, part) => throw (SeqStop.trap code (BitVec.ofNat 64 d) h part)
    | .ok t =>
      let e := t.handle c.cl c.ctx h
      set (t.setHandle c.cl c.ctx h { e with inst := c.wk.inst, region := { e.region with bytes := nb } })
      pure h

/-- n regions of one tile. -/
def takeTiles (c : Cur) (nb : Nat) : Nat → SeqM (List Nat)
  | 0 => pure []
  | n + 1 => do
    let h ← takeTile c nb
    return h :: (← takeTiles c nb n)

/-- `walk` (R155): regions, the permit queue with one item per region, and the engine. -/
def execLWalk (w : Nat) (r : LRec) (s : State) : Host.Outcome State Fault Refusal :=
  runSeq w r (fun c => do
    match tensorsOf ((c.vals r).take 1) with
    | [] => doneQ c [.i64 0, .tok 0]
    | t :: _ =>
      let wd := r.word 0x100 0
      let tile := ((r.attr 0x101).getD []).map (·.toNat)
      let nperm := bitsN wd 8 8
      let link := bitN wd 1
      if !t.isGlobal then trapQ 0x52 0 (t.hnd.getD 0xFFFF)
      else
        useCheck [(0, t)]
        let nb := (tensorSpan t.fmt t.lay t.mx tile (denseStr t.fmt t.lay tile)).2
        let regs ← takeTiles c nb nperm
        let s ← get
        let j := c.inst.ewalks.length
        match s.newQueue c.ctx c.wk.inst c.cl nperm nb 3 0 with
        | none => trapQ 0x60 0 0xFFFF
        | some (v, s') =>
          let q := c.ctx * 4096 + v
          set (s'.updQ q fun x =>
            { x with tail := nperm,
                     items := regs.map fun h => ⟨mkItem h (s'.genOf c.cl c.ctx h) 0, 0, 256 + j⟩ })
          let wt := srcWaits s [t]
          let n ← newLop c r (.lWalk w r) 5 [.ten t] [] wt.1 wt.2
          let e : EWalk :=
            { op := n, store := bitN wd 0, ten := t, tile := tile, dq := qkey c.ctx (c.argZ r 1), pq := q,
              lq := if link then some (qkey c.ctx (c.argZ r 2)) else none,
              nq := if bitN wd 2 then some (qkey c.ctx (c.argZ r (if link then 3 else 2))) else none, regs := regs,
              ordered := s'.qKind (qkey c.ctx (c.argZ r 1)) == 1, t := 0, n := 0, pend := [], b := 0, marks := [], cur := none,
              done := false }
          modify fun s => s.updInst c.wk.inst fun x => { x with ewalks := x.ewalks.upd j e }
          doneQ c [.i64 (BitVec.ofNat 64 v), .tok n]) s

/-- Tiles in each dimension (R156). -/
def EWalk.grid (e : EWalk) : List Nat := (e.ten.ext.zip e.tile).map fun p => cdiv p.1 p.2

/-- The number of tiles. -/
def EWalk.nt (e : EWalk) : Nat := prodN e.grid

/-- The first index of tile t in each dimension (R111): a number past the grid lies outside the tensor. -/
def EWalk.org (e : EWalk) (t : Nat) : List Nat :=
  (List.range e.tile.length).map fun d =>
    let q := t / Nat.max (prodN (e.grid.drop (d + 1))) 1
    (if d = 0 then q else q % Nat.max (e.grid.getD d 1) 1) * e.tile.getD d 1

/-- Whether an index lies inside extents. -/
def inside (ix ext : List Nat) : Bool := (ix.zip ext).all fun p => p.1 < p.2

/-- A tile's region at a granule, as an element tensor in a core's scratchpad (R60, R155). -/
def EWalk.side (e : EWalk) (g0 : Nat) : Side := ⟨0, 4096 * g0, e.ten.fmt, e.ten.lay, e.tile, denseStr e.ten.fmt e.ten.lay e.tile⟩

/-- The region's block scales, for an MX pair (R59). -/
def EWalk.sideS (e : EWalk) (g0 : Nat) : Side :=
  scaleSide 0 (4096 * g0 + scaleOff e.ten.fmt e.ten.lay e.tile (denseStr e.ten.fmt e.ten.lay e.tile)) e.tile

/-- The tensor's block scales. -/
def EWalk.tenS (e : EWalk) : Side := scaleSide 0 (scaleOff e.ten.fmt e.ten.lay e.ten.ext e.ten.str) e.ten.ext

/-- The block-scale index of block b of a tile's row, when blocks of the tile are blocks of the tensor. -/
def EWalk.scaleIx (e : EWalk) (t : Nat) (ix : List Nat) : Option (List Nat) :=
  let o := e.org t
  let g := List.zipWith (· + ·) o ix
  if o.getLastD 0 % 32 = 0 then some (g.dropLast ++ [o.getLastD 0 / 32 + ix.getLastD 0]) else none

/-- Fetches tile t into a region on every core of a set; elements outside the tensor are zero codes (R156). -/
def EWalk.fetch (e : EWalk) (cl ctx t g0 fresh : Nat) (cs : List Nat) : EngM Unit := do
  let rd := e.ten.byte cl ctx
  let codes ← collectE (fun ix =>
    let g := List.zipWith (· + ·) (e.org t) ix
    if inside g e.ten.ext then e.ten.side.readElem rd g else pure 0) (indices e.tile)
  let sc ← if e.ten.mx then collectE (fun ix =>
      match e.scaleIx t ix with
      | none => pure (Config.freeNat (fresh + t) % 256)
      | some g => if inside g (e.tenS).ext then (e.tenS).readElem rd g else pure 0) (indices (e.sideS g0).ext)
    else pure []
  eachE (fun c => do
    let fl := fun (a : Int) => engFlat c ctx 0 a 1
    let _ ← (e.side g0).write fl (fun _ => false) (codes.map some)
    if e.ten.mx then
      let _ ← (e.sideS g0).write fl (fun _ => false) (sc.map some)
      pure ()
    else pure ()) cs

/-- Codes of a tile by the tensor's elements: none outside the tile. -/
def tileAt (org tile : List Nat) (codes : List Nat) (g : List Nat) : Option Nat :=
  if (g.zip (org.zip tile)).all fun p => p.2.1 ≤ p.1 && p.1 < p.2.1 + p.2.2 then
    codes[linOf tile (List.zipWith (· - ·) g org)]? else none

/-- Writes the elements of a region, read on a core, that lie inside the tensor to tile t (R157). -/
def EWalk.put (e : EWalk) (cl ctx t g0 core : Nat) : EngM Unit := do
  let rd := fun (a : Int) => engByte core ctx 0 a
  let codes ← (e.side g0).read rd
  let o := e.org t
  let fl := e.ten.flat cl ctx 1
  let _ ← e.ten.side.write fl (fun _ => false) ((indices e.ten.ext).map (tileAt o e.tile codes))
  if e.ten.mx then
    let sc ← (e.sideS g0).read rd
    let ob := o.dropLast ++ [o.getLastD 0 / 32]
    let _ ← (e.tenS).write fl (fun _ => false) ((indices (e.tenS).ext).map (tileAt ob (e.sideS g0).ext sc))
    pure ()
  else pure ()

/-- Changes a tile-walk engine's walk. -/
def State.updWalkE (s : State) (i j : Nat) (f : EWalk → EWalk) : State :=
  s.updInst i fun x => match x.ewalks.find j with
    | some e => { x with ewalks := x.ewalks.upd j (f e) }
    | none => x

/-- tl(4 + j) := n. -/
def State.tlSet (s : State) (cl ctx k n : Nat) : State := s.setCtl cl ctx k { s.ctl_ cl ctx k with iss := n, val := n, out := [] }

/-- The number on tl(4 + j) of what a walk works at: a LOAD walk's numbers follow its tiles, a STORE walk's its stores (R156, R157). -/
def EWalk.num (e : EWalk) (t : Nat) : Nat := if e.store then e.n + 1 else t + 1

/-- The tile that a walk works at; 2^32 − 1 for a STORE walk that holds no item. -/
def EWalk.at_ (e : EWalk) : Nat := if e.store then (match e.cur with
  | some (v, _) => v.toNat % 2 ^ 32
  | none => 2 ^ 32 - 1) else e.t

/-- A fault of a tile-walk engine at tile t (R158): its operation passes on the timeline with its fault flag; a record that names the walk, the tile
and the handle; the instance is killed. -/
def State.walkFault (s : State) (i j : Nat) (x : Inst) (e : EWalk) (t h code : Nat) (d : W64) : State :=
  let (f, o) := match s.lops.find e.op with
    | some p => (p.func, p.off)
    | none => (0xFFFF, 0)
  let n := e.num t
  let s := (s.tlSet x.cluster x.ctx (4 + j) n).flagTl 0 x.cluster x.ctx (4 + j) n
  (s.trapRec x.ctx code f o t h (s.genOf x.cluster x.ctx h) (16 * x.cluster) 0 10 0 d (4 + j) n).killInst i

/-- Whether an instance's engines run: it lives, and its context is resident. -/
def State.engRuns (s : State) (x : Inst) : Bool :=
  !x.done && (match s.ctx? x.ctx with
    | some k => k.state == 1 || k.state == 2
    | none => false)

/-- Whether a tile-walk engine's walk may start work on its tensor (R65, R101). -/
def State.walkReady (s : State) (e : EWalk) : Bool := match s.lops.find e.op with
  | some o => s.lopReady o && (s.lopStale o).isNone
  | none => false

/-- The window base of the STORE walk that names a permit queue as its link (R156). -/
def Inst.linkBase (x : Inst) (pq : Nat) : Option Nat := (x.ewalks.find? fun e => e.2.lq == some pq).map (·.2.b)

/-- What a LOAD walk does next: 1 pushes its oldest fetched tile, 2 pops a permit and fetches, 3 closes its data queue, 0 waits. -/
def State.loadAct (s : State) (x : Inst) (e : EWalk) : Nat :=
  if e.store ∨ e.done ∨ s.engRuns x = false then 0
  else if e.pend ≠ [] ∧ s.qRoom e.dq = true then 1
  else if e.t < e.nt then
    if (match x.linkBase e.pq with
      | some b => decide (b + 256 ≤ e.t)
      | none => false) = true ∨ s.walkReady e = false then 0
    else match s.engPop e.pq with
      | none => 0
      | some (i, _) =>
        let h := i.val.toNat / 2 ^ 48
        if e.regs.contains h && (s.handle x.cluster x.ctx h).st != 2 then 0 else 2
  else if e.pend = [] then 3 else 0

/-- `LOAD_WALK_TILE` (R156): a tile's fetch is done at once when its permit is popped (DESIGN CHOICE, log 6); a fenced
engine faults (R400). -/
def execELoadWalk (i j : Nat) (s : State) : Host.Outcome State Fault Refusal :=
  match s.insts.find i with
  | none => .next s
  | some x => match x.ewalks.find j with
    | none => .next s
    | some e =>
      if s.loadAct x e ≠ 0 ∧ (s.cluster x.cluster).fences.contains (7 + j) = true then
        .next (s.walkFault i j x e e.at_ 0xFFFF 0x83 (lostDetail (16 * x.cluster) (7 + j)))
      else match s.loadAct x e with
      | 1 => match e.pend with
        | (h, t) :: rest =>
          let s := s.pushFly e.dq (256 + j) 0 (mkItem h (s.genOf x.cluster x.ctx h) t)
          .next ((s.updWalkE i j fun e => { e with pend := rest, n := t + 1 }).tlSet x.cluster x.ctx (4 + j) (t + 1))
        | [] => .next s
      | 2 => match s.engPop e.pq with
        | none => .next s
        | some (it, s1) =>
          let h := it.val.toNat / 2 ^ 48
          if !e.regs.contains h then .next ((s1.walkFault i j x e e.t h 0x63 (BitVec.ofNat 64 (h + j * 65536))))
          else
            let k := s1.handle x.cluster x.ctx h
            let (res, s2) := (e.fetch x.cluster x.ctx e.t k.region.g0 s1.fresh x.coreSet).run.run s1
            let s2 := { s2 with fresh := s.fresh + 1 + e.nt }
            match res with
            | .error (code, d) => .next (s2.walkFault i j x e e.t h code d)
            | .ok _ =>
              let n := { e.ten with ext := e.tile }.wrBytes
              let s3 := s2.setHandle x.cluster x.ctx h { k with st := 2, tgt := n, cnt := n, gen := (k.gen + 1) % 65536 }
              .next (s3.updWalkE i j fun e => { e with t := e.t + 1, pend := e.pend ++ [(h, e.t)] })
      | 3 => .next (((s.closeQ e.dq).updWalkE i j fun e => { e with done := true }).settlePipe i)
      | _ => .next s

/-- What a STORE walk does next: 1 releases its window's base, 2 pops its data queue, 3 stores the item whose handle is FULL and pushes its permit,
which never waits (R159), 4 ends. -/
def State.storeAct (s : State) (x : Inst) (e : EWalk) : Nat :=
  if e.store = false ∨ e.done ∨ s.engRuns x = false then 0
  else if e.marks.contains e.b && (match e.nq with
    | some q => s.qRoom q
    | none => true) then 1
  else match e.cur with
    | some (v, _) =>
      if (s.handle x.cluster x.ctx (v.toNat / 2 ^ 48)).st = 2 ∧ s.walkReady e = true then 3 else 0
    | none =>
      if (s.engPop e.dq).isSome then 2
      else if s.qShut e.dq = true ∧ e.marks.contains e.b = false then 4 else 0

/-- `STORE_WALK_TILE` (R157, R458): the region is read in the scratchpad of the core that pushed the item; a
fenced engine faults (R400). -/
def execEStoreWalk (i j : Nat) (s : State) : Host.Outcome State Fault Refusal :=
  match s.insts.find i with
  | none => .next s
  | some x => match x.ewalks.find j with
    | none => .next s
    | some e =>
      if s.storeAct x e ≠ 0 ∧ (s.cluster x.cluster).fences.contains (7 + j) = true then
        .next (s.walkFault i j x e e.at_ 0xFFFF 0x83 (lostDetail (16 * x.cluster) (7 + j)))
      else match s.storeAct x e with
      | 1 =>
        let t := match e.nq with
          | some q => s.pushFly q (256 + j) 0 (mkItem 0xFFFF 0 e.b)
          | none => s
        .next (t.updWalkE i j fun e => { e with b := e.b + 1, marks := e.marks.filter (· != e.b) })
      | 2 => match s.engPop e.dq with
        | none => .next s
        | some (it, t) => .next (t.updWalkE i j fun e => { e with cur := some (it.val, it.src) })
      | 3 => match e.cur with
        | none => .next s
        | some (v, src) =>
          let h := v.toNat / 2 ^ 48
          let t := v.toNat % 2 ^ 32
          let core := if src < 256 then src else x.coreSet.headD (16 * x.cluster)
          let (res, s1) := (e.put x.cluster x.ctx t (s.handle x.cluster x.ctx h).region.g0 core).run.run s
          match res with
          | .error (code, d) => .next (s1.walkFault i j x e t h code d)
          | .ok _ =>
            let s2 := s1.updWalkE i j fun e =>
              { e with cur := none, n := e.n + 1, marks := if e.ordered then e.marks ++ [t] else e.marks }
            let s3 := s2.tlSet x.cluster x.ctx (4 + j) (e.n + 1)
            .next (s3.pushFly e.pq (256 + j) 0 (mkItem h (s3.genOf x.cluster x.ctx h) 0))
      | 4 =>
        let t := match e.nq with
          | some q => s.closeQ q
          | none => s
        .next ((t.updWalkE i j fun e => { e with done := true }).settlePipe i)
      | _ => .next s

end Sys2Proof.Machine
end

