-- ==== Sys2Proof/Machine/Slices.lean ====
section
/-! DEFINITION. Slices: dispatch, item boundaries, budgets, pre-emption, save and restore (spec/05 R151, R152, R160 to R163, spec/12 R384,
spec/13 R394 to R397). -/
namespace Sys2Proof.Machine

/-! ### Dispatch (R161) -/

/-- The context that a resident index names (R160). -/
def State.resCtx (s : State) (i : Nat) : Option Nat := s.res.find i

/-- Whether a bind record's context runs and its instance lives. -/
def State.bindLive (s : State) (b : Bind) : Bool :=
  b.ok && (match s.insts.find b.inst, s.resCtx b.ctx with
    | some x, some n => x.started && !x.done && x.ctx == n && (match s.ctx? n with
      | some k => k.state == 1 && !k.stopped && !k.leaving
      | none => false)
    | _, _ => false)

/-- Whether slot k holds the instance's record in the lowest slot: the one whose slices run its tiles outside stages (DEDUCED, log 22). -/
def State.firstRec (s : State) (cl k inst : Nat) : Bool :=
  ((s.cluster cl).binds.find? fun p => p.2.ok && p.2.inst == inst).any fun p => p.1 == k

/-- A saved slice of a record that may be dispatched. -/
def State.savedOf (s : State) (b : Bind) (ctx : Nat) : Option SRec :=
  s.recs.find? fun r => r.ctx == ctx && r.kind < 2 && r.sl.isSome && !r.left && r.run.inst == b.inst && r.run.stage == b.stage

/-- What an ended slice of a record has left pending: its results, and with `ops` unstarted operations (R274, R384). -/
def State.leftOf (s : State) (b : Bind) (ctx : Nat) (ops : Bool) : Option SRec :=
  s.recs.find? fun r => r.ctx == ctx && r.left && r.sl.isSome && r.run.inst == b.inst && r.run.stage == b.stage && (!ops || r.ops != [])

/-- Whether a tile outside every stage waits for core c: assigned to it, with its waits over. -/
def State.tileFor (s : State) (c inst : Nat) (ready : Bool) : Bool :=
  s.lops.any fun p => p.2.inst == inst && decide (p.2.kind ≤ 1) && p.2.fault.isNone && (p.2.tiles.any fun t => t.2.1 == c)
    && (match s.walks.find p.2.walk with
      | some k => k.stage.isNone
      | none => false) && (!ready || (p.2.fuse != 1 && s.tileReady p.2))

/-- What a record has for core c: 1 a saved slice, 2 tiles outside stages, 3 a new walk of its stage, 0 nothing (R151, R162). -/
def State.workOf (s : State) (c k : Nat) (b : Bind) : Nat :=
  if s.bindLive b = false ∨ b.crew.getLsbD (c % 16) = false then 0
  else match s.insts.find b.inst with
    | none => 0
    | some x =>
      if (s.savedOf b x.ctx).isSome then 1
      else if s.firstRec (clOf c) k b.inst && s.tileFor c b.inst true then 2
      else match x.stages[b.stage]? with
        | some g => if (s.startable g).isSome then 3 else 0
        | none => 0

/-- The effective deadline (R161, R165). -/
def State.effOf (s : State) (cl : Nat) (b : Bind) : Nat :=
  if b.cls = 2 then (s.gcyc + 2 ^ bitsN (s.cluster cl).kncfg.toNat 40 5) % 2 ^ 64 else b.deadline.toNat

/-- The winning record among those that satisfy a condition: the earliest effective deadline, then the lower slot. -/
def State.winner (s : State) (cl : Nat) (p : Nat → Bind → Bool) : Option (Nat × Bind) :=
  (s.cluster cl).binds.foldl (fun (m : Option (Nat × Bind)) (q : Nat × Bind) =>
    if p q.1 q.2 then (match m with
      | none => some q
      | some o => if s.effOf cl q.2 < s.effOf cl o.2 then some q else some o) else m) none

/-- What a record has for an idle core c: as `workOf`; a fresh slice, 2, also for operations that an ended slice has left unstarted (R384). -/
def State.idleWork (s : State) (c k : Nat) (b : Bind) : Nat :=
  let n := s.workOf c k b
  if n = 0 ∧ s.bindLive b = true ∧ b.crew.getLsbD (c % 16) = true ∧ (s.insts.find b.inst).any (fun x => (s.leftOf b x.ctx true).isSome) then 2 else n

/-- The record that core c takes. -/
def State.bestRec (s : State) (c : Nat) : Option (Nat × Bind) := s.winner (clOf c) fun k b => s.idleWork c k b != 0

/-- Whether a record other than the running one's wins core c at a decision point (R161). -/
def State.lostTo (s : State) (c : Nat) : Bool := match (s.core c).run with
  | some r => (s.bestRec c).any fun p => p.1 != r.slot || p.2.inst != r.inst
  | none => false

/-- Whether `SLICE_DISPATCH` is due: an idle core that is not fenced, with a record to take. -/
def State.dispatchDue (s : State) (c : Nat) : Bool :=
  let k := s.core c
  k.run.isNone && !k.fenced && k.move.isNone && (s.bestRec c).isSome

/-- Marks the oldest n unreserved items for a walk (R152). -/
def reserve (w : Nat) : Nat → List QItem → List QItem
  | 0, l => l
  | _, [] => []
  | n + 1, i :: r => if i.by_ = 0 then { i with by_ := w } :: reserve w n r else i :: reserve w (n + 1) r

/-- A NEW WALK OF A STAGE on core c (R150 to R153): its reservation is one step. -/
def State.startWalk (s : State) (c inst stage : Nat) : State :=
  match s.insts.find inst with
  | none => s
  | some x =>
    match x.stages[stage]?, s.walks.find x.walk with
    | some g, some mw =>
      match s.startable g, mw.frames.head? with
      | some sel, some f =>
        let (w, s) := s.newId
        let ps := (List.range g.qs.length).zip g.qs
        let ins := ps.filter fun p => p.2.2.1 == 0 && (sel == -1 || sel == (p.1 : Int))
        let outs := ps.filter fun p => p.2.2.1 == 1
        let s := ins.foldl (fun (s : State) (p : Nat × Nat × Nat × Nat) =>
          s.updQ p.2.1 fun q => { q with items := reserve w p.2.2.2 q.items }) s
        let s := outs.foldl (fun (s : State) (p : Nat × Nat × Nat × Nat) =>
          s.updQ p.2.1 fun q => if 2 ≤ q.kind then q else { q with room := q.room + p.2.2.2 }) s
        let fr : Frame := { (f.setRes g.rec0 [.i64 (w64 sel)]) with ip := g.rec0 + 1, ctl := [] }
        let s := { s with walks := s.walks.upd w { inst := inst, stage := some stage, core := c, frames := [fr], st := 0, port := sel.toNat } }
        let s := s.updInst inst fun y =>
          { y with stages := setAt y.stages stage { g with started := true, walks := g.walks ++ [w] } }
        s.updSl c fun y =>
          { y with item := 0, yield := false,
                   walk := some ⟨w, ins.map fun p => (p.1, p.2.2.2), outs.map fun p => (p.1, p.2.2.2), false⟩ }
      | _, _ => s
    | _, _ => s

/-- A fresh slice with its context's defaults (R388). -/
def State.freshSlice (s : State) (ctx : Nat) : Slice × State :=
  let (id, s) := s.newId
  match s.ctx? ctx with
  | some x => ({ Slice.zero with id := id, e4sat := x.e4sat, rnddef := x.rnddef, seed := x.seed }, s)
  | none => ({ Slice.zero with id := id }, s)

/-- Enters a saved engine operation again on core c (R366, R384): a `SEND` reads its source when it is performed. -/
def State.reissue (s : State) (c : Nat) (e : EOp) : State :=
  let k := s.core c
  let late := e.unit == 2 && 0 < e.tstamp && e.tstamp < s.gcyc
  let o := { e with core := c, iss := k.ncyc, unit := if e.unit = 2 then 2 else k.copyUnit e.slot,
                    eff := if e.unit = 2 then Nat.max e.tstamp s.gcyc else e.eff,
                    work := match e.work with
                      | .send cap src len _ item => .send cap src len none item
                      | w => w }
  { (if late then s.updCl (clOf c) fun q => { q with late := q.late + 1 } else s) with eops := s.eops ++ [o] }

/-- A fresh slice with what an ended one of its record left: pending results and landings with their remaining ticks, the numbers of its timelines,
and its unstarted operations (R274, R374, R384). -/
def State.withLeft (s : State) (c : Nat) (y : Slice) (q : SRec) : State :=
  match q.sl with
  | none => s
  | some x =>
    let t := (s.dropRecs fun r => r.ctx == q.ctx && r.idx == q.idx).updSl c fun _ =>
      { y with id := x.id, tick := x.tick, pend := x.pend, lands := x.lands, scNew := x.scNew, tl0 := x.tl0, tl1 := x.tl1, tl2 := x.tl2, tl3 := x.tl3 }
    q.ops.foldl (fun (s : State) (e : EOp) => s.reissue c e) t

/-- `SLICE_DISPATCH` (R161, R162): a saved slice waits on the core for its restore; else a fresh one starts, with a new walk for a stage, and with
what an ended slice of the record left pending. -/
def execESliceDispatch (c : Nat) (s : State) : Host.Outcome State Fault Refusal :=
  if s.dispatchDue c then
    match s.bestRec c with
    | none => .next s
    | some (k, b) =>
      match s.insts.find b.inst with
      | none => .next s
      | some x =>
        let r : Run := ⟨k, x.ctx, b.inst, b.stage, b.pipe, b.deadline, b.budget⟩
        let put := fun (s : State) (y : Slice) => s.updCore c fun q =>
          { q.locksFor x.ctx with run := some r, sl := y, budget := b.budget, stop := .none, stopped := false, frzRun := 0 }
        let fresh := fun (s : State) =>
          let (y, s) := s.freshSlice x.ctx
          match s.leftOf b x.ctx false with
          | some q => (put s y).withLeft c y q
          | none => put s y
        match s.idleWork c k b with
        | 1 => .next (put s Slice.zero)
        | 2 => .next (fresh s)
        | _ => .next ((fresh s).startWalk c b.inst b.stage)
  else .next s

/-! ### Records after a slice (R162) -/

/-- DEADLINE += PERIOD of the running record, modulo 2^64. -/
def State.advance (s : State) (c : Nat) : State :=
  match (s.core c).run with
  | none => s
  | some r => s.updCl (clOf c) fun k => match k.binds.find r.slot with
    | some b => if b.inst = r.inst then { k with binds := k.binds.upd r.slot { b with deadline := b.deadline + BitVec.ofNat 64 b.period } } else k
    | none => k

/-- Whether a slice outside a stage walk has no tile left for its core (R162). -/
def State.noTile (s : State) (c : Nat) : Bool :=
  let k := s.core c
  match k.run with
  | none => false
  | some r => k.sl.walk.isNone && k.sl.orec.isNone && k.sl.shadow.isNone && !s.tileFor c r.inst false

/-- The core's copy operations that have not started. -/
def State.unstartedOps (s : State) (c : Nat) : List EOp :=
  let id := (s.sl c).id
  s.eops.filter fun e => e.sid == id && e.start.isNone && !e.ended

/-- Whether a slice's matrix work has ended: what remains cannot start, a drain whose group is not committed and what stands behind it. -/
def Core.matDone (k : Core) : Bool :=
  let mx := k.sl.mx
  (mx.ops.all fun o => o.path == 3 && o.start.isNone) && (match mx.head 3 with
    | some o => !mx.eligible (o.iss + 1) o
    | none => true)

/-- Whether an ending slice leaves something pending. -/
def State.leaves (s : State) (c : Nat) : Bool :=
  let x := s.sl c
  x.pend != [] || x.lands != [] || x.scNew != [] || s.unstartedOps c != []

/-- Whether a slice that is to end has drained: its matrix work has ended, the data of its loads is there (R332), and what it leaves pending has
a free record, or its context is yet to be stopped. -/
def State.drained (s : State) (c : Nat) : Bool :=
  let k := s.core c
  k.matDone && k.sl.lands.all (·.here) && (!s.leaves c || (match k.run with
    | some r => (s.freeRec r.ctx).isSome || (match s.ctx? r.ctx with
      | some x => !x.stopped
      | none => false)
    | none => false))

/-- Whether the walk of a core's slice has reached `endstage`, or its slice has no tile and, unless another record wins the core, no operation that
waits to start (R161, R162). -/
def State.atBoundary (s : State) (c : Nat) : Bool :=
  match (s.sl c).walk with
  | some h => (s.walks.find h.walk).any (·.st == 2)
  | none => s.noTile c && (s.unstartedOps c == [] || s.lostTo c)

/-- Whether `ITEM_BOUNDARY` is due: a decision point of the running slice (R161), or the end of one that is to end. -/
def State.boundaryDue (s : State) (c : Nat) : Bool :=
  let k := s.core c
  k.run.isSome && k.sl.id != 0 && (match k.stop with
    | .finish => s.drained c
    | .again => s.drained c
    | .none => s.atBoundary c
    | .preempt _ => s.atBoundary c
    | _ => false)

/-- The end of a walk (R153, R154): its unused room is released, DRAINING and DONE follow. -/
def State.endWalk (s : State) (c : Nat) (h : WalkHold) (r : Run) : State :=
  let s := h.outs.foldl (fun (s : State) (p : Nat × Nat) => match s.portOf c p.1 with
    | some (q, _, _) => s.updQ q fun y => if 2 ≤ y.kind then y else { y with room := y.room - p.2 }
    | none => s) s
  let s := s.updSl c fun x => { x with walk := none, item := 0 }
  let s := { (s.updInst r.inst fun x => { x with stages := x.stages.map fun g => { g with walks := g.walks.filter (· != h.walk) } }) with
    walks := s.walks.erase h.walk }
  s.settlePipe r.inst

/-- A slice that ends leaves its pending results and its unstarted operations in a record (R274, R384). -/
def State.saveLeft (s : State) (c i : Nat) (r : Run) : State :=
  let x := s.sl c
  let ops := s.unstartedOps c
  let t := s.putRec { ctx := r.ctx, idx := i, kind := 1, resume := x.pc, run := r, ops := ops, walk := 0, lop := 0, left := true,
                      sl := some { Slice.zero with id := x.id, tick := x.tick, pend := x.pend, lands := x.lands, scNew := x.scNew,
                                                   tl0 := x.tl0, tl1 := x.tl1, tl2 := x.tl2, tl3 := x.tl3 } }
  { t with eops := t.eops.filter fun e => !ops.contains e }

/-- The end of a drained slice: what it leaves is saved; its record's suspended walk takes its place on the core under `again`. -/
def State.endSliceOn (s : State) (c : Nat) (r : Run) (again : Bool) : State :=
  let go := fun (t : State) => if again then t.updCore c fun k => { k with sl := Slice.zero, stop := .none, stopped := false, extra := 0 } else t.dropSlice c
  let stays := again && (match (s.cluster (clOf c)).binds.find r.slot with
    | some b => b.inst == r.inst && (s.savedOf b r.ctx).isSome
    | none => false)
  if s.leaves c then match s.freeRec r.ctx with
    | none => s.saveFull r.ctx c
    | some i => (if stays then go else fun t => t.dropSlice c) (s.saveLeft c i r)
  else (if stays then go else fun t => t.dropSlice c) s

/-- `ITEM_BOUNDARY` (R161, R162): the slice goes on if its record wins again, with a new walk, its tiles, or its record's suspended walk; else it
ends. -/
def execEItemBoundary (c : Nat) (s : State) : Host.Outcome State Fault Refusal :=
  let k := s.core c
  if s.boundaryDue c = false then .next s
  else match k.run with
    | none => .next s
    | some r =>
      match k.stop with
      | .finish => .next (s.endSliceOn c r false)
      | .again => .next (s.endSliceOn c r true)
      | _ =>
        let t := match k.sl.walk with
          | some h => s.endWalk c h r
          | none => s
        let stop := fun (t : State) (q : StopReq) => t.updCore c fun k => { k with stop := q }
        let own := match (t.cluster (clOf c)).binds.find r.slot with
          | some b => if b.inst = r.inst then t.workOf c r.slot b else 0
          | none => 0
        if k.sl.walk.isSome && k.sl.yield then .next (stop (t.advance c) .finish)
        else if k.stop ≠ .none ∨ k.move.isSome ∨ own = 0 then .next (stop t .finish)
        else if t.lostTo c then .next (stop (t.advance c) .finish)
        else .next (match own with
          | 1 => stop t .again
          | 2 => t
          | _ => t.startWalk c r.inst r.stage)

/-! ### Budget and pre-emption (R162, R163, R394) -/

/-- Whether a slice runs on a core and nothing has stopped it. -/
def Core.live (k : Core) : Bool := k.run.isSome && k.sl.id != 0 && (match k.stop with
  | .none => true
  | .preempt _ => !k.stopped
  | _ => false)

/-- `BUDGET` (R162): the hard step at once, a BUDGET trap, DEADLINE += PERIOD. -/
def execEBudget (c : Nat) (s : State) : Host.Outcome State Fault Refusal :=
  let k := s.core c
  if k.live && k.budget == 0 then
    match k.run with
    | none => .next s
    | some r =>
      let w := s.recWords c
      let t := s.trapRec r.ctx 0x64 (recFunc w) (recOff w) (if w = [] then 2 ^ 32 - 1 else recTile w) 0xFFFF 0 c 0 0 0
        (BitVec.ofNat 64 (r.budget % 2 ^ 32 + r.stage % 16 * 2 ^ 32)) 0 0
      .next ((t.advance c).updCore c fun q => { q with stop := .budget })
  else .next s

/-- Requests pre-emption of the slice on a core: at an operator boundary it stops at once (R394). -/
def State.preempt (s : State) (c : Nat) : State :=
  s.updCore c fun k => k.askStop s.ccyc

/-- `PREEMPTION_REQUEST` (R163). -/
def execEPreempt (c : Nat) (s : State) : Host.Outcome State Fault Refusal := .next (s.preempt c)

/-- Whether an RT record that core c could take has an earlier effective deadline than the running one's (R163). -/
def State.rtDue (s : State) (c : Nat) : Bool :=
  let k := s.core c
  k.run.isSome && k.stop == .none && k.sl.id != 0 && (match k.run with
    | none => false
    | some r =>
      let now := match (s.cluster (clOf c)).binds.find r.slot with
        | some b => s.effOf (clOf c) b
        | none => r.deadline.toNat
      (s.cluster (clOf c)).binds.any fun p => p.1 != r.slot && p.2.cls == 0 && s.workOf c p.1 p.2 != 0 && decide (s.effOf (clOf c) p.2 < now))

/-- `HARD_STOP` (R394): 4,096 cycles after the request, at a bundle boundary; a freeze delays it. -/
def execEHardStop (c : Nat) (s : State) : Host.Outcome State Fault Refusal :=
  let k := s.core c
  match k.stop with
  | .preempt r => .next (if r + 4096 ≤ s.ccyc ∧ k.stopped = false ∧ k.frzRun = 0 then s.setCore c { k with stopped := true } else s)
  | _ => .next s

/-! ### Save and restore (R322, R384, R394 to R397) -/

/-- Whether a slice is stopped to be saved. -/
def Core.saving (k : Core) : Bool := k.run.isSome && k.sl.id != 0 && (match k.stop with
  | .held => true
  | .budget => true
  | .suspend => true
  | .preempt _ => k.stopped
  | _ => false)

/-- A matrix instruction that must end before a save: one that has started on the feed, array or Glaze path, or an `MMAG` (R315, R322). -/
def MOp.blocks (o : MOp) : Bool :=
  (o.start.isSome && o.path != 0 && !o.again) || o.gangs

/-- Whether the drain before a save has ended: matrix work, and the data of every load (R332). -/
def Core.quiet (k : Core) : Bool := !k.sl.mx.ops.any MOp.blocks && k.sl.lands.all (·.here)

/-- The timeline number that an abandoned load of the shadow bank keeps (R322). -/
def MOp.abandoned (o : MOp) : Option (WSrc × Nat) :=
  match o.work with
  | .ldw w _ => if o.start.isSome then some (w, o.num) else none
  | .reload true w (some n) => some (w, n)
  | _ => none

/-- The matrix engine as a record saves it: banks by their source records, feeds by their logs, unstarted instructions (R322). -/
def Matrix.save (mx : Matrix) : Matrix :=
  let ab := (mx.ops.filterMap MOp.abandoned).head?
  let shd : Bank := match ab with
    | some (w, _) => { mode := w.mode, src := some w, rows := [], perr := 0 }
    | none => { mx.shd with rows := [], perr := 0 }
  let kept := mx.ops.filter fun o => !o.again && o.start.isNone
  let re : List MOp := match ab with
    | some (w, n) => [⟨0, 0, 0, 0, none, 0, 0, [], 0, 0, .reload true w (some n)⟩]
    | none => []
  { mx with act := { mx.act with rows := [], perr := 0 }, shd := shd, f0 := { mx.f0 with rows := [] }, f1 := { mx.f1 with rows := [] },
            ring := mx.ring.filter fun p => (mx.slot p.1).st != 0, ops := re ++ kept, replay := false }

/-- The matrix engine after a restore: repeats and replays stand before the saved instructions (R322). -/
def Matrix.restore (mx : Matrix) (id now : Nat) : Matrix × Nat :=
  let num := (mx.ops.filterMap MOp.abandoned).head?.map (·.2)
  let kept := mx.ops.filter fun o => !o.again
  let bank := fun (sh : Bool) (b : Bank) (n : Option Nat) => match b.src with
    | some w => [(0, MWork.reload sh w n)]
    | none => []
  let logs := fun (f1 : Bool) (b : Feed) => b.log.map fun e => (1, MWork.replay f1 e)
  let ws := bank false mx.act none ++ bank true mx.shd num ++ logs false mx.f0 ++ logs true mx.f1
  let re := ((List.range ws.length).zip ws).map fun p => (⟨id + p.1, p.2.1, 0, now, none, 0, 0, [], 0, 0, p.2.2⟩ : MOp)
  ({ mx with ops := re ++ kept.map fun o => { o with iss := now }, replay := !(re == [] && kept == []) }, id + ws.length)

/-- Whether `SLICE_SAVE` is due: a stopped slice has drained, and a record is free or the context is yet to be stopped. -/
def State.saveDue (s : State) (c : Nat) : Bool :=
  let k := s.core c
  k.saving && k.quiet && (match k.run with
    | some r => (s.freeRec r.ctx).isSome || (match s.ctx? r.ctx with
      | some x => !x.stopped
      | none => false)
    | none => false)

/-- `SLICE_SAVE` (R397): the slice's state, but for its generators (R33), goes to a record of its context, HELD after a trap; SAVE_FULL stops the
context when none is free. Started engine operations go on; unstarted ones are saved with it (R384). -/
def execESliceSave (c : Nat) (s : State) : Host.Outcome State Fault Refusal :=
  let k := s.core c
  if s.saveDue c then
    match k.run with
    | none => .next s
    | some r =>
      match s.freeRec r.ctx with
      | none => .next (s.saveFull r.ctx c)
      | some i =>
        let held := k.stop == .held
        let ops := s.unstartedOps c
        let x := { k.sl with mx := k.sl.mx.save, gens := [] }
        let rec_ : SRec := { ctx := r.ctx, idx := i, kind := if held then 2 else 0, resume := k.sl.pc, run := r, sl := some x, ops := ops,
                             walk := (k.sl.walk.map (·.walk)).getD 0, lop := 0 }
        let t := match k.sl.walk with
          | some h => s.updWalk h.walk fun w => { w with st := if held then 1 else if w.st = 0 then 3 else w.st }
          | none => s
        let t := t.putRec rec_
        let t := { t with eops := t.eops.filter fun e => !ops.contains e }
        .next (t.updCore c fun q =>
          { q with sl := Slice.zero, run := none, stop := .none, stopped := false, budget := 0, frzRun := 0, extra := 0 })
  else .next s

/-- The tiles of a stage walk, started or not, follow the walk to the core that resumes it (R110, R153). -/
def State.moveTiles (s : State) (w c : Nat) : State :=
  { s with lops := s.lops.map fun (p : Nat × LOp) =>
      if p.2.walk = w then (p.1, { p.2 with tiles := p.2.tiles.map fun t => (t.1, c, t.2.2) }) else p }

/-- The record that a core's dispatch has chosen. -/
def State.restoreRec (s : State) (c slot : Nat) : Option SRec :=
  match (s.core c).run with
  | some r => if (s.core c).sl.id = 0 then
      s.recs.find? fun q => q.ctx == r.ctx && q.idx == slot && q.kind < 2 && q.sl.isSome && !q.left && q.run.inst == r.inst && q.run.stage == r.stage
    else none
  | none => none

/-- `SLICE_RESTORE` (R395): the slice's state is on the core, its generators seeded anew (R33); pending results and landings keep their remaining
ticks; its walk goes on, and the walk's tiles with it (R110). -/
def execESliceRestore (c slot : Nat) (s : State) : Host.Outcome State Fault Refusal :=
  match s.restoreRec c slot with
  | none => .next s
  | some q => match q.sl with
    | none => .next s
    | some x =>
      let k := s.core c
      let (mx, id) := x.mx.restore s.ids k.ncyc
      let t := { s.dropRecs (fun r => r.ctx == q.ctx && r.idx == q.idx) with ids := id }
      let t := t.updCore c fun y => { y with sl := { x with mx := mx, pc := s.resumeOf q } }
      let t := match x.walk with
        | some h => (t.updWalk h.walk fun w => { w with st := if w.st = 3 then 0 else w.st, core := c }).moveTiles h.walk c
        | none => t
      .next (q.ops.foldl (fun (s : State) (e : EOp) => s.reissue c e) t)

end Sys2Proof.Machine
end

