-- ==== Sys2Proof/Machine/Knead.lean ====
section
/-! DEFINITION. SCHED's writes of bind records and KNCFG, Knead, the watchdog ladder, and the fence of a core (spec/05 R160, R163 to R167,
spec/13 R400). -/
namespace Sys2Proof.Machine

/-! ### Bind records (R160, R163) -/

/-- A record as the slot table holds it. -/
def bindOf (r : BindRec) : Bind :=
  { crew := r.crew, ctx := r.ctx % 64, stage := r.stage % 16, cls := r.cls % 4, minc := r.minc % 32, maxc := r.maxc % 32, pipe := r.pipe % 128,
    log := r.log, noknead := r.noknead, v := r.v, deadline := r.deadline, budget := r.budget % 2 ^ 32, period := r.period % 2 ^ 32,
    inst := r.inst }

/-- A journal entry; every 65,536th is a CHECKPOINT, and the ring holds as many (R437). -/
def State.journal (s : State) (typ : Nat) (data : List Nat) : State :=
  let n := s.ctl.jseq + 1
  let es : List JEnt := if n % 65536 = 0 then [⟨n, 5, []⟩, ⟨n + 1, typ, data⟩] else [⟨n, typ, data⟩]
  let l := s.ctl.journal ++ es
  { s with ctl := { s.ctl with journal := l.drop (l.length - 65536), jseq := s.ctl.jseq + es.length } }

/-- Whether SCHED is lost: it has failed, and SPARE does not stand in its place (R439). -/
def State.schedLost (s : State) : Bool := s.ctl.failed.contains 1 && s.ctl.spare != 1

/-- Whether SCHED acts: booted, not lost, and no take-over runs (R423, R438, R439). -/
def State.schedUp (s : State) : Bool := s.ctl.phase == 2 && s.ctl.takeover.isNone && !s.schedLost

/-- Writes slot k of a cluster: its journal entry first (R437); a running slice that loses its record is pre-empted (R163); a record that
counts as V = 0 sends SCHED an error message; pending moves of another record's slot are dropped. -/
def State.writeBind (s : State) (cl k : Nat) (b : Bind) : State :=
  let s := s.journal 1 [cl, k]
  let old := AMap.get Bind.zero (s.cluster cl).binds k
  let s := s.updCl cl fun q => { q with binds := q.binds.upd k b }
  let s := (List.range 16).foldl (fun (s : State) (l : Nat) =>
    let c := 16 * cl + l
    let s := if (s.core c).run.any (fun r => r.slot == k) && !(b.ok && b.crew.getLsbD l && b.inst == old.inst) then s.preempt c else s
    s.updCore c fun q => match q.move with
      | some (d, e, _) => if (d = k ∨ e = k) ∧ ¬(b.ok = true ∧ b.ctx = old.ctx ∧ b.pipe = old.pipe ∧ b.stage = old.stage) then { q with move := none } else q
      | none => q) s
  if b.v && !b.ok then (s.postMail 13 (0x20 + cl) (toBytes k 8)).2 else s

/-- The lowest slot of a cluster that holds no record. -/
def State.freeSlot (s : State) (cl : Nat) : Option Nat :=
  (List.range 64).find? fun k => !(AMap.get Bind.zero (s.cluster cl).binds k).v

/-- Writes the waiting record of a cluster that was needed first: to its own slot, or to a free one when there is one. -/
def State.writeNeed (s : State) (cl : Nat) : State :=
  match s.ctl.needs.find? fun n => n.1 == cl with
  | none => s
  | some n =>
    match if n.2.1 < 64 then some n.2.1 else s.freeSlot cl with
    | none => s
    | some k =>
      let t := s.writeBind cl k (bindOf n.2.2)
      { t with ctl := { t.ctl with needs := s.ctl.needs.erase n } }

/-- `BIND_RECORD_WRITE` (R160): SCHED writes a slot; a number from 64 on asks for any free slot, and waits when there is none. A take-over
delays the write (R438). -/
def execEBindWrite (cl slot : Nat) (r : BindRec) (s : State) : Host.Outcome State Fault Refusal :=
  let wait : State := { s with ctl := { s.ctl with needs := s.ctl.needs ++ [(cl, slot, r)] } }
  if 16 ≤ cl then .next s
  else if s.ctl.takeover.isSome then .next wait
  else if s.schedUp = false then .next s
  else if slot < 64 then .next ((s.writeBind cl slot (bindOf r)).writeNeed cl)
  else .next (wait.writeNeed cl)

/-- Whether a value of KNCFG keeps every field in its range (R165). -/
def kncfgOk (v : W64) : Bool :=
  let n := v.toNat
  let bh := bitsN n 40 5
  let il := bitsN n 0 5
  bitsN n 45 19 == 0 && bitsN n 19 21 == 0 && bitsN n 5 3 == 0 && decide (16 ≤ bh) && decide (bh ≤ 40) && decide (bitsN n 16 3 ≤ 4)
    && decide (1 ≤ bitsN n 8 8) && decide (12 ≤ il) && decide (il ≤ 20)

/-- Writes KNCFG of a cluster; a field outside its range leaves the register unchanged. -/
def State.setKncfg (s : State) (cl : Nat) (v : W64) : State :=
  if kncfgOk v && decide (cl < 16) then s.updCl cl fun k => { k with kncfg := v } else s

/-- `KNCFG_WRITE` (R165). -/
def execEKncfgWrite (cl : Nat) (v : BitVec 64) (s : State) : Host.Outcome State Fault Refusal := .next (s.setKncfg cl v)

/-! ### Knead (R164 to R166) -/

/-- Whether Knead moves cores of a record. -/
def Bind.kneads (b : Bind) : Bool := b.ok && !b.noknead

/-- The fill of a queue. -/
def Queue.fill (q : Queue) : Nat := 256 * q.items.length / Nat.max q.depth 1

/-- The largest fill of a stage's PLAIN and ORDERED queues on one side: roles 0 and 2, or 1 and 3. -/
def State.sideFill (s : State) (g : Stage) (out : Bool) : Nat :=
  maxN ((g.qs.filter fun p => (p.2.1 % 2 == 1) == out).filterMap fun p => match s.queues.find p.1 with
    | some q => if q.kind < 2 then some q.fill else none
    | none => none)

/-- P(s) of a record's stage. -/
def State.pressure (s : State) (b : Bind) : Int :=
  match (s.insts.find b.inst).bind fun x => x.stages[b.stage]? with
  | some g => (s.sideFill g false : Int) - s.sideFill g true
  | none => 0

/-- The crew size of slot k with pending moves made. -/
def State.sizeOf (s : State) (cl k : Nat) (b : Bind) : Int :=
  let cs := (List.range 16).map fun l => (s.core (16 * cl + l)).move
  let n := fun (p : Nat × Nat × W64 × Int × Int → Bool) => (cs.filter fun m => m.any p).length
  (popc b.crew.toNat 16 : Int) + n (fun m => m.2.1 == k) - n fun m => m.1 == k

/-- The core that a donor gives: the highest in its crew with HOLD 0 and no pending move. -/
def State.givable (s : State) (cl : Nat) (b : Bind) : Option Nat :=
  ((List.range 16).filter fun l => b.crew.getLsbD l && (s.core (16 * cl + l)).hold == 0 && (s.core (16 * cl + l)).move.isNone).getLast?

/-- The best of a list under a strict order, the lower stage number on a tie. -/
def bestStage (better : Int → Int → Bool) (l : List (Nat × Bind × Int)) : Option (Nat × Bind × Int) :=
  l.foldl (fun m x => match m with
    | none => some x
    | some y => if better x.2.2 y.2.2 || (x.2.2 == y.2.2 && x.2.1.stage < y.2.1.stage) then some x else some y) none

/-- The moves of one pipeline at a decision point; `ps` are its records with their pressures. -/
def State.kneadGo (cl thresh : Nat) (ps : List (Nat × Bind × Int)) : Nat → State → State
  | 0, s => s
  | n + 1, s =>
    let donors := ps.filter fun p => (p.2.1.minc : Int) < s.sizeOf cl p.1 p.2.1 && (s.givable cl p.2.1).isSome
    let takers := ps.filter fun p => s.sizeOf cl p.1 p.2.1 < (p.2.1.maxc : Int)
    match bestStage (fun a b => decide (a < b)) donors, bestStage (fun a b => decide (b < a)) takers with
    | some d, some e =>
      if d.1 = e.1 ∨ e.2.2 - d.2.2 < (thresh : Int) then s
      else match s.givable cl d.2.1 with
        | none => s
        | some l => State.kneadGo cl thresh ps n
            (s.updCore (16 * cl + l) fun k => { k with move := some (d.1, e.1, BitVec.ofNat 64 s.gcyc, d.2.2, e.2.2) })
    | _, _ => s

/-- The pipelines of a cluster: context index and PIPE. -/
def State.pipes (s : State) (cl : Nat) : List (Nat × Nat) :=
  ((s.cluster cl).binds.filter (·.2.kneads)).foldl (fun (l : List (Nat × Nat)) p =>
    if l.contains (p.2.ctx, p.2.pipe) then l else l ++ [(p.2.ctx, p.2.pipe)]) []

/-- Whether `KNEAD_DECISION` is due: GCYC is a multiple of the interval, and this decision point has not been taken. -/
def State.kneadDue (s : State) (cl : Nat) : Bool :=
  let v := (s.cluster cl).kncfg.toNat
  s.gcyc % 2 ^ bitsN v 0 5 == 0 && bitsN v 16 3 != 0 && (s.cluster cl).kneadAt != s.gcyc + 1

/-- `KNEAD_DECISION` (R164). -/
def execEKnead (cl : Nat) (s : State) : Host.Outcome State Fault Refusal :=
  if s.kneadDue cl then
    let v := (s.cluster cl).kncfg.toNat
    let t := (s.pipes cl).foldl (fun (t : State) (p : Nat × Nat) =>
      let rs := (s.cluster cl).binds.filter fun b => b.2.kneads && b.2.ctx == p.1 && b.2.pipe == p.2
      State.kneadGo cl (bitsN v 8 8) (rs.map fun b => (b.1, b.2, s.pressure b.2)) (bitsN v 16 3) t) s
    let t := (List.range 16).foldl (fun (t : State) (l : Nat) =>
      if (t.core (16 * cl + l)).hold = 0 then t else t.updCore (16 * cl + l) fun k => { k with hold := k.hold - 1 }) t
    .next (t.updCl cl fun k => { k with kneadAt := s.gcyc + 1 })
  else .next s

/-- Sets or clears a crew bit. -/
def Bind.setCrew (b : Bind) (l : Nat) (v : Bool) : Bind :=
  { b with crew := if v then b.crew ||| (1#16 <<< l) else b.crew &&& ~~~(1#16 <<< l) }

/-- R166's message. -/
def kneadMsg (at_ now pipe core d e : Nat) (pd pe : Int) : List Byte :=
  toBytes at_ 8 ++ toBytes now 8 ++ toBytes pipe 1 ++ toBytes core 1 ++ toBytes d 1 ++ toBytes e 1 ++ toBytes (bitsZ pd 16) 2
    ++ toBytes (bitsZ pe 16) 2 ++ List.replicate 8 0

/-- `KNEAD_MOVE` (R164, R166): local core k is idle, and its pending move takes effect. -/
def execEKneadMove (cl k : Nat) (s : State) : Host.Outcome State Fault Refusal :=
  let c := 16 * cl + k
  match (s.core c).move with
  | none => .next s
  | some (d, e, at_, pd, pe) =>
    if (s.core c).run.isSome then .next s
    else
      let bd := AMap.get Bind.zero (s.cluster cl).binds d
      let be := AMap.get Bind.zero (s.cluster cl).binds e
      let t := s.updCl cl fun q => { q with binds := (q.binds.upd d (bd.setCrew k false)).upd e (be.setCrew k true) }
      let t := t.updCore c fun q => { q with move := none, hold := 2 }
      .next (if bd.log || be.log then
        (t.postMail 13 (0x20 + cl) (kneadMsg at_.toNat s.gcyc bd.pipe c bd.stage be.stage pd pe)).2 else t)

/-! ### Fences (R400) -/

/-- Fences a core: its gang's `MMAG` breaks (R323); it leaves every crew, Knead and dispatch; SCHED is told of a record whose crew falls below MINC. -/
def State.fenceCore (s : State) (c : Nat) : State :=
  let l := c % 16
  let s := (s.breakGangs (s.core c).sl.mx.ops.length c).updCore c fun k => { k with fenced := true, move := none, hold := 0 }
  let low := (s.cluster (clOf c)).binds.filter fun p => p.2.ok && p.2.crew.getLsbD l && popc p.2.crew.toNat 16 - 1 < p.2.minc
  let s := s.updCl (clOf c) fun q => { q with binds := q.binds.map fun p => (p.1, p.2.setCrew l false) }
  low.foldl (fun (s : State) (p : Nat × Bind) => (s.postMail 13 (0x20 + clOf c) (toBytes p.1 8)).2) s

/-! ### The watchdog ladder (R167) -/

/-- A queue's consumer: its instance, stage number, stage and the queue's port. -/
def State.consumer (s : State) (q : Nat) : Option (Nat × Nat × Stage × (Nat × Nat × Nat)) :=
  match s.queues.find q with
  | none => none
  | some x => match s.insts.find x.inst with
    | none => none
    | some i =>
      (((List.range i.stages.length).zip i.stages).filterMap fun p =>
        (p.2.qs.find? fun u => u.1 == q && u.2.1 % 2 == 0).map fun u => (x.inst, p.1, p.2, u)).head?

/-- Whether a queue's timer runs. A stage that W2 kills counts as killed once its slices have ended: till then its timers run, towards W3 (DEDUCED,
log 22). -/
def State.wdtRuns (s : State) (q : Nat) (x : Queue) : Bool :=
  match s.consumer q with
  | none => false
  | some (i, k, g, u) =>
    let free := (x.items.filter (·.by_ == 0)).length
    let recs := (s.cluster x.cluster).binds.filter fun p => p.2.ok && p.2.inst == i && p.2.stage == k && p.2.crew != 0
    let runs := (s.coresWith fun r => r.inst == i && r.stage == k) != []
    (g.st < 2 || (g.st == 3 && runs)) && (match s.ctx? x.ctx with
      | some c => c.state == 1 || c.state == 2
      | none => false)
    && (if g.st = 3 then decide ((if u.2.1 = 0 then u.2.2 else 1) ≤ free) else if u.2.1 = 0 then decide (u.2.2 ≤ free) && recs != [] && ((s.startable g).isSome || recs.any fun p => (s.savedOf p.2 x.ctx).isSome)
      else decide (1 ≤ free) && runs)

/-- The time of a step of the ladder. -/
def wTime (k : Nat) : Nat := match k with
  | 1 => 2 ^ 20
  | 2 => 2 ^ 20 + 2 ^ 22
  | _ => 2 ^ 20 + 2 ^ 22 + 2 ^ 24

/-- Whether a step of the ladder is due. -/
def Queue.wDue (x : Queue) (k : Nat) : Bool := x.wstep < k && wTime k ≤ x.wdt

/-- The cores that run slices of a queue's consumer. -/
def State.consCores (s : State) (q : Nat) : List Nat := match s.consumer q with
  | some (i, k, _, _) => s.coresWith fun r => r.inst == i && r.stage == k
  | none => []

/-- Does a step of the ladder when it is due. -/
def State.ladder (s : State) (q k : Nat) (f : State → State) : State :=
  match s.queues.find q with
  | some x => if x.wDue k then (f s).updQ q fun y => { y with wstep := k } else s
  | none => s

/-- `W1`: pre-emption of every running slice of the consumer stage. -/
def execEW1 (q : Nat) (s : State) : Host.Outcome State Fault Refusal :=
  .next (s.ladder q 1 fun s => (s.consCores q).foldl (fun (s : State) (c : Nat) => s.preempt c) s)

/-- The function and the word offset of a stage's record. -/
def State.stageAt (s : State) (i : Nat) (g : Stage) : Nat × Nat :=
  match s.insts.find i with
  | none => (0xFFFF, 0)
  | some x =>
    (((s.walks.find x.walk).bind fun w => w.frames.head?.map (·.fn)).getD 0xFFFF,
     match (s.pipeBody x)[g.rec0]? with
     | some r => (lrecOf r).2.off
     | none => 0)

/-- `W2`: every slice of the consumer stage is killed, and the stage; QUEUE_WATCHDOG. -/
def execEW2 (q : Nat) (s : State) : Host.Outcome State Fault Refusal :=
  .next (s.ladder q 2 fun s => match s.consumer q with
    | none => s
    | some (i, k, g, _) =>
      let s := (s.consCores q).foldl (fun (s : State) (c : Nat) => s.updCore c fun y => { y with stop := .kill }) s
      let run := (s.consCores q).filterMap fun c => (s.sl c).walk.map (·.walk)
      let dead := g.walks.filter fun w => !run.contains w
      let s := { s.dropRecs (fun r => r.run.inst == i && r.run.stage == k && r.sl.isSome) with
                        walks := s.walks.filter fun p => !dead.contains p.1, lops := s.lops.filter fun p => !dead.contains p.2.walk }
      let s := s.updInst i fun x => { x with stages := setAt x.stages k { g with st := 3, walks := run } }
      match s.queues.find q with
      | some x =>
        let (f, o) := s.stageAt i g
        s.trapRec x.ctx 0x65 f o (2 ^ 32 - 1) 0xFFFF 0 (16 * x.cluster) 0 0 0 (BitVec.ofNat 64 (x.vq + k * 65536)) 0 0
      | none => s)

/-- `W3`: each core on which a slice of the consumer stage still runs is fenced; ERR is told. -/
def execEW3 (q : Nat) (s : State) : Host.Outcome State Fault Refusal :=
  .next (s.ladder q 3 fun s => (s.consCores q).foldl (fun (s : State) (c : Nat) =>
    ((s.fenceCore c).postMail 12 (0x20 + clOf c) (toBytes c 8)).2) s)

end Sys2Proof.Machine
end

