-- ==== Sys2Proof/Machine/Launch.lean ====
section
/-! DEFINITION. Launches: records and their checks, units, device launches, the start of instances, launches that span the group (spec/03
R76 to R78, spec/05 R168 to R172). -/
namespace Sys2Proof.Machine

/-! ### Launch records (R168, R169) -/

/-- A launch record's fields. -/
structure LaunchRec where
  func : Nat
  narg : Nat
  ldepth : Nat
  cso : Bool
  clmask : Nat
  qreg : Nat
  levels : List Level
  args : List Nat
  deriving DecidableEq, Repr

/-- The narrowest scope that a domain allows (R169). -/
def domainScope (d : Nat) : Nat := match d with
  | 0 => 3
  | 1 => 2
  | 2 => 2
  | 3 => 1
  | 4 => 1
  | _ => 0

/-- A list that does not fall. -/
def rising : List Nat → Bool
  | a :: b :: r => a ≤ b && rising (b :: r)
  | _ => true

/-- The fields of a record's words, when R169's checks on them hold; none refuses the launch. -/
def parseLaunch (ws : List Nat) : Option LaunchRec :=
  let w0 := ws.getD 0 0
  let w1 := ws.getD 1 0
  let nlev := bitsN w0 36 4
  let narg := bitsN w0 40 8
  let lw := (ws.drop 2).take nlev
  let ls : List Level := lw.map fun w => ⟨w % 8, bitsN w 3 2, w / 2 ^ 32⟩
  let ld := bitsN w0 31 5
  let q := bitsN w1 0 13
  let ok := nlev ≠ 0 && decide (nlev ≤ 8) && bitsN w0 0 30 == 0 && decide (1 ≤ ld) && decide (ld ≤ 16) && bitsN w1 13 35 == 0
    && decide (1 ≤ q) && decide (q ≤ 5120) && decide (ws.length = 2 + nlev + narg) && w1 / 2 ^ 48 != 0
    && lw.all (fun w => bitsN w 5 27 == 0 && w / 2 ^ 32 < 65536)
    && ls.all (fun l => l.domain < 6 && domainScope l.domain ≤ l.scope) && rising (ls.map (·.domain))
    && decide (prodN (ls.map (·.extent)) ≤ 2 ^ 24)
  if ok then some ⟨w0 / 2 ^ 48, narg, ld, bitN w0 30, w1 / 2 ^ 48, q, ls, ws.drop (2 + nlev)⟩ else none

/-- n bytes of a context's virtual memory, by its page tables; none where they cannot be read. -/
def State.readVA (s : State) (ctx va : Nat) : Nat → Option (List Byte)
  | 0 => some []
  | n + 1 => match s.ctx? ctx with
    | none => none
    | some x => match s.walk x.root va 0 with
      | .error _ => none
      | .ok p => match s.readVA ctx (va + 1) n with
        | none => none
        | some l => some (s.rd8 (bitsN p.2.2 12 34 * 4096 + va % 2 ^ pageBits p.2.1) :: l)

/-- The 32-bit words of a byte list. -/
def words32 : Nat → List Byte → List W32
  | 0, _ => []
  | n + 1, l => BitVec.ofNat 32 (ofBytes (l.take 4)) :: words32 n (l.drop 4)

/-- Words of a TENSOR descriptor whose word 0 is w (R59). -/
def descLen (w : Nat) : Nat :=
  let rank := bitsN w 4 4
  1 + rank + (if bitN w 13 then 2 * (rank - 1) else 0) + (if bitN w 12 then rank + 1 else 0)

/-- A tensor argument from the block at a virtual address, checked against its parameter; none refuses the launch (R168, R169). -/
def State.tensArg (s : State) (ctx va : Nat) (d : TDesc) : Option TRef :=
  match s.readVA ctx va 12 with
  | none => none
  | some hd =>
    let n := descLen (ofBytes (hd.drop 8))
    match s.readVA ctx va (8 + 4 * n) with
    | none => none
    | some bs =>
      match words32 n (bs.drop 8) with
      | w :: rest =>
        if w.toNat / 2 ^ 28 ≠ 0 then none
        else match parseTensor w rest with
          | .ok (t, []) =>
            let base := ofBytes (bs.take 8)
            if t.dims.any (·.isNone) ∨ 2 ^ 52 ≤ base then none
            else
              let ext := fillDyn t.dims []
              let u : TRef := { constRef t base with axes := d.axes, part := d.part, fixed := false }
              if (VDesc.ten d).agrees (.ten { u with whole := ext }) then some u else none
          | _ => none
      | [] => none

/-- The arguments of a host launch as values. -/
def State.launchArgs (s : State) (ctx : Nat) (ps : List VDesc) (as_ : List Nat) : Option (List Val) :=
  let vs := (ps.zip as_).map fun p => match p.1 with
    | .i64 => some (Val.i64 (BitVec.ofNat 64 p.2))
    | .tok => if p.2 = 0 then some (.tok 0) else none
    | .ten d => (s.tensArg ctx p.2 d).map Val.ten
  if vs.all (·.isSome) ∧ ps.length = as_.length then some (vs.filterMap id) else none

/-! ### Units (R170) -/

/-- The index of a kind: the mixed-radix number of an instance's indices at the levels bound to it. -/
def kindIdx (ls : List Level) (i k : Nat) : Nat :=
  let ix := levelIdx (ls.map (·.extent)) i
  ((ls.zip ix).filter fun p => p.1.domain == k).foldl (fun n p => n * p.1.extent + p.2) 0

/-- Units of a kind among cores: the number of the unit that a core lies in. -/
def unitKey (k core : Nat) : Nat := match k with
  | 2 => core / 128
  | 3 => core / 16
  | 4 => core / 4
  | 5 => core
  | _ => 0

/-- The cores of an instance's unit on its chip, kind by kind from the coarsest. -/
def unitCores (ls : List Level) (clmask i : Nat) : List Nat :=
  (List.range 6).foldl (fun (cs : List Nat) (k : Nat) =>
    if ls.any fun l => l.domain == k then
      let keys := cs.foldl (fun (l : List Nat) c => if l.contains (unitKey k c) then l else l ++ [unitKey k c]) []
      let u := keys.getD (kindIdx ls i k % Nat.max keys.length 1) 0
      cs.filter fun c => unitKey k c == u
    else cs) ((List.range 256).filter fun c => bitN clmask (c / 16))

/-- LEAD (R193). -/
def Group.lead (g : Group) : Nat := 1024 + g.d * (g.h + 128)

/-- The members of the group in ascending chip number (R198, R204). -/
def Group.members (g : Group) : List Nat := (g.tbl.filter fun p => p.2.st == 2).map (·.1)

/-- The chip of an instance: this one unless the launch spans the group. -/
def State.unitChip (s : State) (l : Launch) (i : Nat) : Nat :=
  if l.group then l.chips.getD (kindIdx l.levels i 0 % Nat.max l.chips.length 1) s.group.chip else s.group.chip

/-- Where instance i of a launch runs: chip and cores. -/
def State.unitOf (s : State) (l : Launch) (i : Nat) : Nat × List Nat := (s.unitChip l i, unitCores l.levels l.clmask i)

/-! ### Host launches (R169, R171, R172) -/

/-- The context that holds chip-scratch ownership. -/
def State.csoHolder (s : State) : Option Nat := (s.ctxs.find? fun p => p.2.cso && p.2.state != 3).map (·.1)

/-- The clusters of a mask that new launches use: none that is fenced; those with no fenced engine, if there are any (R400). -/
def State.openMask (s : State) (m : Nat) : Nat :=
  let mask := fun (p : Nat → Bool) => ((List.range 16).filter fun j => bitN m j && p j).foldl (fun (n : Nat) (j : Nat) => n + 2 ^ j) 0
  let k := mask fun j => (s.cluster j).fences == []
  if k = 0 then mask fun j => !(s.cluster j).fences.contains 12 else k

/-- A new launch; the first of a context that spans more than one chip installs its collective capabilities (R189). -/
def State.addLaunch (s : State) (l : Launch) : Nat × State :=
  let (n, t) := (if 1 < l.chips.length then s.installPeers l.ctx else s).newId
  (n, { t with launches := t.launches.upd n { l with clmask := s.openMask l.clmask } })

/-- A checked host launch of a record's words; none refuses it. -/
def State.hostLaunch (s : State) (ctx obj : Nat) (ws : List Nat) : Option (LaunchRec × List Val) :=
  match parseLaunch ws, s.ctx? ctx, s.objs.find obj with
  | some r, some x, some o =>
    match o.funcs[r.func]? with
    | none => none
    | some f =>
      if f.entry = false ∨ x.state = 3 ∨ x.objs.contains obj = false ∨ r.narg ≠ f.params.length
          ∨ (r.cso = true ∧ s.csoHolder.any (· != ctx) = true) then none
      else (s.launchArgs ctx f.params r.args).map fun vs => (r, vs)
  | _, _, _ => none

/-- The launch that a checked record makes. -/
def mkLaunch (r : LaunchRec) (vs : List Val) (ctx obj : Nat) (host src : Option (Nat × Nat)) (chips : List Nat) : Launch :=
  { ctx := ctx, obj := obj, func := r.func, args := vs, levels := r.levels, ldepth := r.ldepth, depth := 0, cso := r.cso,
    clmask := r.clmask, qreg := r.qreg, host := host, parent := none, src := src, group := (r.levels.headD ⟨1, 0, 0⟩).domain == 0,
    next := 0, b := 0, marks := [], killed := false, done := false, chips := chips }

/-- A context takes chip-scratch ownership. -/
def State.takeCso (s : State) (ctx : Nat) (on : Bool) : State :=
  if on then (s.updCtx ctx fun x => { x with cso := true }).syncCtx ctx else s

/-! ### Commands (R431, R436, R438, R439) -/

/-- Whether a completion entry of queue q waits for room. -/
def State.cqFull (s : State) (q : Nat) : Bool :=
  s.ctl.compl.any (fun c => c.queue == q) && (match s.ctl.qbase.find (64 + q) with
    | some a => (match s.ring (ctlKey a) with
      | some (h, t, _, d) => decide (d ≤ (t + 2 ^ 64 - h) % 2 ^ 64)
      | none => false)
    | none => false)

/-- A COMMAND as PARSE takes it: none before boot has ended or when PARSE has failed; it waits while its completion queue is full, and
one that SCHED handles during a take-over. -/
def State.command (s : State) (h : CmdHdr) (i : Instr) (sched : Bool) (f : State → State) : Host.Outcome State Fault Refusal :=
  if s.ctl.phase ≠ 2 ∨ s.ctl.failed.contains 0 = true then .next s
  else if s.cqFull h.queue ∨ (sched ∧ s.ctl.takeover.isSome) then .next { s with ctl := { s.ctl with wait := s.ctl.wait ++ [i] } }
  else .next (f s)

/-- The header of a command. -/
def cmdHdr : Instr → Option CmdHdr
  | .cLoad h _ _ => some h
  | .cUnload h _ _ => some h
  | .cCtxnew h _ => some h
  | .cCtxkill h _ => some h
  | .cMap h _ _ => some h
  | .cUnmap h _ _ => some h
  | .cLaunch h _ _ _ => some h
  | .cRelease h _ _ => some h
  | .cUnstop h _ => some h
  | .cLimit h _ => some h
  | .cAttest h _ => some h
  | _ => none

/-- Whether an input is a command of queue q. -/
def ofQueue (q : Nat) (i : Instr) : Bool := (cmdHdr i).any fun h => h.queue == q

/-- A command's final completion entry (R435). -/
def State.finish (s : State) (h : CmdHdr) (status result : Nat) (report : List Byte) : State :=
  s.complete h.queue (complBytes h.seq 0 status result report) 0 0

/-- `LAUNCH` (R169, R434): SCHED_LOST, LAUNCH_REFUSED, or the launch and, for one that spans the group, its record to every other member. A member
that holds no context of that CTXID refuses: the model takes its answer from the header's choices (DESIGN CHOICE, log 17). -/
def execCLaunch (h : CmdHdr) (ctx addr obj : Nat) (s : State) : Host.Outcome State Fault Refusal :=
  s.command h (.cLaunch h ctx addr obj) true fun s =>
    let nw := 2 + bitsN (s.rdN addr 8) 36 4 + bitsN (s.rdN addr 8) 40 8
    let ws := (List.range nw).map fun k => s.rdN (addr + 8 * k) 8
    if s.schedLost then s.finish h 6 0 []
    else match s.hostLaunch ctx obj ws with
      | none => s.finish h 4 0 []
      | some (r, vs) =>
        let grp := (r.levels.headD ⟨1, 0, 0⟩).domain == 0
        if grp && (s.group.stOf s.group.chip != 2 || h.place != []) then s.finish h 4 0 []
        else
          let chips := s.group.members
          let s := s.journal 2 [h.queue, h.seq]
          let (n, t) := s.addLaunch (mkLaunch r vs ctx obj (some (h.queue, h.seq)) none (if grp then chips else []))
          let t := t.takeCso ctx r.cso
          let t := if grp then
              { t with group := { t.group with reports := t.group.reports
                  ++ (chips.filter (· != s.group.chip)).map fun c => (c, [0, ctx, obj, n] ++ ws) } } else t
          t.release n

/-- `FORWARDED_LAUNCH_RECORD` (R172): this member runs its share; the instances of other chips count as complete in its own window. -/
def execEFwdLaunch (ctx : Nat) (words : List (BitVec 64)) (src obj seq : Nat) (s : State) : Host.Outcome State Fault Refusal :=
  match s.hostLaunch ctx obj (words.map (·.toNat)) with
  | none => .next s
  | some (r, vs) =>
    if s.group.stOf s.group.chip ≠ 2 ∨ s.group.stOf src ≠ 2 then .next s
    else
      let l := mkLaunch r vs ctx obj none (some (src, seq)) s.group.members
      let away := (List.range l.total).filter fun i => s.unitChip l i != s.group.chip
      let (n, t) := s.addLaunch { l with marks := away.map fun i => (i, false) }
      .next ((t.takeCso ctx r.cso).release n)

/-- `MEMBER_INSTANCE_COMPLETION` (R172): a report of an instance that is marked already is discarded. -/
def execEMemberDone (l i : Nat) (killed : Bool) (s : State) : Host.Outcome State Fault Refusal := .next (s.mark l i killed)

/-! ### Device launches (R76 to R78) -/

/-- LREC's levels with their extents. -/
def lrecLevels (r : LRec) (exts : List Int) : List Level :=
  let p := ((r.attr 6).getD []).map (·.toNat)
  (List.range (p.headD 0 % 16)).map fun l =>
    let w := p.getD (1 + l) 0
    ⟨w % 8, bitsN w 3 2, (exts.getD l 0).toNat⟩

/-- A tensor as a parameter: it has no handle and is complete (R100); the child's instances split it by the parameter's own sharding (R63, R84). -/
def TRef.asParam (t : TRef) (d : Option VDesc) : TRef :=
  let u := { t with hnd := none, gen := 0, alloc := 0, prod := 0, whole := t.ext }
  match d with
  | some (.ten d) => { u with axes := d.axes, part := d.part }
  | _ => u

/-- `launch` (R76). -/
def execLLaunch (w : Nat) (r : LRec) (s : State) : Host.Outcome State Fault Refusal :=
  runSeq w r (fun c => do
    let s ← get
    let vs := c.vals r
    if vs.any fun v => !v.stands s c then waitQ
    else
      let nlev := r.word 6 0 % 16
      let args := vs.drop nlev
      match (tensorsOf args).find? fun t => t.base.toNat / 2 ^ 62 < 2 with
      | some t => trapQ 0x57 (Config.freeWord s.fresh) (t.hnd.getD 0xFFFF)
      | none =>
        match s.launches.find c.inst.launch, s.ctx? c.ctx with
        | some l, some x =>
          let exts := (vs.take nlev).map Val.int
          let st : Nat := if l.ldepth < l.depth + 1 then 1 else if 128 ≤ x.pool then 2
            else if exts.any (65535 < ·) ∨ 2 ^ 24 < prodN (exts.map Int.toNat) then 3 else 0
          if st ≠ 0 then doneQ c [.tok 0, .i64 (BitVec.ofNat 64 st)]
          else
            let k : Launch :=
              { ctx := c.ctx, obj := c.inst.obj, func := r.word 5 0, args := ((List.range args.length).zip args).map (fun p => match p.2 with
                  | .ten t => .ten (t.asParam ((c.obj.funcs[r.word 5 0]?).bind fun g => g.params[p.1]?))
                  | v => v),
                levels := lrecLevels r exts, ldepth := l.ldepth, depth := l.depth + 1, cso := false, clmask := l.clmask, qreg := l.qreg,
                host := none, parent := some c.wk.inst, src := none, group := false, next := 0, b := 0, marks := [], killed := false,
                done := false, chips := [] }
            let (n, s) := s.addLaunch k
            let s := s.updCtx c.ctx fun y => { y with pool := y.pool + 1 }
            set ((s.updInst c.wk.inst fun y => { y with kids := y.kids ++ [n] }).release n)
            doneQ c [.tok n, .i64 0]
        | _, _ => waitQ) s

/-- `syncchild` (R78): with no operand it waits for every child so far. -/
def execLSyncchild (w : Nat) (r : LRec) (s : State) : Host.Outcome State Fault Refusal :=
  runSeq w r (fun c => do
    let s ← get
    let ks := if r.opds = [] then c.inst.kids else (c.vals r).map Val.prod
    if ks.all s.opDone then
      let bad := ks.any fun n => match s.launches.find n with
        | some l => l.killed
        | none => false
      doneQ c [.i64 (if bad then 1 else 0)]
    else waitQ) s

/-! ### The start of an instance (R171, R173) -/

/-- Whether an instance has completed, here or in its launch's window. -/
def State.instOver (s : State) (n : Nat) (l : Launch) (i : Nat) : Bool :=
  i < l.b || (l.marks.any fun p => p.1 == i) || (match s.insts.find (n * 2 ^ 24 + i) with
    | some x => x.done
    | none => false)

/-- Whether instance i of launch n may start: its window, its unit, its bind records, its context; children in order of launch. -/
def State.startDue (s : State) (n i : Nat) : Bool :=
  match s.launches.find n with
  | none => false
  | some l =>
    let u := s.unitOf l i
    !l.done && i < l.total && i < l.b + 256 && u.1 == s.group.chip && u.2 != [] && u.2.all (fun c => !(s.cluster (clOf c)).fences.contains 12)
      && (s.insts.find (n * 2 ^ 24 + i)).isNone
      && !(l.marks.any fun p => p.1 == i) && l.b ≤ i
      && ((List.range i).drop l.b).all (fun j => s.unitOf l j != u || s.instOver n l j)
      && (match s.ctx? l.ctx with
        | some x => x.state == 1
        | none => false)
      && ((s.cluster (clOf (u.2.headD 0))).binds.any fun p => p.2.ok && p.2.inst == n * 2 ^ 24 + i)
      && (l.parent.isNone || s.launches.all fun p => n ≤ p.1 || p.2.parent.isNone || p.2.ctx != l.ctx || p.2.done || p.2.next != 0)

/-- `INSTANCE_START`: a walk of the launch's function, whose tensor parameters are the instance's own blocks (R63). -/
def execEInstStart (l i : Nat) (s : State) : Host.Outcome State Fault Refusal :=
  if s.startDue l i then
    match s.launches.find l with
    | none => .next s
    | some x =>
      let u := s.unitOf x i
      let id := l * 2 ^ 24 + i
      let lev := x.levels.map (·.extent)
      let (w, s) := s.newId
      let inst : Inst :=
        { launch := l, idx := i, ctx := x.ctx, obj := x.obj, cluster := clOf (u.2.headD 0), cores := u.2, chip := u.1, walk := w, colls := [],
          kids := [], stages := [], ewalks := [], pipe := 0, started := true, done := false, killed := false }
      let ps := x.args.map fun v => match v with
        | .ten t => Val.ten (t.ownBlock lev i)
        | v => v
      .next { s with insts := s.insts.upd id inst,
                     walks := s.walks.upd w { inst := id, stage := none, core := 0, frames := [⟨x.func, 0, [], ps, []⟩], st := 0, port := 0 },
                     launches := s.launches.upd l { x with next := x.next + 1 } }
  else .next s

end Sys2Proof.Machine
end

