-- ==== Sys2Proof/Machine/Coll.lean ====
section
/-! DEFINITION. Collectives: dispatch, matching, arithmetic, the lowered operators, faults (spec/06 R175 to R188, R202, R205). A collective
is carried out whole when every member is ready (DESIGN CHOICE, log 9); members on other chips give their sources as inputs (DESIGN CHOICE, log 17). -/
namespace Sys2Proof.Machine

/-! ### Arithmetic (R180, R184 to R186) -/

/-- TREE over the ranks: d = 1, 2, 4, … (R186). -/
def treeColl {α : Type} (op : α → α → α) : Nat → List α → List α
  | 0, l => l
  | k + 1, l =>
    let rec pairs : List α → List α
      | a :: b :: r => op a b :: pairs r
      | l => l
    treeColl op k (pairs l)

/-- A list from rank c + 1 on, round to c (R185). -/
def ringFrom {α : Type} (c : Nat) (l : List α) : List α := l.drop ((c + 1) % Nat.max l.length 1) ++ l.take ((c + 1) % Nat.max l.length 1)

/-- The reduction of one element over the ranks, in the order of the algorithm. -/
def foldColl {α : Type} (op : α → α → α) (e : α) (tree : Bool) (c : Nat) (l : List α) : α :=
  match if tree then treeColl op (Nat.log2 (Nat.max l.length 1) + 1) l else ringFrom c l with
  | [] => e
  | x :: r => if tree then x else r.foldl op x

/-- One reduced element (R180): integers reduce exactly, else on the FP32 type; it converts at once to the destination. -/
def collEl (fn sf df : Nat) (sat tree : Bool) (c : Nat) (xs : List (Arg × Nat)) : El :=
  let trn := sumN (xs.map fun x => x.1.trn x.2)
  if isIntF sf ∧ isIntF df then ⟨.exact (.int (foldColl (redInt fn) 0 tree c (xs.map fun x => x.1.int x.2))), 0, trn, 0, 0⟩
  else ⟨.exact (foldColl (redNum fn) Num.zero tree c (xs.map fun x => r32 (x.1.f32 sat x.2).1)), sumN (xs.map fun x => (x.1.f32 sat x.2).2), trn, 0, 0⟩

/-- Tensors joined along an axis, the scale of each element's block with it. -/
def Arg.join (ax : Nat) (l : List Arg) : Arg :=
  let a := l.headD .zero
  let ns := l.map fun b => b.ext.getD ax 0
  let e := setAt a.ext ax (sumN ns)
  let pick := fun (f : Arg → List Nat) => (indices e).map fun ix => match catAt ns (ix.getD ax 0) 0 with
    | some (k, j) => match l[k]? with
      | some b => (f b).getD (linOf b.ext (setAt ix ax j)) 0
      | none => 0
    | none => 0
  { a with ext := e, codes := pick (·.codes), scales := if a.mx then pick (·.scales) else [] }

/-- Bytes that a tensor occupies when it is dense, the scales of an MX pair included. -/
def Arg.bytes (a : Arg) : Nat :=
  prodN a.ext.dropLast * (packedBytes a.fmt (a.ext.getLastD 0) + if a.mx then cdiv (a.ext.getLastD 0) 32 else 0)

/-- Whether ALG selects TREE for an `ared` (R184). -/
def useTree (alg bytes : Nat) : Bool := alg == 2 || (alg == 0 && decide (bytes < 262144))

/-! ### One collective (R178 to R187) -/

/-- A collective on operand k of an operator: `op` is 0 `ared`, 1 `agath`, 2 `rscat`, 3 `a2a`. -/
structure CollOp where
  op : Nat
  fn : Nat
  ax : Nat
  cax : Nat
  alg : Nat
  k : Nat
  deriving DecidableEq, Repr

/-- AXIS of a collective. -/
def collAxis (r : LRec) : Nat := r.word 0x101 0 % 16

/-- An inserted operator as a collective: it adds, with ALG AUTO (R187, R188). -/
def LStep.coll (k : Nat) : LStep → Option CollOp
  | .ared _ => some ⟨0, 0, 0, 0, 0, k⟩
  | .agath _ ax => some ⟨1, 0, ax, 0, 0, k⟩
  | .rscat _ ax => some ⟨2, 0, ax, 0, 0, k⟩
  | .a2a _ ax cax => some ⟨3, 0, ax, cax, 0, k⟩
  | .blk _ _ => none
  | .part => none

/-- An explicit collective (R176). -/
def explColl (op : Nat) (r : LRec) : CollOp := ⟨op, r.word 0x100 0 % 4, collAxis r, r.word 0x104 0 % 16, r.word 0x103 0 % 4, 0⟩

/-- Whether an operator is an explicit collective. -/
def LOp.expl (o : LOp) : Option CollOp :=
  let r := (lrecOf o.ins).2
  match o.ins with
  | .lAred _ _ => some (explColl 0 r)
  | .lAgath _ _ => some (explColl 1 r)
  | .lRscat _ _ => some (explColl 2 r)
  | .lA2a _ _ => some (explColl 3 r)
  | _ => none

/-- The collective that an operator waits for: its own, or the next one that lowering has inserted. -/
def LOp.coll (o : LOp) : Option CollOp := o.expl <|> match o.steps with
  | (k, st) :: _ => st.coll k
  | [] => none

/-- The format of a collective's result: the destination's of an explicit one, the operand's of an inserted one. -/
def LOp.collFmt (o : LOp) (a : Arg) : Nat × Bool :=
  match o.expl, o.outs with
  | some _, d :: _ => (d.fmt, d.mx)
  | _, _ => (a.fmt, a.mx)

/-- The extents and the elements, in format df, of the result at a rank from every member's source in rank order (R180 to R186); the operand at
fault where the extents do not fit. -/
def CollOp.out (q : CollOp) (df : Nat) (sat : Bool) (xs : List Arg) (rank : Nat) : Except Nat (List Nat × (Nat → El)) :=
  let a := xs.headD .zero
  let p := Nat.max xs.length 1
  let raw := fun (b : Arg) => Except.ok (b.ext, fun i => El.of (b.raw i))
  match q.op with
  | 0 =>
    let blk := Nat.max (cdiv (prodN a.ext) p) 1
    .ok (a.ext, fun i => collEl q.fn a.fmt df sat (useTree q.alg a.bytes) (i / blk) (xs.map (·, i)))
  | 1 => raw (Arg.join q.ax xs)
  | 2 =>
    let e := a.ext.getD q.ax 0
    let off := blockOff [xs.length] [rank] e 0
    let ext := setAt a.ext q.ax (blockExt [xs.length] [rank] e 0)
    .ok (ext, fun i =>
      let ix := levelIdx ext i
      collEl q.fn a.fmt df sat false rank (xs.map (·, linOf a.ext (setAt ix q.ax (ix.getD q.ax 0 + off)))))
  | _ =>
    if xs.any fun x => x.ext.getD q.ax 0 % p != 0 then .error 0
    else raw (Arg.join q.cax (xs.map fun x => let n := x.ext.getD q.ax 0 / p; x.slice q.ax (rank * n) n))

/-- The codes, scales and counted events of a collective's result in a format: no SR (R180). -/
def collCodes (df : Nat) (dmx : Bool) (mode : Nat) (sat : Bool) (free : Nat) (ext : List Nat) (el : Nat → El) : Arg × List Nat :=
  let blk := fun (i : Nat) => blockScale ((blockOf ext i).map el) (Config.freeNat (free + blockNo ext i) % 256)
  let at_ := fun (i : Nat) => if dmx then (el i).scaled df (blk i) else el i
  let is_ := List.range (prodN ext)
  let q := finTile df (if mode = 5 then 0 else mode) sat (fun _ _ => 0) .zero (is_.map fun i => (i, at_ i))
  (⟨df, dmx, ext, is_.map (AMap.get 0 q.codes), if dmx then is_.map blk else []⟩, q.cnt)

/-! ### Dispatch (R175 to R179, R183) -/

/-- Puts an explicit collective in flight. -/
def dispColl (c : Cur) (r : LRec) (i : Instr) (bad : TRef → TRef → Bool) : SeqM Unit := do
  let args := (c.vals r).map (Val.atDispatch (← get) c)
  let sp := tspec i r args
  eachQ (fun p => destReady c p.2) sp.dsts
  useCheck (sp.srcs ++ sp.dsts)
  match sp.srcs, sp.dsts with
  | [(_, a)], [(k, d)] =>
    if bad a d then trapQ 0x53 (BitVec.ofNat 64 k) (d.hnd.getD 0xFFFF)
    else
      overlapCheck { sp with inpl := [] }
      let s ← get
      let w := srcWaits s [a]
      let n ← newLop c r i 2 args [d] w.1 w.2
      let t := resultOf (← get) c d n
      destFill c d d.wrBytes
      joinColl c n (r.word 0x102 0 % 256)
      modify fun s => { (s.updLop n fun o => { o with crew := s.crewOf c, free := s.fresh }) with fresh := s.fresh + 2 ^ 64 }
      doneT c [k] [.ten t]
  | _, _ => doneQ c [.tok 0]

/-- The number of members of a collective set. -/
def collSize (c : Cur) (mask : Nat) : Nat := prodN ((List.range c.lev.length).map fun l => if bitN mask l then c.lev.getD l 1 else 1)

/-- `ared` (R180). -/
def execLAred (w : Nat) (r : LRec) (s : State) : Host.Outcome State Fault Refusal :=
  runSeq w r (fun c => dispColl c r (.lAred w r) fun a d => a.ext != d.ext) s

/-- `agath` (R181). -/
def execLAgath (w : Nat) (r : LRec) (s : State) : Host.Outcome State Fault Refusal :=
  runSeq w r (fun c => dispColl c r (.lAgath w r) fun a d => a.fmt != d.fmt || a.ext.length != d.ext.length) s

/-- `rscat` (R180). -/
def execLRscat (w : Nat) (r : LRec) (s : State) : Host.Outcome State Fault Refusal :=
  runSeq w r (fun c => dispColl c r (.lRscat w r) fun a d =>
    let m := r.word 0x102 0 % 256
    let p := collSize c m
    let rank := (firstIdx (· == c.inst.idx) (collSet c.lev c.inst.idx m)).getD 0
    d.ext != setAt a.ext (collAxis r) (blockExt [p] [rank] (a.ext.getD (collAxis r) 0) 0)) s

/-- `a2a` (R182). -/
def execLA2a (w : Nat) (r : LRec) (s : State) : Host.Outcome State Fault Refusal :=
  runSeq w r (fun c => dispColl c r (.lA2a w r) fun a d => a.fmt != d.fmt || a.ext.length != d.ext.length) s

/-- Puts a `tsend` or a `trecv` in flight: it has a number on tl9 and does not enter the count of R178. -/
def joinPeer (c : Cur) (n mask : Nat) : SeqM Unit := modify fun s =>
  let set_ := (collSet c.lev c.inst.idx mask).map (c.inst.launch * 2 ^ 24 + ·)
  let (num, s) := match s.ctx? c.ctx with
    | some x => let p := x.tl9.take; (p.1, s.updCtx c.ctx fun x => { x with tl9 := p.2 })
    | none => (0, s)
  s.updLop n fun o => { o with kind := 2, set_ := set_, rank := (firstIdx (· == c.wk.inst) set_).getD 0, seq := 0, tl9 := num }

/-- COLL_PEER's check (R183, R205). -/
def peerCheck (c : Cur) (r : LRec) (hnd : Option Nat) : SeqM Unit :=
  let p := c.argZ r 1
  let t := c.argZ r 2
  if p < 0 ∨ (collSize c (r.word 0x102 0 % 256) : Int) ≤ p ∨ t < 0 ∨ 65535 < t then
    trapQ 0x72 (BitVec.ofNat 64 (bitsZ p 32 + bitsZ t 32 * 2 ^ 32)) (hnd.getD 0xFFFF)
  else pure ()

/-- `tsend` (R183). -/
def execLTsend (w : Nat) (r : LRec) (s : State) : Host.Outcome State Fault Refusal :=
  runSeq w r (fun c => do
    match tensIdx ((c.vals r).take 1) with
    | (k, t) :: _ =>
      useCheck [(k, t)]
      peerCheck c r t.hnd
      let wt := srcWaits (← get) [t]
      let n ← newLop c r (.lTsend w r) 2 (c.vals r) [] wt.1 wt.2
      joinPeer c n (r.word 0x102 0 % 256)
      doneQ c [.tok n]
    | [] => doneQ c [.tok 0]) s

/-- `trecv` (R183). -/
def execLTrecv (w : Nat) (r : LRec) (s : State) : Host.Outcome State Fault Refusal :=
  runSeq w r (fun c => do
    match tensIdx ((c.vals r).take 1) with
    | (k, t) :: _ =>
      destReady c t
      useCheck [(k, t)]
      peerCheck c r t.hnd
      let n ← newLop c r (.lTrecv w r) 2 (c.vals r) [t] [] []
      let u := resultOf (← get) c t n
      destFill c t t.wrBytes
      joinPeer c n (r.word 0x102 0 % 256)
      doneT c [k] [.ten u]
    | [] => doneQ c [.tok 0]) s

/-! ### Faults (R178, R181, R182, R202, R205) -/

/-- A collective faults on this member: tl9 passes it with its fault flag set, with those that its operator would have gone on to; its destination is
FULL with its old contents, and its instance is killed. -/
def State.collFault (s : State) (id : Nat) (o : LOp) (code : Nat) (d : W64) : State :=
  let s := (o.tl9 :: o.later.map (·.2.2.2)).foldl (fun (s : State) (n : Nat) => (s.endTl 0 o.cluster o.ctx 9 n).flagTl 0 o.cluster o.ctx 9 n) s
  let s := o.outs.foldl (fun s d => s.fillDone o.cluster o.ctx d) s
  let h := o.dstH
  let s := s.trapRec o.ctx code o.func o.off (2 ^ 32 - 1) h (s.genOf o.cluster o.ctx h) (16 * o.cluster) 0 10 0 d 9 o.tl9
  { s with lops := s.lops.erase id }.killInst o.inst

/-- SHAPE_MISMATCH of a collective whose members' extents do not fit, which only their meeting shows (R181, R182): the sequencer's trap (R391, kind
D). The operator is HELD and met again when it is released (DEDUCED, log 23). -/
def State.collHold (s : State) (id : Nat) (o : LOp) (k : Nat) : State :=
  let h := (o.args.getD k (.i64 0)).hndOf
  let core := 16 * o.cluster
  let s := s.trapRec o.ctx 0x53 o.func o.off (2 ^ 32 - 1) h (s.genOf o.cluster o.ctx h) core 0 17 0 (BitVec.ofNat 64 k) 0 0
  let s := s.updLop id fun p => { p with fault := some (0x53, BitVec.ofNat 64 k) }
  match (s.walks.find o.walk).bind fun k => k.stage.map fun _ => k.core with
  | some c => s.updCore c fun k => { k with stop := .held }
  | none => s.holdRec o.ctx core { Run.zero with ctx := o.ctx, inst := o.inst } 0 id

/-- The chip of a member of a set. -/
def State.memberChip (s : State) (id : Nat) : Nat :=
  match s.launches.find (id / 2 ^ 24) with
  | some l => s.unitChip l (id % 2 ^ 24)
  | none => s.group.chip

/-- The cause that the group's table gives a collective to fail: a participant SUSPECT, LEAVING, EVICTED or OUTSIDE, or this chip not MEMBER (R202,
R205). One in flight when this chip declares itself SUSPECT or leaves faults in that cycle, with the code of that cause; one that the chip dispatches
later, with GROUP_STATE (DEDUCED, log 17). -/
def State.collCause (s : State) (o : LOp) : Option (Nat × W64) :=
  let g := s.group
  let bad := (o.set_.map s.memberChip).filterMap fun ch =>
    if ch = g.chip then none
    else match g.tbl.find ch with
      | none => some (0x75, BitVec.ofNat 64 ch)
      | some m =>
        if m.st = 1 ∨ m.st = 2 then none
        else if m.self then some (0x74, BitVec.ofNat 64 ch)
        else if m.st = 3 ∨ m.st = 5 then some (0x73, BitVec.ofNat 64 (ch % 65536 + m.drop.getD 0 % 2 ^ 48 * 65536))
        else some (0x75, BitVec.ofNat 64 ch)
  let me := g.stOf g.chip
  let own := (g.tbl.find g.chip).getD Member.outside
  let now := own.depart == some (s.gcyc + g.lead)
  if me = 2 then bad.head?
  else if me = 3 ∧ own.self = true ∧ now = true then some (0x74, BitVec.ofNat 64 g.chip)
  else if me = 4 ∧ now = true then some (0x75, BitVec.ofNat 64 g.chip)
  else some (0x76, BitVec.ofNat 64 me)

/-- The matched record of a member (R178). -/
def State.mate (s : State) (o : LOp) (inst : Nat) : Option (Nat × LOp) :=
  s.lops.find? fun p => p.2.kind == 2 && p.2.inst == inst && p.2.seq == o.seq && p.2.set_ == o.set_

/-- The matched records that this chip holds, with their ranks. -/
def State.mates (s : State) (o : LOp) : List (Nat × Nat × LOp) :=
  ((List.range o.set_.length).zip o.set_).filterMap fun p => (s.mate o p.2).map fun m => (p.1, m.1, m.2)

/-- Every matched record faults with the same code and word. -/
def State.faultAll (s : State) (ms : List (Nat × Nat × LOp)) (code : Nat) (d : W64) : State :=
  ms.foldl (fun (s : State) (m : Nat × Nat × LOp) => s.collFault m.2.1 m.2.2 code d) s

/-- The operand that a collective acts on, as its instance holds it, for its format and extents: what earlier inserted operators have made of it,
else the tensor. -/
def LOp.collSrc (o : LOp) (k : Nat) : Nat × Bool × List Nat :=
  match o.vals.find k with
  | some a => (a.fmt, a.mx, a.ext)
  | none => match (tspec o.ins (lrecOf o.ins).2 o.args).srcs[k]? with
    | some p => (p.2.fmt, p.2.mx, p.2.ext)
    | none => (0, false, [])

/-- The fields that R178 compares: OPC, FN, AXIS, ALG, CAXIS, the source's format, and its extents but for AXIS under `agath`. An inserted
collective has the OPC of the inserted operator (DEDUCED, log 23). -/
def sigOf (o : LOp) : List Nat := match o.coll with
  | none => [(lrecOf o.ins).1]
  | some q =>
    let a := o.collSrc q.k
    [0x60 + q.op, q.fn, q.ax, q.alg, q.cax, a.1, if a.2.1 then 1 else 0]
      ++ ((List.range a.2.2.length).zip a.2.2).map fun p => if q.op = 1 ∧ p.1 = q.ax then 0 else p.2

/-- Remote data under key rank·16 + k (DESIGN CHOICE, log 17): 0 the source's codes, or the bytes of a `tsend`; 1 its extents and 2 its elements'
scales, 13 the destination's extents and 15 its record's fields, each when it differs from this chip's; 14 the member was killed. -/
def remoteOf (rem : List (Nat × List Nat)) (rank k : Nat) : Option (List Nat) := (rem.find? fun p => p.1 == rank * 16 + k).map (·.2)

/-- What stands against a collective's work: nothing is ready (0), a fault for all (code and word), or it may go (none). -/
def State.collBlock (s : State) (o : LOp) (rem : List (Nat × List Nat)) : Option (Option (Nat × W64)) :=
  let rs := (List.range o.set_.length).zip o.set_
  let here := fun (i : Nat) => s.memberChip i == s.group.chip
  let dead := rs.find? fun p =>
    if here p.2 then (s.mate o p.2).isNone && (match s.insts.find p.2 with
      | some x => x.killed
      | none => false)
    else (remoteOf rem p.1 14).isSome
  match dead with
  | some p => some (some (0x71, BitVec.ofNat 64 p.1))
  | none =>
    let ok := rs.all fun p =>
      if here p.2 then (match s.mate o p.2 with
        | some m => s.lopRuns m.2 && s.lopReady m.2
        | none => false)
      else (remoteOf rem p.1 0).isSome
    if !ok then some none
    else
      let sig := fun (p : Nat × Nat) => match s.mate o p.2 with
        | some m => sigOf m.2
        | none => (remoteOf rem p.1 15).getD (sigOf o)
      let s0 := match rs.head? with
        | some p => sig p
        | none => []
      match rs.find? fun p => sig p != s0 with
      | some p => some (some (0x70, BitVec.ofNat 64 (p.1 % 65536 + (sig p).headD 0 % 65536 * 65536)))
      | none => none

/-! ### The work (R180 to R188) -/

/-- The source of a member on another chip, from the input. -/
def remoteArg (o : LOp) (k : Nat) (rem : List (Nat × List Nat)) (rank : Nat) : Arg :=
  let a := o.collSrc k
  ⟨a.1, a.2.1, (remoteOf rem rank 1).getD a.2.2, (remoteOf rem rank 0).getD [], (remoteOf rem rank 2).getD []⟩

/-- The sources of a set's members in rank order, with the state that reading them leaves; or the state in which a member's collective has faulted
because the engine could not read its source. -/
def memberArgs (o : LOp) (k : Nat) (rem : List (Nat × List Nat)) : List (Nat × Nat) → State → Except State (List Arg × State)
  | [], s => .ok ([], s)
  | p :: r, s => match s.mate o p.2 with
    | none => (memberArgs o k rem r s).map fun q => (remoteArg o k rem p.1 :: q.1, q.2)
    | some m => match (m.2.source (tspec m.2.ins (lrecOf m.2.ins).2 m.2.args) k (List.range (prodN (m.2.collSrc k).2.2))).run.run s with
      | (.error (code, d), t) => .error (t.collFault m.1 m.2 code d)
      | (.ok a, t) => (memberArgs o k rem r t).map fun q => (a :: q.1, q.2)

/-- Rounding mode and SAT of a collective: DEF takes the context's defaults (R180). -/
def State.collMode (s : State) (o : LOp) : Nat × Bool :=
  let r := (lrecOf o.ins).2
  let x := match s.ctx? o.ctx with
    | some k => { Slice.zero with e4sat := k.e4sat, rnddef := k.rnddef }
    | none => Slice.zero
  (x.mode r.round, x.sat r.satw)

/-- The operand at which SHAPE_MISMATCH stops a collective on every member: a source that does not divide, or an explicit destination that does not
agree with the result, on another chip too (R181, R182). -/
def State.collShape (s : State) (o : LOp) (q : CollOp) (xs : List Arg) (rem : List (Nat × List Nat)) : Option Nat :=
  ((List.range o.set_.length).zip o.set_).findSome? fun p =>
    match q.out 0 false xs p.1 with
    | .error k => some k
    | .ok e => match o.expl, s.mate o p.2 with
      | none, _ => none
      | some _, some m => if m.2.outs.any fun d => d.ext != e.1 then some 1 else none
      | some _, none => if (remoteOf rem p.1 13).any (· != e.1) then some 1 else none

/-- A collective has completed on a member: tl9 passes it (R179); its operator has completed, or goes on with what it has made. -/
def State.collDone (s : State) (m : Nat × Nat × LOp) : State :=
  let o := m.2.2
  let t := s.endTl 0 o.cluster o.ctx 9 o.tl9
  if o.steps = [] then t.endLop m.2.1 o else let q := s.lopLev o; t.updLop m.2.1 fun _ => o.next q.1 q.2

/-- One member's result: an explicit collective writes its destination, an inserted one makes the operand's value. Its counted events go to the
first core of the operator's crew (DESIGN CHOICE, log 23). -/
def State.collPut (s : State) (m : Nat × Nat × LOp) (k : Nat) (v : Arg × List Nat) : State :=
  let o := m.2.2
  let s := s.updCore (o.crew.headD (16 * o.cluster)) fun k => k.counted (v.2.getD 0 0) (v.2.getD 1 0) (v.2.getD 2 0) (v.2.getD 3 0)
  match o.expl, o.outs with
  | some _, d :: _ =>
    let work : EngM Unit := do
      let _ ← d.put o.cluster o.ctx (v.1.codes.map some)
      if d.mx then
        let _ ← d.putScales o.cluster o.ctx (v.1.scales.map some)
    match work.run.run s with
    | (.error (code, x), t) => t.collFault m.2.1 o code x
    | (.ok _, t) => t.collDone m
  | _, _ => s.collDone (m.1, m.2.1, { o with vals := o.vals.upd k v.1 })

/-- Carries out a matched collective whose members are all ready. -/
def State.runColl (s : State) (o : LOp) (rem : List (Nat × List Nat)) : State :=
  let ms := s.mates o
  match o.coll with
  | none => s
  | some q => match memberArgs o q.k rem ((List.range o.set_.length).zip o.set_) s with
    | .error t => t
    | .ok (xs, t) => match s.collShape o q xs rem with
      | some k => ms.foldl (fun (s : State) (m : Nat × Nat × LOp) =>
          s.collHold m.2.1 m.2.2 (if o.expl.isSome then k else ((tspec o.ins (lrecOf o.ins).2 o.args).srcs.getD q.k (0, .zero)).1)) t
      | none => ms.foldl (fun (t : State) (m : Nat × Nat × LOp) =>
          let cm := s.collMode m.2.2
          let f := m.2.2.collFmt (xs.headD .zero)
          match q.out f.1 cm.2 xs m.1 with
          | .error _ => t
          | .ok e => t.collPut m q.k (collCodes f.1 f.2 cm.1 cm.2 m.2.2.free e.1 e.2)) t

/-! ### `tsend` and `trecv` (R183) -/

/-- A tensor's rows as bytes, one after another, and then the scales of an MX pair. -/
def Arg.rowBytes (a : Arg) : List Byte :=
  let n := a.ext.getLastD 0
  let rows := prodN a.ext.dropLast
  (chunksOf n rows a.codes).flatMap (fun r => toBytes (packRow a.fmt r) (packedBytes a.fmt n))
    ++ (if a.mx then (List.range rows).flatMap fun r => (List.range (cdiv n 32)).map fun b => BitVec.ofNat 8 (a.scales.getD (r * n + 32 * b) 0) else [])

/-- The codes of a tensor, and its elements' scales, from such bytes. -/
def TRef.unpack (t : TRef) (bs : List Byte) : List Nat × List Nat :=
  let n := t.ext.getLastD 0
  let w := fmtBits t.fmt
  let sc := bs.drop t.written
  ((chunksOf (packedBytes t.fmt n) (prodN t.ext.dropLast) bs).flatMap fun r =>
    let v := ofBytes r
    (List.range n).map fun k => bitsN v (w * k) w,
   (List.range t.count).map fun i => (sc.getD (blockNo t.ext i) 0).toNat)

/-- Peer and tag of a `tsend` or `trecv`. -/
def LOp.peer (o : LOp) : Nat := ((o.args.getD 1 (.i64 0)).int).toNat
def LOp.tag (o : LOp) : Nat := ((o.args.getD 2 (.i64 0)).int).toNat

/-- Whether a point-to-point record of the same kind, pair and tag was dispatched earlier by the same instance and still waits. -/
def State.earlier (s : State) (id : Nat) (o : LOp) : Bool :=
  s.lops.any fun p => p.1 < id && p.2.kind == 2 && p.2.inst == o.inst && p.2.set_ == o.set_ && p.2.seq == 0 && p.2.peer == o.peer
    && p.2.tag == o.tag && (lrecOf p.2.ins).1 == (lrecOf o.ins).1

/-- A `tsend` whose source is ready: its data is on its way and its token completes. -/
def State.runSend (s : State) (id : Nat) (o : LOp) : State :=
  match tensorsOf (o.args.take 1) with
  | t :: _ =>
    let (res, u) := ((t.read o.cluster o.ctx).run.run s)
    match res with
    | .error (code, d) => u.collFault id o code d
    | .ok a =>
      let e : Sent := ⟨o.inst / 2 ^ 24, o.set_, o.rank, o.peer, o.tag, a.rowBytes⟩
      let far := s.memberChip (o.set_.getD o.peer 0) != s.group.chip
      { u with sends := if far then u.sends else u.sends ++ [e] }.collDone (0, id, o)
  | [] => s.collDone (0, id, o)

/-- The data that a `trecv` takes: the oldest unmatched `tsend` of its pair and tag, or a remote peer's. -/
def State.recvData (s : State) (o : LOp) (rem : List (Nat × List Nat)) : Option (List Byte × State) :=
  let from_ := o.set_.getD o.peer 0
  if s.memberChip from_ ≠ s.group.chip then (remoteOf rem o.peer 0).map fun l => (l.map (BitVec.ofNat 8), s)
  else match firstIdx (fun (e : Sent) => e.set_ == o.set_ && e.frm == o.peer && e.dst == o.rank && e.tag == o.tag) s.sends with
    | some i => (s.sends[i]?).map fun e => (e.data, { s with sends := s.sends.eraseIdx i })
    | none => none

/-- A `trecv` with its data: COLL_MISMATCH when the byte sizes differ. -/
def State.runRecv (s : State) (id : Nat) (o : LOp) (rem : List (Nat × List Nat)) : State :=
  match o.outs, s.recvData o rem with
  | d :: _, some (bs, t) =>
    if bs.length ≠ d.wrBytes then t.collFault id o 0x70 (BitVec.ofNat 64 (o.peer % 65536 + 0x65 * 65536))
    else
      let work : EngM Unit := do
        let v := d.unpack bs
        let _ ← d.put o.cluster o.ctx (v.1.map some)
        if d.mx then
          let _ ← d.putScales o.cluster o.ctx (v.2.map some)
      match work.run.run t with
      | (.error (code, x), u) => u.collFault id o code x
      | (.ok _, u) => u.collDone (0, id, o)
  | _, _ => s

/-- `COLLECTIVE_COMPLETE` (R179, R202): the collective that operator `op` is one member's record of. -/
def execECollComplete (op : Nat) (rem : List (Nat × List Nat)) (s : State) : Host.Outcome State Fault Refusal :=
  match s.lops.find op with
  | none => .next s
  | some o =>
    if o.kind ≠ 2 then .next s
    else match s.collCause o with
      | some (code, d) => .next (s.collFault op o code d)
      | none =>
        match o.ins with
        | .lTsend _ _ => .next (if s.lopRuns o && s.lopReady o && !s.earlier op o then s.runSend op o else s)
        | .lTrecv _ _ => .next (if s.lopRuns o && !s.earlier op o then s.runRecv op o rem else s)
        | _ => match s.collBlock o rem with
          | some none => .next s
          | some (some (code, d)) => .next (s.faultAll (s.mates o) code d)
          | none => .next (s.runColl o rem)

end Sys2Proof.Machine
end

