-- ==== Sys2Proof/Machine/Contain.lean ====
section
/-! DEFINITION. Containment: the failure of a core, a unit, an engine, a sequencer or a memory page (spec/13 R400, spec/07 R228). -/
namespace Sys2Proof.Machine

/-- ERR alone is told of a failure that no context's work used: the code and the detail word. -/
def State.tellErr (s : State) (sender code : Nat) (d : W64) : State := (s.postMail 12 sender (toBytes code 8 ++ toBytes d.toNat 8)).2

/-- The record of a failure (R391): its context's queue and ERR receive it. -/
def State.lostRec (s : State) (ctx core code : Nat) (w : List W64) (unit flags : Nat) : State :=
  s.trapRec ctx code (recFunc w) (recOff w) (if w = [] then 2 ^ 32 - 1 else recTile w) 0xFFFF 0 core 0 flags 0 (lostDetail core unit) 0 0

/-- A core is lost: it is fenced, its slice is killed with CORE_LOST, and its instance is killed. -/
def State.loseCore (s : State) (c unit : Nat) : State :=
  let t := s.fenceCore c
  match (s.core c).run with
  | some r => ((((t.lostRec r.ctx c 0x81 (s.recWords c) unit 8).dropWalk c).dropSlice c).killInst r.inst)
  | none => t.tellErr (0x20 + clOf c) 0x81 (lostDetail c unit)

/-- Whether a core keeps running without a set of units: the maps of R228. -/
def unitsOk (us : List Nat) : Bool :=
  us.all (fun u => [1, 2, 4, 5].contains u) && !(us.contains 1 && us.contains 2) && !(us.contains 4 && us.contains 5)

/-- A unit is lost: the map changes, and the running slice is killed with UNIT_LOST; a loss that no map covers fences the core. -/
def State.loseUnit (s : State) (c u : Nat) : State :=
  let us := if (s.core c).ufence.contains u then (s.core c).ufence else (s.core c).ufence ++ [u]
  if unitsOk us = false then s.loseCore c u
  else
    let t := s.updCore c fun k => { k with ufence := us }
    match (s.core c).run with
    | some r => ((t.lostRec r.ctx c 0x82 (s.recWords c) u 0).dropWalk c).dropSlice c
    | none => t.tellErr (0x20 + clOf c) 0x82 (lostDetail c u)

/-- Fences a part of a cluster. -/
def State.fencePart (s : State) (cl part : Nat) : State :=
  s.updCl cl fun q => { q with fences := if q.fences.contains part then q.fences else q.fences ++ [part] }

/-- The live instances of a cluster. -/
def State.instsIn (s : State) (cl : Nat) : List (Nat × Inst) := s.insts.filter fun p => p.2.cluster == cl && !p.2.done

/-- A block-transfer engine is lost: each operation on it faults with ENGINE_LOST. -/
def State.loseBte (s : State) (cl : Nat) : State :=
  let os := s.eops.filter fun e => e.unit == 2 && !e.ended && clOf e.core == cl
  os.foldl (fun (s : State) (e : EOp) => s.endOp e (some (0x83, lostDetail (16 * cl) 11))) (s.fencePart cl 11)

/-- A tile-walk engine is lost: each walk on it faults with ENGINE_LOST and its pipeline's instance is killed. -/
def State.loseWalk (s : State) (cl j : Nat) : State :=
  ((s.instsIn cl).filter fun p => (p.2.ewalks.find j).any fun e => !e.done).foldl (fun (s : State) (p : Nat × Inst) =>
    match p.2.ewalks.find j with
    | some e => s.walkFault p.1 j p.2 e e.at_ 0xFFFF 0x83 (lostDetail (16 * cl) (7 + j))
    | none => s) (s.fencePart cl (7 + j))

/-- The instances of a launch that have not started and whose unit has a core in a cluster. -/
def State.unstarted (s : State) (cl n : Nat) (l : Launch) : List Nat :=
  (List.range l.total).filter fun i => l.b ≤ i && !(l.marks.any fun p => p.1 == i) && (s.insts.find (n * 2 ^ 24 + i)).isNone
    && (s.unitOf l i).1 == s.group.chip && (s.unitOf l i).2.any fun c => clOf c == cl

/-- A sequencer is lost: the cluster is fenced, and its instances are killed with ENGINE_LOST; those of launches under way that wait for a unit there
never start, and are killed too (DESIGN CHOICE, log 19). -/
def State.loseSeq (s : State) (cl : Nat) : State :=
  let s := (s.instsIn cl).foldl (fun (s : State) (p : Nat × Inst) => (s.lostRec p.2.ctx (16 * cl) 0x83 [] 12 24).killInst p.1) (s.fencePart cl 12)
  (s.launches.filter fun p => !p.2.done).foldl (fun (s : State) (p : Nat × Launch) =>
    (s.unstarted cl p.1 p.2).foldl (fun (s : State) (i : Nat) => s.markInst p.1 i true) s) s

/-- `UNCORRECTABLE_ERROR` (R400). -/
def execEUncorrectable (f : Failure) (s : State) : Host.Outcome State Fault Refusal :=
  .next (match f with
    | .core c u => s.loseCore (c % 256) u
    | .unit c u => s.loseUnit (c % 256) u
    | .walkEngine cl j => s.loseWalk (cl % 16) (j % 4)
    | .bte cl => s.loseBte (cl % 16)
    | .sequencer cl => s.loseSeq (cl % 16)
    | .hbm ctx va => s.poison ctx va)

end Sys2Proof.Machine
end

