-- ==== Sys2Proof/Machine/Group.lean ====
section
/-! DEFINITION. The group: its table, the clock ceiling, control flits, membership, and the status block (spec/06 R190 to R204). FABRIC
does this work, so nothing of it happens before boot has ended or after FABRIC has failed (spec/15 R423, R439). -/
namespace Sys2Proof.Machine

/-! ### The ceiling (R193, R194, R199) -/

/-- T_hb (R196). -/
def tHb : Nat := 65536

/-- The first multiple of m that is at least x. -/
def roundUp (x m : Nat) : Nat := (x + m - 1) / m * m

/-- The first raise boundary at or after x (R193). -/
def raiseB (x : Nat) : Nat := roundUp x (2 ^ 24)

/-- The value in force for an entry at t: the CODE of the LIMIT with the latest TSEND among those with TEFF at or before t. -/
def Member.value (m : Member) (t : Nat) : Option Nat :=
  ((m.lims.filter fun l => l.2.2 ≤ t).foldl (fun (b : Option (Nat × Nat × Nat)) l => match b with
    | none => some l
    | some o => if o.2.1 ≤ l.2.1 then some l else some o) none).map (·.1)

/-- Whether an entry counts in C at t: a member, a joiner past its join point, one that has left until its value leaves (R194, R198). -/
def Member.counts (m : Member) (t : Nat) : Bool :=
  let left := match m.depart with
    | some e => decide (t < raiseB e)
    | none => false
  decide (m.from_ ≤ t) && (match m.st with
    | 0 => left
    | 1 => m.join.isSome
    | 2 => true
    | 3 => if m.self then left else (match m.evict with
      | some e => decide (t < e)
      | none => true)
    | 4 => left
    | _ => match m.evict with
      | some e => decide (t < e)
      | none => false)

/-- Whether a silent member holds C at 0 at t (R199). -/
def Member.drops (m : Member) (lead t : Nat) : Bool :=
  m.st == 3 && !m.self && (match m.drop, m.evict with
    | some d, some e => decide (d ≤ t) && decide (t < raiseB (e + lead))
    | some d, none => decide (d ≤ t)
    | none, _ => false)

/-- C(t). A chip outside the group applies its own value (R444). -/
def Group.ceil (g : Group) (t : Nat) : Nat :=
  let own := g.stOf g.chip
  if own = 0 ∨ own = 5 then ((g.tbl.find g.chip).bind fun m => m.value t).getD g.c
  else if (g.tbl.any fun p => p.2.drops g.lead t) = true ∨ (g.low.any fun p => p.1 ≤ t && t < p.2) = true then 0
  else
    let vs := (g.tbl.filter fun p => p.2.counts t).filterMap (fun p => p.2.value t)
      ++ (g.keep.filter fun k => t < k.2.2).map (·.2.1)
    match vs with
    | [] => g.c
    | v :: r => r.foldl Nat.min v

/-- The times at which C may change. -/
def Group.points (g : Group) : List Nat :=
  g.tbl.flatMap (fun p =>
    let e := match p.2.evict with
      | some e => [e, raiseB (e + g.lead)]
      | none => []
    let d := match p.2.depart with
      | some e => [raiseB e]
      | none => []
    p.2.from_ :: p.2.lims.map (·.2.2) ++ e ++ d ++ p.2.drop.toList)
  ++ g.low.flatMap (fun p => [p.1, p.2]) ++ g.keep.map (·.2.2)

/-- The next change of C after t: TNEXT and CNEXT (R204). -/
def Group.nextC (g : Group) (t : Nat) : Option (Nat × Nat) :=
  let c := g.ceil t
  ((g.points.filter fun p => t < p && g.ceil p != c).foldl (fun (m : Option Nat) p => match m with
    | none => some p
    | some q => some (Nat.min p q)) none).map fun p => (p, g.ceil p)

/-! ### The status block (R204) -/

/-- The coordinator: the lowest-numbered chip in state MEMBER; without one, the chip itself (DESIGN CHOICE, log 17). -/
def Group.coord (g : Group) : Nat := g.members.headD g.chip

/-- The block's eight words. -/
def Group.status (g : Group) (t : Nat) : List Nat :=
  let nx := g.nextC t
  [g.epoch, g.c * 2 ^ 56 + ((nx.map (·.2)).getD g.c) * 2 ^ 48 + g.stOf g.chip * 2 ^ 45 + g.coord % 65536 * 65536 + g.chip % 65536,
   (nx.map (·.1)).getD 0, g.h % 2 ^ 32 * 2 ^ 32 + g.d % 65536 * 65536, g.lead,
   g.members.length * 2 ^ 32 + g.badctl % 2 ^ 32, g.cmism % 2 ^ 32 * 2 ^ 32 + g.late % 2 ^ 32, 0]

/-- FABRIC writes the block where it stands. -/
def State.syncBlock (s : State) : State :=
  if s.group.block = 0 then s else s.wrBytes s.group.block (wordsBytes (s.group.status s.gcyc))

/-- Whether FABRIC runs. -/
def State.fabUp (s : State) : Bool := s.ctl.phase == 2 && !s.ctl.failed.contains 4

/-! ### Parts of the table -/

def State.updGroup (s : State) (f : Group → Group) : State := { s with group := f s.group }

/-- An entry of the table; a chip that is not there is OUTSIDE. -/
def Group.entry (g : Group) (chip : Nat) : Member := (g.tbl.find chip).getD Member.outside

def Group.setEntry (g : Group) (chip : Nat) (m : Member) : Group := { g with tbl := g.tbl.upd chip m }

def State.updMem (s : State) (chip : Nat) (f : Member → Member) : State :=
  s.updGroup fun g => g.setEntry chip (f (g.entry chip))

/-- C in force, and the frequency unless the clamp holds it (R191, R445). -/
def State.setC (s : State) (c : Nat) : State :=
  { s with group := { s.group with c := c }, power := { s.power with fnow := if s.power.clamp then s.power.fnow else 470 + 10 * c } }

/-- One step outward over the links between present chips. -/
def reachGo (ls : List (Nat × Nat × Nat)) (ps : List Nat) : Nat → List Nat → List Nat → Nat → Nat
  | 0, _, _, d => d
  | k + 1, seen, fr, d =>
    let nx := ps.filter fun p => !seen.contains p && ls.any fun l => (l.1 == p && fr.contains l.2.1) || (l.2.1 == p && fr.contains l.1)
    if nx = [] then d else reachGo ls ps k (seen ++ nx) nx (d + 1)

/-- D and H over the links between chips that have not left (R190); unknown links leave them as measured before. -/
def Group.measure (g : Group) : Group :=
  if g.links = [] then g
  else
    let ps := (g.tbl.filter fun p => p.2.st != 0 && p.2.st != 5).map (·.1)
    let ls := g.links.filter fun l => ps.contains l.1 && ps.contains l.2.1
    { g with d := maxN (ps.map fun p => reachGo ls ps ps.length [p] [p] 0), h := maxN (ls.map (·.2.2)) }

/-- FABRIC finds its links at its start, and with them this chip's neighbours (R190); links fenced before a chip reset stay so. -/
def Group.wired (g : Group) : Group :=
  if g.links ≠ [] ∨ g.nbrs ≠ [] then g
  else
    let ns := Config.fabricLinks.filterMap fun l => if l.1 = g.chip then some l.2.1 else if l.2.1 = g.chip then some l.1 else none
    { g with links := Config.fabricLinks, nbrs := ns.map fun n => ⟨n, 0, 0, true, 0⟩ }

/-! ### Flooding (R190) -/

/-- Sends a flit to each neighbour whose link is up, but for one. -/
def State.emit (s : State) (f : Flit) (skip : Nat) : State :=
  s.updGroup fun g => { g with out := g.out ++ (g.nbrs.filter fun n => n.up && n.chip != skip).map fun n => (n.chip, { f with frm := g.chip }) }

/-- A flit of this chip's own. -/
def State.ownFlit (s : State) (typ code aux chip teff tlast : Nat) : Flit :=
  ⟨typ, s.group.chip, s.group.epoch % 2 ^ 32, s.gcyc, code, aux, chip, teff, tlast, 0, s.group.chip⟩

/-- Floods a flit of this chip's own. -/
def State.flood (s : State) (f : Flit) : State :=
  (s.updGroup fun g => { g with seen := (f.src, f.typ, f.tsend) :: g.seen }).emit f s.group.chip

/-! ### Losing a member (R172, R200, R202) -/

/-- What the launches of a lost chip come to (R172): when it is this one, no further report of its group launches is written, not even one that waits
for room. Collectives fault by their own event (R202). -/
def State.lostChip (s : State) (chip : Nat) : State :=
  (s.launches.filter fun p => p.2.group && (chip == s.group.chip || !p.2.done)).foldl (fun (s : State) (p : Nat × Launch) =>
    let n := p.1
    let l := p.2
    if chip = s.group.chip then
      (if l.src.isNone then { s with launches := s.launches.upd n { l with host := none },
                                     ctl := { s.ctl with compl := s.ctl.compl.filter (·.launch != n) } } else s)
    else match l.src with
      | none => ((List.range l.total).filter fun i => s.unitChip l i == chip).foldl (fun (s : State) (i : Nat) => s.mark n i true) s
      | some (c, _) => if c = chip then (s.killInsts ((s.insts.filter fun q => q.2.launch == n && !q.2.done).map (·.1))).killRest n
        else s) s

/-- This chip declares itself SUSPECT (R195, R198, R200, R201). -/
def State.selfSuspect (s : State) : State :=
  let own := s.group.chip
  if s.group.stOf own ≠ 2 then s
  else
    let te := s.gcyc + s.group.lead
    let s := s.updMem own fun m => { m with st := 3, self := true, depart := some te, suspAt := s.gcyc + 1 }
    (s.flood (s.ownFlit 4 0 0 0 te 0)).lostChip own

/-- The partition rule (R200): more than half of the other members' entries became SUSPECT within 16 T_hb; FABRIC tells the operating
system. -/
def State.partition (s : State) : State :=
  let g := s.group
  let others := g.tbl.filter fun p => p.1 != g.chip
  let n := (others.filter fun p => p.2.suspAt != 0 && p.2.st != 2 && s.gcyc < p.2.suspAt + 16 * tHb).length
  let m := (others.filter fun p => p.2.st == 2).length
  if g.stOf g.chip = 2 ∧ m + n < 2 * n then (s.selfSuspect.postMail 8 4 (toBytes g.chip 8)).2 else s

/-- A member becomes SUSPECT by silence: its drop time (R198, R199). -/
def State.markSilent (s : State) (chip te : Nat) : State :=
  let m := s.group.entry chip
  if m.st = 2 then
    ((s.updMem chip fun m => { m with st := 3, self := false, drop := some te, suspAt := s.gcyc + 1 }).lostChip chip).partition
  else if m.st = 3 ∧ m.self = false then s.updMem chip fun m => { m with drop := some (Nat.min te (m.drop.getD te)) }
  else s

/-- An eviction time for a suspect chip: the earliest of those received. -/
def State.markEvict (s : State) (chip te : Nat) : State :=
  let m := s.group.entry chip
  if m.st = 2 ∨ (m.st = 3 ∧ m.self = false) then s.updMem chip fun m => { m with evict := some (Nat.min te (m.evict.getD te)) } else s

/-! ### Receiving flits (R190, R192) -/

/-- A flit from a neighbour restarts the count of its silence. -/
def State.heard (s : State) (f : Flit) : State :=
  s.updGroup fun g => { g with nbrs := g.nbrs.map fun n => if n.chip = f.frm then { n with last := s.gcyc, tsend := f.tsend } else n }

/-- Discards a flit and counts it (R192). -/
def State.badFlit (s : State) : State := (s.updGroup fun g => { g with badctl := g.badctl + 1 }).syncBlock

/-- Receives a flit of type `typ`: with a non-zero MZ byte it is discarded; a chip outside ignores it; one not seen before is forwarded, and
does `go`. -/
def State.recvFlit (s : State) (typ : Nat) (f : Flit) (go : State → State) : State :=
  if s.fabUp = false then s
  else if f.mz ≠ 0 then s.badFlit
  else
    let s := s.heard f
    let st := s.group.stOf s.group.chip
    if st = 0 ∨ st = 5 ∨ s.group.seen.contains (f.src, typ, f.tsend) = true then s
    else (go ((s.updGroup fun g => { g with seen := (f.src, typ, f.tsend) :: g.seen }).emit { f with typ := typ } f.frm)).syncBlock

/-- `LIMIT` (R193 to R195): recorded with its effect time; a late one makes this chip SUSPECT. -/
def execELimit (f : Flit) (s : State) : Host.Outcome State Fault Refusal :=
  .next (s.recvFlit 1 f fun s =>
    if (s.group.tbl.find f.src).isNone then s
    else if f.teff < s.gcyc + 64 then (s.updGroup fun g => { g with late := g.late + 1 }).selfSuspect
    else s.updMem f.src fun m => { m with lims := m.lims ++ [(f.code, f.tsend, f.teff)] })

/-- `HEARTBEAT` (R196, R199): it is not forwarded; its C is compared with this chip's C at its TSEND, and a difference is counted and
reported to FABRIC. -/
def execEHeartbeat (f : Flit) (s : State) : Host.Outcome State Fault Refusal :=
  .next (
    if s.fabUp = false then s
    else if f.mz ≠ 0 then s.badFlit
    else
      let t := s.heard f
      let g := t.group
      if g.stOf g.chip ≠ 2 ∨ g.stOf f.src ≠ 2 ∨ f.aux = g.ceil f.tsend then t
      else ((t.updGroup fun g => { g with cmism := g.cmism + 1 }).postMail 4 0x31 (toBytes f.src 8)).2.syncBlock)

/-- `SILENT` (R198, R199). -/
def execESilent (f : Flit) (s : State) : Host.Outcome State Fault Refusal :=
  .next (s.recvFlit 3 f fun s => s.markSilent f.chip f.teff)

/-- A chip that announces its departure: it leaves state MEMBER now, and the table at TEFF (R198). -/
def State.markLeave (s : State) (f : Flit) (st : Nat) : State :=
  if s.group.stOf f.src ≠ 2 then s
  else ((s.updMem f.src fun m =>
    { m with st := st, self := st == 3, depart := some f.teff, suspAt := if st = 3 then s.gcyc + 1 else 0 }).lostChip f.src).partition

/-- `SUSPECT` (R198): a self-declared suspect. -/
def execESuspect (f : Flit) (s : State) : Host.Outcome State Fault Refusal :=
  .next (s.recvFlit 4 f fun s => s.markLeave f 3)

/-- FABRIC floods LEAVE for this chip when it is a member. -/
def State.leave (s : State) : State :=
  if s.group.stOf s.group.chip ≠ 2 then s
  else
    let f := s.ownFlit 5 0 0 0 (s.gcyc + s.group.lead) 0
    ((s.flood f).markLeave f 4).syncBlock

/-- `LEAVE` (R198). FABRIC's own decision to leave is the same message with this chip as its source. -/
def execELeave (f : Flit) (s : State) : Host.Outcome State Fault Refusal :=
  .next (if f.src = s.group.chip then (if s.fabUp then s.leave else s) else s.recvFlit 5 f fun s => s.markLeave f 4)

/-- `EVICT` (R198). -/
def execEEvict (f : Flit) (s : State) : Host.Outcome State Fault Refusal :=
  .next (s.recvFlit 8 f fun s => s.markEvict f.chip f.teff)

/-- `UNKNOWN_CONTROL_FLIT` (R192). -/
def execEBadFlit (_ : Flit) (s : State) : Host.Outcome State Fault Refusal := .next (if s.fabUp then s.badFlit else s)

/-! ### Joining (R198) -/

/-- A joiner's entry, in force from its join point; a value that has not left C yet is kept. -/
def State.addJoiner (s : State) (chip l tsend tj : Nat) : State :=
  let m := s.group.entry chip
  let old := match m.st, m.depart, m.value s.gcyc with
    | 0, some e, some v => [(chip, v, raiseB e)]
    | _, _, _ => []
  s.updGroup fun g => { (g.setEntry chip { Member.outside with st := 1, lims := [(l, tsend, 0)], from_ := tj, join := some tj }) with
    keep := g.keep ++ old }

/-- This chip asks to join. -/
def State.askJoin (s : State) : State :=
  let st := s.group.stOf s.group.chip
  if st = 0 ∨ st = 5 then
    let s := s.updMem s.group.chip fun m => { m with st := 1, join := none }
    ((s.updGroup fun g => { g with joinReq := some s.gcyc }).flood (s.ownFlit 6 s.power.li 0 0 0 0)).syncBlock
  else s

/-- How many chips with a request of this cycle to be granted stand before a chip: granted already, or with a request in the inbox and outside the
group, of a lower number; a chip counts once. -/
def State.joinRank (s : State) (chip : Nat) : Nat :=
  let granted := (s.group.grants.filter fun p => p.1 == s.gcyc).map (·.2)
  let asking := s.inbox.filterMap fun i => match i with
    | .eJoinReq f => if f.mz = 0 ∧ (s.group.stOf f.src = 0 ∨ s.group.stOf f.src = 5) then some f.src else none
    | _ => none
  (nubN ((granted ++ asking).filter (· < chip))).length

/-- `JOINREQ` (R198): the coordinator grants it at a join point; requests of one cycle in ascending chip number, T_hb apart. With this
chip as its source it is FABRIC's own request. -/
def execEJoinReq (f : Flit) (s : State) : Host.Outcome State Fault Refusal :=
  .next (
    if f.src = s.group.chip then (if s.fabUp then s.askJoin else s)
    else s.recvFlit 6 f fun s =>
      let g := s.group
      let st := g.stOf f.src
      if g.stOf g.chip ≠ 2 ∨ g.coord ≠ g.chip ∨ (st ≠ 0 ∧ st ≠ 5) then s
      else
        let tj := roundUp (s.gcyc + g.lead) tHb + tHb * s.joinRank f.src
        let s := s.flood (s.ownFlit 7 (g.ceil s.gcyc) f.code f.src tj 0)
        (s.updGroup fun g => { g with grants := (s.gcyc, f.src) :: g.grants.filter fun p => p.1 == s.gcyc }).addJoiner f.src f.code s.gcyc tj)

/-- The joiner loads GCYC (R203): a waiting timed copy that the new value has passed is late and issues at once. -/
def State.loadGcyc (s : State) (g : Nat) : State :=
  let waits := fun (e : EOp) => e.unit == 2 && e.start.isNone && !e.ended
  let late := s.eops.filter fun e => waits e && 0 < e.tstamp && s.gcyc < e.eff && e.tstamp < g
  let t := late.foldl (fun (t : State) (e : EOp) => t.updCl (clOf e.core) fun q => { q with late := q.late + 1 }) s
  { t with
    gcyc := g
    eops := t.eops.map fun e => if waits e then { e with eff := Nat.max e.tstamp (Nat.min e.eff g) } else e
    group := { t.group with nbrs := t.group.nbrs.map fun n => { n with last := g } } }

/-- An absent time as 0, time n as n + 1. -/
def optTime (n : Nat) : Option Nat := if n = 0 then none else some (n - 1)

/-- LIMITs as triples CODE, TSEND, TEFF. -/
def triples : List Nat → List (Nat × Nat × Nat)
  | a :: b :: c :: r => (a, b, c) :: triples r
  | _ => []

/-- A member's entry from the words of the state transfer: state, the time from which it counts, drop, eviction, departure, whether it declared
itself, join point, the time of its suspicion, then its LIMITs. -/
def Member.ofWords (l : List Nat) : Member :=
  let w := fun k => l.getD k 0
  ⟨w 0, triples (l.drop 8), w 1, optTime (w 2), optTime (w 3), optTime (w 4), w 5 != 0, optTime (w 6), w 7⟩

/-- The state transfer of a join (R189, R198): an entry for each chip, under 65536 the spans with C at 0 and under 65537 the values kept. Flits that the
joiner has received meanwhile stay. -/
def Group.transfer (g : Group) (table : List (Nat × List Nat)) : Group :=
  let es := (table.filter fun p => p.1 < 65536).foldl (fun (t : AMap Member) p =>
    let m := Member.ofWords p.2
    t.upd p.1 { m with lims := m.lims ++ (g.entry p.1).lims.filter fun l => !m.lims.contains l }) ([] : AMap Member)
  let rest := fun (k : Nat) => table.flatMap fun p => if p.1 = k then triples p.2 else []
  { g with tbl := es, low := (rest 65536).map fun p => (p.1, p.2.1), keep := rest 65537 }

/-- `JOINGRANT` (R198): members add the joiner's entry. The joiner loads `align` from its neighbour's alignment marks and takes the
members' entries from `table`, the state transfer of a join, which FABRIC hands it (DESIGN CHOICE, log 17). -/
def execEJoinGrant (f : Flit) (align : Nat) (table : List (Nat × List Nat)) (s : State) : Host.Outcome State Fault Refusal :=
  .next (
    if f.chip ≠ s.group.chip then s.recvFlit 7 f fun s => s.addJoiner f.chip f.aux f.tsend f.teff
    else if s.fabUp = false then s
    else if f.mz ≠ 0 then s.badFlit
    else if s.group.stOf f.chip ≠ 1 ∨ s.group.seen.contains (f.src, 7, f.tsend) = true then s.heard f
    else
      let s := (s.heard f).loadGcyc align
      let s := s.updGroup fun g =>
        let g := g.transfer table
        let g := if (g.tbl.find f.src).isSome then g else g.setEntry f.src { Member.outside with st := 2, lims := [(f.code, 0, 0)] }
        { g with joinReq := none, epoch := f.epoch, seen := (f.src, 7, f.tsend) :: g.seen }
      ((s.addJoiner f.chip f.aux f.tsend f.teff).emit { f with typ := 7 } f.frm).syncBlock)

/-! ### Events of the chip's own time -/

/-- A chip's entry changes state at a time: EPOCH advances, and D and H are measured again. -/
def State.epochUp (s : State) : State := (s.updGroup fun g => { g.measure with epoch := g.epoch + 1 }).syncBlock

/-- Whether `JOIN_POINT` is due. -/
def State.joinDue (s : State) (chip : Nat) : Bool :=
  let m := s.group.entry chip
  s.fabUp && m.st == 1 && m.join.any (· ≤ s.gcyc)

/-- `JOIN_POINT` (R198): the joiner is a MEMBER, and adopts C. -/
def execEJoinPoint (chip : Nat) (s : State) : Host.Outcome State Fault Refusal :=
  .next (if s.joinDue chip then
    let s := s.updMem chip fun m => { m with st := 2, join := none }
    let s := s.updGroup fun g =>
      { g with nbrs := g.nbrs.map fun n => if n.chip = chip ∨ chip = g.chip then { n with last := s.gcyc } else n }
    (s.setC (s.group.ceil s.gcyc)).epochUp
  else s)

/-- Whether `JOIN_TIMEOUT` is due. -/
def State.joinLate (s : State) : Bool :=
  s.fabUp && s.group.stOf s.group.chip == 1 && (s.group.entry s.group.chip).join.isNone
    && s.group.joinReq.any fun t => t + 16 * tHb ≤ s.gcyc

/-- `JOIN_TIMEOUT` (R198). -/
def execEJoinTimeout (s : State) : Host.Outcome State Fault Refusal :=
  .next (if s.joinLate then
    ((s.updMem s.group.chip fun m => { m with st := 0 }).updGroup fun g => { g with joinReq := none }).syncBlock else s)

/-- Whether `DEPARTURE_TIME` is due. -/
def State.departDue (s : State) (chip : Nat) : Bool :=
  let m := s.group.entry chip
  s.fabUp && ((m.st == 3 && m.self) || m.st == 4) && m.depart.any (· ≤ s.gcyc)

/-- `DEPARTURE_TIME` (R198): OUTSIDE; EPOCH advances on the others. -/
def execEDeparture (chip : Nat) (s : State) : Host.Outcome State Fault Refusal :=
  .next (if s.departDue chip then
    let t := s.updMem chip fun m => { m with st := 0 }
    if chip = s.group.chip then (t.updGroup Group.measure).syncBlock else t.epochUp
  else s)

/-- Whether `EVICTION` is due. -/
def State.evictDue (s : State) (chip : Nat) : Bool :=
  let m := s.group.entry chip
  s.fabUp && m.st == 3 && !m.self && m.evict.any (· ≤ s.gcyc)

/-- `EVICTION` (R198, R199): the entry leaves C, which stays 0 until the first raise boundary at or after the eviction time plus LEAD. -/
def execEEviction (chip : Nat) (s : State) : Host.Outcome State Fault Refusal :=
  .next (if s.evictDue chip then
    let m := s.group.entry chip
    let span := (m.drop.getD s.gcyc, raiseB (m.evict.getD s.gcyc + s.group.lead))
    ((s.updGroup fun g => { g with low := g.low ++ [span] }).updMem chip fun m => { m with st := 5 }).epochUp
  else s)

/-- Whether a neighbour has been silent for 4 T_hb (R198). -/
def State.quietNbr (s : State) (n : Nbr) : Bool := n.last + 4 * tHb ≤ s.gcyc

/-- Whether `SILENCE_DETECT` is due: of a neighbour that is a member, or, with this chip's own number, of every neighbour (R200). -/
def State.silenceDue (s : State) (chip : Nat) : Bool :=
  let g := s.group
  s.fabUp && g.stOf g.chip == 2 && (if chip = g.chip then g.nbrs != [] && g.nbrs.all s.quietNbr
    else g.stOf chip == 2 && g.nbrs.any fun n => n.chip == chip && n.up && s.quietNbr n)

/-- `SILENCE_DETECT` (R198): SILENT and EVICT are flooded; a member that hears no neighbour declares itself SUSPECT (R200). -/
def execESilenceDetect (chip : Nat) (s : State) : Host.Outcome State Fault Refusal :=
  .next (if s.silenceDue chip = false then s
    else if chip = s.group.chip then ((s.selfSuspect.postMail 8 4 (toBytes chip 8)).2).syncBlock
    else
      let tl := match s.group.nbrs.find? fun n => n.chip == chip with
        | some n => n.tsend
        | none => 0
      let te := s.gcyc + s.group.lead
      let t := (s.flood (s.ownFlit 3 0 0 chip te tl)).flood (s.ownFlit 8 0 0 chip (tl + 16 * tHb) 0)
      ((t.markEvict chip (tl + 16 * tHb)).markSilent chip te).syncBlock)

/-- Whether `HEARTBEAT_SEND` is due. -/
def State.beatDue (s : State) : Bool :=
  s.fabUp && s.group.stOf s.group.chip == 2 && s.gcyc % tHb == 0 && s.group.lastHb != s.gcyc + 1

/-- `HEARTBEAT_SEND` (R196). -/
def execEHeartbeatSend (s : State) : Host.Outcome State Fault Refusal :=
  .next (if s.beatDue then
    (s.updGroup fun g => { g with lastHb := s.gcyc + 1 }).emit (s.ownFlit 2 s.power.li s.group.c 0 0 0) s.group.chip else s)

/-- Whether `CEILING_CHANGE` is due. -/
def State.ceilDue (s : State) : Bool := s.group.ceil s.gcyc != s.group.c

/-- `CEILING_CHANGE` (R194): this cycle is the first at the new frequency. -/
def execECeilingChange (s : State) : Host.Outcome State Fault Refusal :=
  .next (if s.ceilDue then (s.setC (s.group.ceil s.gcyc)).syncBlock else s)

/-- `ALIGNMENT_MARK` (R197): the phase is steered, never the count; neighbours stay within 4 cycles. -/
def execEAlignMark (chip : Nat) (diff : Int) (s : State) : Host.Outcome State Fault Refusal :=
  .next (s.updGroup fun g => { g with nbrs := g.nbrs.map fun n =>
    if n.chip = chip ∧ diff.natAbs ≤ 4 then { n with diff := diff } else n })

/-- `FABRIC_LINK_FAILURE` (R400): the link is fenced; D and H are what FABRIC measures then. -/
def execELinkFail (chip d h : Nat) (s : State) : Host.Outcome State Fault Refusal :=
  .next ((s.updGroup fun g =>
    { g with nbrs := g.nbrs.map (fun n => if n.chip = chip then { n with up := false } else n), d := d, h := h,
             links := g.links.filter fun l => !((l.1 == chip && l.2.1 == g.chip) || (l.2.1 == chip && l.1 == g.chip)) }).syncBlock)

end Sys2Proof.Machine
end

