-- ==== Sys2Proof/Machine/PowerEv.lean ====
section
/-! DEFINITION. POWER: its evaluations and announcements, the emergency clamp and the trip (spec/16 R444 to R446, spec/06 R191, R193). -/
namespace Sys2Proof.Machine

/-- Announces a code (R193, R444): a member floods a LIMIT; its own entry takes the code at the same TEFF; a chip outside applies it locally. -/
def State.announce (s : State) (code reason : Nat) : State :=
  let g := s.group
  let e := s.gcyc + g.lead
  let te := if code < s.power.last then e else raiseB e
  let s := { s with power := { s.power with last := code, raise := 0 } }
  let s := s.updMem g.chip fun m => { m with lims := m.lims ++ [(code, s.gcyc, te)] }
  if g.stOf g.chip = 2 ∧ s.fabUp = true then (s.flood (s.ownFlit 1 code reason 0 te 0)).syncBlock else s.syncBlock

/-- The prediction's horizon H in periods (R444). -/
def horizon (lead : Nat) : Nat := cdiv (lead + 131072) 65536 + 1

/-- f_T in MHz from the hottest reading now and before, in tenths of a degree; the first evaluation knows no slope (DESIGN CHOICE, log 17). -/
def fTherm (fnow t : Nat) (prev : Option Nat) (lead : Nat) : Int :=
  let slope := t - prev.getD t
  let pred := t + horizon lead * slope
  (fnow : Int) - 10 * cdiv (pred - 1000) 5

/-- f_O in MHz. -/
def fOper (lcode : Option Nat) : Int := match lcode with
  | some c => 470 + 10 * (c : Int)
  | none => 1120

/-- L_i and its reason: 0 thermal, 1 power, 2 operating system, ties to the lower (R191, R444). f_P is the quotient fnow·plim / pm. -/
def localLimit (fnow plim pm t : Nat) (prev : Option Nat) (lead : Nat) (lcode : Option Nat) : Nat × Nat :=
  let ft := fTherm fnow t prev lead
  let fo := fOper lcode
  let num : Int := (fnow * plim : Nat)
  let den : Int := (Nat.max pm 1 : Nat)
  let pLess := fun (x : Int) => pm ≠ 0 && decide (num < x * den)
  let (code, why) : Int × Nat :=
    if pLess ft && pLess fo then ((num - 470 * den) / (10 * den), 1)
    else if ft ≤ fo then ((ft - 470) / 10, 0)
    else if pm ≠ 0 && decide (num ≤ fo * den) then ((num - 470 * den) / (10 * den), 1)
    else ((fo - 470) / 10, 2)
  (Nat.min 65 code.toNat, why)

/-- `POWER_EVALUATION` (R444), at multiples of T_ev: a lowering at once, a raise after four evaluations at least 2 codes up. Under the
clamp no LIMIT is sent (R445). -/
def execEPowerEval (tmaxC10 pmeas : Nat) (s : State) : Host.Outcome State Fault Refusal :=
  .next (
    if s.ctl.phase ≠ 2 ∨ s.ctl.failed.contains 5 = true ∨ s.gcyc % 65536 ≠ 0 then s
    else
      let p := s.power
      let (l, why) := localLimit p.fnow p.plim pmeas tmaxC10 p.tmax s.group.lead p.lcode
      let s := { s with power := { p with tmax := some tmaxC10, li := l } }
      if p.clamp then s
      else if l < p.last then s.announce l why
      else if l < p.last + 2 then { s with power := { s.power with raise := 0 } }
      else if p.raise = 3 then s.announce l why
      else { s with power := { s.power with raise := p.raise + 1 } })

/-- `EMERGENCY_CLAMP` (R445, R201): a cause is present, 0 a sensor at 110 degrees, 1 power, 2 over-current, 3 PWRBRK. CCLK falls to 300 MHz
on this chip alone, which becomes SUSPECT. -/
def execEClamp (_ : Nat) (s : State) : Host.Outcome State Fault Refusal :=
  .next (
    let on := s.power.clamp
    let s := { s with power := { s.power with clamp := true, clampAt := s.ccyc, fnow := 300 } }
    if on then s else s.selfSuspect.syncBlock)

/-- Whether `CLAMP_RELEASE` is due: every cause absent for 2^24 cycles. -/
def State.clampDue (s : State) : Bool := s.power.clamp && decide (s.power.clampAt + 2 ^ 24 ≤ s.ccyc)

/-- `CLAMP_RELEASE` (R445): the chip runs at code 0, and asks FABRIC to rejoin. -/
def execEClampRelease (s : State) : Host.Outcome State Fault Refusal :=
  .next (if s.clampDue then
    let s := { s with power := { s.power with clamp := false, last := 0, raise := 0 } }
    let s := s.updMem s.group.chip fun m => { m with lims := [(0, s.gcyc, s.gcyc)] }
    let s := s.setC 0
    if s.fabUp && s.group.nbrs != [] then s.askJoin else s.syncBlock
  else s)

/-- `THERMTRIP` (R446): the output goes low, and the compute dies lose power. -/
def execEThermtrip (s : State) : Host.Outcome State Fault Refusal := .next { s with power := { s.power with trip := true } }

/-- `LIMIT` as a command (R434): POWER takes LCODE into f_O from its next evaluation. -/
def execCLimit (h : CmdHdr) (code : Nat) (s : State) : Host.Outcome State Fault Refusal :=
  s.command h (.cLimit h code) false fun s =>
    if 65 < code then s.finish h 2 0 []
    else { s with power := { s.power with lcode := some code } }.finish h 0 0 []

end Sys2Proof.Machine
end

