-- ==== Sys2Proof/Machine/Sha3.lean ====
section
/-! DEFINITION. SHA3-256, the digest that spec/14 R415 to R418 and spec/15 R424, R426 name. Its definition is the published standard's
(log 8, PRESUMED). -/
namespace Sys2Proof.Machine

/-- One step of the round-constant register: 8 bits, feedback by 0x71. -/
def rcStep (r : Nat) : Nat := let t := 2 * r; if 256 ≤ t then Nat.xor (t % 256) 0x71 else t

/-- The round-constant register after k steps from 1. -/
def rcAt : Nat → Nat
  | 0 => 1
  | k + 1 => rcStep (rcAt k)

/-- The round constant of round r: bit 2^j − 1 is step 7r + j of the register. -/
def roundConst (r : Nat) : W64 :=
  (List.range 7).foldl (fun (a : W64) j => if rcAt (7 * r + j) % 2 = 1 then a ||| (1#64 <<< (2 ^ j - 1)) else a) 0

/-- Lane x, y of a state of 25 lanes. -/
def kLane (a : List W64) (x y : Nat) : W64 := a.getD (x % 5 + 5 * (y % 5)) 0

/-- The places that rho and pi visit: lane, next lane, rotation. -/
def rhoGo : Nat → Nat → Nat → Nat → List (Nat × Nat)
  | 0, _, _, _ => []
  | k + 1, t, x, y => (x + 5 * y, (t + 1) * (t + 2) / 2 % 64) :: rhoGo k (t + 1) y ((2 * x + 3 * y) % 5)

/-- The rotation of each lane. -/
def rhoTab : List (Nat × Nat) := (0, 0) :: rhoGo 24 0 1 0

/-- The rotation of a lane. -/
def rhoOf (i : Nat) : Nat := ((rhoTab.find? fun p => p.1 == i).map (·.2)).getD 0

/-- One round. -/
def kRound (a : List W64) (r : Nat) : List W64 :=
  let c := (List.range 5).map fun x => kLane a x 0 ^^^ kLane a x 1 ^^^ kLane a x 2 ^^^ kLane a x 3 ^^^ kLane a x 4
  let d := (List.range 5).map fun x => c.getD ((x + 4) % 5) 0 ^^^ (c.getD ((x + 1) % 5) 0).rotateLeft 1
  let t := (List.range 25).map fun i => (a.getD i 0 ^^^ d.getD (i % 5) 0).rotateLeft (rhoOf i)
  -- pi: the lane at (x, y) comes from (x + 3y, x)
  let b := (List.range 25).map fun i => kLane t (i % 5 + 3 * (i / 5)) (i % 5)
  (List.range 25).map fun i =>
    let x := i % 5
    let y := i / 5
    let v := kLane b x y ^^^ (~~~(kLane b (x + 1) y) &&& kLane b (x + 2) y)
    if i = 0 then v ^^^ roundConst r else v

/-- The permutation. -/
def keccak (a : List W64) : List W64 := (List.range 24).foldl kRound a

/-- Absorbs blocks of 136 bytes. -/
def absorb : Nat → List W64 → List Byte → List W64
  | 0, a, _ => a
  | k + 1, a, l =>
    let b := l.take 136
    let x := (List.range 25).map fun i => if i < 17 then a.getD i 0 ^^^ BitVec.ofNat 64 (ofBytes ((b.drop (8 * i)).take 8)) else a.getD i 0
    absorb k (keccak x) (l.drop 136)

/-- SHA3-256 of a byte string. -/
def sha3 (m : List Byte) : List Byte :=
  let n := 136 - m.length % 136
  let pad : List Byte := if n = 1 then [0x86] else 0x06 :: List.replicate (n - 2) 0 ++ [0x80]
  let a := absorb ((m.length + n) / 136) (List.replicate 25 0) (m ++ pad)
  (a.take 4).flatMap fun w => toBytes w.toNat 8

end Sys2Proof.Machine
end

