-- ==== Sys2Proof/Machine/Boot.lean ====
section
/-! DEFINITION. Boot, verification, measurement, recovery, attestation and isolation (spec/15 R423 to R427, spec/16 R440). -/
namespace Sys2Proof.Machine

/-! ### Firmware images (R424) -/

/-- n bytes of an image from an offset. -/
def slice (l : List Byte) (o n : Nat) : List Byte := (l.drop o).take n

/-- A little-endian field of an image. -/
def fieldN (l : List Byte) (o n : Nat) : Nat := ofBytes (slice l o n)

/-- Bytes that are all zero. -/
def zeroBytes (l : List Byte) : Bool := l.all (· == 0)

/-- Whether an image passes for a function: every check of R424. -/
def imageOk (l : List Byte) (func : Nat) : Bool :=
  let w := fieldN l 4 4
  let slot := bitsN w 8 8
  let len := fieldN l 0x10 8
  let body := slice l 0x2000 len
  let m := slice l 0 64
  let ed := slice l 0x40 32
  let ml := slice l 0xA0 1952
  fieldN l 0 4 == 0x4D465749 && bitsN w 16 16 == 0 && zeroBytes (slice l 0xC 4) && zeroBytes (slice l 0x152D (0x2000 - 0x152D))
    && decide (slot < 4) && bitsN w 0 8 == func && decide (4096 ≤ len) && decide (len ≤ 2 ^ 26) && body.length == len
    && sha3 (ed ++ ml) == Config.fusedKeyDigest slot && !Config.keyRevoked slot && decide (Config.fusedMinSvn func ≤ fieldN l 8 4)
    && sha3 body == slice l 0x20 32 && Config.ed25519Verify ed m (slice l 0x60 64) && Config.mldsaVerify ml m (slice l 0x840 3309)

/-- An entry of the measurement log (R426). -/
def measureEntry (l : List Byte) (seq : Nat) : List Byte :=
  toBytes (fieldN l 4 1) 1 ++ toBytes (fieldN l 5 1) 1 ++ [0, 0] ++ slice l 8 4 ++ toBytes seq 8 ++ slice l 0x20 32 ++ List.replicate 16 0

/-! ### Boot (R423) -/

/-- The functions in boot order: SECURE, PARSE, SCHED, MEM, ERR, FABRIC, POWER, SPARE, the control-core loader. -/
def bootOrder : List Nat := [6, 0, 1, 2, 3, 4, 5, 7, 8]

/-- The image that the firmware region holds for a function. -/
def Ctl.image (c : Ctl) (f : Nat) : List Byte := ((c.fw.find? fun p => p.1 == f).map (·.2)).getD []

/-- Verifies and measures images in order; answers whether all passed. -/
def Ctl.bootGo (c : Ctl) : List Nat → Bool × Ctl
  | [] => (true, c)
  | f :: r =>
    let l := c.image f
    if imageOk l f then { c with log := c.log ++ [measureEntry l c.log.length] }.bootGo r else (false, c)

/-- Crust's windows (R427). -/
def crustWindows : List Window := Config.isolationMap.map fun p => ⟨p.1, p.2.1, p.2.2.1, p.2.2.2⟩

/-- The chip after reset with its place in the fabric, the contents of local storage, and what waits at its inputs. -/
def State.resetKeep (s : State) (fw : List (Nat × List Byte)) : State :=
  { State.reset with
    inbox := s.inbox
    fresh := s.fresh
    group := { Group.reset with
      chip := s.group.chip, links := s.group.links, d := s.group.d, h := s.group.h
      nbrs := s.group.nbrs.map fun n => { n with last := 0, tsend := 0, diff := 0 } }
    ctl := { Ctl.reset with fw := fw } }

/-- The boot chain: with every image verified the map is locked, the debug chain with it, and the function cores run; otherwise recovery. -/
def State.boot (s : State) : State :=
  let (ok, c) := s.ctl.bootGo bootOrder
  if ok then
    ({ s with ctl := { c with phase := 2, wins := crustWindows, locked := true },
              group := { s.group.wired.measure with block := Config.statusBlock } }).syncBlock
  else { s with ctl := { c with phase := 1 } }

/-- `CHIP_RESET` (R423): the images of local storage in boot order; an empty list leaves the firmware region as it is. -/
def execEChipReset (images : List (List (BitVec 8))) (s : State) : Host.Outcome State Fault Refusal :=
  let fw := if images = [] then s.ctl.fw else bootOrder.zip images
  .next (if s.power.trip then s else (s.resetKeep fw).boot)

/-- `RECOVERY_FRAME` (R425): in recovery, 64 to 1,024 image bytes at an offset; a complete image that passes is stored and the chip resets. -/
def execERecoveryFrame (off : Nat) (total : Nat) (data : List (BitVec 8)) (s : State) : Host.Outcome State Fault Refusal :=
  if s.ctl.phase ≠ 1 ∨ data.length < 64 ∨ 1024 < data.length then .next s
  else
    let n := s.ctl.rlen.getD total
    let img := ((List.range data.length).zip data).foldl (fun (m : AMap Byte) p => m.upd (off + p.1) p.2) s.ctl.rimg
    let s := { s with ctl := { s.ctl with rlen := some n, rimg := img } }
    if (img.filter fun p => p.1 < n).length < n then .next s
    else
      let l := (List.range n).map fun i => AMap.get 0 img i
      let f := fieldN l 4 1
      if bootOrder.contains f && imageOk l f then
        .next ((s.resetKeep ((s.ctl.fw.filter fun p => p.1 != f) ++ [(f, l)])).boot)
      else .next { s with ctl := { s.ctl with rlen := none, rimg := [] } }

/-! ### Attestation (R426) -/

/-- `ATTEST` (R426): the log with a quote signed by the device's keys. Without SECURE there is none (R439). -/
def execCAttest (h : CmdHdr) (nonce : List (BitVec 8)) (s : State) : Host.Outcome State Fault Refusal :=
  s.command h (.cAttest h nonce) false fun s =>
    if s.ctl.failed.contains 6 then s
    else if nonce.length ≠ 32 then s.finish h 2 0 []
    else
      let log := s.ctl.log.flatten
      let q := sha3 (nonce ++ sha3 log)
      { s with ctl := { s.ctl with quote := log ++ q ++ Config.deviceSign q } }.finish h 0 0 []

/-! ### Isolation (R427) -/

/-- Whether a core's windows allow an access: 0 read, 1 write, 2 execute. -/
def Ctl.allows (c : Ctl) (fc a acc : Nat) : Bool :=
  c.wins.any fun w => w.fc == (if fc < 8 then fc else 8) && decide (w.base ≤ a) && decide (a < w.base + w.size) && bitN w.perm (2 - acc % 3)

/-- `ISOLATION_FAULT`: an access outside the windows does nothing but fault its core, and ERR is told. -/
def execEIsolationFault (fc addr acc : Nat) (s : State) : Host.Outcome State Fault Refusal :=
  if s.ctl.locked = false ∨ s.ctl.allows fc addr acc = true then .next s
  else .next (({ s with ctl := { s.ctl with faulted := s.ctl.faulted ++ [fc] } }.postMail 12 0x30
    (toBytes fc 8 ++ toBytes addr 8 ++ toBytes acc 8)).2)

/-- `TEST_ACCESS_INSTRUCTION` (R427, R440): 0 to 2 are the mandatory instructions, 3 to 5 the boundary scan's; every other is refused once
the debug chain is locked. -/
def execETestAccess (ins : Nat) (s : State) : Host.Outcome State Fault Refusal :=
  .next (if 6 ≤ ins ∧ s.ctl.locked = true then s else { s with ctl := { s.ctl with tap := ins } })

end Sys2Proof.Machine
end

