-- ==== Sys2Proof/Machine/Firmware.lean ====
section
/-! DEFINITION. Mailboxes, command queues and packets, completion entries, register writes, SCHED's watchdog and take-over, and failed
function cores (spec/15 R428 to R439, spec/00 R5). -/
namespace Sys2Proof.Machine

/-! ### Mailboxes (R428, R429) -/

/-- The mailboxes that a core receives, in the order of its HEAD windows; SPARE takes SCHED's after a take-over (R438). -/
def Ctl.boxes (c : Ctl) (fc : Nat) : List Nat :=
  if 8 ≤ fc then [8, 9, 10, 11]
  else if fc = 1 then (if c.failed.contains 1 then [] else [1, 13])
  else if fc = 3 then [3, 12]
  else if fc = 7 then (if c.failed.contains 1 ∧ c.spare = 1 ∧ c.takeover = none then [7, 1, 13] else [7])
  else [fc]

/-- `MAILBOX_POST` (R429): the payload goes through POSTBUF; the outcome reads 0 posted, 1 full, 2 not permitted. -/
def execEMailboxPost (sender m : Nat) (data : List (BitVec 8)) (s : State) : Host.Outcome State Fault Refusal :=
  let d := (data ++ List.replicate 64 0).take 64
  if 0x20 ≤ sender then .next (s.postMail m sender d).2
  else
    let deny := 14 ≤ m || !Config.mayPost sender m
    let (ok, t) := if deny then (false, s) else s.postMail m sender d
    .next { t with ctl := { t.ctl with
      postbuf := t.ctl.postbuf.upd sender d
      outcome := t.ctl.outcome.upd sender (if deny then 2 else if ok then 0 else 1) } }

/-- `MAILBOX_POP` (R429): the head entry of the k-th mailbox that a core receives; SCHED writes its journal entry first (R437). -/
def execEMailboxPop (fc k : Nat) (s : State) : Host.Outcome State Fault Refusal :=
  match (s.ctl.boxes fc)[k]? with
  | none => .next s
  | some m => match AMap.get [] s.ctl.mail m with
    | [] => .next s
    | e :: r =>
      let t := if m = 1 ∨ m = 13 then s.journal 4 [e.tag.toNat] else s
      .next { t with ctl := { t.ctl with mail := t.ctl.mail.upd m r } }

/-! ### Command queues (R430 to R433) -/

/-- `DBELL` (R431): sets a queue's KICK bit. -/
def execEDbell (q : Nat) (s : State) : Host.Outcome State Fault Refusal :=
  .next (if s.ctl.phase = 2 ∧ q < 64 then { s with ctl := { s.ctl with kick := s.ctl.kick ||| (1#64 <<< q) } } else s)

/-- A packet's fields: mandatory bit, tag and payload; none when they do not fill the words or an MZ bit is set (R432). -/
def packetFields : Nat → List W32 → Option (List (Bool × Nat × List Nat))
  | _, [] => some []
  | 0, _ :: _ => none
  | k + 1, w :: r =>
    let n := bitsN w.toNat 16 14
    if bitN w.toNat 30 ∨ r.length < n then none
    else (packetFields k (r.drop n)).map fun l => (bitN w.toNat 31, bitsN w.toNat 0 16, (r.take n).map (·.toNat)) :: l

/-- Payload words of a known tag (R434). -/
def tagWords (t : Nat) : Option Nat := match t with
  | 1 => some 1
  | 2 => some 2
  | 3 => some 4
  | 4 => some 8
  | 5 => some 1
  | 6 => some 0
  | 7 => some 1
  | _ => none

/-- The tags that a command requires. -/
def needTags (opc : Nat) : List Nat := match opc with
  | 1 => [3]
  | 2 => [2]
  | 3 => [3]
  | 4 => [1]
  | 5 => [1, 2]
  | 6 => [1, 2]
  | 7 => [1, 3]
  | 8 => [1, 5]
  | 9 => [1]
  | 10 => [7]
  | _ => [4]

/-- A known field within its range. -/
def fieldOk (f : Bool × Nat × List Nat) : Bool := match tagWords f.2.1 with
  | none => true
  | some n => f.2.2.length == n && (match f.2.1 with
    | 1 => decide (f.2.2.headD 0 < 65536)
    | 5 => decide (f.2.2.headD 0 < 65536)
    | 7 => decide (f.2.2.headD 0 ≤ 65)
    | _ => true)

/-- A list without repeats. -/
def distinct : List Nat → Bool
  | [] => true
  | a :: r => !r.contains a && distinct r

/-- The number in a field's payload from word i on, of n words. -/
def payN (fs : List (Bool × Nat × List Nat)) (tag i n : Nat) : Option Nat :=
  (fs.find? fun f => f.2.1 == tag).map fun f => ((List.range n).map fun j => f.2.2.getD (i + j) 0 * 2 ^ (32 * j)).foldl (· + ·) 0

/-- A packet of queue q as a command, or the status that refuses it with its SEQ (R433). -/
def State.packet (s : State) (q : Nat) (b : List Byte) : Instr ⊕ (Nat × Nat) :=
  let w0 := fieldN b 0 4
  let opc := bitsN w0 0 16
  let nfw := bitsN w0 16 16
  let seq := fieldN b 8 8
  let h : CmdHdr := ⟨q, seq, []⟩
  if opc = 0 ∨ 11 < opc then .inr (1, seq)
  else match packetFields nfw (words32 nfw (b.drop 16)) with
    | none => .inr (2, seq)
    | some fs =>
      if 1020 < nfw ∨ fieldN b 4 4 ≠ 0 ∨ distinct (fs.map (·.2.1)) = false ∨ (needTags opc).any (fun t => !fs.any (·.2.1 == t)) = true
          ∨ fs.all fieldOk = false then .inr (2, seq)
      else if fs.any fun f => f.1 && (tagWords f.2.1).isNone && decide (f.2.1 < 0x8000) then .inr (3, seq)
      else
        let ctx := (payN fs 1 0 1).getD 0
        let obj := (payN fs 2 0 2).getD (((s.ctx? ctx).bind fun x => x.objs.head?).getD 0)
        let addr := (payN fs 3 0 2).getD 0
        .inl (match opc with
          | 1 => .cLoad h addr ((payN fs 3 2 2).getD 0)
          | 2 => .cUnload h obj (fs.any (·.2.1 == 6))
          | 3 => .cCtxnew h addr
          | 4 => .cCtxkill h ctx
          | 5 => .cMap h ctx obj
          | 6 => .cUnmap h ctx obj
          | 7 => .cLaunch h ctx addr obj
          | 8 => .cRelease h ctx ((payN fs 5 0 1).getD 0)
          | 9 => .cUnstop h ctx
          | 10 => .cLimit h ((payN fs 7 0 1).getD 0)
          | _ => .cAttest h ((payN fs 4 0 8).elim [] fun n => toBytes n 32))

/-- The lowest set bit of KICK among the queues that PARSE does not serve already. -/
def Ctl.kickBit (c : Ctl) : Option Nat := (List.range 64).find? fun i => c.kick.getLsbD i && !c.serving.any fun p => p.1 == i

/-- A command queue's header: flat address, HEAD, TAIL, DEPTH. -/
def State.cmdRing (s : State) (q : Nat) : Option (Nat × Nat × Nat × Nat) :=
  match s.ctl.qbase.find q with
  | none => none
  | some a => (s.ring (ctlKey a)).map fun r => (ctlKey a, r.1, r.2.1, r.2.2.2)

/-- Whether a queue's next command may be taken: none of it waits. -/
def State.queueFree (s : State) (q : Nat) : Bool := !s.cqFull q && !s.ctl.wait.any (ofQueue q)

/-- Whether queue q holds no packet below TAIL t, as PARSE has read it. -/
def State.queueServed (s : State) (q t : Nat) : Bool := (s.cmdRing q).all fun r => decide (t ≤ r.2.1)

/-- Takes the packet at HEAD of queue q: its command comes to the inbox; packets stand one after another behind the header (DESIGN CHOICE, log 12). -/
def State.takePacket (s : State) (q : Nat) : State := match s.cmdRing q with
  | none => s
  | some (a, hd, _, depth) =>
    let b := s.rdBytes (a + 0x40 + 4096 * (hd % depth)) 4096
    let u := s.wrN a 8 (hd + 1)
    match s.packet q b with
    | .inl i => { u with inbox := i :: u.inbox }
    | .inr (st, seq) => u.finish ⟨q, seq, []⟩ st 0 []

/-- PARSE'S LOOP (R431), one step of it; none when it waits for a doorbell or for room. A queue whose command must wait holds up its own packets only
(DEDUCED, log 12). -/
def State.parseStep (s : State) : Option State :=
  let serve := fun (l : List (Nat × Nat)) => { s with ctl := { s.ctl with serving := l } }
  if s.ctl.phase ≠ 2 ∨ s.ctl.failed.contains 0 = true then none
  else match s.ctl.serving.find? fun p => s.queueServed p.1 p.2 || s.queueFree p.1 with
    | some (q, t) => some (if s.queueServed q t then serve (s.ctl.serving.filter (·.1 != q)) else s.takePacket q)
    | none => s.ctl.kickBit.map fun q =>
      { s with ctl := { s.ctl with kick := s.ctl.kick &&& ~~~(1#64 <<< q)
                                   serving := s.ctl.serving ++ ((s.cmdRing q).map fun r => (q, r.2.2.1)).toList } }

/-! ### Completion entries (R431, R435) -/

/-- Whether `COMPLETION_WRITE` is due: an entry waits, its queue has room, and no take-over runs. -/
def State.complDue (s : State) (q : Nat) : Bool :=
  s.ctl.takeover.isNone && s.ctl.compl.any (fun c => c.queue == q) && !s.cqFull q && (match s.ctl.qbase.find (64 + q) with
    | some a => (s.ring (ctlKey a)).isSome
    | none => false)

/-- `COMPLETION_WRITE`: the oldest entry of a queue, after its journal entry (R437). -/
def execECompletionWrite (q : Nat) (s : State) : Host.Outcome State Fault Refusal :=
  if s.complDue q = false then .next s
  else match s.ctl.compl.find? fun c => c.queue == q, s.ctl.qbase.find (64 + q) with
    | some c, some a => match s.ring (ctlKey a) with
      | some (_, t, _, depth) =>
        let u := s.journal 3 [q, t]
        let u := (u.wrBytes (ctlKey a + 0x40 + 64 * (t % depth)) c.data).wrN (ctlKey a + 8) 8 (t + 1)
        .next { u with ctl := { u.ctl with compl := u.ctl.compl.erase c } }
      | none => .next s
    | _, _ => .next s

/-! ### Register writes (R5) -/

/-- A write by the operating system or a function core to a system register: RW, RWS and W1C fields take it as R5 says, KNCFG keeps R165's
ranges; every other field keeps its value. A value of RNDDEF above 5, and of BRB that R264 forbids, leaves the register as it is: the rules give
only `MTS` a trap for them (DESIGN CHOICE, log 29). FSM and MMREV are those of the context that runs on the core. -/
def State.regWrite (s : State) (c reg : Nat) (v : W64) : State :=
  let m := rwMask reg
  let n := (s.sysReg c reg &&& ~~~m) ||| (v &&& m)
  match reg with
  | 0x08 => s.updSl c fun x => { x with vrotb := n.setWidth 4 }
  | 0x0A => s.updCtx (s.ctxOf c) fun x => { x with fsm := v.getLsbD 0 }
  | 0x0B => s.updCtx (s.ctxOf c) fun x => { x with ctxrev := v.toNat % 256 }
  | 0x0E => s.updCore c fun k => { k with cntOvf := v.toNat % 2 ^ 32 }
  | 0x0F => s.updCore c fun k => { k with cntNan := v.toNat % 2 ^ 32 }
  | 0x10 => s.updCore c fun k => { k with cntSat := v.toNat % 2 ^ 32 }
  | 0x11 => s.updCore c fun k => { k with cntTrn := v.toNat % 2 ^ 32 }
  | 0x09 => if bitsN n.toNat 8 3 < bitsN n.toNat 12 3 ∨ brbOk n.toNat = false then s else s.updSl c fun x => { x with brb := n }
  | 0x12 => s.updCore c fun k => k.writeSys 0x12 n
  | 0x13 => if 6 ≤ n.toNat then s else s.updCore c fun k => k.writeSys 0x13 n
  | 0x14 => s.updCore c fun k => k.writeSys 0x14 n
  | 0x15 => s.updCore c fun k => k.writeSys 0x15 v
  | 0x1A => s.setKncfg (clOf c) v
  | _ => s

/-- `REGISTER_WRITE`: registers 0x00 to 0x1A are R388's; 0x100 is P_LIM, set over the sideband (R444); 0x200 + q is QBASE(q), and 0x240 + q
the header of the completion queue paired with it (R430, log 12). -/
def execERegWrite (c reg : Nat) (v : BitVec 64) (s : State) : Host.Outcome State Fault Refusal :=
  .next (if reg ≤ 0x1A then s.regWrite (c % 256) reg v
    else if reg = 0x100 then { s with power := { s.power with plim := Nat.min v.toNat 1900 } }
    else if 0x200 ≤ reg ∧ reg < 0x280 then { s with ctl := { s.ctl with qbase := s.ctl.qbase.upd (reg - 0x200) v.toNat } }
    else s)

/-! ### Failed function cores (R438, R439) -/

/-- `SCHED_WATCHDOG_KICK`. -/
def execEWdKick (s : State) : Host.Outcome State Fault Refusal := .next { s with ctl := { s.ctl with kicked := s.ccyc } }

/-- Journal entries that a take-over replays: from the last CHECKPOINT. -/
def Ctl.replays (c : Ctl) : Nat := if c.jseq < 65536 then c.jseq else c.jseq % 65536 + 1

/-- SCHED fails: SPARE takes over, at a free cycle within the bound; with SPARE used or failed, SCHED is lost and ERR tells the operating
system. The journal's changes have all taken effect, so its replay changes nothing else. -/
def State.schedFail (s : State) : State :=
  let f := if s.ctl.failed.contains 1 then s.ctl.failed else s.ctl.failed ++ [1]
  if s.ctl.spare = 0 ∧ s.ctl.failed.contains 7 = false then
    let (d, t) := s.drawNat (2 ^ 20 + 64 * s.ctl.replays + 1)
    { t with ctl := { t.ctl with failed := f, spare := 1, takeover := some (s.ccyc + d) } }
  else ({ s with ctl := { s.ctl with failed := f, spare := 2, takeover := none } }.postMail 8 3 (toBytes 1 8)).2

/-- Whether `SCHED_WATCHDOG` is due: 2^20 cycles without a kick, or a take-over's end. -/
def State.watchdogDue (s : State) : Bool := s.ctl.phase == 2 && (match s.ctl.takeover with
  | some e => decide (e ≤ s.ccyc)
  | none => !s.schedLost && decide (s.ctl.kicked + 2 ^ 20 ≤ s.ccyc))

/-- Writes every waiting bind record that can be written. -/
def State.writeNeeds (s : State) : State :=
  s.ctl.needs.foldl (fun (s : State) (n : Nat × Nat × BindRec) => s.writeNeed n.1) s

/-- `SCHED_WATCHDOG`: the take-over begins, or ends with SPARE in SCHED's place. -/
def execESchedWatchdog (s : State) : Host.Outcome State Fault Refusal :=
  .next (if s.watchdogDue = false then s
    else if s.ctl.takeover.isSome then ({ s with ctl := { s.ctl with takeover := none, kicked := s.ccyc } }).writeNeeds
    else s.schedFail)

/-- `FUNCTION_CORE_FAILURE` (R439), by FUNC code. POWER's chip leaves the group and runs at the floor. -/
def execEFnFail (fn : Nat) (s : State) : Host.Outcome State Fault Refusal :=
  let t : State := if s.ctl.failed.contains fn then s else { s with ctl := { s.ctl with failed := s.ctl.failed ++ [fn] } }
  .next (match fn with
    | 1 => s.schedFail
    | 7 => if s.ctl.spare = 1 then t.schedFail else t
    | 5 => (if t.fabUp then t.leave else t).updMem t.group.chip fun m => { m with lims := m.lims ++ [(0, t.gcyc, t.gcyc)] }
    | _ => t)

end Sys2Proof.Machine
end

