-- ==== Sys2Proof/Machine/Contexts.lean ====
section
/-! DEFINITION. Contexts: creation, kill, release, un-stop, switch-out and switch-in, pushes into queue images (spec/13 R392 to R401, spec/05
R144, R145, spec/12 R383). -/
namespace Sys2Proof.Machine

/-! ### CTXNEW (R396, R434) -/

/-- Whether a descriptor holds only what R396 names, and RNDDEF is not 6 or 7. -/
def descOk (w : Nat → Nat) : Bool :=
  w 0 % 2 ^ 12 == 0 && w 0 / 2 ^ 46 == 0 && w 1 / 2 ^ 46 == 0 && w 2 / 2 ^ 46 == 0 && w 3 / 2 ^ 16 == 0 && bitsN (w 4) 16 43 == 0
    && bitsN (w 5) 4 28 == 0 && decide (bitsN (w 5) 0 3 < 6) && bitsN (w 6) 32 32 == 0
    && (List.range 25).all fun i => w (7 + i) == 0

/-- The context that a descriptor describes: non-resident, with no object mapped. -/
def ctxOfDesc (save : Nat) (w : Nat → Nat) : Ctx :=
  { save := save, root := w 0, tq := w 1, srbase := w 2, srcount := w 3, state := 0, stopped := false, gone := none, cso := bitN (w 4) 60,
    rev1 := bitN (w 4) 59, fsm := false, ctxrev := 2, tqdrop := bitsN (w 5) 32 32, e4sat := bitN (w 5) 3,
    rnddef := BitVec.ofNat 3 (bitsN (w 5) 0 3), seed := BitVec.ofNat 32 (w 6), seq := 0, objs := [], pool := 0, tl9 := .zero, heapVA := 0,
    heapN := 0, heap := [], leaving := false, again := false }

/-- A new save area: timelines, arrivals and barriers are 0 (DESIGN CHOICE, log 10), and no capability entry is valid (R378). -/
def State.newSave (s : State) (save : Nat) : State :=
  let s := ((s.clear (save + 0x100) 2048).clear (save + 0x1000) 4096).clear (save + 0x4000) 16384
  (List.range 256).foldl (fun (s : State) (i : Nat) =>
    let a := save + 0x2000 + 32 * i + 7
    s.wr8 a (s.rd8 a &&& 0x7F)) s

/-- `CTXNEW`: PKT_FORMAT for a faulty descriptor; a CTXID that a living context holds is refused the same way (DESIGN CHOICE, log 12). The global
heap, which MEM owns, is the header's choice: its virtual address and its granules. -/
def execCCtxnew (h : CmdHdr) (addr : Nat) (s : State) : Host.Outcome State Fault Refusal :=
  s.command h (.cCtxnew h addr) false fun s =>
    let w := fun i => s.rdN (addr + 8 * i) 8
    let id := w 4 % 65536
    let live := match s.ctx? id with
      | some x => x.state != 3
      | none => false
    if descOk w = false ∨ live = true then s.finish h 2 0 []
    else
      let x := { ctxOfDesc addr w with heapVA := h.place.getD 0 0, heapN := h.place.getD 1 0 }
      ({ s.newSave addr with
          ctxs := s.ctxs.upd id x
          clusters := s.clusters.map fun (p : Nat × Cluster) => (p.1, { p.2 with
            hnd := p.2.hnd.filter fun e => e.1 / 4096 != id
            bars := p.2.bars.filter fun e => e.1 / 64 != id
            tls := p.2.tls.filter fun e => e.1 / 16 != id }) }.syncCtx id).finish h 0 id []

/-- `CTXKILL` (R399). -/
def execCCtxkill (h : CmdHdr) (ctx : Nat) (s : State) : Host.Outcome State Fault Refusal :=
  s.command h (.cCtxkill h ctx) false fun s =>
    if (s.ctx? ctx).isNone then s.finish h 2 0 [] else (s.killCtx ctx).finish h 0 ctx []

/-! ### RELEASE and UNSTOP (R392, R393) -/

/-- Clears the faults of the operators that a release covers. -/
def State.clearFault (s : State) (p : Nat → LOp → Bool) : State :=
  { s with lops := s.lops.map fun q => if p q.1 q.2 then (q.1, { q.2 with fault := none }) else q }

/-- Releases a HELD record: a saved slice may be dispatched again, with its walk; a walk or an operator without a slice is tried again. -/
def State.releaseRec (s : State) (r : SRec) : State :=
  let s := if r.walk = 0 then s.clearFault fun n _ => n == r.lop else s.clearFault fun _ o => o.walk == r.walk
  if r.sl.isSome then
    let s := s.setKind r.ctx r.idx 1
    if r.walk = 0 then s else s.updWalk r.walk fun k => { k with st := if k.st = 1 then 3 else k.st }
  else
    let s := s.dropRecs fun q => q.ctx == r.ctx && q.idx == r.idx
    if r.walk = 0 then s else s.updWalk r.walk fun k => { k with st := if k.st = 1 then 0 else k.st }

/-- `RELEASE`: a record that is not HELD is left as it is; an index outside the pool is PKT_FORMAT (DESIGN CHOICE, log 12). -/
def execCRelease (h : CmdHdr) (ctx rec : Nat) (s : State) : Host.Outcome State Fault Refusal :=
  s.command h (.cRelease h ctx rec) false fun s =>
    match s.ctx? ctx with
    | none => s.finish h 2 0 []
    | some x =>
      if x.srcount ≤ rec then s.finish h 2 0 []
      else match s.recs.find? fun r => r.ctx == ctx && r.idx == rec && r.kind == 2 with
        | none => s.finish h 0 0 []
        | some r => (s.releaseRec r).finish h 0 0 []

/-- Saves what a full pool left unsaved: walks HELD outside stages, and operators at a trap, that no record names (R397). -/
def State.lateHold (s : State) (ctx : Nat) : State :=
  let s := (s.walks.filter fun (p : Nat × Walk) => p.2.st == 1 && p.2.stage.isNone && !(s.recs.any fun r => r.walk == p.1)
      && (s.insts.find p.2.inst).any fun x => x.ctx == ctx).foldl (fun (s : State) (p : Nat × Walk) =>
    let cl := ((s.insts.find p.2.inst).map (·.cluster)).getD 0
    if (s.freeRec ctx).isNone then s else s.holdRec ctx (16 * cl) { Run.zero with ctx := ctx, inst := p.2.inst } p.1 0) s
  (s.lops.filter fun (p : Nat × LOp) => p.2.ctx == ctx && p.2.fault.isSome && !(s.recs.any fun r => r.lop == p.1)
      && ((s.walks.find p.2.walk).bind (·.stage)).isNone).foldl (fun (s : State) (p : Nat × LOp) =>
    if (s.freeRec ctx).isNone then s else s.holdRec ctx (16 * p.2.cluster) { Run.zero with ctx := ctx, inst := p.2.inst } 0 p.1) s

/-- `UNSTOP`: STOPPED is clear, and the pool is as large as the descriptor says now. -/
def execCUnstop (h : CmdHdr) (ctx : Nat) (s : State) : Host.Outcome State Fault Refusal :=
  s.command h (.cUnstop h ctx) false fun s =>
    match s.ctx? ctx with
    | none => s.finish h 2 0 []
    | some x =>
      let n := s.rdN (x.save + 0x18) 8 % 65536
      let s := s.updCtx ctx fun y => { y with stopped := false, state := if y.state = 2 then 1 else y.state, srcount := Nat.max n y.srcount }
      ((s.syncCtx ctx).lateHold ctx).finish h 0 0 []

/-! ### Switch-in (R144, R383, R398, R401) -/

/-- Binds a context's queues to physical queues again, under R144's test. -/
def State.queuesIn (s : State) (ctx : Nat) : State :=
  (s.queues.filter fun p => p.2.ctx == ctx).foldl (fun (s : State) (p : Nat × Queue) =>
    if s.physRoom p.2.cluster p.2.depth then s.updQ p.1 fun q => { q with phys := true } else s) s

/-- One arrival at a barrier. -/
def State.arrive (s : State) (ctx cl bar : Nat) : Nat → State
  | 0 => s
  | n + 1 => (s.setBar cl ctx bar (AMap.get Bar.idle (s.cluster cl).bars (ctx * 64 + bar)).signal).arrive ctx cl bar n

/-- Reads tl4 to tl15 and the named barriers of a context from its save area (R396, R398). -/
def State.loadTables (s : State) (ctx : Nat) (x : Ctx) : State :=
  (List.range 16).foldl (fun (s : State) (cl : Nat) =>
    let s := (List.range 12).foldl (fun (s : State) (i : Nat) =>
      let v := s.rdN (x.save + 0x100 + 128 * cl + 8 * i) 8
      if i = 5 then (if cl = 0 then s.updCtx ctx fun y => { y with tl9 := y.tl9.at_ v } else s)
      else s.setCtl cl ctx (4 + i) ((s.ctl_ cl ctx (4 + i)).at_ v)) s
    (List.range 64).foldl (fun (s : State) (i : Nat) =>
      let a := x.save + 0x4000 + 16 * (64 * cl + i)
      s.setBar cl ctx i ⟨s.rdN a 4, s.rdN (a + 4) 4, BitVec.ofNat 16 (s.rdN (a + 8) 2), s.rdN (a + 12) 4⟩) s) s

/-- Applies the pending arrivals of the save area in cluster and identifier order (R398). -/
def State.applyArrivals (s : State) (ctx : Nat) (x : Ctx) : State :=
  (List.range 1024).foldl (fun (s : State) (i : Nat) =>
    let a := x.save + 0x1000 + 4 * i
    (s.arrive ctx (i / 64) (i % 64) (s.rdN a 4)).wrN a 4 0) s

/-- The lowest free resident index (R160). -/
def State.freeRes (s : State) : Option Nat := (List.range 64).find? fun i => (s.res.find i).isNone

/-- Switches a context in; one marked GONE is killed instead, with CODE_GONE (R401). -/
def State.switchIn (s : State) (ctx : Nat) : State :=
  match s.ctx? ctx, s.freeRes with
  | some x, some i =>
    if x.state ≠ 0 then s
    else match x.gone with
      | some sym => (s.trapRec ctx 0x84 0xFFFF 0 (2 ^ 32 - 1) 0xFFFF 0 0 0 8 0 (BitVec.ofNat 64 sym) 0 0).killCtx ctx
      | none =>
        let s := { s with res := s.res.upd i ctx }
        let s := ((s.queuesIn ctx).loadTables ctx x).applyArrivals ctx x
        (s.updCtx ctx fun y =>
          { y with state := if y.stopped then 2 else 1, fsm := y.rev1, ctxrev := if y.rev1 then 1 else 2, again := false }).syncCtx ctx
  | _, _ => s

/-- `CONTEXT_SWITCH_IN` (R398). -/
def execECtxIn (ctx : Nat) (s : State) : Host.Outcome State Fault Refusal := .next (s.switchIn ctx)

/-! ### Switch-out (R144, R398) -/

/-- Writes a physical queue to its image and releases it. -/
def State.queueOut (s : State) (k : Nat) (q : Queue) : State :=
  let x := { q with phys := false }
  let s := s.imageHead x
  let s := ((List.range x.items.length).zip x.items).foldl (fun (s : State) (p : Nat × QItem) =>
    s.wrVA x.ctx (x.image + 0x40 + 8 * ((x.head + p.1) % Nat.max x.depth 1)) 8 p.2.val.toNat) s
  { s with queues := s.queues.upd k x }

/-- Writes tl4 to tl15 and the named barriers of a context to its save area (R396). -/
def State.saveTables (s : State) (ctx : Nat) (x : Ctx) : State :=
  (List.range 16).foldl (fun (s : State) (cl : Nat) =>
    let s := (List.range 12).foldl (fun (s : State) (i : Nat) =>
      s.wrN (x.save + 0x100 + 128 * cl + 8 * i) 8 (if i = 5 then x.tl9.val else (s.ctl_ cl ctx (4 + i)).val)) s
    (List.range 64).foldl (fun (s : State) (i : Nat) =>
      let b := AMap.get Bar.idle (s.cluster cl).bars (ctx * 64 + i)
      let a := x.save + 0x4000 + 16 * (64 * cl + i)
      (((s.wrN a 4 b.target).wrN (a + 4) 4 b.arrc).wrN (a + 8) 2 b.amask.toNat).wrN (a + 12) 4 b.waiting) s) s

/-- The rest of a switch-out, once no slice of the context runs: queues, timelines, barriers, instruction-cache locks. -/
def State.finishOut (s : State) (ctx : Nat) : State :=
  match s.ctx? ctx with
  | none => s
  | some x =>
    let s := (s.queues.filter fun p => p.2.ctx == ctx && p.2.phys).foldl (fun (s : State) (p : Nat × Queue) => s.queueOut p.1 p.2) s
    let s := s.saveTables ctx x
    let s := { s with
      res := s.res.filter fun p => p.2 != ctx
      cores := s.cores.map fun (p : Nat × Core) => if p.2.lockCtx = ctx then (p.1, { p.2 with locks := [] }) else p }
    let s := (s.updCtx ctx fun y => { y with state := 0, leaving := false }).syncCtx ctx
    if x.again then s.switchIn ctx else s

/-- Whether a context has slices on cores. -/
def State.onCores (s : State) (ctx : Nat) : Bool := s.cores.any fun p => p.2.run.any fun r => r.ctx == ctx

/-- A context whose switch-out can end. -/
def State.outDue (s : State) : Option Nat := (s.ctxs.find? fun p => p.2.leaving && !s.onCores p.1).map (·.1)

/-- Requests the pre-emption of every slice of a context, for its switch-out; a context without slices is out at once. -/
def State.switchOut (s : State) (ctx : Nat) : State :=
  match s.ctx? ctx with
  | none => s
  | some x =>
    if x.state ≠ 1 ∧ x.state ≠ 2 then s
    else
      let s := s.updCtx ctx fun y => { y with leaving := true }
      let s := (s.coresWith fun r => r.ctx == ctx).foldl (fun (s : State) (c : Nat) => s.preempt c) s
      if s.onCores ctx then s else s.finishOut ctx

/-- `CONTEXT_SWITCH_OUT` (R398). -/
def execECtxOut (ctx : Nat) (s : State) : Host.Outcome State Fault Refusal := .next (s.switchOut ctx)

/-- `BITTERN_PUSH` (R145): a push into the image of a non-resident context's queue, when it has room; otherwise it is not performed. -/
def execEBitternPush (q : Nat) (item : BitVec 64) (s : State) : Host.Outcome State Fault Refusal :=
  match s.queues.find q with
  | none => .next s
  | some x =>
    let away := match s.ctx? x.ctx with
      | some c => c.state == 0
      | none => false
    if away = false ∨ x.depth ≤ x.items.length then .next s
    else .next ((s.imageItem x x.tail item).updQ q fun y => { y with items := y.items ++ [⟨item, 0, 256⟩], tail := y.tail + 1 })

end Sys2Proof.Machine
end

