-- ==== Sys2Proof/Machine/Verify.lean ====
section
/-! DEFINITION. What the loader rejects in a record (spec/03 R51 to R64, R69, R79, spec/04 R90 to R134, spec/05 R146, R147, spec/06 R175,
R176): attributes, regions, operand and result kinds, static types. A failed check answers the number of its row in R64's table. -/
namespace Sys2Proof.Machine

/-- A check: the code of its failure. -/
abbrev Chk := Except Nat

/-- Fails with a code unless the condition holds. -/
def need (ok : Bool) (code : Nat) : Chk Unit := if ok then pure () else throw code

/-! ### Attributes (R55 to R57, R91, R147, R176) -/

/-- A payload of one word below 2^w that is no reserved value; 0 for one that passes. -/
def pay1 (w : Nat) (rsv : Nat → Bool) (p : List Nat) : Nat := match p with
  | [v] => if 2 ^ w ≤ v ∨ rsv v = true then 2 else 0
  | _ => 7

/-- A payload of one word, not zero. -/
def paySet (w : Nat) (p : List Nat) : Nat := match p with
  | [v] => if 2 ^ w ≤ v then 2 else if v = 0 then 7 else 0
  | _ => 7

/-- Any one word. -/
def payAny (p : List Nat) : Nat := pay1 32 (fun _ => false) p

/-- `QDEF` (R140, R147). -/
def payQdef (p : List Nat) : Nat := match p with
  | [v, z] =>
    let kind := bitsN v 16 2
    let infl := bitsN v 19 13
    let depth := bitsN v 0 13
    if bitN v 18 ∨ bitsN v 13 3 ≠ 0 then 2
    else if kind = 3 ∨ depth = 0 ∨ 4096 < depth ∨ 2 ^ 31 ≤ z ∨ (if kind = 2 then infl = 0 ∨ depth < infl else infl ≠ 0) then 7 else 0
  | _ => 7

/-- `QSPEC` with one word for each of n queues. -/
def payQspec (n : Nat) (p : List Nat) : Nat :=
  if p.length ≠ n then 7
  else if p.any fun v => bitsN v 16 16 != 0 || bitsN v 2 6 != 0 then 2
  else if p.any fun v => if bitsN v 0 2 < 2 then bitsN v 8 8 == 0 else bitsN v 8 8 != 0 then 7 else 0

/-- `SCHED`. -/
def paySched (p : List Nat) : Nat := match p with
  | [v, b, q, z] =>
    let minc := bitsN v 8 5
    let maxc := bitsN v 16 5
    if bitsN v 21 11 ≠ 0 ∨ bitsN v 13 3 ≠ 0 ∨ bitsN v 2 6 ≠ 0 then 2
    else if v % 4 = 3 ∨ minc = 0 ∨ maxc < minc ∨ 16 < maxc ∨ b = 0 ∨ q = 0 ∨ z ≠ 0 then 7 else 0
  | _ => 7

/-- `WDEF`. -/
def payWdef (p : List Nat) : Nat := match p with
  | [v] => if bitsN v 16 16 ≠ 0 ∨ bitsN v 3 5 ≠ 0 then 2 else if bitsN v 8 8 = 0 then 7 else 0
  | _ => 7

/-- `LREC` (R76). -/
def payLrec (p : List Nat) : Nat := match p with
  | [] => 7
  | h :: r =>
    if 16 ≤ h ∨ (r.any fun v => bitsN v 5 27 != 0) = true then 2
    else if h = 0 ∨ 8 < h ∨ r.length ≠ h ∨ (r.any fun v => bitsN v 3 2 == 3 || v % 8 < 2 || 5 < v % 8) = true then 7 else 0

/-- Words within a range. -/
def payWords (n : Option Nat) (ok : Nat → Nat → Bool) (p : List Nat) : Nat :=
  if n.any (· != p.length) = true ∨ ((List.range p.length).zip p).all (fun q => ok q.1 q.2) = false then 7 else 0

/-- An attribute that an operator accepts: its tag, whether it is mandatory, its payload's check, whose code for a word outside the range that the
operator's definition gives is BC_ATTR (DESIGN CHOICE, log 31). -/
abbrev AttrSpec := Nat × Bool × (List Nat → Nat)

def aRound : List AttrSpec := [(3, false, pay1 3 (· == 7)), (4, false, pay1 2 (· == 3))]
def aFn (tag : Nat) (mand : Bool) (w mx : Nat) : AttrSpec := (tag, mand, pay1 w (mx < ·))
def aAxis (tag : Nat) : AttrSpec := (tag, false, pay1 4 fun _ => false)
def aEpi : AttrSpec := (0x100, false, pay1 6 (5 < · % 16))
def aLevels : AttrSpec := (0x102, true, paySet 8)
def aAlg (tree : Bool) : AttrSpec :=
  (0x103, false, fun p => if p = [2] ∧ tree = false then 7 else pay1 2 (· == 3) p)
def aCallee : AttrSpec := (5, true, payAny)
def aOob : AttrSpec := (0x102, false, pay1 2 (· == 3))
def aGeom : AttrSpec :=
  (0x101, false, payWords (some 6) fun i v => (4 ≤ i || v != 0) && v < 65536)

/-- What an operator accepts beside TYPE and SHARD. -/
def attrSpecs (i : Instr) (r : LRec) : List AttrSpec :=
  match i with
  | .lLaunch _ _ => [aCallee, (6, true, payLrec)]
  | .lCall _ _ => [aCallee]
  | .lSop _ _ => [aFn 0x100 true 5 16]
  | .lScmp _ _ => [aFn 0x100 true 4 7]
  | .lAlloc _ _ => [(0x100, false, pay1 2 fun _ => false), (0x101, false, pay1 16 fun _ => false)]
  | .lLoad _ _ => aRound
  | .lStore _ _ => aRound
  | .lCast _ _ => aRound
  | .lPad _ _ => [(0x100, false, payAny)]
  | .lConcat _ _ => [aAxis 0x100]
  | .lMatmul _ _ => aEpi :: aRound
  | .lConv _ _ => [aEpi, aGeom] ++ aRound
  | .lEwu _ _ => aFn 0x100 true 32 12 :: aRound
  | .lEwb _ _ => aFn 0x100 true 32 14 :: aRound
  | .lEwt _ _ => aFn 0x100 true 32 2 :: aRound
  | .lReduce _ _ => [aFn 0x100 true 32 2, (0x101, true, paySet 9)] ++ aRound
  | .lSoftmax _ _ => aRound
  | .lNorm _ _ => [aFn 0x100 true 32 1, (0x101, false, payAny)] ++ aRound
  | .lRope _ _ => aFn 0x100 false 32 1 :: aRound
  | .lAttn _ _ => [(0x100, true, payAny), aFn 0x101 false 32 1] ++ aRound
  | .lGather _ _ => [aAxis 0x100, aOob]
  | .lScatter _ _ => [aAxis 0x100, aFn 0x101 false 32 1, aOob]
  | .lTopk _ _ => [aFn 0x100 false 32 1]
  | .lSort _ _ => [aFn 0x100 false 32 1]
  | .lPermute _ _ => [(0x100, true, fun p => match p with
      | [_, b] => if 16 ≤ b then 2 else 0
      | _ => 7)]
  | .lCumsum _ _ => [aAxis 0x100, aFn 0x101 false 32 3] ++ aRound
  | .lStage _ _ => [(0x100, true, payQspec r.opds.length), (0x101, false, pay1 1 fun _ => false), (0x102, false, paySched)]
  | .lQdecl _ _ => [(0x100, true, payQdef)]
  | .lWalk _ _ => [(0x100, true, payWdef), (0x101, true, payWords none fun _ v => v != 0 && v < 2 ^ 31)]
  | .lAred _ _ => [aLevels, aFn 0x100 false 2 2, aAlg true] ++ aRound
  | .lAgath _ _ => [aLevels, aAxis 0x101, aAlg false]
  | .lRscat _ _ => [aLevels, aAxis 0x101, aFn 0x100 false 2 2, aAlg false] ++ aRound
  | .lA2a _ _ => [aLevels, aAxis 0x101, aAxis 0x104, aAlg false]
  | .lTsend _ _ => [aLevels]
  | .lTrecv _ _ => [aLevels]
  | .lUop _ _ => [(0x100, true, fun p => match p with
      | [v] => if 4096 ≤ v then 2 else if v < 1024 then 7 else 0
      | _ => 7), (0x101, false, pay1 12 fun _ => false)]
  | .lFence _ _ => [(0x100, false, pay1 2 fun _ => false), aFn 0x101 false 32 1]
  | .lWaith _ _ => [(0x100, false, pay1 2 (2 ≤ ·))]
  | .lAssert _ _ => [(0x100, false, payAny)]
  | _ => []

/-- Whether TYPE is mandatory whatever the operands. -/
def typeMand (i : Instr) : Bool := match i with
  | .lAlloc _ _ => true
  | .lView _ _ => true
  | _ => false

/-- The attributes of a record, with TYPE and SHARD accepted as R57 says; `ten` says that a result is a tensor. -/
def checkAttrs (i : Instr) (r : LRec) (ten : Bool) : Chk Unit := do
  let sp := attrSpecs i r
  let tags := r.attrs.map fun a => a.tag.toNat
  need (distinct tags) 7
  need (!tags.any fun t => t == 0 || (decide (7 ≤ t) && decide (t < 0x100))) 2
  let known := fun (t : Nat) => (t == 1 && r.nres != 0) || (t == 2 && ten) || sp.any fun a => a.1 == t
  need (!r.attrs.any fun a => a.mand && decide (a.tag.toNat < 0x8000) && !known a.tag.toNat) 7
  need (sp.all fun a => !a.2.1 || tags.contains a.1) 7
  need (!typeMand i || tags.contains 1) 7
  match (sp.map fun a => match r.attr a.1 with
    | some p => a.2.2 (p.map (·.toNat))
    | none => 0).find? (· != 0) with
  | some e => throw e
  | none => pure ()

/-! ### Static types -/

/-- A value as the loader knows it: its descriptor; whether it lies in global memory (`loc` 2), does not (1), or may (0); its base modulo
64, when that is known. -/
structure STy where
  d : VDesc
  loc : Nat
  off : Option Nat
  deriving DecidableEq, Repr

def STy.i64 : STy := ⟨.i64, 0, none⟩
def STy.tok : STy := ⟨.tok, 0, none⟩

/-- The kind: 0 tensor, 1 I64, 2 token. -/
def VDesc.kind : VDesc → Nat
  | .ten _ => 0
  | .i64 => 1
  | .tok => 2

/-- A value's tensor descriptor. -/
def STy.ten? (t : STy) : Option TDesc := match t.d with
  | .ten d => some d
  | _ => none

/-- Extents that a load cannot tell apart. -/
def dimEq (a b : Option Nat) : Bool := match a, b with
  | some m, some n => m == n
  | _, _ => true

/-- Extent lists that agree. -/
def dimsEq (a b : List (Option Nat)) : Bool := a.length == b.length && (a.zip b).all fun p => dimEq p.1 p.2

/-- Format, rank and layout agree (R71, R73, R83). -/
def TDesc.form (a b : TDesc) : Bool := a.fmt == b.fmt && a.mx == b.mx && a.lay == b.lay && a.dims.length == b.dims.length

/-- A value agrees in kind, format, rank, layout and static extents. -/
def VDesc.fits (a b : VDesc) : Bool := match a, b with
  | .i64, .i64 => true
  | .tok, .tok => true
  | .ten x, .ten y => x.form y && dimsEq x.dims y.dims
  | _, _ => false

/-- Two values agree in kind, and tensors in format, rank and layout. -/
def VDesc.sameForm (a b : VDesc) : Bool := match a, b with
  | .ten x, .ten y => x.form y
  | x, y => x.kind == y.kind

/-- What two values that may take one place are known to share. -/
def STy.join (a b : STy) : STy := match a.d, b.d with
  | .ten x, .ten y => ⟨.ten { x with dims := (x.dims.zip y.dims).map fun p => if p.1 = p.2 then p.1 else none },
      if a.loc = b.loc then a.loc else 0, if a.off = b.off then a.off else none⟩
  | _, _ => a

/-- A record already checked: itself, the regions in which its results are visible, its operands' and results' types. -/
structure RInfo where
  ins : Instr
  vis : List Nat
  ops : List STy
  res : List STy
  deriving DecidableEq, Repr

/-- What the loader knows at a record of a function: the functions' descriptors, the pool's, whether each function is in the section; the
function's own; the records before it and the open regions, outermost first; destinations and fusing groups used. -/
structure VEnv where
  sigs : List (List VDesc × List VDesc)
  pool : List VDesc
  params : List VDesc
  ress : List VDesc
  done : List RInfo
  path : List Nat
  dests : List (Nat × Nat)
  fused : List Nat
  deriving DecidableEq, Repr

/-! ### Regions and operands (R52, R64, R72) -/

/-- Whether a record opens a region, and whether it closes one. -/
def opensReg : Instr → Bool
  | .lLoop _ _ => true
  | .lIf _ _ => true
  | .lElse _ _ => true
  | .lStage _ _ => true
  | _ => false

/-- Whether record i closes a region that record o opened. -/
def closesReg (i o : Instr) : Bool :=
  match i, o with
  | .lEndloop _ _, .lLoop _ _ => true
  | .lElse _ _, .lIf _ _ => true
  | .lEndif _ _, .lIf _ _ => true
  | .lEndif _ _, .lElse _ _ => true
  | .lEndstage _ _, .lStage _ _ => true
  | _, _ => false

/-- Whether a record is a closing one. -/
def isClose : Instr → Bool
  | .lEndloop _ _ => true
  | .lElse _ _ => true
  | .lEndif _ _ => true
  | .lEndstage _ _ => true
  | _ => false

/-- Whether a record is a `loop`. -/
def isLoop : Instr → Bool
  | .lLoop _ _ => true
  | _ => false

/-- A record already checked, by its place. -/
def VEnv.at_ (v : VEnv) (j : Nat) : Option RInfo := v.done[j]?

/-- The record whose region record i closes, or the loop that a `brk` leaves. -/
def VEnv.opener (v : VEnv) (i : Instr) : Chk (Option RInfo) :=
  if isClose i then match v.path.getLast?.bind v.at_ with
    | some o => if closesReg i o.ins then pure (some o) else throw 6
    | none => throw 6
  else match i with
    | .lBrk _ _ => match (v.path.reverse.filterMap v.at_).find? fun o => isLoop o.ins with
      | some o => pure (some o)
      | none => throw 6
    | _ => pure none

/-- The type of an operand (R51, R52). -/
def VEnv.opd (v : VEnv) : LOpd → Chk STy
  | .imm _ => pure .i64
  | .param k => match v.params[k.toNat]? with
    | some d => pure ⟨d, 0, none⟩
    | none => throw 5
  | .cpool k => match v.pool[k.toNat]? with
    | some d => pure ⟨d, 2, none⟩
    | none => throw 5
  | .val d k =>
    let n := v.done.length
    if d.toNat = 0 ∨ n < d.toNat then throw 5
    else match v.at_ (n - d.toNat) with
      | none => throw 5
      | some o => match o.res[k.toNat]? with
        | some t => if o.vis.isPrefixOf v.path then pure t else throw 5
        | none => throw 5

/-- What a destination operand names (R92). -/
def VEnv.destKey (v : VEnv) : LOpd → Nat × Nat
  | .val d k => (v.done.length - d.toNat, k.toNat)
  | .param k => (2 ^ 32, k.toNat)
  | .cpool k => (2 ^ 33, k.toNat)
  | .imm _ => (2 ^ 34, 0)

/-! ### Operands (R69, R79, R90, R146, R175) -/

/-- What an operand must be: a tensor, a destination, an I64 scalar, a token, an immediate, an immediate or a constant, or anything. -/
inductive OpdKind where
  | ten
  | dst
  | i64
  | tok
  | imm
  | cst
  | any
  deriving DecidableEq, Repr

/-- The operand kind of a value's kind. -/
def OpdKind.of (k : Nat) : OpdKind := match k with
  | 0 => .ten
  | 1 => .i64
  | _ => .tok

/-- Leading tensor operands. -/
def leadTen (ops : List STy) : Nat := (ops.takeWhile fun t => t.d.kind == 0).length

/-- DYN extents of a TYPE's first descriptor. -/
def dynCount (typ : List VDesc) : Nat := match typ with
  | .ten d :: _ => (d.dims.filter (·.isNone)).length
  | _ => 0

/-- Kinds of the listed operands. -/
def VEnv.pattern (v : VEnv) (i : Instr) (r : LRec) (op : Option RInfo) (ops : List STy) (typ : List VDesc) : Chk (List OpdKind) :=
  let n := ops.length
  let same := ops.map fun t => OpdKind.of t.d.kind
  let own := (op.map fun o => (o.res.drop 1).map fun t => OpdKind.of t.d.kind).getD []
  let callee := v.sigs[r.word 5 0]?
  match i with
  | .lNop _ _ => pure []
  | .lLoop _ _ => if n = 0 ∨ 15 < n then throw 4 else pure (.i64 :: same.drop 1)
  | .lEndloop _ _ => pure own
  | .lBrk _ _ => pure (.i64 :: own)
  | .lIf _ _ => pure [.i64]
  | .lElse _ _ => if 15 < n then throw 4 else pure same
  | .lEndif _ _ => pure (match op with
      | some o => o.ops.map (fun t => OpdKind.of t.d.kind) |>.drop (match o.ins with
        | .lIf _ _ => 1
        | _ => 0)
      | none => [])
  | .lCall _ _ => match callee with
    | some s => pure (s.1.map fun d => .of d.kind)
    | none => throw 10
  | .lRet _ _ => pure (v.ress.map fun d => .of d.kind)
  | .lLaunch _ _ => match callee with
    | some s => pure (List.replicate (r.word 6 0) .i64 ++ s.1.map fun d => .of d.kind)
    | none => throw 10
  | .lSyncchild _ _ => pure (List.replicate n .tok)
  | .lConst _ _ => pure [.cst]
  | .lSop _ _ => pure [.i64, .i64]
  | .lScmp _ _ => pure [.i64, .i64]
  | .lSel _ _ => pure [.i64, .any, .any]
  | .lDim _ _ => pure [.ten, .imm]
  | .lIdx _ _ => pure [.imm]
  | .lAlloc _ _ => pure (List.replicate (dynCount typ) .i64)
  | .lFree _ _ => pure [.ten]
  | .lView _ _ => pure (.ten :: .i64 :: List.replicate (dynCount typ) .i64)
  | .lPad _ _ => pure (.ten :: .dst :: List.replicate (match (ops.headD .i64).ten? with
      | some d => d.dims.length
      | none => 1) .i64)
  | .lConcat _ _ =>
    let k := leadTen ops
    if k < 2 ∨ 65 < k then throw 4 else pure (List.replicate (k - 1) .ten ++ [.dst])
  | .lMatmul _ _ => pure ([.ten, .ten, .dst] ++ List.replicate (popc (r.word 0x100 0 / 16 % 4) 2) .ten)
  | .lConv _ _ => pure ([.ten, .ten, .dst] ++ List.replicate (popc (r.word 0x100 0 / 16 % 4) 2) .ten)
  | .lEwb _ _ => pure [.ten, .ten, .dst]
  | .lEwt _ _ => pure [.ten, .ten, .ten, .dst]
  | .lNorm _ _ => pure (if 4 ≤ leadTen ops then [.ten, .ten, .ten, .dst] else [.ten, .ten, .dst])
  | .lRope _ _ => pure [.ten, .ten, .ten, .dst]
  | .lAttn _ _ => pure [.ten, .ten, .ten, .dst]
  | .lGather _ _ => pure [.ten, .ten, .dst]
  | .lScatter _ _ => pure [.ten, .ten, .ten, .dst]
  | .lTopk _ _ => pure [.ten, .i64, .dst, .dst]
  | .lSort _ _ => pure [.ten, .dst, .dst]
  | .lStage _ _ => if n = 0 ∨ 8 < n then throw 4 else pure (List.replicate n .i64)
  | .lEndstage _ _ => pure []
  | .lQdecl _ _ => pure []
  | .lQpush _ _ => pure [.i64, .i64]
  | .lQpop _ _ => pure [.i64]
  | .lWalk _ _ => pure (.ten :: List.replicate (1 + popc (r.word 0x100 0 / 2 % 4) 2) .i64)
  | .lTsend _ _ => pure [.ten, .i64, .i64]
  | .lTrecv _ _ => pure [.dst, .i64, .i64]
  | .lUop _ _ =>
    let outs := r.word 0x101 0
    pure (.i64 :: (List.range (Nat.min (n - 1) 12)).map fun k => if bitN outs k then .dst else .any)
  | .lFence _ _ => pure (ops.map fun t => if t.d.kind = 0 then .ten else .tok)
  | .lWaith _ _ => pure [.ten]
  | .lAssert _ _ => pure [.i64]
  | _ => pure [.ten, .dst]

/-- Whether trailing tokens are accepted (R90, R175). -/
def trailOk (opc : Nat) : Bool := (0x20 ≤ opc && opc < 0x50) || 0x60 ≤ opc

/-- Whether an operand is of a kind; the code when it is not. -/
def opdKindOk (call : Bool) (k : OpdKind) (o : LOpd) (t : STy) : Chk Unit :=
  let w := if call then 10 else 8
  match k with
  | .ten => need (t.d.kind == 0) w
  | .dst => need (t.d.kind == 0) w
  | .i64 => need (t.d.kind == 1) w
  | .tok => need (t.d.kind == 2) w
  | .any => pure ()
  | .imm => match o with
    | .imm _ => pure ()
    | _ => throw 4
  | .cst => match o with
    | .imm _ => pure ()
    | .cpool _ => pure ()
    | _ => throw 4

/-! ### Static checks of the operators (R97, R115 to R133, R180 to R182) -/

/-- Formats that `.BF` takes (R119). -/
def bfFmt (d : TDesc) : Bool := decide (1 ≤ d.fmt) && decide (d.fmt ≤ 6)

/-- Whether a product takes the formats. -/
def prodFmt (a b d : TDesc) : Bool :=
  ((bfFmt a && bfFmt b) || (a.fmt == 9 && (b.fmt == 9 || b.fmt == 11))) && !d.mx && d.fmt != 11 && d.fmt != 12

/-- An FP32 tensor of one extent. -/
def vecF32 (n : Option Nat) (t : TDesc) : Bool := t.fmt == 0 && dimsEq t.dims [n]

/-- A conversion that R115 allows. -/
def convOk (a b : TDesc) : Bool := (a.fmt == b.fmt && a.mx == b.mx) || (!b.mx && b.fmt != 11 && b.fmt != 12)

/-- Whether a source repeats along a destination, as far as a load can tell (R97). -/
def bcastD (a d : List (Option Nat)) : Bool :=
  a.length ≤ d.length && (a.zip (d.drop (d.length - a.length))).all fun p => p.1 == some 1 || dimEq p.1 p.2

/-- A dimension. -/
def TDesc.dim (t : TDesc) (k : Nat) : Option Nat := t.dims.getD k none

/-- The sum of extents, when all are static. -/
def sumD : List (Option Nat) → Option Nat
  | [] => some 0
  | none :: _ => none
  | some n :: r => (sumD r).map (n + ·)

/-- The static rule of an operator over its tensor operands in order: 0, or the code of the refusal. An AXIS at or above RANK is BC_TYPE (DESIGN
CHOICE, log 31). An operator whose definition names no format of its destination takes every one (DESIGN CHOICE, log 28). -/
def staticBad (i : Instr) (r : LRec) (ts : List TDesc) : Nat :=
  let ty := fun (ok : Bool) => if ok then 0 else 8
  let sd := fun (a b : TDesc) => dimsEq a.dims b.dims
  let ax := axisOf r
  let others := fun (a b : TDesc) (l : List Nat) => a.dims.length == b.dims.length
    && (List.range a.dims.length).all fun k => l.contains k || dimEq (a.dim k) (b.dim k)
  match i, ts with
  | .lLoad _ _, [a, d] => ty (sd a d && convOk a d)
  | .lStore _ _, [a, d] => ty (sd a d && convOk a d)
  | .lCast _ _, [a, d] => ty (sd a d && convOk a d)
  | .lRelayout _ _, [a, d] => ty (sd a d && a.fmt == d.fmt && a.mx == d.mx)
  | .lPad _ _, [a, d] => ty (a.dims.length == d.dims.length)
  | .lConcat _ _, ts => match ts.getLast? with
    | some d => ty (decide (ax < d.dims.length) && ts.dropLast.all (fun a => others a d [ax] && ts.head?.map (fun f => (f.fmt, f.mx)) == some (a.fmt, a.mx))
        && dimEq (sumD (ts.dropLast.map fun a => a.dim ax)) (d.dim ax))
    | none => 8
  | .lPermute _ _, [a, d] =>
    let n := d.dims.length
    let p := permOf r 9
    if (List.range n).any (fun k => !(p.take n).contains k) then 7
    else if (p.drop n).any (· != 0) then 2
    else ty (a.fmt == d.fmt && a.mx == d.mx && a.dims.length == n && (List.range n).all fun k => dimEq (d.dim k) (a.dim (p.getD k 0)))
  | .lMatmul _ _, a :: b :: d :: es =>
    let ra := a.dims.length
    let rb := b.dims.length
    let n := b.dim (rb - 1)
    ty (decide (2 ≤ ra) && (rb == 2 || rb == ra) && d.dims.length == ra && prodFmt a b d && dimEq (a.dim (ra - 1)) (b.dim (rb - 2))
      && (rb == 2 || dimsEq (b.dims.take (ra - 2)) (a.dims.take (ra - 2))) && dimsEq d.dims (a.dims.dropLast ++ [n])
      && es.all (vecF32 (if n.isSome then n else d.dim (ra - 1))))
  | .lConv _ _, a :: b :: d :: es =>
    let n := b.dim 3
    ty (a.dims.length == 4 && b.dims.length == 4 && d.dims.length == 4 && prodFmt a b d && dimEq (a.dim 3) (b.dim 2) && dimEq (d.dim 3) n
      && dimEq (d.dim 0) (a.dim 0) && es.all (vecF32 (if n.isSome then n else d.dim 3)))
  | .lEwu _ _, [a, d] => ty (sd a d && (!isIntF a.fmt || [0, 1, 10].contains (r.word 0x100 0)))
  | .lEwb _ _, [a, b, d] =>
    let fn := r.word 0x100 0
    ty (bcastD a.dims d.dims && bcastD b.dims d.dims && (fn < 6 || 8 < fn || (isIntF a.fmt && isIntF b.fmt)))
  | .lEwt _ _, [a, b, c, d] => ty (bcastD a.dims d.dims && bcastD b.dims d.dims && bcastD c.dims d.dims)
  | .lReduce _ _, [a, d] =>
    let m := r.word 0x101 0
    let n := a.dims.length
    ty (d.dims.length == n && decide (m < 2 ^ n) && (List.range n).all fun k => dimEq (d.dim k) (if bitN m k then some 1 else a.dim k))
  | .lSoftmax _ _, [a, d] => ty (sd a d)
  | .lNorm _ _, a :: ts => match ts.getLast? with
    | some d => ty (sd a d && ts.dropLast.all fun g => dimsEq g.dims [d.dims.getLastD none])
    | none => 8
  | .lRope _ _, [a, c, s, d] =>
    let n := d.dims.length
    let half := (d.dims.getLastD none).map (· / 2)
    ty (sd a d && decide (2 ≤ n) && ((d.dims.getLastD none).all (· % 2 == 0))
      && [c, s].all fun t => t.fmt == 0 && dimsEq t.dims [d.dim (n - 2), half])
  | .lAttn _ _, [q, k, w, d] =>
    ty ([q, k, w, d].all (fun t => t.fmt == 1 && !t.mx && t.dims.length == 4) && dimEq (q.dim 0) (k.dim 0) && dimEq (q.dim 3) (k.dim 3)
      && dimsEq (k.dims.take 3) (w.dims.take 3) && dimsEq d.dims (q.dims.take 3 ++ [w.dim 3])
      && (match q.dim 2, k.dim 2 with
        | some h, some g => g != 0 && h % g == 0
        | _, _ => true))
  | .lGather _ _, [a, x, d] =>
    ty (x.fmt == 7 && x.dims.length == 1 && decide (ax < a.dims.length) && others a d [ax] && dimEq (d.dim ax) (x.dim 0))
  | .lScatter _ _, [b, x, u, d] =>
    ty (x.fmt == 7 && x.dims.length == 1 && decide (ax < d.dims.length) && sd b d && others u d [ax] && dimEq (u.dim ax) (x.dim 0))
  | .lTopk _ _, [a, d, x] => ty (x.fmt == 7 && others a d [a.dims.length - 1] && sd d x)
  | .lSort _ _, [a, d, x] => ty (x.fmt == 7 && sd a d && sd a x)
  | .lCumsum _ _, [a, d] => ty (sd a d && decide (ax < a.dims.length))
  | .lAred _ _, [a, d] => ty (sd a d)
  | .lAgath _ _, [a, d] =>
    let k := r.word 0x101 0
    ty (decide (k < a.dims.length) && others a d [k] && a.fmt == d.fmt && a.mx == d.mx)
  | .lRscat _ _, [a, d] =>
    let k := r.word 0x101 0
    ty (decide (k < a.dims.length) && others a d [k])
  | .lA2a _ _, [a, d] =>
    let k := r.word 0x101 0
    let j := r.word 0x104 0
    ty (decide (k < a.dims.length) && decide (j < a.dims.length) && others a d [k, j] && a.fmt == d.fmt && a.mx == d.mx)
  | .lWalk _ _, [a] => if (r.attr 0x101).any (fun p => p.length != a.dims.length) then 7 else 0
  | _, _ => 0

/-! ### Results -/

/-- The results that an operator's definition produces, from the types of its listed operands; a TYPE fixes those of `alloc`, `view` and
`loop` (R57, R71). -/
def VEnv.results (v : VEnv) (i : Instr) (r : LRec) (op : Option RInfo) (ops : List STy) (dsts : List STy) (typ : List VDesc) : List STy :=
  let t0 := ops.headD .i64
  match i with
  | .lLoop _ _ => .i64 :: ((ops.drop 1).zip (List.range 15)).map fun p => match typ[p.2 + 1]? with
      | some d => ⟨d, 0, none⟩
      | none => ⟨p.1.d, 0, none⟩
  | .lEndloop _ _ => (op.map fun o => o.res.drop 1).getD []
  | .lEndif _ _ => match op with
    | some o => (match o.ins with
      | .lElse _ _ => (o.ops.zip ops).map fun p => p.1.join p.2
      | _ => [])
    | none => []
  | .lCall _ _ => ((v.sigs[r.word 5 0]?).map fun s => s.2.map fun d => (⟨d, 0, none⟩ : STy)).getD []
  | .lLaunch _ _ => [.tok, .i64]
  | .lSyncchild _ _ => [.i64]
  | .lConst _ _ => [t0]
  | .lSop _ _ => [.i64]
  | .lScmp _ _ => [.i64]
  | .lSel _ _ => [(ops.getD 1 .i64).join (ops.getD 2 .i64)]
  | .lDim _ _ => [.i64]
  | .lIdx _ _ => [.i64]
  | .lAlloc _ _ => (typ.take 1).map fun d => ⟨d, if r.word 0x100 0 = 3 then 2 else 1, some 0⟩
  | .lFree _ _ => [.tok]
  | .lView _ _ => (typ.take 1).map fun d => ⟨d, t0.loc, match t0.off, r.opds.getD 1 (.cpool 0) with
      | some a, .imm k => some ((a + k.toNat) % 64)
      | _, _ => none⟩
  | .lStore _ _ => [.tok]
  | .lStage _ _ => [.i64]
  | .lQdecl _ _ => [.i64]
  | .lQpush _ _ => [.tok]
  | .lQpop _ _ => [.i64]
  | .lWalk _ _ => [.i64, .tok]
  | .lTsend _ _ => [.tok]
  | .lUop _ _ => dsts ++ [.tok]
  | .lFence _ _ => [.tok]
  | .lWaith _ _ => [t0]
  | .lAssert _ _ => [.tok]
  | .lNop _ _ => []
  | .lBrk _ _ => []
  | .lIf _ _ => []
  | .lElse _ _ => []
  | .lRet _ _ => []
  | .lEndstage _ _ => []
  | _ => dsts

/-- A result with the sharding that SHARD gives it (R56); an operator without a tensor result skips SHARD (R57). -/
def shardRes (r : LRec) (res : List STy) : Chk (List STy) :=
  match if res.any (·.d.kind == 0) then r.attr 2 else none with
  | none => pure res
  | some [] => throw 7
  | some (h :: p) =>
    let k := h.toNat
    if 16 ≤ k then throw 2
    else match (res[k]?).bind STy.ten? with
      | none => throw 8
      | some d => match parseShard d.dims.length p with
        | .error e => throw (if e = 1 then 7 else e)
        | .ok q => if p.length ≠ d.dims.length + 1 then throw 7
          else pure (setAt res k { (res.getD k .i64) with d := .ten { d with axes := q.1, part := q.2 } })

/-- A value as the lowering rules see it at load: an unknown extent counts as 1, which no rule refuses (R187). -/
def STy.probe (t : STy) : Val := match t.d with
  | .i64 => .i64 0
  | .tok => .tok 0
  | .ten d =>
    let u := constRef d 0
    .ten { u with whole := d.dims.map (·.getD 1), ext := d.dims.map (·.getD 1), axes := d.axes, part := d.part }

/-- Whether an operator's shardings are lowered (R187). -/
def lowered (opc : Nat) : Bool := 0x23 ≤ opc && opc < 0x40

/-! ### A record -/

/-- What a record's own definition asks of its operands' places and immediates and of its TYPE (R60, R79, R85, R112, R115, R134, R155). An axis
of `dim` at or above RANK and an immediate of `idx` above 8 report BC_TYPE (DESIGN CHOICE, log 31). -/
def VEnv.placed (_ : VEnv) (i : Instr) (r : LRec) (ops : List STy) (d0 : STy) (res : List STy) (typ : List VDesc) : Chk Unit :=
  let imm := match r.opds.getLast? with
    | some (.imm k) => k.toNat
    | _ => 0
  match i with
  | .lStore _ _ => need (d0.loc != 1) 8
  | .lWalk _ _ => need ((ops.headD .i64).loc != 1) 8
  | .lDim _ _ => need (match (ops.headD .i64).ten? with
    | some d => decide (imm < d.dims.length)
    | none => false) 8
  | .lIdx _ _ => need (decide (imm ≤ 8)) 8
  | .lUop _ _ => need (decide (r.word 0x101 0 < 2 ^ (ops.length - 1))) 8
  | .lAlloc _ _ => need (typ.all fun d => d.kind == 0) 8
  | .lView _ _ => need ((typ.all fun d => d.kind == 0) && (res.all fun t => t.off.all (· == 0) || (match t.ten? with
    | some d => d.dims.contains (some 0)
    | none => true))) 8
  | _ => pure ()

/-- Fusing groups (R53): the group's records are consecutive and lie in one region. -/
def VEnv.fuseOk (v : VEnv) (r : LRec) (opc : Nat) : Chk Unit :=
  if r.fuse = 0 then pure ()
  else
    let cont := match v.done.getLast? with
      | some o => (match recParts o.ins with
        | some (_, p) => p.fuse == r.fuse && o.vis == v.path
        | none => false)
      | none => false
    need (!(opc < 0x20 || (0x50 ≤ opc && opc < 0x70)) && (cont || !v.fused.contains r.fuse.toNat)) 9

/-- Checks each of a list. -/
def eachC {α : Type} (f : α → Chk Unit) : List α → Chk Unit
  | [] => pure ()
  | a :: l => do f a; eachC f l

/-- One record: the environment after it. -/
def VEnv.record (v : VEnv) (i : Instr) : Chk VEnv := do
  let (o, r) := lrecOf i
  let op ← v.opener i
  let ops ← mapE v.opd r.opds
  let typ ← (match r.attr 1 with
    | none => pure []
    | some p => if r.nres = 0 then pure []
      else match parseDescs r.nres.toNat p with
      | .ok (ds, []) => pure ds
      | .ok _ => throw 7
      | .error e => throw (if e = 1 then 7 else e))
  need (!(isLoop i && (ops.drop 1).any (fun t => t.d.kind == 0)) || (r.attr 1).isSome) 7
  let pat ← v.pattern i r op ops typ
  need (pat.length == ops.length || (trailOk o && decide (pat.length ≤ ops.length))) 4
  let call := match i with
    | .lCall _ _ => true
    | .lLaunch _ _ => true
    | _ => false
  eachC (fun p => opdKindOk call p.1 p.2.1 p.2.2) (pat.zip (r.opds.zip ops))
  need ((ops.drop pat.length).all fun t => t.d.kind == 2) 4
  let dk := ((pat.zip (r.opds.zip ops)).filter fun p => p.1 == .dst)
  let keys := dk.map fun p => v.destKey p.2.1
  need (keys.all (fun k => !v.dests.contains k) && decide keys.Nodup) 8
  let listed := ops.take pat.length
  let res0 := v.results i r op listed (dk.map fun p => p.2.2) typ
  need (res0.length == r.nres.toNat) 4
  checkAttrs i r (res0.any fun t => t.d.kind == 0)
  -- what a closing record, a call, a return and a choice carry
  let pairs : List (STy × STy) := match i with
    | .lEndloop _ _ => listed.zip ((op.map fun o => o.res.drop 1).getD [])
    | .lBrk _ _ => (listed.drop 1).zip ((op.map fun o => o.res.drop 1).getD [])
    | .lLoop _ _ => (listed.drop 1).zip (res0.drop 1)
    | .lCall _ _ => listed.zip (((v.sigs[r.word 5 0]?).map fun s => s.1.map fun d => (⟨d, 0, none⟩ : STy)).getD [])
    | .lRet _ _ => listed.zip (v.ress.map fun d => (⟨d, 0, none⟩ : STy))
    | _ => []
  need (pairs.all fun p => p.1.d.fits p.2.d) 8
  let forms : List (STy × STy) := match i with
    | .lEndif _ _ => (op.map fun o => match o.ins with
        | .lElse _ _ => o.ops.zip listed
        | _ => []).getD []
    | .lSel _ _ => [(listed.getD 1 .i64, listed.getD 2 .i64)]
    | _ => []
  need (forms.all fun p => p.1.d.sameForm p.2.d) 8
  match staticBad i r (listed.filterMap STy.ten?) with
  | 0 => pure ()
  | e => throw e
  let d0 := (dk.head?.map fun p => p.2.2).getD .i64
  v.placed i r listed d0 res0 typ
  need (typ == [] || ((typ.zip res0).all fun p => p.1.fits p.2.d)) 8
  need (!lowered o || (lowering i r (tspec i r (listed.map STy.probe))).isSome) 8
  v.fuseOk r o
  let res ← shardRes r res0
  let up := if isClose i then v.path.dropLast else v.path
  let n := v.done.length
  let path := if opensReg i then up ++ [n] else up
  need (decide (path.length ≤ 32)) 6
  let vis := match i with
    | .lElse _ _ => up
    | _ => path
  pure { v with done := v.done ++ [⟨i, vis, ops, res⟩], path := path, dests := v.dests ++ keys,
                fused := if r.fuse = 0 then v.fused else v.fused ++ [r.fuse.toNat] }

/-- All records of a body, each with its word offset: the environment, or the code and the offset of the record at fault. -/
def VEnv.records : VEnv → List Instr → Except (Nat × Nat) VEnv
  | v, [] => .ok v
  | v, i :: l => match v.record i with
    | .error e => .error (e, (lrecOf i).2.off)
    | .ok u => u.records l

end Sys2Proof.Machine
end

