-- ==== Sys2Proof/Machine/Verify2.lean ====
section
/-! DEFINITION. The Loryil section (spec/03 R44 to R49, R64): header, constant pool, functions; the structure of a pipeline (spec/05 R148). -/
namespace Sys2Proof.Machine

/-! ### Pipelines (R148) -/

def isStage : Instr → Bool
  | .lStage _ _ => true
  | _ => false

def isQdecl : Instr → Bool
  | .lQdecl _ _ => true
  | _ => false

def isWalkOp : Instr → Bool
  | .lWalk _ _ => true
  | _ => false

/-- Records that only the holder of a pipeline may hold. -/
def isPipeOp : Instr → Bool
  | .lStage _ _ => true
  | .lEndstage _ _ => true
  | .lQdecl _ _ => true
  | .lWalk _ _ => true
  | _ => false

/-- The function that a `call` or a `launch` names. -/
def calleeOf : Instr → Option (Bool × Nat)
  | .lCall _ r => some (false, r.word 5 0)
  | .lLaunch _ r => some (true, r.word 5 0)
  | _ => none

/-- The functions that a `launch` of the section names. -/
def launchedFns (bodies : List (List Instr)) : List Nat :=
  bodies.flatten.filterMap fun i => (calleeOf i).bind fun p => if p.1 then some p.2 else none

/-- The functions that hold a pipeline operator other than `qpush` and `qpop`, themselves or through calls, after k rounds. -/
def dirtyFns (bodies : List (List Instr)) : Nat → List Bool
  | 0 => bodies.map (·.any isPipeOp)
  | k + 1 =>
    let d := dirtyFns bodies k
    (d.zip bodies).map fun p => p.1 || p.2.any fun i => match calleeOf i with
      | some (false, f) => d.getD f false
      | _ => false

/-- A pipeline's holder as the checks see it: its records with what the loader knows of them. -/
abbrev PipeFn := List RInfo

/-- The instruction of a record. -/
def PipeFn.ins (p : PipeFn) (i : Nat) : Instr := (p.getD i ⟨.lNop 0 LRec.none_, [], [], []⟩).ins

/-- A record's fields. -/
def PipeFn.rec_ (p : PipeFn) (i : Nat) : LRec := (lrecOf (p.ins i)).2

/-- The records of a kind. -/
def PipeFn.all (p : PipeFn) (f : Instr → Bool) : List Nat := (List.range p.length).filter fun i => f (p.ins i)

/-- The `endstage` of a stage. -/
def PipeFn.close (p : PipeFn) (i : Nat) : Nat := (findClose false ((p.map (·.ins)).drop (i + 1)) (i + 1) 0).getD i

/-- The queue that operand k of record i names directly: the record that creates it. -/
def PipeFn.qid (p : PipeFn) (i k : Nat) : Option Nat := match (p.rec_ i).opds[k]? with
  | some (.val d x) =>
    let j := i - d.toNat
    if x = 0 ∧ d.toNat ≤ i ∧ (isQdecl (p.ins j) || isWalkOp (p.ins j)) = true then some j else none
  | _ => none

/-- The kind of a queue: PERMIT for a walk's own. -/
def PipeFn.qkind (p : PipeFn) (j : Nat) : Nat := if isWalkOp (p.ins j) then 3 else bitsN ((p.rec_ j).word 0x100 0) 16 2

/-- WDEF's flags of a walk: STORE, LINK, DONE. -/
def PipeFn.wdef (p : PipeFn) (j : Nat) : Bool × Bool × Bool :=
  let w := (p.rec_ j).word 0x100 0
  (bitN w 0, bitN w 1, bitN w 2)

/-- What a walk does on its queues: (queue, whether it produces), every operand a queue. -/
def PipeFn.walkEnds (p : PipeFn) (j : Nat) : List (Option Nat × Bool) :=
  let (st, ln, dn) := p.wdef j
  [(p.qid j 1, !st), (some j, st)] ++ (if dn then [(p.qid j (if ln then 3 else 2), true)] else [])

/-- What a stage does on its queues. -/
def PipeFn.stageEnds (p : PipeFn) (s : Nat) : List (Option Nat × Bool) :=
  let q := ((p.rec_ s).attr 0x100).getD []
  (List.range (p.rec_ s).opds.length).map fun k => (p.qid s k, (q.getD k 0).getLsbD 0)

/-- The roles of a stage on a queue. -/
def PipeFn.roles (p : PipeFn) (s q : Nat) : List Nat :=
  let w := ((p.rec_ s).attr 0x100).getD []
  ((List.range (p.rec_ s).opds.length).filter fun k => p.qid s k == some q).map fun k => (w.getD k 0).toNat % 4

/-- Bytes of a tile of a tensor's form, dense, the scales of a block-scaled pair among them (R60). -/
def tileBytes (g lay : Nat) (mx : Bool) (tile : List Nat) : Nat := (tensorSpan g lay mx tile (denseStr g lay tile)).2

/-- The rules of a walk's LINK and DONE queues and of its data queue's ISIZE. -/
def PipeFn.walkOk (p : PipeFn) (j : Nat) : Bool :=
  let (st, ln, dn) := p.wdef j
  let tile := (((p.rec_ j).attr 0x101).getD []).map (·.toNat)
  let ends := p.walkEnds j
  ends.all (fun e => e.1.isSome)
    && (match p.qid j 1 with
      | none => false
      | some q =>
        ((p.qkind q == 1) == (st && ln))
          && (!isQdecl (p.ins q) || (match (((p.getD j ⟨.lNop 0 LRec.none_, [], [], []⟩).ops.headD .i64).ten?) with
            | some t => tileBytes t.fmt t.lay t.mx tile == ((((p.rec_ q).attr 0x100).getD []).getD 1 0).toNat
            | none => false)))
    && (!ln || (st && (match p.qid j 2 with
      | some l => isWalkOp (p.ins l) && !(p.wdef l).1
      | none => false)))
    && (!dn || (match p.qid j (if ln then 3 else 2) with
      | some q => p.qkind q == 0
      | none => false))

/-- Whether a graph's edges, thinned n times of those that start at a node without predecessors, all go. -/
def acyclic : Nat → List (Nat × Nat) → Bool
  | 0, es => es.isEmpty
  | n + 1, es => acyclic n (es.filter fun e => es.any fun d => d.2 == e.1)

/-- The first record that violates R148 in a function; `start` says that it can start an instance. -/
def pipeFault (p : PipeFn) (start : Bool) (holders dirty : List Bool) : Option Nat :=
  let st := p.all isStage
  let qs := p.all fun i => isQdecl i || isWalkOp i
  let ws := p.all isWalkOp
  let vis := fun (i : Nat) => (p.getD i ⟨.lNop 0 LRec.none_, [], [], []⟩).vis
  let inside := st.flatMap fun s => ((List.range (p.close s)).filter (s < ·)).map fun i => (s, i)
  let ends := ws.flatMap (fun j => (p.walkEnds j).map fun e => (j, e)) ++ st.flatMap fun s => (p.stageEnds s).map fun e => (s, e)
  let users := fun (q : Nat) (prod : Bool) => (ends.filter fun e => e.2 == (some q, prod)).map (·.1)
  let edges := (qs.filter fun q => p.qkind q < 2).flatMap fun q => (users q true).flatMap fun a => (users q false).map fun b => (a, b)
  let firstBad := fun (l : List Nat) (bad : Nat → Bool) => l.find? bad
  (firstBad (st.take 1) fun _ => 16 < st.length || !start) <|>
  (firstBad (List.range st.length) fun k => vis (st.getD k 0) != [st.getD k 0]
      || (k + 1 < st.length && p.close (st.getD k 0) + 1 != st.getD (k + 1) 0)).map (fun k => st.getD k 0) <|>
  (ws[4]?) <|>
  (firstBad qs fun i => vis i != [] || (match st with
    | s :: _ => s < i
    | [] => false)) <|>
  (firstBad (List.range p.length) fun i => match p.ins i with
    | .lCall _ r => holders.getD (r.word 5 0) false
    | .lQpush _ _ => (p.qid i 0).isNone
    | .lQpop _ _ => (p.qid i 0).isNone
    | _ => false) <|>
  (inside.find? fun x => match p.ins x.2 with
    | .lStage _ _ => true
    | .lQdecl _ _ => true
    | .lWalk _ _ => true
    | .lLaunch _ _ => true
    | .lRet _ _ => true
    | .lCall _ r => dirty.getD (r.word 5 0) false
    | .lQpush _ _ => (match p.qid x.2 0 with
      | some q => !(p.roles x.1 q).any fun k => k % 2 == 1
      | none => true)
    | .lQpop _ _ => (match p.qid x.2 0 with
      | some q => !(p.roles x.1 q).contains 0
      | none => true)
    | _ => false).map (·.2) <|>
  (firstBad ws fun j => !p.walkOk j) <|>
  (firstBad st fun s => (p.stageEnds s).any fun e => e.1.isNone) <|>
  (firstBad qs fun q => (users q true).length != 1 || (users q false).length != 1
      || (p.qkind q == 1 && !(users q false).all fun j => isWalkOp (p.ins j) && p.qid j 1 == some q)) <|>
  (if acyclic (ws.length + st.length + 1) edges then none else st.head?)

/-! ### The section (R44 to R49) -/

/-- A fault of the section: code, function (none for the header and the pool), offset. -/
abbrev SecErr := Nat × Option Nat × Nat

/-- A constant-pool entry as the section holds it: its descriptor and its payload's words. -/
structure PoolEnt where
  d : VDesc
  words : List W32
  deriving DecidableEq, Repr

/-- The bytes of a pool entry's payload: of rank 2 or more with the padding that follows the last row (DESIGN CHOICE, log 31). -/
def poolBytes (t : TDesc) : Nat :=
  let e := fillDyn t.dims []
  (tensorSpan t.fmt 0 t.mx e (denseStr t.fmt 0 e)).2

/-- n constant-pool entries at offset p (R48). -/
def parsePool : Nat → Nat → List W32 → Except (Nat × Nat) (List PoolEnt)
  | 0, _, _ => .ok []
  | n + 1, p, l =>
    match l with
    | [] => .error (1, p)
    | h :: r =>
      let ln := h.toNat
      if 2 ^ 24 ≤ ln then .error (2, p)
      else match parseDesc r with
        | .error e => .error (e, p)
        | .ok (d, rest) =>
          let want := match d with
            | .ten t => cdiv (poolBytes t) 4
            | _ => 2
          let plain := match d with
            | .ten t => t.strs.isNone && !(r.headD 0).getLsbD 12 && !t.dims.contains none
            | .i64 => true
            | .tok => false
          if plain = false then .error (8, p)
          else if ln ≠ 1 + (r.length - rest.length) + want ∨ rest.length < want then .error (1, p)
          else match parsePool n (p + ln) (rest.drop want) with
            | .error e => .error e
            | .ok t => .ok (⟨d, rest.take want⟩ :: t)

/-- The records of a body whose first word is at offset `off`. -/
def parseBody : Nat → Nat → List W32 → Except (Nat × Nat) (List Instr)
  | _, _, [] => .ok []
  | 0, off, _ :: _ => .error (1, off)
  | k + 1, off, l =>
    match decodeRec 0 off l with
    | .error e => .error (e, off)
    | .ok (i, n) => match parseBody k (off + n) (l.drop n) with
      | .error e => .error e
      | .ok r => .ok (i :: r)

/-- A function's words, header first (R46). -/
def parseFunc (entry : Bool) (ws : List W32) : Except (Nat × Nat) LFunc :=
  let h := fun i => (ws.getD i 0).toNat
  if 2 ^ 12 ≤ h 0 ∨ 2 ^ 20 ≤ h 2 ∨ h 3 ≠ 0 then .error (2, 0)
  else match parseDescs (h 0 % 256) (ws.drop 4) with
    | .error e => .error (e, 4)
    | .ok (ps, r) => match parseDescs (h 0 / 256) r with
      | .error e => .error (e, ws.length - r.length)
      | .ok (rs, body) =>
        if body.length ≠ h 1 then .error (1, 1)
        else match parseBody body.length (ws.length - body.length) body with
          | .error e => .error e
          | .ok is_ =>
            if is_.length ≠ h 2 ∨ is_ = [] then .error (1, 2)
            else match is_.getLast? with
              | some (.lRet _ _) => .ok ⟨entry, ps, rs, is_⟩
              | some i => .error (10, (lrecOf i).2.off)
              | none => .error (1, 2)

/-- The functions that the table at offset p names (R45). A function inside the section's header counts as outside the section (DESIGN CHOICE, log
31). -/
def parseFtab (ws : List W32) (p : Nat) : Nat → Nat → Except SecErr (List LFunc)
  | 0, _ => .ok []
  | n + 1, f =>
    let e := fun i => (ws.getD (p + 4 * f + i) 0).toNat
    if 2 ≤ e 3 then .error (2, none, p + 4 * f + 3)
    else if e 0 < 8 ∨ e 1 < 4 ∨ ws.length < e 0 + e 1 then .error (1, none, p + 4 * f)
    else match parseFunc (e 3 == 1) ((ws.drop (e 0)).take (e 1)) with
      | .error (c, o) => .error (c, some f, o)
      | .ok fn => match parseFtab ws p n (f + 1) with
        | .error x => .error x
        | .ok r => .ok (fn :: r)

/-- A parsed section. -/
structure LSec where
  funcs : List LFunc
  pool : List PoolEnt
  deriving DecidableEq, Repr

/-- The records of every function, checked. -/
def checkFns (sigs : List (List VDesc × List VDesc)) (pool : List VDesc) : Nat → List LFunc → Except SecErr (List PipeFn)
  | _, [] => .ok []
  | f, fn :: r =>
    match VEnv.records ⟨sigs, pool, fn.params, fn.ress, [], [], [], []⟩ fn.body with
    | .error (c, o) => .error (c, some f, o)
    | .ok v =>
      if v.path ≠ [] then .error (6, some f, ((v.path.getLast?.bind v.at_).map fun o => (lrecOf o.ins).2.off).getD 0)
      else match checkFns sigs pool (f + 1) r with
        | .error e => .error e
        | .ok t => .ok (v.done :: t)

/-- The pipelines of every function. -/
def checkPipes (start : Nat → Bool) (holders dirty : List Bool) : Nat → List PipeFn → Except SecErr Unit
  | _, [] => .ok ()
  | f, p :: r => match pipeFault p (start f) holders dirty with
    | some i => .error (11, some f, (p.rec_ i).off)
    | none => checkPipes start holders dirty (f + 1) r

/-- THE VERIFIER (R64): the section's words in order, header first. -/
def parseSection (ws : List W32) : Except SecErr LSec :=
  let h := fun i => (ws.getD i 0).toNat
  if ws.length < 8 ∨ h 0 ≠ 0x4C59524C ∨ h 1 % 65536 ≠ 1 then .error (1, none, 0)
  else if 65536 ≤ h 1 then .error (2, none, 1)
  else if h 6 ≠ 0 ∨ h 7 ≠ 0 then .error (2, none, 6)
  else if h 2 = 0 ∨ 65535 < h 2 ∨ 1048575 < h 4 ∨ ws.length < h 3 + 4 * h 2 ∨ ws.length < h 5 then .error (1, none, 2)
  else match parsePool (h 4) (h 5) (ws.drop (h 5)) with
    | .error (c, o) => .error (c, none, o)
    | .ok pool => match parseFtab ws (h 3) (h 2) 0 with
      | .error e => .error e
      | .ok fns =>
        match checkFns (fns.map fun f => (f.params, f.ress)) (pool.map (·.d)) 0 fns with
        | .error e => .error e
        | .ok ps =>
          let bodies := fns.map (·.body)
          let launched := launchedFns bodies
          match checkPipes (fun f => (fns.getD f ⟨false, [], [], []⟩).entry || launched.contains f) (bodies.map (·.any isStage))
              (dirtyFns bodies bodies.length) 0 ps with
          | .error e => .error e
          | .ok () => .ok ⟨fns, pool⟩

end Sys2Proof.Machine
end

