-- ==== Sys2Proof/Machine/Object.lean ====
section
/-! DEFINITION. Code objects: the container, the loader's checks in their order, the chunk store, relocations, the load command and its report
(spec/14 R402 to R420). -/
namespace Sys2Proof.Machine

/-- Why a load is refused (R408): code, step, function, place, detail. -/
structure LdErr where
  code : Nat
  step : Nat
  func : Nat
  where_ : Nat
  detail : Nat
  deriving DecidableEq, Repr

/-- A refusal whose detail is the field's offset (R409). -/
def fieldErr (code step o : Nat) : LdErr := ⟨code, step, 2 ^ 32 - 1, o, o⟩

/-- A refusal at an image offset with a detail word. -/
def refuseAt (code step o d : Nat) : LdErr := ⟨code, step, 2 ^ 32 - 1, o, d⟩

/-- The first refusal of a list of conditions, each that must not hold. -/
def firstErr : List (Bool × LdErr) → Except LdErr Unit
  | [] => .ok ()
  | (b, e) :: r => if b then .error e else firstErr r

/-! ### The container (R402, R403) -/

/-- A section: type, offset, bytes in the image, bytes when mapped. -/
structure Sect where
  typ : Nat
  off : Nat
  len : Nat
  size : Nat
  deriving DecidableEq, Repr

/-- Whether two sections share a byte. -/
def Sect.meets (a b : Sect) : Bool := a.len != 0 && b.len != 0 && a.off < b.off + b.len && b.off < a.off + a.len

/-- n section-table entries from entry k on. -/
def parseSects (img : List Byte) (tot : Nat) : Nat → Nat → List Sect → Except LdErr (List Sect)
  | 0, _, l => .ok l
  | n + 1, k, l =>
    let e := 64 + 32 * k
    let x : Sect := ⟨fieldN img e 4, fieldN img (e + 8) 8, fieldN img (e + 16) 8, fieldN img (e + 24) 8⟩
    match firstErr [
      (fieldN img (e + 4) 4 != 0, fieldErr 0x101 1 (e + 4)),
      (x.typ == 0 || decide (9 < x.typ), fieldErr 0x101 1 e),
      (l.any fun y => y.typ == x.typ, fieldErr 0x100 1 e),
      (x.off % 64 != 0 || decide (tot < x.off + x.len) || l.any x.meets, fieldErr 0x100 1 (e + 8)),
      (decide (x.size < x.len) || (x.typ != 9 && x.size != x.len), fieldErr 0x100 1 (e + 24))] with
    | .error e => .error e
    | .ok () => parseSects img tot n (k + 1) (l ++ [x])

/-- Step 1: the header and the section table. -/
def container (img : List Byte) : Except LdErr (List Sect) :=
  let ns := fieldN img 8 4
  let tab := 64 + 32 * ns
  match firstErr [
    (decide (img.length < 64) || fieldN img 0 4 != 0x4F564249, fieldErr 0x100 1 0),
    (fieldN img 6 2 != 0, fieldErr 0x101 1 4),
    (fieldN img 4 2 != 1, fieldErr 0x100 1 4),
    (decide (32 ≤ ns), fieldErr 0x101 1 8),
    (!zeroBytes (slice img 0x18 0x28), fieldErr 0x101 1 0x18),
    (fieldN img 0x10 8 != img.length, fieldErr 0x100 1 0x10),
    (decide (ns < 2) || decide (16 < ns) || decide (img.length < tab), fieldErr 0x100 1 8)] with
  | .error e => .error e
  | .ok () => match parseSects img img.length ns 0 [] with
    | .error e => .error e
    | .ok l =>
      let has := fun (t : Nat) => l.any fun x => x.typ == t
      let n := ([3, 4, 5].filter has).length
      if has 1 = false ∨ has 2 = false ∨ n % 3 ≠ 0 then .error (fieldErr 0x100 1 8) else .ok l

/-- A section of a type; an empty one where the object has none. -/
def sectOf (l : List Sect) (t : Nat) : Sect := (l.find? fun x => x.typ == t).getD ⟨t, 0, 0, 0⟩

/-- A section's bytes. -/
def Sect.bytes (x : Sect) (img : List Byte) : List Byte := slice img x.off x.len

/-! ### Note, symbols, routine table, hash tree (R404, R405, R410, R411, R415) -/

/-- Step 2. -/
def checkNote (o : Nat) (b : List Byte) : Except LdErr Unit :=
  firstErr [
    (b.length != 64, fieldErr 0x100 2 o),
    (fieldN b 3 1 != 0, fieldErr 0x101 2 (o + 3)),
    (decide (4096 ≤ fieldN b 4 4), fieldErr 0x101 2 (o + 4)),
    (!zeroBytes (slice b 0x18 0x28), fieldErr 0x101 2 (o + 0x18)),
    (decide (1024 < fieldN b 4 4), fieldErr 0x100 2 (o + 4)),
    (fieldN b 8 8 / 128 != 0, refuseAt 0x102 2 (o + 8) (fieldN b 8 8 / 128 * 128)),
    (decide (Config.deviceRev < fieldN b 0 2), refuseAt 0x102 2 o 0),
    (fieldN b 2 1 != 1 && fieldN b 2 1 != 2, refuseAt 0x102 2 (o + 2) 0)]

/-- A symbol: KIND and VALUE. -/
abbrev Sym := Nat × Nat

/-- Step 4: n symbols from symbol i on. `lims` bounds VALUE by KIND. -/
def parseSyms (o : Nat) (b strt : List Byte) (lims : List Nat) : Nat → Nat → Except LdErr (List Sym)
  | 0, _ => .ok []
  | n + 1, i =>
    let k := fieldN b (16 * i + 4) 1
    let v := fieldN b (16 * i + 8) 8
    match firstErr [
      (fieldN b (16 * i + 5) 3 != 0, fieldErr 0x101 4 (o + 16 * i + 5)),
      (decide (3 < k) || decide (lims.getD k 0 ≤ v) || !(strt.drop (fieldN b (16 * i) 4)).contains 0, refuseAt 0x109 4 (o + 16 * i) i)] with
    | .error e => .error e
    | .ok () => match parseSyms o b strt lims n (i + 1) with
      | .error e => .error e
      | .ok r => .ok ((k, v) :: r)

/-- Step 5: n routine-table entries from entry i on, bound in table order; `held` are the indices held, `seen` those requested before
(R412). -/
def parseRtab (o : Nat) (b : List Byte) (nsym text : Nat) : Nat → Nat → List Nat → List Nat → Except LdErr (List RtEnt)
  | 0, _, _, _ => .ok []
  | n + 1, i, held, seen =>
    let w := fieldN b (16 * i) 4
    let idx := w % 4096
    let entry := fieldN b (16 * i + 8) 4
    let len := fieldN b (16 * i + 12) 4
    let at_ := o + 16 * i
    let got := if held.contains idx then ((List.range 4096).drop 1024).find? fun x => !held.contains x else some idx
    match firstErr [
      (bitsN w 12 4 != 0 || bitsN w 17 15 != 0 || decide (idx < 1024), fieldErr 0x101 5 at_),
      (seen.contains idx, refuseAt 0x104 5 at_ idx),
      (decide (nsym ≤ fieldN b (16 * i + 4) 4), refuseAt 0x109 5 (at_ + 4) (fieldN b (16 * i + 4) 4)),
      (entry % 2 != 0, fieldErr 0x100 5 (at_ + 8)),
      (decide (len < 4), fieldErr 0x100 5 (at_ + 12)),
      (decide (text < entry + len), fieldErr 0x100 5 (at_ + 8)),
      (held.contains idx && bitN w 16, refuseAt 0x104 5 at_ idx)] with
    | .error e => .error e
    | .ok () => match got with
      | none => .error (refuseAt 0x108 5 at_ 0)
      | some x => match parseRtab o b nsym text n (i + 1) (x :: held) (idx :: seen) with
        | .error e => .error e
        | .ok r => .ok (⟨idx, x, entry, len⟩ :: r)

/-- One level of the hash tree from the level below. -/
def treeLevel : List (List Byte) → List (List Byte)
  | a :: b :: r => sha3 (0x01 :: a ++ b) :: treeLevel r
  | l => l

/-- The root of a hash tree whose leaves are at most 2^n. -/
def treeRoot : Nat → List (List Byte) → List Byte
  | 0, l => l.headD []
  | n + 1, l => match l with
    | [] => []
    | [a] => a
    | l => treeRoot n (treeLevel l)

/-- Step 6: text, chunk table and hash tree, when the object has text. -/
def checkText (txo co : Nat) (text ch : List Byte) : Except LdErr Unit :=
  let n := text.length / 4096
  let cs := chunksOf 4096 n text
  let dig := fun i => slice ch (64 + 32 * i) 32
  match firstErr [
    (text.length == 0 || text.length % 4096 != 0, fieldErr 0x100 6 txo),
    (ch.length != 64 + 32 * n || fieldN ch 0 8 != n, fieldErr 0x100 6 co),
    (!zeroBytes (slice ch 8 24), fieldErr 0x101 6 (co + 8))] with
  | .error e => .error e
  | .ok () => match firstIdx (fun (p : List Byte × Nat) => sha3 p.1 != dig p.2) (cs.zip (List.range n)) with
    | some i => .error (refuseAt 0x103 6 (txo + 4096 * i) i)
    | none =>
      if treeRoot 64 ((List.range n).map dig) = slice ch 32 32 then .ok ()
      else .error (refuseAt 0x103 6 (co + 32) (2 ^ 32 - 1))

/-! ### Relocations (R419, R420) -/

/-- The section that a relocation type patches, with the symbol kind it needs. -/
def relocOk (typ sect kind : Nat) : Bool := match typ with
  | 1 => sect == 9
  | 2 => sect == 9 || sect == 2
  | 9 => sect == 5 && kind == 2
  | 10 => sect == 5 && kind == 2
  | 11 => sect == 2 && kind == 1
  | 12 => sect == 5 && kind == 1
  | _ => sect == 5

/-- A text type's slot field: where IMM begins, its width, whether X is set, whether the slot has an IM bit. -/
def textField (typ : Nat) : Nat × Nat × Bool × Bool := match typ with
  | 3 => (17, 30, false, false)
  | 4 => (17, 30, true, false)
  | 5 => (23, 19, false, true)
  | 6 => (23, 19, true, true)
  | 7 => (17, 19, false, false)
  | 8 => (17, 19, true, false)
  | 9 => (11, 9, false, false)
  | 10 => (11, 9, true, false)
  | _ => (17, 30, false, false)

/-- A value in n signed bits. -/
def inSigned (v : Int) (n : Nat) : Bool := decide (-(2 ^ (n - 1) : Int) ≤ v) && decide (v < (2 ^ (n - 1) : Int))

/-- A value's range by relocation type. -/
def relocRange (typ : Nat) (v : Int) : Bool := match typ with
  | 1 => true
  | 2 => decide (0 ≤ v) && decide (v < 2 ^ 32)
  | 3 => inSigned v 30
  | 4 => inSigned v 46
  | 5 => inSigned v 19
  | 6 => inSigned v 35
  | 7 => inSigned v 19
  | 8 => inSigned v 35
  | 9 => decide (0 ≤ v) && decide (v < 512)
  | 10 => decide (0 ≤ v) && decide (v < 4096)
  | _ => decide (1024 ≤ v) && decide (v < 4096)

/-- Replaces bytes of a list from an offset. -/
def patch (l : List Byte) (o : Nat) (bs : List Byte) : List Byte := l.take o ++ bs ++ l.drop (o + bs.length)

/-- The bytes that relocations patch: LORYIL, TEXT, DATA. -/
structure Patched where
  lory : List Byte
  text : List Byte
  data : List Byte
  deriving DecidableEq, Repr

/-- A text relocation: the slot word's IMM, and XIMM in the header when X is set. Its fault's kind otherwise: 2 slot, 3 X bit, 4 IM bit. -/
def patchText (typ slot o : Nat) (v : Int) (t : List Byte) : Except Nat (List Byte) :=
  let hd := fieldN t o 4
  let n := popc (hd % 128) 7
  let p := o + 4 + 6 * slot
  let w := fieldN t p 6
  let (lo, wd, x, im) := textField typ
  if t.length < o + 4 ∨ n ≤ slot ∨ t.length < o + 4 + 6 * n then .error 2
  else if im ∧ bitN w 47 = false then .error 4
  else if bitN w (if im then 46 else 47) ≠ x then .error 3
  else
    let w' := w - bitsN w lo wd * 2 ^ lo + bitsZ v wd * 2 ^ lo
    let t := patch t p (toBytes w' 6)
    .ok (if x then patch t o (toBytes (hd % 65536 + bitsZ (v / (2 ^ wd : Int)) 16 * 65536) 4) else t)

/-- One relocation whose words are w0 and w1, number n at image offset o; `symVal` gives S. -/
def relocOne (syms : List Sym) (symVal : Sym → Nat) (o n w0 w1 : Nat) (b : Patched) : Except LdErr Patched :=
  let typ := w0 / 2 ^ 56
  let sect := bitsN w0 52 4
  let slot := bitsN w0 48 4
  let off := w0 % 2 ^ 48
  let form := fun (k : Nat) => refuseAt 0x107 8 o (n + k * 2 ^ 32)
  if typ = 0 ∨ 12 < typ then .error (fieldErr 0x101 8 o)
  else match syms[w1 / 2 ^ 32]? with
    | none => .error (refuseAt 0x109 8 o (w1 / 2 ^ 32))
    | some sy =>
      let v : Int := (symVal sy : Int) + sext w1 32
      if relocOk typ sect sy.1 = false then .error (form 1)
      else if sect ≠ 5 ∧ slot ≠ 0 then .error (form 2)
      else if sect = 5 then
        match patchText typ slot off v b.text with
        | .error k => .error (form k)
        | .ok t => if relocRange typ v then .ok { b with text := t } else .error (refuseAt 0x106 8 o n)
      else
        let l := if sect = 9 then b.data else b.lory
        let w := if typ = 1 then 8 else 4
        if l.length < off + w then .error (form 2)
        else if relocRange typ v = false then .error (refuseAt 0x106 8 o n)
        else
          let x := if typ = 11 then bitsN (fieldN l off 4) 12 20 * 4096 + bitsZ v 12 else bitsZ v (8 * w)
          let l := patch l off (toBytes x w)
          .ok (if sect = 9 then { b with data := l } else { b with lory := l })

/-- n relocations from number k on, in table order. -/
def relocs (syms : List Sym) (symVal : Sym → Nat) (o : Nat) (tab : List Byte) : Nat → Nat → Patched → Except LdErr Patched
  | 0, _, b => .ok b
  | n + 1, k, b => match relocOne syms symVal (o + 16 * k) k (fieldN tab (16 * k) 8) (fieldN tab (16 * k + 8) 8) b with
    | .error e => .error e
    | .ok b => relocs syms symVal o tab n (k + 1) b

/-! ### The parts of a load -/

/-- The 32-bit words of a section's bytes. -/
def sectWords (b : List Byte) : List W32 := words32 (b.length / 4) b

/-- Step 3, or its repetition after the relocations of step 8. -/
def loryil (step : Nat) (b : List Byte) : Except LdErr LSec :=
  if b.length % 4 ≠ 0 then .error ⟨1, step, 2 ^ 32 - 1, 0, 0⟩
  else match parseSection (sectWords b) with
    | .ok s => .ok s
    | .error (c, f, o) => .error ⟨c, step, f.getD (2 ^ 32 - 1), o, 0⟩

/-- The first `uop` whose ROUTINE no entry requests: its routine, function and word offset (R412). -/
def unbound (rt : List RtEnt) : Nat → List LFunc → Option (Nat × Nat × Nat)
  | _, [] => none
  | f, fn :: r =>
    match fn.body.find? fun i => match i with
      | .lUop _ q => !rt.any fun e => e.req == q.word 0x100 0
      | _ => false with
    | some i => some ((lrecOf i).2.word 0x100 0, f, (lrecOf i).2.off)
    | none => unbound rt (f + 1) r

/-- The highest run of n handles that no object holds, downward from h4095 (R414). -/
def handleRun (held : List (Nat × Nat)) (n : Nat) : Option Nat :=
  ((List.range (4097 - n)).reverse).find? fun h => held.all fun p => p.2 == 0 || h + n ≤ p.1 || p.1 + p.2 ≤ h

/-- What a load places: number i of MEM's choices, else a free one, in units of 2^b bytes below 2^top (DESIGN CHOICE, log 12). -/
def State.placeAt (s : State) (h : CmdHdr) (i b top : Nat) : Nat × State := match h.place[i]? with
  | some a => (a, s)
  | none => let p := s.drawNat (2 ^ (top - b)); (p.1 * 2 ^ b, p.2)

/-- Offsets of constant-pool tensors, each on a 64-byte boundary, from an offset on; and the end. -/
def constOffs : Nat → List PoolEnt → List Nat × Nat
  | o, [] => ([], o)
  | o, e :: r =>
    let n := match e.d with
      | .ten t => let x := fillDyn t.dims []; (tensorSpan t.fmt t.lay t.mx x (denseStr t.fmt t.lay x)).2
      | _ => 0
    let p := constOffs (o + 64 * cdiv n 64) r
    (o :: p.1, p.2)

/-- The moves that bring a pool tensor from its dense L_ROW payload into its own layout: (source byte, destination byte) (R48, R61). -/
def constMoves (t : TDesc) : List (Nat × Nat) :=
  let x := fillDyn t.dims []
  let a : Side := ⟨3, 0, t.fmt, 0, x, denseStr t.fmt 0 x⟩
  let b : Side := ⟨3, 0, t.fmt, t.lay, x, denseStr t.fmt t.lay x⟩
  let el := (indices x.dropLast).flatMap fun row => (List.range a.rowBytes).map fun k => ((a.byteAt row k).toNat, (b.byteAt row k).toNat)
  if t.mx then
    let e := x.dropLast ++ [cdiv (x.getLastD 0) 32]
    let n := (elemSpan 12 0 e (denseStr 12 0 e)).2
    el ++ (List.range n).map fun k =>
      ((scaleOff t.fmt 0 x (denseStr t.fmt 0 x)).toNat + k, (scaleOff t.fmt t.lay x (denseStr t.fmt t.lay x)).toNat + k)
  else el

/-- Writes the pool's tensors at a physical address. -/
def State.putConsts (s : State) (pa : Nat) (es : List (PoolEnt × Nat)) : State :=
  es.foldl (fun (s : State) (e : PoolEnt × Nat) => match e.1.d with
    | .ten t =>
      let bs := e.1.words.flatMap fun w => toBytes w.toNat 4
      (constMoves t).foldl (fun (s : State) (p : Nat × Nat) => s.wr8 (pa + e.2 + p.2) (bs.getD p.1 0)) s
    | _ => s) s

/-- A key of the chunk store: the digest as a number. -/
def chunkKey (b : List Byte) : Nat := ofBytes (sha3 b)

/-- The copy of a key in the chunk store. -/
def State.chunkPA (s : State) (key : Nat) : Option Nat := (s.chunks.find? fun c => c.key == key).map (·.pa)

/-- Step 9: enters chunks into the store; a key that is present is shared (R417). -/
def State.storeChunks (s : State) (h : CmdHdr) : Nat → List (List Byte × Nat) → State
  | _, [] => s
  | i, (b, k) :: r =>
    match s.chunks.find? fun c => c.key == k with
    | some _ => ({ s with chunks := s.chunks.map fun (c : ChunkEnt) => if c.key = k then { c with n := c.n + 1 } else c }).storeChunks h i r
    | none =>
      let p := s.placeAt h i 12 39
      ({ p.2.wrBytes p.1 b with chunks := p.2.chunks ++ [(⟨k, p.1, 1, false⟩ : ChunkEnt)] }).storeChunks h (i + 1) r

/-- A load's outcome before anything is kept: the parsed parts with every check of R407 passed but the chunk store's room. -/
structure Loading where
  sec : LSec
  rt : List RtEnt
  b : Patched
  nh : Nat
  hbase : Nat
  mmrev : Nat
  name : Nat
  dsize : Nat
  hint : Nat
  deriving DecidableEq, Repr

/-- Steps 1 to 8 of a load (R407), where MEM places DATA at `dataVA`. -/
def State.loadParts (s : State) (dataVA : Nat) (img : List Byte) : Except LdErr Loading :=
  match container img with
  | .error e => .error e
  | .ok ss =>
    let sec := fun t => (sectOf ss t).bytes img
    let off := fun t => (sectOf ss t).off
    let note := sec 1
    match checkNote (off 1) note with
    | .error e => .error e
    | .ok () => match loryil 3 (sec 2) with
      | .error e => .error e
      | .ok ls =>
        let nh := fieldN note 4 4
        let dsize := (sectOf ss 9).size
        let sy := sec 7
        let rt := sec 3
        if sy.length % 16 ≠ 0 then .error (fieldErr 0x100 4 (off 7))
        else match parseSyms (off 7) sy (sec 8) [dsize, rt.length / 16, nh, ls.funcs.length] (sy.length / 16) 0 with
          | .error e => .error e
          | .ok syms =>
            if rt.length % 16 ≠ 0 then .error (fieldErr 0x100 5 (off 3))
            else match parseRtab (off 3) rt syms.length (sec 5).length (rt.length / 16) 0
                (s.objs.flatMap fun p => p.2.rtab.map (·.idx)) [] with
              | .error e => .error e
              | .ok ents => match unbound ents 0 ls.funcs with
                | some (x, f, o) =>
                  let foff := ((sectWords (sec 2)).getD (((sectWords (sec 2)).getD 3 0).toNat + 4 * f) 0).toNat
                  .error (refuseAt 0x105 5 (off 2 + 4 * (foff + o)) x)
                | none => match (if ss.any (fun x => x.typ == 5) then checkText (off 5) (off 4) (sec 5) (sec 4) else .ok ()) with
                  | .error e => .error e
                  | .ok () => match (if nh = 0 then some 0 else handleRun (s.objs.map fun p => (p.2.hbase, p.2.nhstat)) nh) with
                    | none => .error (refuseAt 0x108 7 (off 1 + 4) 1)
                    | some hb =>
                      let val : Sym → Nat := fun y => match y.1 with
                        | 0 => dataVA + y.2
                        | 1 => (ents.getD y.2 ⟨0, 0, 0, 0⟩).idx
                        | 2 => hb + y.2
                        | _ => y.2
                      let rl := sec 6
                      if rl.length % 16 ≠ 0 then .error (fieldErr 0x100 8 (off 6))
                      else match relocs syms val (off 6) rl (rl.length / 16) 0
                          ⟨sec 2, sec 5, sec 9 ++ List.replicate (if rl = [] then 0 else dsize - (sec 9).length) 0⟩ with
                        | .error e => .error e
                        | .ok b => match (if b.lory = sec 2 then .ok ls else loryil 8 b.lory) with
                          | .error e => .error e
                          | .ok ls => .ok ⟨ls, ents, b, nh, hb, fieldN note 2 1, fieldN img 0xC 4, dsize, fieldN note 0x10 8⟩

/-- A loaded object in its places: text, constants and data in memory, its chunks in the store, its number. One that names a fenced chunk is fenced
(R418). -/
def State.keepObj (s : State) (h : CmdHdr) (dataVA : Nat) (x : Loading) : Nat × State :=
  let (n, s) := s.newId
  let (textVA, s) := s.placeAt h 0 16 52
  let (textPA, s) := s.placeAt h 1 16 39
  let (dataPA, s) := s.placeAt h 3 16 39
  let (constVA, s) := s.placeAt h 4 16 52
  let (constPA, s) := s.placeAt h 5 16 39
  let co := constOffs 0 x.sec.pool
  let cs := (chunksOf 4096 (x.b.text.length / 4096) x.b.text).map fun c => (c, chunkKey c)
  let o : Obj :=
    { funcs := x.sec.funcs, consts := (x.sec.pool.zip co.1).map fun p => match p.1.d with
        | .ten t => .ten t (constVA + p.2)
        | _ => .i64 (BitVec.ofNat 64 ((p.1.words.getD 0 0).toNat + 2 ^ 32 * (p.1.words.getD 1 0).toNat)),
      rtab := x.rt, textVA := textVA, textPA := textPA, textLen := x.b.text.length, keys := cs.map (·.2), constVA := constVA,
      constPA := constPA, constLen := co.2, dataVA := dataVA, dataPA := dataPA, dataLen := x.b.data.length, dataSize := x.dsize,
      nhstat := x.nh, hbase := x.hbase, mmrev := x.mmrev, name := x.name, unload := false,
      fenced := s.chunks.any (fun c => c.fenced && cs.any fun k => k.2 == c.key), badOnce := [], hint := x.hint }
  let s := ((s.wrBytes textPA x.b.text).wrBytes dataPA x.b.data).putConsts constPA (x.sec.pool.zip co.1)
  let new := (nubN (cs.map (·.2))).filterMap fun k => cs.find? fun c => c.2 == k
  (n, { s.storeChunks h 6 new with objs := s.objs.upd n o })

/-- Whether the chunk store has room for an object's new chunks (R417). -/
def State.chunkRoom (s : State) (text : List Byte) : Bool :=
  let ks := nubN ((chunksOf 4096 (text.length / 4096) text).map chunkKey)
  decide (s.chunks.length + (ks.filter fun k => (s.chunkPA k).isNone).length ≤ Config.storeChunks)

/-- THE LOADER (R407): an object's number and the state that holds it, or the first refusal. -/
def State.loadImage (s : State) (h : CmdHdr) (img : List Byte) : Except LdErr (Nat × State) :=
  let (dataVA, t) := s.placeAt h 2 16 52
  match t.loadParts dataVA img with
  | .error e => .error e
  | .ok x => if t.chunkRoom x.b.text = false then .error (refuseAt 0x108 9 0 2) else .ok (t.keepObj h dataVA x)

/-- The report of R408. -/
def ldReport (e : LdErr) (obj : Nat) : List Byte :=
  toBytes e.code 2 ++ toBytes e.step 2 ++ toBytes e.func 4 ++ toBytes e.where_ 8 ++ toBytes e.detail 8 ++ toBytes obj 8

/-- `LOAD` (R407, R434): the report of a loaded object holds free values in STEP, WHERE and DETAIL, which R408 does not state (DESIGN CHOICE, log 4). -/
def execCLoad (h : CmdHdr) (addr len : Nat) (s : State) : Host.Outcome State Fault Refusal :=
  s.command h (.cLoad h addr len) false fun s =>
    match s.loadImage h (s.rdBytes addr len) with
    | .error e => s.finish h 5 0 (ldReport e 0)
    | .ok (n, t) =>
      let (st, t) := t.drawNat 9
      let (wh, t) := t.drawWord
      let (d, t) := t.drawWord
      t.finish h 0 n (ldReport ⟨0, st + 1, 2 ^ 32 - 1, wh.toNat, d.toNat⟩ n)

end Sys2Proof.Machine
end

