-- ==== Sys2Proof/Machine/Mapping.lean ====
section
/-! DEFINITION. Mapping and unmapping of code objects, unload requests, page-ins of the routine store and fenced objects (spec/14 R414 to R418,
R421, R422, spec/13 R401). -/
namespace Sys2Proof.Machine

/-! ### Page tables as MEM writes them (R328, R416) -/

/-- A leaf entry: V, LEAF, R W X K in `perm`, the ordering class. -/
def leafEntry (pa perm ord : Nat) : Nat := 3 + perm % 16 * 4 + ord % 4 * 512 + pa / 4096 * 4096

/-- A page for a new table: MEM's next choice, else a free one (DESIGN CHOICE, log 12). -/
def State.takePage (s : State) : List Nat → Nat × List Nat × State
  | a :: r => (a, r, s)
  | [] => let p := s.drawNat (2 ^ 27); (4096 * p.1, [], p.2)

/-- Writes a level 3 entry for a virtual address, with new tables where the tree has none; a larger page in the way stays. -/
def State.mapGo : Nat → State → List Nat → Nat → Nat → Nat → List Nat × State
  | 0, s, l, _, _, _ => (l, s)
  | k + 1, s, l, tbl, va, leaf =>
    let ea := tbl + 8 * bitsN va (pageBits (3 - k)) 9
    if k = 0 then (l, s.wrN ea 8 leaf)
    else
      let e := s.rdN ea 8
      if bitN e 0 = false then
        let (a, l, s) := s.takePage l
        State.mapGo k ((s.clear a 4096).wrN ea 8 (1 + a / 4096 * 4096)) l a va leaf
      else if bitN e 1 then (l, s)
      else State.mapGo k s l (bitsN e 12 34 * 4096) va leaf

/-- Maps n pages of 64 KiB from a virtual to a physical address. -/
def State.mapPages (s : State) (l : List Nat) (root va pa perm ord n : Nat) : List Nat × State :=
  (List.range n).foldl (fun (p : List Nat × State) (i : Nat) =>
    State.mapGo 4 p.2 p.1 root (va + 65536 * i) (leafEntry (pa + 65536 * i) perm ord)) (l, s)

/-- Clears the level 3 entry of a virtual address, if the tree has one. -/
def State.unmapGo (s : State) (va : Nat) : Nat → Nat → State
  | 0, _ => s
  | k + 1, tbl =>
    let ea := tbl + 8 * bitsN va (pageBits (3 - k)) 9
    if k = 0 then s.wrN ea 8 0
    else
      let e := s.rdN ea 8
      if bitN e 0 = false ∨ bitN e 1 = true then s else s.unmapGo va k (bitsN e 12 34 * 4096)

/-- Unmaps n pages, and invalidates what clusters have cached of them. -/
def State.unmapPages (s : State) (ctx root va n : Nat) : State :=
  let s := (List.range n).foldl (fun (s : State) (i : Nat) => s.unmapGo (va + 65536 * i) 4 root) s
  { s with clusters := s.clusters.map fun (p : Nat × Cluster) => (p.1, { p.2 with
      tlb := p.2.tlb.filter fun e => !(e.ctx == ctx && va ≤ e.va && e.va < va + 65536 * n) }) }

/-- Pages that n bytes take. -/
def pagesOf (n : Nat) : Nat := cdiv n 65536

/-! ### MAP and UNMAP (R414, R416, R421) -/

/-- Whether every handle of an object's static range is FREE in a context (R414). -/
def State.staticFree (s : State) (ctx : Nat) (o : Obj) : Bool :=
  (List.range 16).all fun cl => (List.range o.nhstat).all fun i => (s.handle cl ctx (o.hbase + i)).st == 0

/-- Sets every handle of a static range in every cluster. -/
def State.setStatic (s : State) (ctx : Nat) (o : Obj) (f : HEnt → HEnt) : State :=
  (List.range 16).foldl (fun (s : State) (cl : Nat) => (List.range o.nhstat).foldl (fun (s : State) (i : Nat) =>
    s.setHandle cl ctx (o.hbase + i) (f (s.handle cl ctx (o.hbase + i)))) s) s

/-- Gives a context's descriptor REV1; a resident context is switched out and in for it (R421). -/
def State.setRev (s : State) (ctx : Nat) (on : Bool) : State :=
  match s.ctx? ctx with
  | none => s
  | some x =>
    if x.rev1 = on then s
    else
      let s := (s.updCtx ctx fun y => { y with rev1 := on, again := y.state == 1 || y.state == 2 }).syncCtx ctx
      s.switchOut ctx

/-- Installs an object in a context. The ordering class of text and constant pages is free; DATA lies on RC pages (R416). -/
def State.mapObj (s : State) (h : CmdHdr) (ctx n : Nat) (o : Obj) (root : Nat) : State :=
  let (dpa, s) := s.placeAt h 0 16 39
  let (ord, s) := s.drawNat 3
  let data := s.rdBytes o.dataPA o.dataLen
  let s := (s.clear dpa o.dataSize).wrBytes dpa data
  let (l, s) := s.mapPages (h.place.drop 1) root o.textVA o.textPA 5 ord (pagesOf o.textLen)
  let (l, s) := s.mapPages l root o.constVA o.constPA 9 ord (pagesOf o.constLen)
  let (_, s) := s.mapPages l root o.dataVA dpa 3 1 (pagesOf o.dataSize)
  let s := s.setStatic ctx o fun _ => { HEnt.free with st := 2, static := true }
  let s := s.updCtx ctx fun y => { y with objs := y.objs ++ [n] }
  if o.mmrev = 1 then s.setRev ctx true else s

/-- Takes an object out of a context. -/
def State.unmapObj (s : State) (ctx n : Nat) (o : Obj) : State :=
  match s.ctx? ctx with
  | none => s
  | some x =>
    let s := s.unmapPages ctx x.root o.textVA (pagesOf o.textLen)
    let s := s.unmapPages ctx x.root o.constVA (pagesOf o.constLen)
    let s := s.unmapPages ctx x.root o.dataVA (pagesOf o.dataSize)
    let s := s.setStatic ctx o fun e => { HEnt.free with gen := e.gen }
    let s := s.updCtx ctx fun y => { y with objs := y.objs.filter (· != n) }
    let old := (x.objs.filter (· != n)).any fun k => (s.objs.find k).any fun p => p.mmrev == 1
    if o.mmrev = 1 ∧ old = false then s.setRev ctx false else s

/-- A command that is refused for a reason to which no rule gives a status: the status is free among those of failure (DESIGN CHOICE, log 12). -/
def State.refuse (s : State) (h : CmdHdr) : State :=
  let p := s.drawNat 6
  p.2.finish h (p.1 + 1) 0 []

/-- `MAP` (R421, R422): it fails, and leaves the context unchanged, after an unload request, for an object already mapped, and when a static
handle is not FREE. -/
def execCMap (h : CmdHdr) (ctx obj : Nat) (s : State) : Host.Outcome State Fault Refusal :=
  s.command h (.cMap h ctx obj) false fun s =>
    match s.ctx? ctx, s.objs.find obj with
    | some x, some o =>
      if x.state = 3 ∨ o.unload = true ∨ x.objs.contains obj = true ∨ s.staticFree ctx o = false then s.refuse h
      else (s.mapObj h ctx obj o x.root).finish h 0 obj []
    | _, _ => s.finish h 2 0 []

/-- `UNMAP` (R414, R421). -/
def execCUnmap (h : CmdHdr) (ctx obj : Nat) (s : State) : Host.Outcome State Fault Refusal :=
  s.command h (.cUnmap h ctx obj) false fun s =>
    match s.ctx? ctx, s.objs.find obj with
    | some x, some o => if x.objs.contains obj then (s.unmapObj ctx obj o).finish h 0 obj [] else s.refuse h
    | _, _ => s.finish h 2 0 []

/-! ### UNLOAD (R401, R422) -/

/-- Whether a slice runs a routine of an object, or waits with one in its shadow bank. -/
def Slice.runs (x : Slice) (obj : Nat) : Bool := x.orec.any (fun r => r.obj == obj) || x.shadow.any (fun r => r.obj == obj)

/-- Whether a slice record names an object: its RESUME address lies in the text, or its slice runs a routine of it. -/
def SRec.names (r : SRec) (obj : Nat) (o : Obj) : Bool :=
  (decide (o.textVA ≤ r.resume.toNat) && decide (r.resume.toNat < o.textVA + o.textLen)) || r.sl.any fun x => x.runs obj

/-- An object's reference count: mappings, running routines, slice records (R401). -/
def State.objCount (s : State) (obj : Nat) (o : Obj) : Nat :=
  (s.ctxs.filter fun p => p.2.objs.contains obj).length + (s.cores.filter fun p => p.2.sl.runs obj).length
    + (s.recs.filter fun r => r.names obj o).length

/-- Contexts with a running routine of an object. -/
def State.runners (s : State) (obj : Nat) : List Nat :=
  nubN ((s.cores.filter fun p => p.2.sl.runs obj).filterMap fun p => p.2.run.map (·.ctx))

/-- Takes an object out of the chip: its chunks are released with their last name (R417, R422), and contexts whose slice records still name
it are GONE (R401). -/
def State.forget (s : State) (obj : Nat) (o : Obj) : State :=
  let gone := nubN ((s.recs.filter fun r => r.names obj o).map (·.ctx))
  let s := gone.foldl (fun (s : State) (c : Nat) => (s.updCtx c fun x => { x with gone := some o.name }).syncCtx c) s
  let s := ((s.ctxs.filter fun p => p.2.objs.contains obj).map (·.1)).foldl (fun (s : State) (c : Nat) => s.unmapObj c obj o) s
  let ks := nubN o.keys
  { s with
    objs := s.objs.erase obj
    chunks := (s.chunks.map fun (c : ChunkEnt) => if ks.contains c.key then { c with n := c.n - 1 } else c).filter fun c => c.n != 0
    clusters := s.clusters.map fun (p : Nat × Cluster) => (p.1, { p.2 with store := p.2.store.filter fun e => e.1 != obj }) }

/-- Whether an unload request can take effect. -/
def State.unloadReady (s : State) (obj : Nat) (force : Bool) : Bool := match s.objs.find obj with
  | none => true
  | some o => if force then (s.runners obj).isEmpty else s.objCount obj o == 0

/-- `UNLOAD` (R401, R422): the request waits for the count of zero; a forced one only until the contexts that run the object's code are out. -/
def execCUnload (h : CmdHdr) (obj : Nat) (force : Bool) (s : State) : Host.Outcome State Fault Refusal :=
  s.command h (.cUnload h obj force) false fun s =>
    match s.objs.find obj with
    | none => s.finish h 2 0 []
    | some o =>
      if s.unloadReady obj force then (s.forget obj o).finish h 0 obj []
      else
        let s := { s with objs := s.objs.upd obj { o with unload := true } }
        let s := if force then (s.runners obj).foldl (fun (s : State) (c : Nat) => s.switchOut c) s else s
        { s with ctl := { s.ctl with wait := s.ctl.wait ++ [.cUnload h obj force] } }

/-- Whether a waiting command can be taken up again. -/
def State.waitReady (s : State) (i : Instr) : Bool :=
  (cmdHdr i).all (fun h => !s.cqFull h.queue) && (match i with
    | .cUnload _ obj force => s.unloadReady obj force
    | .cLaunch _ _ _ _ => s.ctl.takeover.isNone
    | _ => true)

/-! ### The routine store (R418) -/

/-- The chunk of an object's text that a core's pc lies in. -/
def Obj.chunkAt (o : Obj) (pc : Nat) : Option Nat := if o.textVA ≤ pc ∧ pc < o.textVA + o.textLen then some ((pc - o.textVA) / 4096) else none

/-- Whether a running routine of a cluster needs a chunk: the routine lies in it, or its pc does. -/
def State.chunkUsed (s : State) (cl : Nat) (p : Nat × Nat) : Bool :=
  (List.range 16).any fun j =>
    let x := s.sl (16 * cl + j)
    match x.orec, s.objs.find p.1 with
    | some r, some o => r.obj == p.1 && (o.chunkAt x.pc.toNat == some p.2
        || o.rtab.any fun e => decide (o.textVA + e.entry = r.entry.toNat) && e.chunks.contains p.2)
    | _, _ => false

/-- A routine store with room for one more chunk: at 256 the least recently paged-in chunk that no routine uses leaves; none when every one
is used. -/
def State.storeRoom (s : State) (cl : Nat) : Option (List (Nat × Nat)) :=
  let l := (s.cluster cl).store
  if l.length < 256 then some l else (l.find? fun p => !s.chunkUsed cl p).map fun p => l.filter (· != p)

/-- The chunk that a cluster needs next: of a user routine with a tile whose waits are over, or under the pc of a running core. -/
def State.pageDue (s : State) (cl : Nat) : Option (Nat × Nat) :=
  let byOp := (s.lops.filter fun p => p.2.cluster == cl && p.2.kind == 1 && p.2.fuse != 1 && p.2.tiles != [] && p.2.fault.isNone
    && s.tileReady p.2 && s.rtOpen p.2.rtn).flatMap fun p => s.lacking cl p.2.rtn
  let byPc := (List.range 16).filterMap fun j =>
    let x := s.sl (16 * cl + j)
    match x.orec with
    | some r => (s.objs.find r.obj).bind fun o => if o.fenced then none else (o.chunkAt x.pc.toNat).bind fun k =>
        if (s.cluster cl).store.contains (r.obj, k) then none else some (r.obj, k)
    | none => none
  (byOp ++ byPc).head?

/-- The detail word of CHUNK_CORRUPT. -/
def chunkDetail (k : Nat) (second : Bool) : W64 := BitVec.ofNat 64 (k + if second then 2 ^ 32 else 0)

/-- Fences the store's copy of a key and every object that names it, and tells each context that maps one (R418). -/
def State.fenceKey (s : State) (cl key : Nat) : State :=
  let s := { s with chunks := s.chunks.map fun (c : ChunkEnt) => if c.key = key then { c with fenced := true } else c }
  s.objs.foldl (fun (s : State) (p : Nat × Obj) =>
    match firstIdx (· == key) p.2.keys with
    | none => s
    | some i =>
      let s := { s with objs := s.objs.upd p.1 { p.2 with fenced := true } }
      let cs : List Nat := (s.ctxs.filter fun (x : Nat × Ctx) => x.2.objs.contains p.1).map fun x => x.1
      if cs.isEmpty then s.tellErr (0x20 + cl) 0x85 (chunkDetail i true)
      else cs.foldl (fun (s : State) (c : Nat) =>
        s.trapRec c 0x85 0xFFFF 0 (2 ^ 32 - 1) 0xFFFF 0 (16 * cl) 0 16 0 (chunkDetail i true) 0 0) s) s

/-- `CHUNK_PAGE_IN` (R418): the digest of the store's copy is compared with its key; `bad` is a mismatch that the outside causes. -/
def execEChunkPageIn (cl obj chunk : Nat) (bad : Bool) (s : State) : Host.Outcome State Fault Refusal :=
  match s.objs.find obj with
  | none => .next s
  | some o => match o.keys[chunk]?, s.storeRoom cl with
    | some key, some l =>
      if 16 ≤ cl ∨ o.fenced = true ∨ l.contains (obj, chunk) = true then .next s
      else match s.chunkPA key with
        | none => .next s
        | some pa =>
          if bad = false ∧ chunkKey (s.rdBytes pa 4096) = key then
            .next { (s.updCl cl fun k => { k with store := l ++ [(obj, chunk)] }) with
              objs := s.objs.upd obj { o with badOnce := o.badOnce.filter (· != 16 * chunk + cl) } }
          else if o.badOnce.contains (16 * chunk + cl) then .next (s.fenceKey cl key)
          else .next (({ s with objs := s.objs.upd obj { o with badOnce := o.badOnce ++ [16 * chunk + cl] } }).tellErr (0x20 + cl) 0x85
            (chunkDetail chunk false))
    | _, _ => .next s

/-- An instance that a record or a tile of a fenced object would run next, while none of its routines runs: it is killed (R418). -/
def State.fencedDue (s : State) : Option Nat :=
  (s.insts.find? fun p => !p.2.done && (s.objs.find p.2.obj).any (fun o => o.fenced)
    && !(s.cores.any fun c => c.2.run.any (fun r => r.inst == p.1) && c.2.sl.orec.isSome)
    && ((s.walks.any fun w => w.2.inst == p.1 && w.2.st == 0) || s.lops.any fun o => o.2.inst == p.1 && o.2.tiles != [] && s.tileReady o.2)).map (·.1)

end Sys2Proof.Machine
end

