-- ==== Sys2Proof/Machine/Dispatch.lean ====
section
/-! DEFINITION. One arm per instruction, each one call of its meaning. -/
namespace Sys2Proof.Machine

def exec (i : Instr) (s : State) : Host.Outcome State Fault Refusal :=
  match i with
  | .nop h => Sys2Proof.Machine.execNop h s
  | .add f => Sys2Proof.Machine.execAdd f s
  | .sub f => Sys2Proof.Machine.execSub f s
  | .mul f => Sys2Proof.Machine.execMul f s
  | .mulh f => Sys2Proof.Machine.execMulh f s
  | .div f => Sys2Proof.Machine.execDiv f s
  | .rem f => Sys2Proof.Machine.execRem f s
  | .and f => Sys2Proof.Machine.execAnd f s
  | .or f => Sys2Proof.Machine.execOr f s
  | .xor f => Sys2Proof.Machine.execXor f s
  | .shl f => Sys2Proof.Machine.execShl f s
  | .shr f => Sys2Proof.Machine.execShr f s
  | .sra f => Sys2Proof.Machine.execSra f s
  | .min f => Sys2Proof.Machine.execMin f s
  | .max f => Sys2Proof.Machine.execMax f s
  | .clz f => Sys2Proof.Machine.execClz f s
  | .popc f => Sys2Proof.Machine.execPopc f s
  | .extb f => Sys2Proof.Machine.execExtb f s
  | .insb f => Sys2Proof.Machine.execInsb f s
  | .movi f => Sys2Proof.Machine.execMovi f s
  | .cmp f => Sys2Proof.Machine.execCmp f s
  | .sel f => Sys2Proof.Machine.execSel f s
  | .plog f => Sys2Proof.Machine.execPlog f s
  | .fop f => Sys2Proof.Machine.execFop f s
  | .fma f => Sys2Proof.Machine.execFma f s
  | .fcvt f => Sys2Proof.Machine.execFcvt f s
  | .ld f => Sys2Proof.Machine.execLd f s
  | .st f => Sys2Proof.Machine.execSt f s
  | .ldk f => Sys2Proof.Machine.execLdk f s
  | .amo f => Sys2Proof.Machine.execAmo f s
  | .fence f => Sys2Proof.Machine.execFence f s
  | .kinv f => Sys2Proof.Machine.execKinv f s
  | .waitc f => Sys2Proof.Machine.execWaitc f s
  | .waittl f => Sys2Proof.Machine.execWaittl f s
  | .waith f => Sys2Proof.Machine.execWaith f s
  | .bara f => Sys2Proof.Machine.execBara f s
  | .barw f => Sys2Proof.Machine.execBarw f s
  | .iclock f => Sys2Proof.Machine.execIclock f s
  | .icunl f => Sys2Proof.Machine.execIcunl f s
  | .br f => Sys2Proof.Machine.execBr f s
  | .jmp f => Sys2Proof.Machine.execJmp f s
  | .call f => Sys2Proof.Machine.execCall f s
  | .ret f => Sys2Proof.Machine.execRet f s
  | .yield f => Sys2Proof.Machine.execYield f s
  | .opend f => Sys2Proof.Machine.execOpend f s
  | .trap f => Sys2Proof.Machine.execTrap f s
  | .mfs f => Sys2Proof.Machine.execMfs f s
  | .mts f => Sys2Proof.Machine.execMts f s
  | .phase f => Sys2Proof.Machine.execPhase f s
  | .vadd f => Sys2Proof.Machine.execVadd f s
  | .vsub f => Sys2Proof.Machine.execVsub f s
  | .vmul f => Sys2Proof.Machine.execVmul f s
  | .vfma f => Sys2Proof.Machine.execVfma f s
  | .vmin f => Sys2Proof.Machine.execVmin f s
  | .vmax f => Sys2Proof.Machine.execVmax f s
  | .vabs f => Sys2Proof.Machine.execVabs f s
  | .vneg f => Sys2Proof.Machine.execVneg f s
  | .vand f => Sys2Proof.Machine.execVand f s
  | .vor f => Sys2Proof.Machine.execVor f s
  | .vxor f => Sys2Proof.Machine.execVxor f s
  | .vshl f => Sys2Proof.Machine.execVshl f s
  | .vshr f => Sys2Proof.Machine.execVshr f s
  | .vcmp f => Sys2Proof.Machine.execVcmp f s
  | .vsel f => Sys2Proof.Machine.execVsel f s
  | .vcvt f => Sys2Proof.Machine.execVcvt f s
  | .vsfu f => Sys2Proof.Machine.execVsfu f s
  | .vscale f => Sys2Proof.Machine.execVscale f s
  | .vdot4 f => Sys2Proof.Machine.execVdot4 f s
  | .viota f => Sys2Proof.Machine.execViota f s
  | .vsplat f => Sys2Proof.Machine.execVsplat f s
  | .vmovs f => Sys2Proof.Machine.execVmovs f s
  | .vins f => Sys2Proof.Machine.execVins f s
  | .vrotr f => Sys2Proof.Machine.execVrotr f s
  | .vrotc f => Sys2Proof.Machine.execVrotc f s
  | .vbcr f => Sys2Proof.Machine.execVbcr f s
  | .vbcc f => Sys2Proof.Machine.execVbcc f s
  | .vredr f => Sys2Proof.Machine.execVredr f s
  | .vredc f => Sys2Proof.Machine.execVredc f s
  | .vscanr f => Sys2Proof.Machine.execVscanr f s
  | .vtrn f => Sys2Proof.Machine.execVtrn f s
  | .vpermr f => Sys2Proof.Machine.execVpermr f s
  | .vcmx f => Sys2Proof.Machine.execVcmx f s
  | .vmask f => Sys2Proof.Machine.execVmask f s
  | .vld f => Sys2Proof.Machine.execVld f s
  | .vst f => Sys2Proof.Machine.execVst f s
  | .vgath f => Sys2Proof.Machine.execVgath f s
  | .vscat f => Sys2Proof.Machine.execVscat f s
  | .mldw f => Sys2Proof.Machine.execMldw f s
  | .mswap f => Sys2Proof.Machine.execMswap f s
  | .mfeed f => Sys2Proof.Machine.execMfeed f s
  | .mma f => Sys2Proof.Machine.execMma f s
  | .mmag f => Sys2Proof.Machine.execMmag f s
  | .mcfg f => Sys2Proof.Machine.execMcfg f s
  | .mdrain f => Sys2Proof.Machine.execMdrain f s
  | .mclr f => Sys2Proof.Machine.execMclr f s
  | .mstat f => Sys2Proof.Machine.execMstat f s
  | .cpy f => Sys2Proof.Machine.execCpy f s
  | .cpyg f => Sys2Proof.Machine.execCpyg f s
  | .cpys f => Sys2Proof.Machine.execCpys f s
  | .cpyx f => Sys2Proof.Machine.execCpyx f s
  | .cpymc f => Sys2Proof.Machine.execCpymc f s
  | .fill f => Sys2Proof.Machine.execFill f s
  | .pref f => Sys2Proof.Machine.execPref f s
  | .cscl f => Sys2Proof.Machine.execCscl f s
  | .permit f => Sys2Proof.Machine.execPermit f s
  | .hset f => Sys2Proof.Machine.execHset f s
  | .tladv f => Sys2Proof.Machine.execTladv f s
  | .send f => Sys2Proof.Machine.execSend f s
  | .recv f => Sys2Proof.Machine.execRecv f s
  | .loop f => Sys2Proof.Machine.execLoop f s
  | .loopx f => Sys2Proof.Machine.execLoopx f s
  | .strb f => Sys2Proof.Machine.execStrb f s
  | .strs f => Sys2Proof.Machine.execStrs f s
  | .strld f => Sys2Proof.Machine.execStrld f s
  | .stradv f => Sys2Proof.Machine.execStradv f s
  | .rotb f => Sys2Proof.Machine.execRotb f s
  | .brbs f => Sys2Proof.Machine.execBrbs f s
  | .eResultVisible c => Sys2Proof.Machine.execEResultVisible c s
  | .eLoadDataArrival c k bad => Sys2Proof.Machine.execELoadDataArrival c k bad s
  | .eLanding c => Sys2Proof.Machine.execELanding c s
  | .eLandingTimeout c => Sys2Proof.Machine.execELandingTimeout c s
  | .ePageWalk cl ctx va acc => Sys2Proof.Machine.execEPageWalk cl ctx va acc s
  | .ePhaseEnd  => Sys2Proof.Machine.execEPhaseEnd  s
  | .eLoadPathStart c => Sys2Proof.Machine.execELoadPathStart c s
  | .eFeedPathStart c => Sys2Proof.Machine.execEFeedPathStart c s
  | .eArrayPathStart c parity => Sys2Proof.Machine.execEArrayPathStart c parity s
  | .eMmaComplete c => Sys2Proof.Machine.execEMmaComplete c s
  | .eGlazeStart c => Sys2Proof.Machine.execEGlazeStart c s
  | .eGlazeComplete c => Sys2Proof.Machine.execEGlazeComplete c s
  | .eCsclLanding c => Sys2Proof.Machine.execECsclLanding c s
  | .eCopyStart c u => Sys2Proof.Machine.execECopyStart c u s
  | .eBteStart cl => Sys2Proof.Machine.execEBteStart cl s
  | .eCopyEnd id k => Sys2Proof.Machine.execECopyEnd id k s
  | .eMulticast id => Sys2Proof.Machine.execEMulticast id s
  | .eTladv c u => Sys2Proof.Machine.execETladv c u s
  | .eSendDeliver c u => Sys2Proof.Machine.execESendDeliver c u s
  | .eRecvTake c u => Sys2Proof.Machine.execERecvTake c u s
  | .eQueuePush q => Sys2Proof.Machine.execEQueuePush q s
  | .eTrapDeliver ctx => Sys2Proof.Machine.execETrapDeliver ctx s
  | .eShadowWrite c op tile => Sys2Proof.Machine.execEShadowWrite c op tile s
  | .eOpSwap c => Sys2Proof.Machine.execEOpSwap c s
  | .eOpComplete op => Sys2Proof.Machine.execEOpComplete op s
  | .eHandleRelease cl ctx h => Sys2Proof.Machine.execEHandleRelease cl ctx h s
  | .eChunkPageIn cl obj chunk bad => Sys2Proof.Machine.execEChunkPageIn cl obj chunk bad s
  | .eSliceDispatch c => Sys2Proof.Machine.execESliceDispatch c s
  | .eItemBoundary c => Sys2Proof.Machine.execEItemBoundary c s
  | .eBudget c => Sys2Proof.Machine.execEBudget c s
  | .ePreempt c => Sys2Proof.Machine.execEPreempt c s
  | .eHardStop c => Sys2Proof.Machine.execEHardStop c s
  | .eSliceSave c => Sys2Proof.Machine.execESliceSave c s
  | .eSliceRestore c slot => Sys2Proof.Machine.execESliceRestore c slot s
  | .eReplay c => Sys2Proof.Machine.execEReplay c s
  | .eSliceKill c => Sys2Proof.Machine.execESliceKill c s
  | .eKnead cl => Sys2Proof.Machine.execEKnead cl s
  | .eKneadMove cl k => Sys2Proof.Machine.execEKneadMove cl k s
  | .eW1 q => Sys2Proof.Machine.execEW1 q s
  | .eW2 q => Sys2Proof.Machine.execEW2 q s
  | .eW3 q => Sys2Proof.Machine.execEW3 q s
  | .eLoadWalk n j => Sys2Proof.Machine.execELoadWalk n j s
  | .eStoreWalk n j => Sys2Proof.Machine.execEStoreWalk n j s
  | .eInstStart l n => Sys2Proof.Machine.execEInstStart l n s
  | .eInstComplete n => Sys2Proof.Machine.execEInstComplete n s
  | .eHeartbeatSend  => Sys2Proof.Machine.execEHeartbeatSend  s
  | .eCeilingChange  => Sys2Proof.Machine.execECeilingChange  s
  | .eSilenceDetect chip => Sys2Proof.Machine.execESilenceDetect chip s
  | .eEviction chip => Sys2Proof.Machine.execEEviction chip s
  | .eJoinPoint chip => Sys2Proof.Machine.execEJoinPoint chip s
  | .eJoinTimeout  => Sys2Proof.Machine.execEJoinTimeout  s
  | .eDeparture chip => Sys2Proof.Machine.execEDeparture chip s
  | .eCompletionWrite q => Sys2Proof.Machine.execECompletionWrite q s
  | .eSchedWatchdog  => Sys2Proof.Machine.execESchedWatchdog  s
  | .cLoad h addr len => Sys2Proof.Machine.execCLoad h addr len s
  | .cUnload h obj force => Sys2Proof.Machine.execCUnload h obj force s
  | .cCtxnew h addr => Sys2Proof.Machine.execCCtxnew h addr s
  | .cCtxkill h ctx => Sys2Proof.Machine.execCCtxkill h ctx s
  | .cMap h ctx obj => Sys2Proof.Machine.execCMap h ctx obj s
  | .cUnmap h ctx obj => Sys2Proof.Machine.execCUnmap h ctx obj s
  | .cLaunch h ctx addr obj => Sys2Proof.Machine.execCLaunch h ctx addr obj s
  | .cRelease h ctx rec => Sys2Proof.Machine.execCRelease h ctx rec s
  | .cUnstop h ctx => Sys2Proof.Machine.execCUnstop h ctx s
  | .cLimit h code => Sys2Proof.Machine.execCLimit h code s
  | .cAttest h nonce => Sys2Proof.Machine.execCAttest h nonce s
  | .lNop w r => Sys2Proof.Machine.execLNop w r s
  | .lLoop w r => Sys2Proof.Machine.execLLoop w r s
  | .lEndloop w r => Sys2Proof.Machine.execLEndloop w r s
  | .lBrk w r => Sys2Proof.Machine.execLBrk w r s
  | .lIf w r => Sys2Proof.Machine.execLIf w r s
  | .lElse w r => Sys2Proof.Machine.execLElse w r s
  | .lEndif w r => Sys2Proof.Machine.execLEndif w r s
  | .lCall w r => Sys2Proof.Machine.execLCall w r s
  | .lRet w r => Sys2Proof.Machine.execLRet w r s
  | .lLaunch w r => Sys2Proof.Machine.execLLaunch w r s
  | .lSyncchild w r => Sys2Proof.Machine.execLSyncchild w r s
  | .lConst w r => Sys2Proof.Machine.execLConst w r s
  | .lSop w r => Sys2Proof.Machine.execLSop w r s
  | .lScmp w r => Sys2Proof.Machine.execLScmp w r s
  | .lSel w r => Sys2Proof.Machine.execLSel w r s
  | .lDim w r => Sys2Proof.Machine.execLDim w r s
  | .lIdx w r => Sys2Proof.Machine.execLIdx w r s
  | .lAlloc w r => Sys2Proof.Machine.execLAlloc w r s
  | .lFree w r => Sys2Proof.Machine.execLFree w r s
  | .lView w r => Sys2Proof.Machine.execLView w r s
  | .lLoad w r => Sys2Proof.Machine.execLLoad w r s
  | .lStore w r => Sys2Proof.Machine.execLStore w r s
  | .lRelayout w r => Sys2Proof.Machine.execLRelayout w r s
  | .lCast w r => Sys2Proof.Machine.execLCast w r s
  | .lPad w r => Sys2Proof.Machine.execLPad w r s
  | .lConcat w r => Sys2Proof.Machine.execLConcat w r s
  | .lMatmul w r => Sys2Proof.Machine.execLMatmul w r s
  | .lConv w r => Sys2Proof.Machine.execLConv w r s
  | .lEwu w r => Sys2Proof.Machine.execLEwu w r s
  | .lEwb w r => Sys2Proof.Machine.execLEwb w r s
  | .lEwt w r => Sys2Proof.Machine.execLEwt w r s
  | .lReduce w r => Sys2Proof.Machine.execLReduce w r s
  | .lSoftmax w r => Sys2Proof.Machine.execLSoftmax w r s
  | .lNorm w r => Sys2Proof.Machine.execLNorm w r s
  | .lRope w r => Sys2Proof.Machine.execLRope w r s
  | .lAttn w r => Sys2Proof.Machine.execLAttn w r s
  | .lGather w r => Sys2Proof.Machine.execLGather w r s
  | .lScatter w r => Sys2Proof.Machine.execLScatter w r s
  | .lTopk w r => Sys2Proof.Machine.execLTopk w r s
  | .lSort w r => Sys2Proof.Machine.execLSort w r s
  | .lPermute w r => Sys2Proof.Machine.execLPermute w r s
  | .lCumsum w r => Sys2Proof.Machine.execLCumsum w r s
  | .lStage w r => Sys2Proof.Machine.execLStage w r s
  | .lEndstage w r => Sys2Proof.Machine.execLEndstage w r s
  | .lQdecl w r => Sys2Proof.Machine.execLQdecl w r s
  | .lQpush w r => Sys2Proof.Machine.execLQpush w r s
  | .lQpop w r => Sys2Proof.Machine.execLQpop w r s
  | .lWalk w r => Sys2Proof.Machine.execLWalk w r s
  | .lAred w r => Sys2Proof.Machine.execLAred w r s
  | .lAgath w r => Sys2Proof.Machine.execLAgath w r s
  | .lRscat w r => Sys2Proof.Machine.execLRscat w r s
  | .lA2a w r => Sys2Proof.Machine.execLA2a w r s
  | .lTsend w r => Sys2Proof.Machine.execLTsend w r s
  | .lTrecv w r => Sys2Proof.Machine.execLTrecv w r s
  | .lUop w r => Sys2Proof.Machine.execLUop w r s
  | .lFence w r => Sys2Proof.Machine.execLFence w r s
  | .lWaith w r => Sys2Proof.Machine.execLWaith w r s
  | .lAssert w r => Sys2Proof.Machine.execLAssert w r s
  | .eLoadFeedEnd c feed => Sys2Proof.Machine.execELoadFeedEnd c feed s
  | .eZeroFill cl ctx h => Sys2Proof.Machine.execEZeroFill cl ctx h s
  | .eClampRelease  => Sys2Proof.Machine.execEClampRelease  s
  | .eUncorrectable f => Sys2Proof.Machine.execEUncorrectable f s
  | .eInstKill n => Sys2Proof.Machine.execEInstKill n s
  | .eLimit f => Sys2Proof.Machine.execELimit f s
  | .eHeartbeat f => Sys2Proof.Machine.execEHeartbeat f s
  | .eSilent f => Sys2Proof.Machine.execESilent f s
  | .eSuspect f => Sys2Proof.Machine.execESuspect f s
  | .eLeave f => Sys2Proof.Machine.execELeave f s
  | .eJoinReq f => Sys2Proof.Machine.execEJoinReq f s
  | .eJoinGrant f align table => Sys2Proof.Machine.execEJoinGrant f align table s
  | .eEvict f => Sys2Proof.Machine.execEEvict f s
  | .eBadFlit f => Sys2Proof.Machine.execEBadFlit f s
  | .eLinkFail chip d h => Sys2Proof.Machine.execELinkFail chip d h s
  | .ePowerEval tmaxC10 pmeas => Sys2Proof.Machine.execEPowerEval tmaxC10 pmeas s
  | .eClamp cause => Sys2Proof.Machine.execEClamp cause s
  | .eThermtrip  => Sys2Proof.Machine.execEThermtrip  s
  | .eChipReset images => Sys2Proof.Machine.execEChipReset images s
  | .eRecoveryFrame off total data => Sys2Proof.Machine.execERecoveryFrame off total data s
  | .eIsolationFault fc addr acc => Sys2Proof.Machine.execEIsolationFault fc addr acc s
  | .eMailboxPost sender m data => Sys2Proof.Machine.execEMailboxPost sender m data s
  | .eMailboxPop fc k => Sys2Proof.Machine.execEMailboxPop fc k s
  | .eDbell q => Sys2Proof.Machine.execEDbell q s
  | .eBindWrite cl slot r => Sys2Proof.Machine.execEBindWrite cl slot r s
  | .eKncfgWrite cl v => Sys2Proof.Machine.execEKncfgWrite cl v s
  | .eRegWrite c reg v => Sys2Proof.Machine.execERegWrite c reg v s
  | .eFnFail fn => Sys2Proof.Machine.execEFnFail fn s
  | .eTestAccess ins => Sys2Proof.Machine.execETestAccess ins s
  | .eWdKick  => Sys2Proof.Machine.execEWdKick  s
  | .eFwdLaunch ctx words src obj seq => Sys2Proof.Machine.execEFwdLaunch ctx words src obj seq s
  | .eMemberDone l n killed => Sys2Proof.Machine.execEMemberDone l n killed s
  | .eBitternPush q item => Sys2Proof.Machine.execEBitternPush q item s
  | .eTlbInvalidate cl ctx va => Sys2Proof.Machine.execETlbInvalidate cl ctx va s
  | .eCtxOut ctx => Sys2Proof.Machine.execECtxOut ctx s
  | .eCtxIn ctx => Sys2Proof.Machine.execECtxIn ctx s
  | .eAlignMark chip diff => Sys2Proof.Machine.execEAlignMark chip diff s
  | .eCollComplete op remote => Sys2Proof.Machine.execECollComplete op remote s

end Sys2Proof.Machine
end

