-- ==== Sys2Proof/Machine/Issue.lean ====
section
/-! DEFINITION. One CCLK cycle of a core: the fetch of a bundle, its decode traps, its issue by the meanings of its slots, and what follows the
issue: streams, branches, loop ends, `OPEND`; and the end of a built-in tile (spec/07 R206 to R215, spec/08 R250 to R260, spec/11 R329, R330, spec/14 R418). -/
namespace Sys2Proof.Machine

/-! ### Fetch -/

/-- What a core's fetch finds: bytes from the bundle's first on, a wait (for a page walk, when one is named), or a trap. -/
inductive Fetched where
  | bytes (l : List Byte)
  | wait (want : Option (Nat × Nat × Nat × Nat))
  | trap (code : Nat) (detail : W64)
  deriving DecidableEq, Repr

/-- The bytes at a physical address, as many as the longest bundle has (R206). -/
def State.bundleAt (s : State) (pa : Nat) : List Byte := s.rdBytes pa 46

/-- The bytes of a text address of object n from its chunk's copy, once the cluster's routine store holds the chunk (R418). -/
def State.fetchChunk (s : State) (cl n : Nat) (o : Obj) (k off : Nat) : Fetched :=
  if (s.cluster cl).store.contains (n, k) then
    match (o.keys[k]?).bind s.chunkPA with
    | some pa => .bytes (s.bundleAt (pa + off))
    | none => .wait none
  else .wait none

/-- INSTRUCTION FETCH: the page needs X (R329); the bytes come from the routine store's chunk (R418), or, outside the object's text, from the
page (DEDUCED, log 16). -/
def State.fetch (s : State) (c n : Nat) (o : Obj) : Fetched :=
  let cl := clOf c
  let x := s.ctxOf c
  let pc := (s.sl c).pc.toNat
  match (s.cluster cl).tlb.find? (fun e => e.serves x pc 2) with
  | none => (match s.ctx? x with
    | none => .trap 0x13 (xlDetail pc 0 2)
    | some k => match s.walk k.root pc 2 with
      | .error (code, lv) => .trap code (xlDetail pc lv 2)
      | .ok _ => .wait (some (cl, x, pc, 2)))
  | some e => match o.chunkAt pc with
    | some k => s.fetchChunk cl n o k ((pc - o.textVA) % 4096)
    | none => .bytes (s.bundleAt (e.pa + pc % 2 ^ e.bits))

/-! ### The slots of a bundle (R210, R212, R215) -/

/-- How a bundle fares: it issues; it stalls, for a page walk when one is named; it traps in a slot, with the counter of free values then; or
a meaning stops the machine. -/
inductive Issued where
  | done (s : State)
  | stalled (want : Option (Nat × Nat × Nat × Nat))
  | trapped (slot code : Nat) (detail : W64) (hnd fresh : Nat)
  | stopped (o : Host.Outcome State Fault Refusal)

/-- The enabled slots in PM order, each on what the slots before it did. A slot that stalls stalls the bundle; else the first slot that traps
decides, and the slots after it are tried for a stall only (DEDUCED, log 15). -/
def runSlots (x0 : Slice) : List Slot → Option (Nat × Nat × W64 × Nat × Nat) → State → Issued
  | [], none, s => .done s
  | [], some (slot, code, d, h, f), _ => .trapped slot code d h f
  | k :: r, t, s =>
    if x0.enabled k.psel.toNat k.neg then
      match exec k.ins { s with iss := { s.iss with slot := k.bit, stat := .ok } } with
      | .next u => (match u.iss.stat with
        | .ok => runSlots x0 r t u
        | .stalled => .stalled u.iss.want
        | .trapped code d h => runSlots x0 r (t.or (some (k.bit, code, d, h, u.fresh))) s)
      | o => .stopped o
    else runSlots x0 r t s

/-- All of a bundle: `NOP` for the empty one (R207). -/
def runBundle (x0 : Slice) (b : Bundle) (s : State) : Issued :=
  match b.slots with
  | [] => runSlots x0 [⟨7, 0, false, .nop b.hnt⟩] none s
  | l => runSlots x0 l none s

/-! ### After the issue -/

/-- Post-increments: each use adds INC to OFF once (R260). -/
def Slice.advStrms (x : Slice) (uses : List Nat) : Slice :=
  uses.foldl (fun (x : Slice) (n : Nat) => x.updStrm n fun t => { t with off := t.off + BitVec.ofInt 64 t.inc.toInt }) x

/-- A taken `BR` or `JMP` (R258): every active level whose body excludes the target ends, with every higher one. -/
def Slice.branchLoops (x : Slice) (t : Nat) : Slice :=
  match [0, 1, 2, 3].find? fun l => (x.lv l).act && !decide ((x.lv l).start ≤ t ∧ t < (x.lv l).stop) with
  | none => x
  | some l => ([0, 1, 2, 3].filter fun k => l ≤ k).foldl Slice.dropLv x

/-- The check of a bundle's end (R257) over levels, highest first: the slice state, and the START that issues next. -/
def endLoops (stop : Nat) : List Nat → Slice → Slice × Option Nat
  | [], x => (x, none)
  | l :: r, x =>
    let v := x.lv l
    if v.act ∧ v.stop = stop then
      if 1 < v.lc then
        let y := x.setLv l { v with lc := v.lc - 1, idx := v.idx + 1 }
        (if v.rot then y.rotate l else y, some v.start)
      else endLoops stop r (x.dropLv l)
    else endLoops stop r x

/-- Where a bundle that has issued leads (R250, R256 to R258): the slice state and the next pc. -/
def Slice.follow (x : Slice) (o : Obj) (i : Iss) : Slice × W64 :=
  match i.br with
  | 0 => match endLoops i.npc.toNat [3, 2, 1, 0] x with
    | (y, some a) => (y, BitVec.ofNat 64 a)
    | (y, none) => (y, o.seqNext i.npc)
  | 1 => (x.branchLoops i.next.toNat, i.next)
  | _ => (x, i.next)

/-- The end of the running routine (R253): no loop level is active, g0 to g7 are false; its tile has ended; a pre-emption takes effect. -/
def State.endRoutine (s : State) (c : Nat) : State :=
  let t := s.updLop (s.recLop c) fun o => { o with live := o.live - 1 }
  t.updCore c fun k =>
    { k with sl := { k.sl with loops := [], gpreds := 0, orec := none }
             stopped := k.stopped || (match k.stop with
               | .preempt _ => true
               | _ => false) }

/-- Scale registers take the contents that become theirs at this tick (R374). -/
def Slice.newScales (x : Slice) : Slice :=
  { x with scale := x.scNew.foldl (fun (m : AMap ScReg) (p : Nat × ScReg) => m.upd p.1 p.2) x.scale, scNew := [] }

/-- The end of an issue tick (R212, R213): streams, scale registers, the next pc, `OPEND`, the tick. The bundle of an `OPEND` neither rotates nor
repeats a loop, and skips none: the next bundle is the next routine's first (R253). -/
def State.retire (s : State) (c : Nat) (o : Obj) : State :=
  let i := s.iss
  let t := s.updSl c fun x =>
    let y := (x.advStrms i.uses).newScales
    let p := if i.opend then (y, o.seqNext i.npc) else y.follow o i
    { p.1 with pc := p.2, tick := x.tick + 1 }
  let t := t.updCore c fun k => { k with issued := k.issued + 1, extra := k.extra + if i.opend then 0 else i.skip }
  { (if i.opend then t.endRoutine c else t) with iss := .idle }

/-- Registers after a built-in tile: whatever its routine left in them, free values from number n on (DESIGN CHOICE, log 9). -/
def Slice.freed (x : Slice) (n : Nat) : Slice :=
  { x with
    sreg := (List.range 55).foldl (fun m k => m.put 0 (k + 1) (Config.freeWord (n + k))) x.sreg
    vreg := (List.range 32).foldl (fun m k => m.put 0 k (BitVec.ofNat 32768 (Config.freeNat (n + k)))) x.vreg
    vmask := (List.range 7).foldl (fun m k => m.put 0 (k + 1) (BitVec.ofNat 1024 (Config.freeNat (n + 32 + k)))) x.vmask
    strms := (List.range 8).foldl (fun m k => m.put Strm.zero k (Strm.free (n + 64 + 8 * k))) x.strms
    preds := setBit8 ((Config.freeWord (n + 55)).setWidth 8) 0 false
    vrotb := (Config.freeWord (n + 56)).setWidth 4 }

/-- The end of a built-in tile on core c: the registers that its routine has used, its ticks, and its `OPEND` (R109, R253). -/
def State.endTile (s : State) (c : Nat) : State :=
  let n := Config.freeNat (s.fresh + 128) + 1
  let t := s.updCore c fun k => { k with issued := k.issued + n, sl := { (k.sl.freed s.fresh) with tick := k.sl.tick + n } }
  { (t.endRoutine c) with fresh := s.fresh + 129 }

/-- A TILE OF A BUILT-IN OPERATOR on core c (R109, R110, R472): its whole work, then its end. A trap leaves the tile to be tried again (R392); an
engine's fault is recorded, and the tile ends (R370). The fields of these records that name a bundle, a slot or a timeline are free (DESIGN CHOICE,
log 9). -/
def State.runTile (s : State) (c : Nat) (q : OpRec) : State :=
  match s.lops.find q.lop with
  | none => s
  | some o =>
    let (res, t) := (tileWork q.lop o c ((q.words.getD 1 0).toNat % 2 ^ 32)).run.run s
    let free := fun (k : Nat) => Config.freeNat (s.fresh + k)
    match res with
    | .ok (some (code, d)) => { (s.takeTrap c (free 0 % 8) code d 0xFFFF (s.sl c).pc) with fresh := s.fresh + 1 }
    | .ok none => t.endTile c
    | .error (code, d) =>
      { (t.engTrap (s.ctxOf c) c (free 0 % 8) code q.words none q.entry d (free 1 % 16) (free 2)) with fresh := s.fresh + 3 }.endTile c

/-- A precise trap at fetch or decode (R211): the slot field is the slot's or 7. -/
def State.fetchTrap (s : State) (c slot code : Nat) (d : W64) : State :=
  { (s.takeTrap c slot code d 0xFFFF (s.sl c).pc) with fresh := s.fresh + 1 }

/-- What a bundle's fate makes of the state before it. -/
def State.settleIssue (s : State) (c : Nat) (o : Obj) : Issued → Host.Outcome State Fault Refusal
  | .done t => .next (t.retire c o)
  | .stalled w => .next { s with iss := { s.iss with want := w } }
  | .trapped slot code d h f => .next { (s.takeTrap c slot code d h (s.sl c).pc) with fresh := f }
  | .stopped q => q

/-- ISSUE: the bundle at the pc of core c is fetched, decoded whole and issued. A decode trap's detail word is free (DESIGN CHOICE, log 4). -/
def State.issue (s : State) (c n : Nat) (o : Obj) : Host.Outcome State Fault Refusal :=
  let x := s.sl c
  match s.fetch c n o with
  | .wait w => .next { s with iss := { s.iss with want := w } }
  | .trap code d => .next (s.fetchTrap c 7 code d)
  | .bytes l => match decodeBundle ((x.pc.toNat - o.textVA) % 4096) l with
    | .error (.illegalOp slot) => .next (s.fetchTrap c slot 0x01 (Config.freeWord s.fresh))
    | .error (.illegalRsvd slot) => .next (s.fetchTrap c slot 0x02 (Config.freeWord s.fresh))
    | .ok b =>
      s.settleIssue c o (runBundle x b
        { s with iss := { Iss.idle with core := c, pc := x.pc, npc := x.pc + BitVec.ofNat 64 b.size } })

/-! ### A core's cycle -/

/-- Whether a core has a bundle to issue: a slice that is not stopped runs a routine. -/
def Core.runs (k : Core) : Bool := k.live && k.sl.orec.isSome

/-- Whether a core is frozen in this cycle: by a chip-scratchpad unit in transition (R327), or by a due load's data (R330). -/
def State.frozen (s : State) (k : Core) : Bool :=
  s.ccyc < k.frzUntil || (k.extra == 0 && k.sl.dueLand.any fun l => !l.here)

/-- A cycle of core c: frozen, on its way to the next bundle or to the end of a built-in tile, or an issue. A bundle is never split over two fetch
cycles: R2 names such a split and no rule says when one happens (DESIGN CHOICE, log 30). -/
def State.coreTurn (s : State) (c : Nat) : Host.Outcome State Fault Refusal :=
  let k := s.core c
  let t := { s with turn := c + 1 }
  if s.frozen k then .next (t.setCore c { k with frz := k.frz + 1, frzRun := k.frzRun + 1, froze := true })
  else if 0 < k.extra then .next (t.setCore c { k with extra := k.extra - 1, frzRun := 0 })
  else match k.sl.orec with
    | none => .next t
    | some r =>
      let u := t.setCore c { k with frzRun := 0 }
      if r.builtin then .next (u.runTile c r)
      else match s.objs.find r.obj with
        | none => .next t
        | some o => u.issue c r.obj o

/-- The next core that has its turn in this cycle. -/
def State.nextCore (s : State) : Option Nat := (s.cores.find? fun p => s.turn ≤ p.1 && p.2.runs).map (·.1)

end Sys2Proof.Machine
end

