-- ==== Sys2Proof/Machine/Events.lean ====
section
/-! DEFINITION. What happens next outside the cores' issue: the first due event, the sequencer's next record, the internal steps of the control
complex and of collectives, and the end of a CCLK cycle (DESIGN CHOICE, log 3: one order among those that the spec leaves open). -/
namespace Sys2Proof.Machine

/-! ### Events of the chip -/

/-- Due events of the group, power and the control complex (R194 to R201, R431, R438, R445, R393). -/
def State.chipEvent (s : State) : Option Instr :=
  let g := s.group
  let chips := g.tbl.map (·.1)
  if s.ceilDue then some .eCeilingChange
  else if s.clampDue then some .eClampRelease
  else if s.phaseEnd ≠ 0 ∧ s.phaseEnd ≤ s.ccyc then some .ePhaseEnd
  else if s.joinLate then some .eJoinTimeout
  else if s.beatDue then some .eHeartbeatSend
  else if s.watchdogDue then some .eSchedWatchdog
  else (chips.find? s.joinDue).map .eJoinPoint
    <|> (chips.find? s.departDue).map .eDeparture
    <|> (chips.find? s.evictDue).map .eEviction
    <|> ((g.nbrs.map (·.chip) ++ [g.chip]).find? s.silenceDue).map .eSilenceDetect
    <|> (s.traps.find? s.trapDue).map (fun r => .eTrapDeliver r.ctx)
    <|> (s.ctl.compl.find? fun c => s.complDue c.queue).map (fun c => .eCompletionWrite c.queue)

/-! ### Events of a core -/

/-- What the oldest due landing of a core has come to: its write, or the timeout of the freeze that waits for it (R330, R332). -/
def Core.landEvent (k : Core) (c : Nat) (l : Land) : Option Instr :=
  if l.here then some (.eLanding c) else if 2 ^ 20 ≤ k.frzRun then some (.eLandingTimeout c) else none

/-- Results and landings of a core in issue order, arrivals, a freeze's end (R213, R330 to R332, R374). -/
def Core.resultEvent (now c : Nat) (k : Core) : Option Instr :=
  let x := k.sl
  match x.lands.find? fun l => !l.here && l.arrAt + (if k.frzRun = 0 then 0 else 1) ≤ now with
  | some l => some (.eLoadDataArrival c l.key false)
  | none =>
    if (x.duePend Wr.isScale).isSome then some (.eCsclLanding c)
    else match x.dueWr, x.dueLand with
      | some w, some l => if w.key ≤ l.key then some (.eResultVisible c) else k.landEvent c l
      | some _, none => some (.eResultVisible c)
      | none, some l => k.landEvent c l
      | none, none => none

/-- Ends and starts on the matrix engine's paths (R305, R322). While a slice waits to be saved nothing starts, but for a gang's `MMAG`
(R394, R315). A drain that starts in the cycle of a tick at which scale registers change starts after the tick (R374). -/
def State.matrixEvent (s : State) (c : Nat) (k : Core) : Option Instr :=
  let mx := k.sl.mx
  let past := fun (p : Nat) => mx.ops.any fun o => o.path == p && o.over k.ncyc
  let go := !k.saving || mx.ops.any fun o => o.blocks && o.start.isNone
  let start := fun (p : Nat) => go && (s.nextStart c p).isSome
  if mx.ops.isEmpty ∧ mx.replay = false then none
  else if past 0 then some (.eLoadFeedEnd c false)
  else if past 1 then some (.eLoadFeedEnd c true)
  else if mx.ops.any fun o => o.path == 2 && o.start.isSome && decide (o.done < k.ncyc) then some (.eMmaComplete c)
  else if past 3 then some (.eGlazeComplete c)
  else if mx.replay && !mx.ops.any MOp.again then some (.eReplay c)
  else if start 0 then some (.eLoadPathStart c)
  else if start 1 then some (.eFeedPathStart c)
  else if start 2 then some (.eArrayPathStart c none)
  else if start 3 && (k.sl.scNew == [] || decide (c < s.turn) || !k.runs) then some (.eGlazeStart c)
  else none

/-- The head of a copy unit, when it may start or end (R356, R377, R381). -/
def State.unitEvent (s : State) (c u : Nat) : Option Instr :=
  match s.unitHead c u with
  | none => none
  | some e => match e.work with
    | .tladv _ _ => if s.tladvDue e then some (.eTladv c u) else none
    | .send _ _ _ _ _ => if s.sendDue e then some (.eSendDeliver c (.unit u)) else none
    | .recv _ _ _ => if s.recvDue e then some (.eRecvTake c u) else none
    | _ => if s.copyDue c u then some (.eCopyStart c u) else none

/-- The slice of a core: kill, budget, stop, save, swap, end, restore, pre-emption by an RT record (R109, R161 to R163, R394). -/
def State.sliceEvent (s : State) (c : Nat) (k : Core) : Option Instr :=
  match k.run with
  | none => if k.move.isSome then some (.eKneadMove (clOf c) (c % 16)) else none
  | some r =>
    if k.sl.id = 0 then
      match (s.cluster (clOf c)).binds.find r.slot with
      | some b => (s.savedOf b r.ctx).map fun q => .eSliceRestore c q.idx
      | none => none
    else if k.stop = .kill then (if k.inGang then none else some (.eSliceKill c))
    else if k.live && k.budget == 0 && k.frzRun == 0 then some (.eBudget c)
    else match k.stop with
      | .preempt t =>
        if k.stopped = false ∧ t + 4096 ≤ s.ccyc ∧ k.frzRun = 0 then some (.eHardStop c)
        else if s.saveDue c then some (.eSliceSave c)
        else if s.swapDue c then some (.eOpSwap c) else none
      | .none =>
        if s.rtDue c then some (.ePreempt c)
        else if s.swapDue c then some (.eOpSwap c) else none
      | .finish => if s.boundaryDue c then some (.eItemBoundary c) else none
      | .again => if s.boundaryDue c then some (.eItemBoundary c) else none
      | _ => if s.saveDue c then some (.eSliceSave c) else none

/-- The first due event of a core. -/
def State.coreEvent (s : State) (p : Nat × Core) : Option Instr :=
  let mx := p.2.sl.mx
  if (2 ≤ mx.act.perr ∨ 2 ≤ mx.shd.perr) ∧ p.2.fenced = false then some (.eUncorrectable (.core p.1 3))
  else p.2.resultEvent s.ccyc p.1 <|> s.matrixEvent p.1 p.2 <|> s.unitEvent p.1 0 <|> s.unitEvent p.1 1 <|> s.sliceEvent p.1 p.2

/-! ### Events of engines, queues, handles and the sequencer -/

/-- Ends of engine operations, multicast landings, starts of a block-transfer engine (R366, R370, R371). -/
def State.engineEvent (s : State) : Option Instr :=
  s.eops.findSome? fun e =>
    match e.work with
    | .multi _ _ _ => if !e.ended && decide (e.endAt ≤ s.ccyc) then some (.eMulticast e.id) else none
    | _ => if s.endDue e then some (.eCopyEnd e.id .ok)
      else if e.unit = 2 ∧ s.bteDue (clOf e.core) = true then some (.eBteStart (clOf e.core)) else none

/-- Arrivals at queues and the watchdog's ladder (R142, R167). -/
def State.queueEvent (s : State) : Option Instr :=
  s.queues.findSome? fun p =>
    if p.2.flyAt.any (· ≤ s.ccyc) then some (.eQueuePush p.1)
    else if p.2.wDue 1 then some (.eW1 p.1)
    else if p.2.wDue 2 then some (.eW2 p.1)
    else if p.2.wDue 3 then some (.eW3 p.1) else none

/-- A chunk that a cluster's routine store is to page in, and can (R418). -/
def State.pageEvent (s : State) (cl : Nat) : Option Instr :=
  match s.pageDue cl, s.storeRoom cl with
  | some (n, k), some l => match s.objs.find n with
    | some o => if o.fenced = false ∧ l.contains (n, k) = false ∧ ((o.keys[k]?).bind s.chunkPA).isSome = true then
        some (.eChunkPageIn cl n k false) else none
    | none => none
  | _, _ => none

/-- Handles to be freed or filled, chunks, Knead's decision and instances to start, of a cluster (R101, R105, R164, R171). -/
def State.clusterEvent (s : State) (p : Nat × Cluster) : Option Instr :=
  let cl := p.1
  let hs := p.2.hnd.findSome? fun e =>
    let ctx := e.1 / 4096
    let h := e.1 % 4096
    if e.2.zeroAt.any (· ≤ s.ccyc) then some (Instr.eZeroFill cl ctx h)
    else if e.2.st = 3 ∧ e.2.wait.all s.opDone = true then some (.eHandleRelease cl ctx h) else none
  let knead := if s.kneadDue cl && (s.pipes cl != [] || (List.range 16).any fun l => (s.core (16 * cl + l)).hold != 0) then
    some (Instr.eKnead cl) else none
  let start := p.2.binds.findSome? fun b =>
    let n := b.2.inst / 2 ^ 24
    let i := b.2.inst % 2 ^ 24
    if b.2.ok ∧ s.startDue n i = true then some (Instr.eInstStart n i) else none
  hs <|> s.pageEvent cl <|> knead <|> start

/-- Instances that complete, their tile-walk engines (R155 to R157, R171). -/
def State.instEvent (s : State) : Option Instr :=
  s.insts.findSome? fun p =>
    if s.instDue p.1 p.2 then some (.eInstComplete p.1)
    else p.2.ewalks.findSome? fun e =>
      if s.loadAct p.2 e.2 ≠ 0 then some (.eLoadWalk p.1 e.1)
      else if s.storeAct p.2 e.2 ≠ 0 then some (.eStoreWalk p.1 e.1) else none

/-- Operators that complete, tiles whose record enters a shadow bank (R65, R109). -/
def State.opEvent (s : State) : Option Instr :=
  s.lops.findSome? fun p =>
    if s.lopDue p.1 p.2 then some (.eOpComplete p.1)
    else p.2.tiles.findSome? fun t => if s.shadowDue t.2.1 p.1 t.1 p.2 then some (.eShadowWrite t.2.1 p.1 t.1) else none

/-- THE FIRST DUE EVENT, a page walk that a bundle waits for before all others. -/
def State.dueEvent (s : State) : Option Instr :=
  match s.iss.want with
  | some (cl, x, va, acc) => some (.ePageWalk cl x va acc)
  | none =>
    s.chipEvent <|> s.cores.findSome? s.coreEvent <|> s.engineEvent <|> s.queueEvent <|> s.opEvent <|> s.clusters.findSome? s.clusterEvent
      <|> s.instEvent

/-! ### The sequencer -/

/-- The state after an instruction, when it answers a next one that differs. -/
def State.change (s : State) (o : Host.Outcome State Fault Refusal) : Option State :=
  match o with
  | .next t => if t = s then none else some t
  | _ => none

/-- The record that walk w reaches next, as its instruction of that walk (R49). -/
def State.recordOf (s : State) (w : Nat) : Option Instr := (s.nextRec w).bind fun i =>
  (recParts i).bind fun p => opsL w p.2 p.1.toNat

/-- The sequencers' next step: the first walk's record whose dispatch conditions hold (R65, R66). -/
def State.seqStep (s : State) : Option State :=
  s.walks.findSome? fun p => (s.recordOf p.1).bind fun i => s.change (exec i s)

/-! ### Decision points (R152, R161) -/

/-- The first running slice at an item boundary, among cores from `a` on. -/
def State.boundaryAt (s : State) (a : Nat) : Option Nat :=
  (s.cores.find? fun p => a ≤ p.1 && (match p.2.stop with
    | .none => true
    | .preempt _ => true
    | _ => false) && s.boundaryDue p.1).map (·.1)

/-- The first idle core with a record to take, among cores from `a` on. -/
def State.dispatchAt (s : State) (a : Nat) : Option Nat :=
  s.clusters.findSome? fun p => if p.2.binds = [] then none else
    ((List.range 16).find? fun l => a ≤ 16 * p.1 + l && s.dispatchDue (16 * p.1 + l)).map (16 * p.1 + ·)

/-- THE NEXT DECISION POINT of the cycle: the reservations of one cycle are served in ascending COREID, so a core below one that has decided waits for
the next cycle (R152). -/
def State.decision (s : State) : Option (Nat × Instr) :=
  match s.boundaryAt s.decided, s.dispatchAt s.decided with
  | some a, some b => if a < b then some (a, .eItemBoundary a) else some (b, .eSliceDispatch b)
  | some a, none => some (a, .eItemBoundary a)
  | none, some b => some (b, .eSliceDispatch b)
  | none, none => none

/-! ### Internal steps -/

/-- The first waiting command that can be taken up: no earlier one of its queue waits (R431, R438). -/
def State.waitStep (s : State) : Option (Host.Outcome State Fault Refusal) :=
  let l := s.ctl.wait
  ((List.range l.length).findSome? fun n => (l[n]?).bind fun i =>
    if s.waitReady i && (cmdHdr i).all fun h => !(l.take n).any (ofQueue h.queue) then some (n, i) else none).map fun p =>
      exec p.2 { s with ctl := { s.ctl with wait := l.eraseIdx p.1 } }

/-- A collective all of whose data is on this chip (R179). -/
def State.collStep (s : State) : Option State :=
  s.lops.findSome? fun p => if p.2.kind = 2 then s.change (execECollComplete p.1 [] s) else none

/-- A memory-resident queue of a resident context whose image is behind (R145): the Bittern agent brings it up to date. -/
def State.imageStep (s : State) : Option State :=
  s.queues.findSome? fun p => if p.2.phys ∨ p.2.image = 0 then none else s.change (.next (s.imageSync p.2))

/-- The internal steps: queue images, command packets, waiting commands, a context's switch-out, an instance of a fenced object, tiles
that pass to another core, a fusing group's decision, a collective. -/
def State.innerStep (s : State) : Option (Host.Outcome State Fault Refusal) :=
  s.imageStep.map .next <|> s.parseStep.map .next <|> s.waitStep <|> (s.outDue.map fun x => .next (s.finishOut x)) <|> (s.fencedDue.map fun i => .next (s.killInst i))
    <|> s.killDue.map .next
    <|> s.passStep.map .next
    <|> s.fuseStep.map .next
    <|> s.collStep.map .next

/-- An input from outside: a command of a queue with waiting commands waits behind them. -/
def State.takeInput (s : State) (i : Instr) : Host.Outcome State Fault Refusal :=
  if (cmdHdr i).any fun h => s.ctl.wait.any (ofQueue h.queue) then .next { s with ctl := { s.ctl with wait := s.ctl.wait ++ [i] } }
  else exec i s

/-! ### The end of a cycle -/

/-- A core at the end of a cycle: its own clock unless it was frozen (R305), its budget (R162). -/
def Core.nextCycle (k : Core) : Core :=
  { k with ncyc := if k.froze then k.ncyc else k.ncyc + 1, froze := false, budget := if k.live then k.budget - 1 else k.budget }

/-- CCYC and GCYC advance; so do the cores' clocks and budgets, and the timers of the queues' watchdogs (R16, R167). -/
def State.nextCycle (s : State) : State :=
  { s with
    ccyc := s.ccyc + 1
    gcyc := s.gcyc + 1
    turn := 0
    decided := 0
    cores := s.cores.map fun (p : Nat × Core) => (p.1, p.2.nextCycle)
    queues := s.queues.map fun (p : Nat × Queue) => if s.wdtRuns p.1 p.2 then (p.1, { p.2 with wdt := p.2.wdt + 1 }) else p }

/-- What no input decides: an internal step, the first due event, a record of the sequencers, a core's decision point, a core's cycle, the end of the
cycle. -/
def State.work (s : State) : Host.Outcome State Fault Refusal :=
  match s.innerStep with
  | some o => o
  | none => match s.dueEvent with
    | some i => exec i s
    | none => match s.seqStep with
      | some t => .next t
      | none => match s.decision with
        | some (c, i) => exec i { s with decided := c }
        | none => match s.nextCore with
          | some c => s.coreTurn c
          | none => .next s.nextCycle

/-! ### A machine about to fetch (DESIGN CHOICE, log 2) -/

/-- Where the object of a machine about to fetch stands, and its context. -/
def placeObj (n : Nat) : Obj :=
  { funcs := [], consts := [], rtab := [], textVA := 0, textPA := 0, textLen := 4096, keys := [n], constVA := 0, constPA := 0, constLen := 0,
    dataVA := 0, dataPA := 0, dataLen := 0, dataSize := 0, nhstat := 0, hbase := 0, mmrev := 0, name := 0, unload := false, fenced := false,
    badOnce := [] }

/-- The slice and the core of a machine about to fetch: pc 0, a routine of object n. -/
def placeCore (k : Core) (n : Nat) : Core :=
  { k with sl := { Slice.zero with id := 1, orec := some ⟨[], 0, n, 0⟩ }, run := some Run.zero, stop := .none, stopped := false,
           budget := 2 ^ 32 - 1, frzUntil := 0, extra := 0, frzRun := 0, fenced := false, move := none, hold := 0 }

/-- Text bytes at physical address 0 as object n's only chunk, in cluster 0's routine store behind an executable page of context 0, and a
slice of core 0 at its first bundle; no input waits. -/
def State.placeText (s : State) (l : List Byte) : State :=
  let n := s.ids
  let s := s.wrBytes 0 l
  let s := s.updCl 0 fun k => { k with tlb := ⟨0, 0, 12, 0, 4, 0, false⟩ :: k.tlb, store := (n, 0) :: k.store }
  let s := s.updCore 0 fun k => placeCore k n
  { s with objs := s.objs.upd n (placeObj n), chunks := ⟨n, 0, 1, false⟩ :: s.chunks, ids := n + 1, inbox := [], iss := .idle, turn := 0 }

end Sys2Proof.Machine
end

