-- ==== Sys2Proof/Machine/Step.lean ====
section
/-! DEFINITION. One step of the chip: the oldest input from outside, else what the chip does next (DESIGN CHOICE, log 3). -/
namespace Sys2Proof.Machine

/-- One step. After THERMTRIP the compute dies have no power (R446). -/
def step (s : State) : Host.Outcome State Fault Refusal :=
  if s.power.trip then .fault .powerRemoved
  else match s.inbox with
    | i :: r => State.takeInput { s with inbox := r } i
    | [] => s.work

/-- A state whose next step fetches and runs the instruction whose bits are w (DESIGN CHOICE, log 2). -/
def State.withFetchWord (s : State) (nbits w : Nat) : State := s.placeText (toBytes (w % 2 ^ nbits) 46)

end Sys2Proof.Machine
end

