-- ==== Sys2Proof/Safety.lean ====
section
/-! DEFINITION. The terms in which statements speak of the machine: runs, the canonical memory, what a slot's work answers, the state with a
result scheduled, and the states after a stall and after a precise trap. -/
namespace Sys2Proof.Machine

/-- n steps lead from s to t, each to a next state. -/
def Reaches : Nat → State → State → Prop
  | 0, s, t => s = t
  | n + 1, s, t => ∃ u, step s = .next u ∧ Reaches n u t

/-- The machine goes on for n steps. -/
def Runs (n : Nat) (s : State) : Prop := ∃ t, Reaches n s t

/-- Memory stands in its canonical form. -/
def State.MemOk (s : State) : Prop := Memory.wf s.mem = true

/-- The work m of a slot answers v and leaves t. -/
def Gives {α : Type} (m : SlotM α) (s : State) (v : α) (t : State) : Prop := m.run s = .ok (v, t)

/-- The work m of a slot stops for a reason. -/
def Stops {α : Type} (m : SlotM α) (s : State) (r : Stop) : Prop := m.run s = .error r

/-- s with a result of latency `lat` of the issuing slot scheduled (R213); nothing for a discarded one. -/
def State.plan (s : State) (lat : Nat) (w : Option Wr) : State :=
  match w with
  | none => s
  | some w => s.updSl s.iss.core fun x => { x with pend := x.pend ++ [⟨x.tick + lat, 8 * x.tick + s.iss.slot, w⟩] }

/-- s with counter events scheduled beside a result (R42). -/
def State.planCnt (s : State) (lat sat trn : Nat) : State := if sat = 0 ∧ trn = 0 then s else s.plan lat (some (.count 0 0 sat trn))

/-- s with a vector result scheduled: `fs` gives each element's container and count from its SR addend, `m` enables the elements, `u` is the
unit, whose lanes begin at 1,024·u (R270, R271). -/
def State.planV (s : State) (lat d : Nat) (m : VMask) (u mode : Nat) (fs : List (Nat → Nat × Nat)) : State :=
  let x := s.sl s.iss.core
  let w := vbuild mode (1024 * u) m fs 0 x
  ((s.updSl s.iss.core fun _ => w.2.2).plan lat (some (.vreg (x.phys d) m (BitVec.ofNat 32768 w.1)))).planCnt lat w.2.1 0

/-- s with the issuing core's slice state changed at once. -/
def State.onSl (s : State) (f : Slice → Slice) : State := s.updSl s.iss.core f

/-- The issuing core's slice state. -/
def State.me (s : State) : Slice := s.sl s.iss.core

/-- s when the slot that issues stalls its bundle (R212). -/
def State.stallNext (s : State) : State := { s with iss := { s.iss with stat := .stalled } }

/-- s when the slot that issues takes a precise trap (R215, R390). -/
def State.trapNext (s : State) (code : Nat) (detail : W64) (hnd : Nat) : State :=
  let t := s.takeTrap s.iss.core s.iss.slot code detail hnd s.iss.pc
  { t with iss := { t.iss with stat := .trapped code detail hnd }, fresh := t.fresh + 1 }

/-- s when the slot that issues waits for a page walk (R329). -/
def State.walkNext (s : State) (cl ctx va acc : Nat) : State := { s with iss := { s.iss with stat := .stalled, want := some (cl, ctx, va, acc) } }

/-- Landing-buffer entries that a core's slice holds, scalar or vector (R330). -/
def State.held (s : State) (vec : Bool) : Nat := (s.me.lands.filter fun l => l.vec == vec).length

/-- s with a load of the issuing slot in flight: its entry, and the cycle at which its data arrives, a free one within the bound of a memory
that answers (R330 to R332). -/
def State.landNext (s : State) (vec : Bool) (arr bound : Nat) (va : W64) (pages : List Nat) (w : Option Wr) : State :=
  { s with fresh := s.fresh + 1 }.onSl fun x => { x with lands := x.lands ++
    [(⟨x.tick + arr, 8 * x.tick + s.iss.slot, vec, arr, s.ccyc + 1 + arrivesIn s.fresh bound, false, false, va, pages, s.iss.pc,
      w.getD (.sreg 0 0)⟩ : Land)] }

/-- s with the issuing core changed at once. -/
def State.onCore (s : State) (f : Core → Core) : State := s.updCore s.iss.core f

/-- The context of the issuing core's slice may use the chip scratchpad (R326). -/
def State.chipUser (s : State) : Prop := ∃ x, s.ctx? (s.ctxOf s.iss.core) = some x ∧ x.cso = true

/-- s with a transfer of control taken by the issuing slot: 2 CCLK cycles pass (R250). -/
def State.jumped (s : State) (kind : Nat) (t : W64) : State :=
  { s with iss := { s.iss with br := kind, next := t } }.onCore fun k => { k with extra := k.extra + 2 }

end Sys2Proof.Machine
end

