-- ==== Sys2Proof/WellFormed.lean ====
section
/-! DEFINITION. Well-formed instructions: the field checks of spec/07 R211 step 3 hold. -/
namespace Sys2Proof

/-- The instruction passes its decode checks (R211). -/
def Instr.WellFormed (i : Instr) : Prop := Machine.fieldsOk i = true

end Sys2Proof
end

