-- ==== Sys2Proof/Certificates/Slice0/Obligations.lean ====
section
/-! DEFINITION. The statements about this machine, each with the rules that it rests on. -/
open Sys2Proof Sys2Proof.Machine

namespace Sys2Proof.Claims

/-- Executing i at s answers v with value x of latency `lat` scheduled for scalar register d; every form of destination (R12, R213). -/
def Yields (i : Instr) (s v : State) (d : Nat) (x : W64) (lat : Nat) : Prop :=
  ∀ w t, Gives (destS d x) v w t → exec i s = .next (t.plan lat w)

end Sys2Proof.Claims

open Sys2Proof.Claims


namespace Sys2Proof.Claims

/-- Executing i at s takes the unit for `occ` cycles and schedules, for every enabled element, g of its three containers and its SR addend. -/
def Elementwise (i : Instr) (f : VR) (s : State) (occ lat mode : Nat) (g : Nat → Nat → Nat → Nat → Nat × Nat) : Prop :=
  ∀ u w, Gives (useVU occ lat) s u w → exec i s = .next (w.planV lat f.d.toNat (s.me.mget f.m.toNat) u mode
    (vidx.map fun k r => g ((s.me.vget f.a.toNat).elem k) ((s.me.vget f.b.toNat).elem k) ((s.me.vget f.c.toNat).elem k) r))

/-- Executing i at s schedules, for every element that mask register m enables, the container that g gives for its index. -/
def Moves (i : Instr) (s : State) (occ lat d m : Nat) (g : Nat → Nat) : Prop :=
  ∀ u w, Gives (useVU occ lat) s u w → exec i s = .next (w.planV lat d (s.me.mget m) u 0 (vidx.map fun k _ => (g k, 0)))

end Sys2Proof.Claims

namespace Sys2Proof.Claims

/-- t is u with an instruction entered in a matrix path of the issuing core under the next number of slice timeline k. -/
def Entered (u t : State) (path k : Nat) (w : MWork) : Prop :=
  (t.me.tl k).iss = (u.me.tl k).iss + 1 ∧ (t.me.tl k).val = (u.me.tl k).val ∧
  (∃ o, t.me.mx.ops = u.me.mx.ops ++ [o] ∧ o.path = path ∧ o.num = (u.me.tl k).iss + 1 ∧ o.start = none ∧ o.work = w) ∧
  t.mem = u.mem ∧ t.me.sreg = u.me.sreg ∧ t.me.vreg = u.me.vreg ∧ t.me.mx.ring = u.me.mx.ring ∧ t.me.mx.act = u.me.mx.act ∧
  t.me.mx.shd = u.me.mx.shd ∧ t.iss.pc = u.iss.pc ∧ t.iss.stat = u.iss.stat

/-- The control view of a matrix engine: what instructions check at issue. -/
def View (m : Matrix) := (m.slots, m.opnt, m.cpnt, m.dpnt, m.vAct, m.vShd, (m.vCls0, m.vCls1, m.vLog0, m.vLog1, m.cfg, m.bias))

end Sys2Proof.Claims

namespace Sys2Proof.Claims

/-- t is u with an operation of the issuing slot waiting in a unit under a timeline and its number. -/
def Copied (u t : State) (unit tl num : Nat) (hnd : Option Nat) (w : CWork) : Prop :=
  (∃ e ∈ t.eops, e.core = u.iss.core ∧ e.slot = u.iss.slot ∧ e.ctx = u.ctxOf u.iss.core ∧ e.unit = unit ∧ e.tl = tl ∧ e.num = num ∧ e.hnd = hnd ∧
    e.ended = false ∧ e.bytes = 0 ∧ e.work = w) ∧ t.eops.length = u.eops.length + 1 ∧
  t.mem = u.mem ∧ t.me.sreg = u.me.sreg ∧ t.me.vreg = u.me.vreg ∧ t.queues = u.queues ∧ t.iss.stat = u.iss.stat

/-- The unit of the issuing slot, and whether it has room for another operation (R356). -/
def unitOf (s : State) : Nat := (s.core s.iss.core).copyUnit s.iss.slot
def Room (s : State) : Prop := s.unitHeld s.iss.core (unitOf s) < 8

end Sys2Proof.Claims

/-- Scalar operands and destinations (R12, R213, R214, spec/08 "Scalar registers"): s0 reads zero and discards, s1 to s55 read their value at the
start of the tick and take a result, a queue port gives one item to every read of a bundle, and an output port takes a push into room reserved
at issue, or stalls its bundle when the queue is full. -/
def Obligations.ScalarOperandForms : Prop :=
  ∀ (s : State) (r k : Nat) (v : W64),
    Gives (rdS 0) s 0 s ∧ Gives (destS 0 v) s none s ∧
    (0 < r → r < 56 → Gives (rdS r) s (AMap.get 0 s.me.sreg r) s ∧ Gives (destS r v) s (some (.sreg r v)) s) ∧
    (s.iss.pops.find k = some v → Gives (rdS (56 + k)) s v s) ∧
    (∀ q n w x i rest, s.iss.pops.find k = none → s.portOf s.iss.core k = some (q, 2, n) → s.me.walk = some w → s.queues.find q = some x →
      takeItem 0 x.items = some (i, rest) →
      ∃ t, Gives (rdS (56 + k)) s i t ∧ t.queues.find q = some { x with items := rest, head := x.head + 1, wdt := 0, wstep := 0 } ∧
        t.iss.pops.find k = some i ∧ t.mem = s.mem) ∧
    (∀ q n w x, s.iss.pops.find k = none → s.portOf s.iss.core k = some (q, 2, n) → s.me.walk = some w → s.queues.find q = some x →
      takeItem 0 x.items = none → Stops (rdS (56 + k)) s .stall) ∧
    (∀ q n w x, s.portOf s.iss.core k = some (q, 3, n) → s.me.walk = some w → s.queues.find q = some x → x.kind ≠ 2 → x.kind ≠ 3 →
      (x.full = false → ∃ t, Gives (destS (56 + k) v) s (some (.port q v)) t ∧ t.queues.find q = some { x with room := x.room + 1 } ∧
        t.mem = s.mem) ∧
      (x.full = true → Stops (destS (56 + k) v) s .stall)) ∧
    (s.iss.pops.find k = none → s.portOf s.iss.core k = none → Stops (rdS (56 + k)) s (.trap 0x61 (qpDetail 0 k 2) 0xFFFF) ∧
      Stops (destS (56 + k) v) s (.trap 0x61 (qpDetail 0 k 2) 0xFFFF))

/-- The integer instructions of R239 that no value traps, with R249's latencies: the result of sA and src2 is scheduled for sD, and nothing else
changes but what reading and naming a queue port changes. -/
def Obligations.IntegerResults : Prop :=
  ∀ (f : SA) (s u v : State) (a b : W64), Gives (rdS f.a.toNat) s a u → Gives (src2 f) u b v →
    Yields (.add f) s v f.d.toNat (a + b) 1 ∧ Yields (.sub f) s v f.d.toNat (a - b) 1 ∧
    Yields (.mul f) s v f.d.toNat (a * b) 3 ∧
    (f.fn = 0 → Yields (.mulh f) s v f.d.toNat (BitVec.ofInt 64 (Int.fdiv (a.toInt * b.toInt) (2 ^ 64))) 3) ∧
    (f.fn = 1 → Yields (.mulh f) s v f.d.toNat (BitVec.ofNat 64 (a.toNat * b.toNat / 2 ^ 64)) 3) ∧
    (f.fn = 2 → Yields (.mulh f) s v f.d.toNat (BitVec.ofInt 64 (Int.fdiv (a.toInt * b.toNat) (2 ^ 64))) 3) ∧
    Yields (.and f) s v f.d.toNat (a &&& b) 1 ∧ Yields (.or f) s v f.d.toNat (a ||| b) 1 ∧ Yields (.xor f) s v f.d.toNat (a ^^^ b) 1 ∧
    Yields (.shl f) s v f.d.toNat (BitVec.ofNat 64 (if b.toNat < 64 then a.toNat * 2 ^ b.toNat else 0)) 1 ∧
    Yields (.shr f) s v f.d.toNat (BitVec.ofNat 64 (if b.toNat < 64 then a.toNat / 2 ^ b.toNat else 0)) 1 ∧
    Yields (.sra f) s v f.d.toNat (BitVec.ofInt 64 (Int.fdiv a.toInt (2 ^ Nat.min b.toNat 64 : Nat))) 1 ∧
    (f.fn = 0 → Yields (.min f) s v f.d.toNat (if b.toInt < a.toInt then b else a) 1 ∧
      Yields (.max f) s v f.d.toNat (if a.toInt < b.toInt then b else a) 1) ∧
    (f.fn = 1 → Yields (.min f) s v f.d.toNat (if b.toNat < a.toNat then b else a) 1 ∧
      Yields (.max f) s v f.d.toNat (if a.toNat < b.toNat then b else a) 1)

/-- `DIV` and `REM` (R239, R249): they take the divider when it is free and stall their bundle when it is not; a zero divisor raises ARITH with the
divisor's register number; else the quotient truncated toward zero, and the remainder, are scheduled with latency 20. -/
def Obligations.DivideResults : Prop :=
  ∀ (f : SA) (s : State), let k := s.core s.iss.core
    (k.ncyc < k.divFree → exec (.div f) s = .next s.stallNext ∧ exec (.rem f) s = .next s.stallNext) ∧
    (k.divFree ≤ k.ncyc → ∀ u v a b,
      Gives (rdS f.a.toNat) (s.setCore s.iss.core { k with divFree := k.ncyc + 20 }) a u → Gives (src2 f) u b v →
      (b = 0 → exec (.div f) s = .next (s.trapNext 0x04 (BitVec.ofNat 64 (src2Num f)) 0xFFFF) ∧
        exec (.rem f) s = .next (s.trapNext 0x04 (BitVec.ofNat 64 (src2Num f)) 0xFFFF)) ∧
      (b ≠ 0 → f.fn = 0 → Yields (.div f) s v f.d.toNat (BitVec.ofInt 64 (a.toInt.tdiv b.toInt)) 20 ∧
        Yields (.rem f) s v f.d.toNat (BitVec.ofInt 64 (a.toInt.tmod b.toInt)) 20) ∧
      (b ≠ 0 → f.fn = 1 → Yields (.div f) s v f.d.toNat (BitVec.ofNat 64 (a.toNat / b.toNat)) 20 ∧
        Yields (.rem f) s v f.d.toNat (BitVec.ofNat 64 (a.toNat % b.toNat)) 20))

/-- Counts, bit fields, constants, compares, selection and predicate logic (R239 to R244): the result, and its register or predicate. The
values of the shared integer functions (R239, R240, R242): leading and trailing zeros, an inserted field bit by bit, the conditions. -/
def Obligations.CountFieldAndCompareResults : Prop :=
  (∀ (f : SA) (s u : State) (a : W64), Gives (rdS f.a.toNat) s a u →
    Yields (.clz f) s u f.d.toNat (clzFn f.fn.toNat a) 1 ∧
    Yields (.popc f) s u f.d.toNat (BitVec.ofNat 64 ((List.range 64).filter fun i => a.getLsbD i).length) 1 ∧
    (∀ v p n, Gives (bitField f) u (p, n) v →
      (f.fn = 0 → Yields (.extb f) s v f.d.toNat (BitVec.ofNat 64 (a.toNat / 2 ^ p % 2 ^ n)) 1) ∧
      (f.fn = 1 → Yields (.extb f) s v f.d.toNat (BitVec.ofInt 64 (sext (a.toNat / 2 ^ p % 2 ^ n) n)) 1) ∧
      (∀ md c b w x, f.src = .reg md c b → Gives (rdS c.toNat) v x w → Yields (.insb f) s w f.d.toNat (insbFn p n a x) 1) ∧
      (∀ xi i w x, f.src = .imm xi i → Gives (rdS f.d.toNat) v x w → Yields (.insb f) s w f.d.toNat (insbFn p n x a) 1)) ∧
    (∀ v b, Gives (src2 f) u b v →
      (f.fn.getLsbD 3 = false → Yields (.cmp f) s v f.d.toNat (if cmpCond (f.fn.toNat % 8) a b then 1 else 0) 1) ∧
      (f.fn.getLsbD 3 = true → exec (.cmp f) s = .next (v.plan 1 (some (.pred f.d.toNat (cmpCond (f.fn.toNat % 8) a b))))) ∧
      Yields (.sel f) s v f.d.toNat (if v.me.pget (f.fn.toNat % 8) != f.fn.getLsbD 3 then a else b) 1) ∧
    (∀ g : SI, Yields (.movi g) s s g.d.toNat (siImm g) 1) ∧
    exec (.plog f) s = .next (s.plan 1 (some (.pred f.d.toNat
      (plogFn f.fn.toNat (s.me.pget (f.a.toNat % 16)) (s.me.pget (fieldB f % 16))))))) ∧
  ((∀ fn, clzFn fn 0 = 64) ∧
  (∀ a : W64, a ≠ 0 → (clzFn 0 a).toNat ≤ 63 ∧ 2 ^ (63 - (clzFn 0 a).toNat) ≤ a.toNat ∧ a.toNat < 2 ^ (64 - (clzFn 0 a).toNat)) ∧
  (∀ a : W64, a ≠ 0 → a.getLsbD (clzFn 1 a).toNat = true ∧ ∀ i, i < (clzFn 1 a).toNat → a.getLsbD i = false) ∧
  (∀ p n i base (val : W64), p + n ≤ 64 → i < 64 →
    (insbFn p n base val).getLsbD i = if p ≤ i ∧ i < p + n then val.getLsbD (i - p) else base.getLsbD i) ∧
  (∀ a b : W64, (cmpCond 0 a b = true ↔ a = b) ∧ (cmpCond 1 a b = true ↔ a ≠ b) ∧ (cmpCond 2 a b = true ↔ a.toInt < b.toInt) ∧
    (cmpCond 3 a b = true ↔ a.toInt ≤ b.toInt) ∧ (cmpCond 4 a b = true ↔ b.toInt < a.toInt) ∧ (cmpCond 5 a b = true ↔ b.toInt ≤ a.toInt) ∧
    (cmpCond 6 a b = true ↔ a.toNat < b.toNat) ∧ (cmpCond 7 a b = true ↔ a.toNat ≤ b.toNat)))

/-- Scalar floating point (R245 to R249, R34): each result is the exact one rounded once under the mode, on lane 2,688 under SR, and is scheduled with
its latency; `.DIV` and `.SQRT` take the divider; compares write 1 or 0. -/
def Obligations.ScalarFloatResults : Prop :=
  ∀ (f : SA) (s : State), let ty := modTy (modOf f); let rnd := modRnd (modOf f)
    (∀ u v w a b, f.fn ≠ 3 → f.fn.toNat < 6 → Gives (rdF ty f.a.toNat) s a u → Gives (rdF ty (fieldB f)) u b v →
      w = v.onSl (fun x => (x.addend (x.mode rnd) 2688).2) →
      Yields (.fop f) s w f.d.toNat (BitVec.ofNat 64 (roundTo ty (v.me.mode rnd) (v.me.addend (v.me.mode rnd) 2688).1 false
        (fopFn f.fn.toNat (v.me.mode rnd == 2) a b)).1) 4) ∧
    (∀ u v a, f.fn = 7 ∨ f.fn = 8 → Gives (rdF ty f.a.toNat) s a u → v = u.onSl (fun x => (x.addend (x.mode rnd) 2688).2) →
      Yields (.fop f) s v f.d.toNat (BitVec.ofNat 64 (roundTo ty (u.me.mode rnd) (u.me.addend (u.me.mode rnd) 2688).1 false
        (if f.fn = 7 then a.abs else a.negate)).1) 4) ∧
    (∀ u v a b, 9 ≤ f.fn.toNat → Gives (rdF ty f.a.toNat) s a u → Gives (rdF ty (fieldB f)) u b v →
      Yields (.fop f) s v f.d.toNat (if numCond (f.fn.toNat - 9) a b then 1 else 0) 4) ∧
    (∀ k, k = s.core s.iss.core → f.fn = 3 ∨ f.fn = 6 → k.ncyc < k.divFree → exec (.fop f) s = .next s.stallNext) ∧
    (∀ k z u v a b, k = s.core s.iss.core → k.divFree ≤ k.ncyc → z = s.setCore s.iss.core { k with divFree := k.ncyc + 12 } →
      Gives (rdF ty f.a.toNat) z a u →
      (f.fn = 3 → Gives (rdF ty (fieldB f)) u b v →
        Yields (.fop f) s (v.onSl fun x => (x.addend (x.mode rnd) 2688).2) f.d.toNat (BitVec.ofNat 64
          (roundTo ty (v.me.mode rnd) (v.me.addend (v.me.mode rnd) 2688).1 false (a.div b)).1) 12) ∧
      (f.fn = 6 →
        Yields (.fop f) s (u.onSl fun x => (x.addend (x.mode rnd) 2688).2) f.d.toNat (BitVec.ofNat 64
          (roundTo ty (u.me.mode rnd) (u.me.addend (u.me.mode rnd) 2688).1 false (fsqrt a)).1) 12)) ∧
    (∀ md c b u v w x y z, f.src = .reg md c b → Gives (rdF ty f.a.toNat) s x u → Gives (rdF ty b.toNat) u y v →
      Gives (rdF ty c.toNat) v z w →
      Yields (.fma f) s (w.onSl fun q => (q.addend (q.mode rnd) 2688).2) f.d.toNat (BitVec.ofNat 64
        (roundTo ty (w.me.mode rnd) (w.me.addend (w.me.mode rnd) 2688).1 false
          ((if 2 ≤ f.fn.toNat then (x.mul y).negate else x.mul y).add (w.me.mode rnd == 2)
            (if f.fn.toNat % 2 = 1 then z.negate else z))).1) 4) ∧
    (∀ u a r w t, Gives (rdF f.fn.toNat f.a.toNat) s a u →
      r = roundTo (fieldB f % 16) (u.me.mode rnd) (u.me.addend (u.me.mode rnd) 2688).1 (u.me.sat (modEs (modOf f))) a →
      Gives (destS f.d.toNat (widen (fieldB f % 16) r.1)) (u.onSl fun x => (x.addend (x.mode rnd) 2688).2) w t →
      exec (.fcvt f) s = .next ((t.plan 3 w).planCnt 3 (if r.2 then 1 else 0) 0))

/-- The checks of a scalar access in their order, and its flat address (R325, R326, R328, R355): privilege, range, a fenced core, alignment, then
translation; a global access with a cached translation takes it, one without waits for its page walk or takes the fault that the walk finds. -/
def Obligations.ScalarAddressChecks : Prop :=
  ∀ (s : State) (a : W64) (w : BitVec 2) (acc : Nat), let n := accBytes w; let c := s.iss.core
    (a.toNat + n ≤ 2 ^ 21 → a.toNat % n = 0 → Gives (addrS 0 a n acc) s (padKey c a.toNat) s) ∧
    (2 ^ 21 < a.toNat + n → Stops (addrS 0 a n acc) s (.trap 0x10 (memDetail 0 a.toNat 0) 0xFFFF)) ∧
    (a.toNat + n ≤ 2 ^ 25 → a.toNat % n = 0 → (s.core (16 * clOf c + a.toNat / 2 ^ 21)).fenced = false →
      Gives (addrS 1 a n acc) s (padKey (16 * clOf c) a.toNat) s) ∧
    (2 ^ 25 < a.toNat + n → Stops (addrS 1 a n acc) s (.trap 0x10 (memDetail 1 a.toNat 0) 0xFFFF)) ∧
    (a.toNat + n ≤ 2 ^ 25 → (s.core (16 * clOf c + a.toNat / 2 ^ 21)).fenced = true →
      Stops (addrS 1 a n acc) s (.trap 0x12 (BitVec.ofNat 64 (a.toNat / 2 ^ 21)) 0xFFFF)) ∧
    (¬ s.chipUser → Stops (addrS 2 a n acc) s (.trap 0x03 1 0xFFFF)) ∧
    (s.chipUser → a.toNat + n ≤ 2 ^ 23 * s.chipS → a.toNat % n = 0 → s.phaseEnd ≤ s.ccyc →
      Gives (addrS 2 a n acc) s (chipKey a.toNat) s) ∧
    (s.chipUser → 2 ^ 23 * s.chipS < a.toNat + n → Stops (addrS 2 a n acc) s (.trap 0x10 (memDetail 2 a.toNat 0) 0xFFFF)) ∧
    (∀ sp, sp < 2 → a.toNat + n ≤ 2 ^ 21 → a.toNat % n ≠ 0 → sp = 0 ∨ (s.core (16 * clOf c)).fenced = false →
      Stops (addrS sp a n acc) s (.trap 0x11 (memDetail sp a.toNat 0) 0xFFFF)) ∧
    (2 ^ 52 < a.toNat + n → Stops (addrS 3 a n acc) s (.trap 0x10 (memDetail 3 a.toNat 0) 0xFFFF)) ∧
    (a.toNat + n ≤ 2 ^ 52 → a.toNat % n ≠ 0 → Stops (addrS 3 a n acc) s (.trap 0x11 (memDetail 3 a.toNat 0) 0xFFFF)) ∧
    (∀ e, a.toNat + n ≤ 2 ^ 52 → a.toNat % n = 0 →
      (s.cluster (clOf c)).tlb.find? (fun e => e.serves (s.ctxOf c) a.toNat acc) = some e →
      Gives (addrS 3 a n acc) s (e.pa + a.toNat % 2 ^ e.bits) s) ∧
    (∀ x, a.toNat + n ≤ 2 ^ 52 → a.toNat % n = 0 →
      (s.cluster (clOf c)).tlb.find? (fun e => e.serves (s.ctxOf c) a.toNat acc) = none → s.ctx? (s.ctxOf c) = some x →
      (∀ code lv, s.walk x.root a.toNat acc = .error (code, lv) →
        Stops (addrS 3 a n acc) s (.trap code (xlDetail a.toNat lv acc) 0xFFFF)) ∧
      (∀ p, s.walk x.root a.toNat acc = .ok p → Stops (addrS 3 a n acc) s (.walk (clOf c) (s.ctxOf c) a.toNat acc)))

/-- `LD`, `ST` and `LDK` (R344, R341, R330, R331): the address and its checks, the bytes in little-endian order, zero- or sign-extension,
the landing entry, and the trap when no entry is free. `ST` changes its n bytes and no other byte; a constant load reads its 8-byte unit
through the constant cache, whose entry or whose present contents may answer. `AMO` (R345, R330): one indivisible read and write of n
bytes; the old value lands, the new one is the function of the old, and no other byte changes. -/
def Obligations.LoadStoreAndAtomicEffects : Prop :=
  (∀ (f : SM) (s u v : State) (a : W64) (k : Nat), let n := accBytes f.w; Gives (smAddress f) s a u →
    (Gives (addrS f.sp.toNat a n 0) u k v → ∀ w t, Gives (destS f.d.toNat (extend (f.fn.getLsbD 0) n (v.rdN k n))) v w t →
      (t.held false < 32 → exec (.ld f) s = .next (t.landNext false f.arr.toNat (arrBound f.sp.toNat v.iss.core a.toNat 0) a
        (globalPages f.sp.toNat [a.toNat]) w)) ∧
      (32 ≤ t.held false → exec (.ld f) s = .next (s.trapNext 0x18 (BitVec.ofNat 64 (f.arr.toNat + 512)) 0xFFFF))) ∧
    (∀ x y, Gives (rdS f.d.toNat) u x y → Gives (addrS f.sp.toNat a n 1) y k v →
      exec (.st f) s = .next (v.wrN k n x.toNat) ∧ (v.wrN k n x.toNat).rdN k n = x.toNat % 2 ^ (8 * n) ∧
      ∀ b, b < k ∨ k + n ≤ b → (v.wrN k n x.toNat).rd8 b = s.rd8 b) ∧
    (Gives (addrS f.sp.toNat a n 3) u k v → ∀ z x, Gives (kread k) v z x → ∀ w t,
      Gives (destS f.d.toNat (extend (f.fn.getLsbD 0) n (bitsN z.toNat (8 * (k % 8)) (8 * n)))) x w t → t.held false < 32 →
      exec (.ldk f) s = .next (t.landNext false f.arr.toNat 1024 a (globalPages f.sp.toNat [a.toNat]) w) ∧
      (z.toNat = v.rdN (k / 8 * 8) 8 ∨ (v.core v.iss.core).kcache.find (k / 8) = some z) ∧ x.mem = v.mem)) ∧
  ((∀ (f : SQ) (s u v x y z : State) (a b d : W64) (k : Nat), let n := accBytes f.w
    Gives (rdS f.a.toNat) s a u → Gives (rdS f.b.toNat) u b v → (f.aop = 9 ∧ Gives (rdS f.d.toNat) v d x ∨ f.aop ≠ 9 ∧ d = 0 ∧ x = v) →
    Gives (addrS f.sp.toNat a n 4) x k y → ∀ w, Gives (destS f.d.toNat (BitVec.ofNat 64 (y.rdN k n))) y w z → z.held false < 32 →
    let new := amoFn f.aop.toNat n (y.rdN k n) (b.toNat % 2 ^ (8 * n)) (d.toNat % 2 ^ (8 * n))
    exec (.amo f) s = .next ((z.landNext false f.arr.toNat (arrBound f.sp.toNat y.iss.core a.toNat 2) a
      (globalPages f.sp.toNat [a.toNat]) w).wrN k n new) ∧
    ∀ e, e < k ∨ k + n ≤ e → (z.wrN k n new).rd8 e = s.rd8 e) ∧
  (∀ n m b d, let i := fun (v : Nat) => sext v (8 * n)
    amoFn 0 n m b d = (m + b) % 2 ^ (8 * n) ∧ i (amoFn 1 n m b d) = min (i m) (i b) ∧ i (amoFn 2 n m b d) = max (i m) (i b) ∧
    amoFn 3 n m b d = min m b ∧ amoFn 4 n m b d = max m b ∧
    (∀ j, (amoFn 5 n m b d).testBit j = (m.testBit j && b.testBit j) ∧ (amoFn 6 n m b d).testBit j = (m.testBit j || b.testBit j) ∧
      (amoFn 7 n m b d).testBit j = (m.testBit j ^^ b.testBit j)) ∧
    amoFn 8 n m b d = b ∧ (m = d → amoFn 9 n m b d = b) ∧ (m ≠ d → amoFn 9 n m b d = m)))

/-- Fences, constant-cache invalidation and the waits (R348 to R352): loads read and stores are performed at issue, so a fence waits for
nothing; a wait whose condition holds ends at once and one whose condition fails stalls its bundle. Instruction-cache locks (R354):
`ICUNL` releases the lines of its range or all of them; `ICLOCK` on a range whose pages are translated locks its lines, at most 128 in
all, and sets LOCKOVF for a line beyond that. -/
def Obligations.FencesWaitsAndLocks : Prop :=
  (∀ (f : SY) (s : State),
    (f.fn.getLsbD 2 = false → exec (.fence f) s = .next s) ∧
    (f.fn.getLsbD 2 = true → exec (.fence f) s = .next (s.onCore fun k => { k with kcache := [] })) ∧
    exec (.kinv f) s = .next (s.onCore fun k => { k with kcache := [] }) ∧
    (let ok := ∀ n lo, (n, lo) ∈ [((s.me.lands.filter fun l => !l.here).length, 0), (0, 4), (s.copiesOut s.iss.core, 8),
        (s.me.tl2.open_ + s.me.tl3.open_, 12)] → bitsN f.imm.toNat lo 4 = 15 ∨ n ≤ bitsN f.imm.toNat lo 4;
      (ok → exec (.waitc f) s = .next s) ∧ (¬ ok → exec (.waitc f) s = .next s.stallNext)) ∧
    (∀ n u, Gives (syBase f) s n u →
      (n.toNat ≤ u.tlVal u.iss.core f.fn.toNat → exec (.waittl f) s = .next u) ∧
      (u.tlVal u.iss.core f.fn.toNat < n.toNat → exec (.waittl f) s = .next s.stallNext) ∧
      (let e := u.handle (clOf u.iss.core) (u.ctxOf u.iss.core) n.toNat;
       (f.fn ≠ 2 → 4096 ≤ n.toNat → exec (.waith f) s = .next (s.trapNext 0x20 n 0xFFFF)) ∧
       (f.fn = 0 → n.toNat < 4096 → (e.st = 2 → exec (.waith f) s = .next u) ∧ (e.st ≠ 2 → exec (.waith f) s = .next s.stallNext)) ∧
       (f.fn = 1 → n.toNat < 4096 → (e.st = 0 → exec (.waith f) s = .next u) ∧ (e.st ≠ 0 → exec (.waith f) s = .next s.stallNext))) ∧
      (∀ g v, f.fn = 2 → Gives (rdS f.d.toNat) u g v → let e := v.handle (clOf v.iss.core) (v.ctxOf v.iss.core) n.toNat
        (4096 ≤ n.toNat → exec (.waith f) s = .next (s.trapNext 0x20 n 0xFFFF)) ∧
        (n.toNat < 4096 → e.st ≠ 2 → exec (.waith f) s = .next s.stallNext) ∧
        (n.toNat < 4096 → e.st = 2 → e.gen = g.toNat % 65536 → exec (.waith f) s = .next v) ∧
        (n.toNat < 4096 → e.st = 2 → e.gen ≠ g.toNat % 65536 →
          exec (.waith f) s = .next (s.trapNext 0x21 (BitVec.ofNat 64 (g.toNat % 65536)) n.toNat))))) ∧
  (∀ (f : SY) (s u : State) (a : W64), Gives (rdS f.a.toNat) s a u →
    (f.fn ≠ 1 → exec (.icunl f) s = .next (u.onCore fun k => { k with locks := [] })) ∧
    (f.fn = 1 → ∃ t, exec (.icunl f) s = .next t ∧ t.mem = u.mem ∧
      ∀ l, l ∈ (t.core s.iss.core).locks ↔ l ∈ (u.core u.iss.core).locks ∧ ¬ (a.toNat / 128 ≤ l ∧ l < a.toNat / 128 + f.imm.toNat)) ∧
    (a.toNat / 128 * 128 + 128 * f.imm.toNat ≤ 2 ^ 52 →
      (∀ l, a.toNat / 128 ≤ l → l < a.toNat / 128 + f.imm.toNat → ∃ e ∈ (u.cluster (clOf u.iss.core)).tlb,
        e.serves (u.ctxOf u.iss.core) (128 * l) 2 = true) →
      ∃ t, exec (.iclock f) s = .next t ∧ t.mem = u.mem ∧ (t.core s.iss.core).lockCtx = u.ctxOf u.iss.core ∧
        ((u.core u.iss.core).locks.length + f.imm.toNat ≤ 128 → (t.core s.iss.core).lockOvf = (u.core u.iss.core).lockOvf ∧
          ∀ l, l ∈ (t.core s.iss.core).locks ↔
            l ∈ (u.core u.iss.core).locks ∨ a.toNat / 128 ≤ l ∧ l < a.toNat / 128 + f.imm.toNat) ∧
        ((u.core u.iss.core).locks.length ≤ 128 → (t.core s.iss.core).locks.length ≤ 128)))

/-- Named barriers (R264, R353, R355): the identifier from the base and the immediate, the three reasons of BARRIER_RANGE, an arrival that is counted
and marked once per core, the stall of an arrival at a full barrier, and the wait that ends when every arrival has come and that empties the
barrier when the last core leaves. -/
def Obligations.BarrierEffects : Prop :=
  ∀ (f : SY) (s : State), let c := s.iss.core; let x := s.me.brb.toNat; let d := bitsN x 8 3 + 1; let rel := f.imm.toNat % 8
    let n := f.imm.toNat / 256; let id := (bitsN x 0 6 + (bitsN x 12 3 + rel) % d) % 64
    let b := AMap.get Bar.idle (s.cluster (clOf c)).bars (s.ctxOf c * 64 + id); let l := c % 16
    let bad := fun (i : Instr) (id r : Nat) => exec i s = .next (s.trapNext 0x08 (BitVec.ofNat 64 (f.imm.toNat + id * 2 ^ 16 + r * 2 ^ 22)) 0xFFFF)
    (d ≤ rel ∨ n = 0 → bad (.bara f) id 0 ∧ bad (.barw f) id 0) ∧
    (rel < d → 0 < n →
      (b.target ≠ 0 → b.target ≠ n → bad (.bara f) id 1 ∧ bad (.barw f) id 1) ∧
      (b.target = 0 ∨ b.target = n →
        (f.fn ≠ 1 → b.amask.getLsbD l = true → bad (.bara f) id 2) ∧
        (f.fn = 1 ∨ b.amask.getLsbD l = false →
          (b.target ≠ 0 → b.arrc = b.target → exec (.bara f) s = .next s.stallNext) ∧
          (b.target = 0 → b.arrc + 1 ≤ n → exec (.bara f) s = .next (s.setBar (clOf c) (s.ctxOf c) id
            { b with target := n, arrc := b.arrc + 1, amask := if f.fn = 1 then b.amask else b.amask ||| (1#16 <<< l) })) ∧
          (b.target = 0 → n < b.arrc + 1 → exec (.bara f) s = .next (s.setBar (clOf c) (s.ctxOf c) id
            { b with target := n, arrc := n, waiting := b.waiting + (b.arrc + 1 - n),
                     amask := if f.fn = 1 then b.amask else b.amask ||| (1#16 <<< l) })) ∧
          (b.target = n → b.arrc < n → exec (.bara f) s = .next (s.setBar (clOf c) (s.ctxOf c) id
            { b with arrc := b.arrc + 1, amask := if f.fn = 1 then b.amask else b.amask ||| (1#16 <<< l) }))) ∧
        (b.amask.getLsbD l = false → bad (.barw f) id 3) ∧
        (b.amask.getLsbD l = true →
          (b.arrc ≠ b.target → exec (.barw f) s = .next s.stallNext) ∧
          (b.arrc = b.target → b.amask &&& ~~~(1#16 <<< l) ≠ 0 → exec (.barw f) s = .next (s.setBar (clOf c) (s.ctxOf c) id
            { b with amask := b.amask &&& ~~~(1#16 <<< l) })) ∧
          (b.arrc = b.target → b.amask &&& ~~~(1#16 <<< l) = 0 → exec (.barw f) s = .next (s.setBar (clOf c) (s.ctxOf c) id
            { b with amask := 0, target := 0, arrc := b.waiting, waiting := 0 })))))

/-- Transfers of control (R250, R251, R258, R266): where each goes, the condition that a branch reads, BRANCH_RANGE at an address that is
no target, the link of a call and LOOP_NEST at a call that ends an active loop body; a branch that is not taken changes nothing. The
branch targets of an object's text and the address after a bundle (R209, R250): even addresses of the text other than a chunk's last two
bytes, which sequence skips. `NOP`, `YIELD`, `OPEND` and `TRAP` (R207, R252, R253, R254): nothing; a request that only a stage walk's
slice notes; the routine's end with its bundle; USER_TRAP, whose detail word is sD plus the immediate, at an instruction that names no
handle. -/
def Obligations.TransfersOfControl : Prop :=
  (∀ (f : SB) (s : State), let c := s.iss.core
    let ok := fun (v : State) (t : W64) => ∃ o, v.codeObj v.iss.core = some o ∧ o.target t = true
    let range := fun (i : Instr) (t : W64) => exec i s = .next (s.trapNext 0x05 t 0xFFFF)
    (∀ x u, Gives (rdS f.d.toNat) s x u → let t := u.iss.pc + w64 (sbOff f); let back := x + w64 (sbOff f)
      let cond := (f.fn = 0 ∧ x = 0) ∨ (f.fn = 1 ∧ x ≠ 0) ∨ (f.fn = 2 ∧ x.toInt < 0) ∨ (f.fn = 3 ∧ 0 ≤ x.toInt) ∨
        (f.fn = 4 ∧ 0 < x.toInt) ∨ (f.fn = 5 ∧ x.toInt ≤ 0);
      (f.fn.toNat < 6 → ¬ cond → exec (.br f) s = .next u) ∧
      (cond → ok u t → exec (.br f) s = .next (u.jumped 1 t)) ∧ (cond → ¬ ok u t → range (.br f) t) ∧
      (f.fn ≠ 0 → ok u back → exec (.jmp f) s = .next (u.jumped 1 back)) ∧ (f.fn ≠ 0 → ¬ ok u back → range (.jmp f) back) ∧
      (ok u x → exec (.ret f) s = .next (u.jumped 2 x)) ∧ (¬ ok u x → range (.ret f) x)) ∧
    (let t := s.iss.pc + w64 (sbOff f);
      (f.fn = 0 → ok s t → exec (.jmp f) s = .next (s.jumped 1 t)) ∧ (f.fn = 0 → ¬ ok s t → range (.jmp f) t) ∧
      (∀ o w v, endLevel s.me s.iss.npc = none → s.codeObj c = some o → o.target t = true →
        Gives (destS f.d.toNat (o.seqNext s.iss.npc)) (s.jumped 2 t) w v → exec (.call f) s = .next (v.plan 1 w)) ∧
      (endLevel s.me s.iss.npc = none → ¬ ok s t → range (.call f) t) ∧
      (∀ l, endLevel s.me s.iss.npc = some l → exec (.call f) s = .next (s.trapNext 0x06 (BitVec.ofNat 64 (2 + 16 * l)) 0xFFFF)))) ∧
  (∀ (o : Obj) (t : W64),
    (o.target t = true ↔ t.toNat % 2 = 0 ∧ o.textVA ≤ t.toNat ∧ t.toNat < o.textVA + o.textLen ∧ (t.toNat - o.textVA) % 4096 ≠ 4094) ∧
    ((t.toNat - o.textVA) % 4096 = 4094 → o.seqNext t = t + 2) ∧ ((t.toNat - o.textVA) % 4096 ≠ 4094 → o.seqNext t = t)) ∧
  (∀ (s : State) (h : BitVec 4) (f : SY) (g : SI),
    exec (.nop h) s = .next s ∧
    (s.me.walk = none → exec (.yield f) s = .next (s.onSl id)) ∧
    (s.me.walk ≠ none → exec (.yield f) s = .next (s.onSl fun x => { x with yield := true })) ∧
    (∃ t, exec (.opend f) s = .next t ∧ t.iss.opend = true ∧ { t with iss := s.iss } = s) ∧
    (∀ x u, Gives (rdS g.d.toNat) s x u → exec (.trap g) s = .next (s.trapNext 0x09 (x + siImm g) 0xFFFF)))

/-- Taking a precise trap (R390, R391, R392, R393): the slot is marked, its core stops with HELD and keeps its pc at the bundle, the context's sequence
number advances, and one record with the code, the operator's fields, the core, the slot, the bundle and the detail word is on its way;
memory and every other core keep their contents. -/
def Obligations.PreciseTrapEffects : Prop :=
  ∀ (s : State) (code hnd : Nat) (d : W64) (x : Ctx), let c := s.iss.core; let t := s.trapNext code d hnd
    s.ctxs.find (s.ctxOf c) = some x →
    t.iss.stat = .trapped code d hnd ∧ t.mem = s.mem ∧ (t.core c).stop = .held ∧ (t.core c).sl = s.me ∧
    (∀ k, k ≠ c → t.core k = s.core k) ∧ t.clusters = s.clusters ∧ t.queues = s.queues ∧
    t.ctxs.find (s.ctxOf c) = some { x with seq := x.seq + 1 } ∧
    ∃ r, t.traps = s.traps ++ [r] ∧ r.ctx = s.ctxOf c ∧ r.words.length = 8 ∧ r.err = toErr code ∧
      (∀ w, r.words[0]? = some w → w.toNat / 2 ^ 48 = code % 2 ^ 16 ∧ w.toNat / 2 ^ 32 % 2 ^ 16 = s.ctxOf c % 2 ^ 16 ∧
        w.toNat % 2 ^ 32 = recOff (s.recWords c)) ∧
      (∀ w, r.words[1]? = some w → w.toNat / 2 ^ 48 = recFunc (s.recWords c) ∧
        w.toNat % 2 ^ 32 = if s.recWords c = [] then 2 ^ 32 - 1 else recTile (s.recWords c)) ∧
      (∀ w, r.words[1]? = some w → hnd < 0xFFFF → w.toNat / 2 ^ 32 % 2 ^ 16 = hnd) ∧
      (∀ w, r.words[2]? = some w → w.toNat % 32 = (if toErr code then 5 else 1) ∧ w.toNat / 2 ^ 32 % 8 = s.iss.slot % 8 ∧ w.toNat / 2 ^ 40 % 256 = c % 256) ∧
      (∀ w, r.words[3]? = some w → w.toNat = s.iss.pc.toNat % 2 ^ 52) ∧ r.words[4]? = some d ∧
      (∀ w, r.words[7]? = some w → w.toNat = (x.seq + 1) % 2 ^ 64)

/-- `MFS` and `MTS` (R5, R30, R264, R387, R388): a read schedules the register's value after two ticks; a write that would change a bit
the context may not write takes PRIV, a rounding mode above 5 takes RSVD with a detail word that the rules leave open (log 4), a bad
barrier base takes BARRIER_RANGE, and any other is scheduled for the next tick. `PHASE` (R327, R389): it stalls during a transition, takes
PRIV without the scratchpad's ownership, MEM_RANGE above 24 with a detail word that the rules leave open (log 4), and 0x80 at a unit with
a live region; else the scratchpad has the new size, the moved units read as zero, and a transition of 4,096 cycles a unit and 2,048 more
begins. -/
def Obligations.SystemRegistersAndPhases : Prop :=
  (∀ (f : SY) (s : State), let reg := f.imm.toNat
    Yields (.mfs f) s s f.d.toNat (s.sysReg s.iss.core reg) 2 ∧
    (∀ v u, Gives (rdS f.a.toNat) s v u →
      ((v ^^^ u.sysReg u.iss.core reg) &&& ~~~rwMask reg ≠ 0 →
        exec (.mts f) s = .next (s.trapNext 0x03 (BitVec.ofNat 64 (3 + reg * 256)) 0xFFFF)) ∧
      ((v ^^^ u.sysReg u.iss.core reg) &&& ~~~rwMask reg = 0 →
        (reg = 0x13 → 6 ≤ v.toNat → exec (.mts f) s = .next (s.trapNext 0x02 (Config.freeWord u.fresh) 0xFFFF)) ∧
        (reg = 0x09 → bitsN v.toNat 8 3 < bitsN v.toNat 12 3 ∨ brbOk v.toNat = false →
          exec (.mts f) s = .next (s.trapNext 0x08 v 0xFFFF)) ∧
        (reg = 0x08 → exec (.mts f) s = .next (u.plan 1 (some (.vrotb (v.setWidth 4))))) ∧
        (reg = 0x09 → bitsN v.toNat 12 3 ≤ bitsN v.toNat 8 3 → brbOk v.toNat = true → exec (.mts f) s = .next (u.plan 1 (some (.brb v)))) ∧
        (reg ≠ 0x08 → reg ≠ 0x09 → reg ≠ 0x13 ∨ v.toNat < 6 → exec (.mts f) s = .next (u.plan 1 (some (.sys reg v))))))) ∧
  (∀ (f : SY) (s u : State) (v : W64), Gives (rdS f.a.toNat) s v u → let n := v.toNat
    (u.ccyc < u.phaseEnd → exec (.phase f) s = .next s.stallNext) ∧
    (u.phaseEnd ≤ u.ccyc →
      (¬ u.chipUser → exec (.phase f) s = .next (s.trapNext 0x03 2 0xFFFF)) ∧
      (u.chipUser → 24 < n → exec (.phase f) s = .next (s.trapNext 0x10 (Config.freeWord u.fresh) 0xFFFF)) ∧
      (∀ k, u.chipUser → n ≤ 24 → u.liveUnit n u.chipS = some k → exec (.phase f) s = .next (s.trapNext 0x80 (BitVec.ofNat 64 k) 0xFFFF)) ∧
      (u.chipUser → n ≤ 24 → u.liveUnit n u.chipS = none →
        (n = u.chipS → exec (.phase f) s = .next u) ∧
        (n ≠ u.chipS → ∃ t, exec (.phase f) s = .next t ∧ t.chipS = n ∧ t.phaseTo = n ∧
          t.phaseEnd = u.ccyc + 4096 * (max n u.chipS - min n u.chipS) + 2048 ∧ t.cores = u.cores ∧ t.clusters = u.clusters ∧
          (∀ a, 2 ^ 23 * min n u.chipS ≤ a → a < 2 ^ 23 * max n u.chipS → t.rd8 (chipKey a) = 0) ∧
          (∀ a, a < chipKey (2 ^ 23 * min n u.chipS) ∨ chipKey (2 ^ 23 * max n u.chipS) ≤ a → t.rd8 a = u.rd8 a)))))

/-- `LOOP` and `LOOPX` (R256, R258, R266): the five reasons of LOOP_NEST, the level that the set-up writes and the levels inside it that it ends, the
first iteration's stage predicates of a ROT loop, and the skipped body of a count of zero or less. -/
def Obligations.LoopSetUp : Prop :=
  ∀ (f : AL) (s u : State) (v : Int) (o : Obj), Gives (alCount f) s v u → u.codeObj u.iss.core = some o →
    let l := f.lv.toNat; let x := u.me; let start := o.seqNext u.iss.npc; let stop := u.pastBundles o (f.len.toNat + 1) start
    let n := if f.rot then f.ns.toNat + 1 else 1
    let nest := fun (r : Nat) => exec (.loop f) s = .next (s.trapNext 0x06 (BitVec.ofNat 64 (r + 16 * l)) 0xFFFF) ∧
      exec (.loopx f) s = .next (s.trapNext 0x06 (BitVec.ofNat 64 (r + 16 * l)) 0xFFFF)
    let rots := f.rot = true ∧ ∃ k, k < 4 ∧ k ≠ l ∧ (x.lv k).act = true ∧ (x.lv k).rot = true
    let inside := (x.lv l).act = true ∧ (x.lv l).start ≤ u.iss.pc.toNat ∧ u.iss.pc.toNat < (x.lv l).stop
    let out := ∃ k, k < l ∧ (x.lv k).act = true ∧ ¬ ((x.lv k).start ≤ start.toNat ∧ stop.toNat ≤ (x.lv k).stop)
    let same := fun (t : State) => t.mem = u.mem ∧ t.me.sreg = x.sreg ∧ t.me.preds = x.preds ∧ t.me.vreg = x.vreg ∧ t.me.strms = x.strms ∧
      (∀ k, k < l → t.me.lv k = x.lv k) ∧ ∀ k, l < k → k < 4 → (t.me.lv k).act = false ∧ (t.me.lv k).lc = 0 ∧ (t.me.lv k).idx = 0;
    (2 ^ 31 - 1 < v → nest 3) ∧ (v ≤ 2 ^ 31 - 1 → rots → nest 5) ∧ (v ≤ 2 ^ 31 - 1 → ¬ rots → inside → nest 4) ∧
    (v ≤ 2 ^ 31 - 1 → ¬ rots → ¬ inside → out → nest 1) ∧
    (v ≤ 2 ^ 31 - 1 → ¬ rots → ¬ inside → ¬ out →
      (0 < v → ∀ i xs, (i = .loop f ∧ xs = false) ∨ (i = .loopx f ∧ xs = true) →
        ∃ t, exec i s = .next t ∧ same t ∧ t.iss = u.iss ∧
          t.me.lv l = ⟨true, v.toNat + n - 1, 0, start.toNat, stop.toNat, f.rot, n, xs⟩ ∧
          (f.rot = true → t.me.gpreds = stagePreds n v.toNat 0) ∧ (f.rot = false → t.me.gpreds = x.gpreds)) ∧
      (v ≤ 0 → ∀ i, i = .loop f ∨ i = .loopx f →
        ∃ t, exec i s = .next t ∧ same t ∧ (t.me.lv l).act = false ∧ (t.me.lv l).lc = 0 ∧ (t.me.lv l).idx = 0 ∧
          (u.iss.br = 0 → t.iss.br ≠ 0 ∧ t.iss.next = o.seqNext stop) ∧
          (f.rot = true → t.me.gpreds = 0) ∧ (f.rot = false → t.me.gpreds = x.gpreds)))

/-- Streams (R259 to R262, R266): each instruction's change, the tick from which it is seen, and the traps of `STRLD`. A stream's use and
its current pointer (R259, R260): the sum of its parts, the terms of inactive and excluded levels left out, the space check, and the
post-increment that the bundle's end applies. `ROTB` and `BRBS` (R263, R264): the rotation base takes or adds the operand's low four bits; the
barrier base takes a well-formed value, and any other takes BARRIER_RANGE with the value. -/
def Obligations.StreamsAndBases : Prop :=
  (∀ (f : AS) (s u : State) (v : W64), Gives (asVal f) s v u → let n := f.strm.toNat; let a := v.toNat / 16 * 16
    exec (.strb f) s = .next (u.plan 1 (some (.strb n (f.fn == 1) (v.setWidth 52) f.sp))) ∧
    exec (.strs f) s = .next (u.plan 1 (some (.strs n (if f.fn = 1 then 4 else f.lv.toNat) (v.setWidth 32)))) ∧
    exec (.stradv f) s = .next (u.plan 1 (some (.stradv n (f.fn == 1) v))) ∧
    (2 ^ 21 < a + 48 → exec (.strld f) s = .next (s.trapNext 0x10 (memDetail 0 a 0) 0xFFFF)) ∧
    (a + 48 ≤ 2 ^ 21 → let w := (List.range 6).map fun i => u.rdN (padKey u.iss.core a + 8 * i) 8;
      (∀ t, strmOf w = some t → exec (.strld f) s = .next (u.plan 4 (some (.strm n t)))) ∧
      (strmOf w = none → exec (.strld f) s =
        .next (s.trapNext 0x07 (ssDetail n (AMap.get Strm.zero u.me.strms n).sp.toNat 0 true) 0xFFFF)))) ∧
  (∀ (s : State) (n sp : Nat), let t := AMap.get Strm.zero s.me.strms n
    (t.sp.toNat ≠ sp → Stops (useStream n sp) s (.trap 0x07 (ssDetail n t.sp.toNat sp false) 0xFFFF)) ∧
    (t.sp.toNat = sp → Gives (useStream n sp) s (s.me.strCur n) { s with iss := { s.iss with uses := s.iss.uses ++ [n] } }) ∧
    (let g := fun (k : Nat) (d : W32) => if (s.me.lv k).act && !(s.me.lv k).xs then ((s.me.lv k).idx : Int) * d.toInt else 0;
     ((s.me.strCur n).toNat : Int) = ((t.base.toNat : Int) + t.off.toInt + g 0 t.str0 + g 1 t.str1 + g 2 t.str2 + g 3 t.str3) % 2 ^ 64)) ∧
  (∀ (f : AS) (s u : State) (v : W64), Gives (asVal f) s v u →
    (f.fn = 1 → exec (.rotb f) s = .next (u.plan 1 (some (.vrotb (u.me.vrotb + v.setWidth 4))))) ∧
    (f.fn ≠ 1 → exec (.rotb f) s = .next (u.plan 1 (some (.vrotb (v.setWidth 4))))) ∧
    (let ok := v.toNat = bitsN v.toNat 0 6 + bitsN v.toNat 8 3 * 256 ∧ bitsN v.toNat 0 6 + bitsN v.toNat 8 3 + 1 ≤ 64;
     (ok → exec (.brbs f) s = .next (u.plan 1 (some (.brb v)))) ∧ (¬ ok → exec (.brbs f) s = .next (s.trapNext 0x08 v 0xFFFF))))

/-- A due result becomes visible (R213, R274): the oldest one of the core leaves the list and is written, a scalar or a predicate to its register and
no other, a vector only where its mask enables an element; with none due nothing changes. -/
def Obligations.ResultsBecomeVisible : Prop :=
  ∀ (c : Nat) (s : State),
    ((s.sl c).dueWr = none → exec (.eResultVisible c) s = .next s) ∧
    (∀ p, (s.sl c).dueWr = some p → p ∈ (s.sl c).pend ∧ p.due ≤ (s.sl c).tick ∧
      (∀ q ∈ (s.sl c).pend, q.due ≤ (s.sl c).tick → (s.sl c).seen q.wr = true → q.wr.isScale = false → p.key ≤ q.key) ∧
      ∃ t, exec (.eResultVisible c) s = .next t ∧ t.mem = s.mem ∧ (t.sl c).pend = (s.sl c).pend.erase p ∧
        (∀ r v, p.wr = .sreg r v → 0 < r → (t.sl c).sget r = v ∧ ∀ k, k ≠ r → (t.sl c).sget k = (s.sl c).sget k) ∧
        (∀ r b, p.wr = .pred r b → 0 < r → r < 16 → (t.sl c).pget r = b ∧ (∀ k, k < 16 → k ≠ r → (t.sl c).pget k = (s.sl c).pget k) ∧
          (t.sl c).sreg = (s.sl c).sreg) ∧
        (∀ r m x, p.wr = .vreg r m x → (∀ k, k ≠ r → AMap.get 0 (t.sl c).vreg k = AMap.get 0 (s.sl c).vreg k) ∧
          ∀ i, i < 1024 → (AMap.get 0 (t.sl c).vreg r).elem i =
            if m.getLsbD i then x.elem i else (AMap.get 0 (s.sl c).vreg r).elem i) ∧
        (∀ r x, p.wr = .vmask r x → 0 < r → (t.sl c).mget r = x ∧ ∀ k, k ≠ r → (t.sl c).mget k = (s.sl c).mget k))

/-- Vector units (R228, R229, R273): a slot binds to its own unit, or to the other when that one is fenced; a free unit is taken for the
instruction's cycles, a busy one stalls the bundle, and a second slot of one bundle on it follows the first; no register, mask or byte of
memory changes. What a masked vector result holds (R269, R270, R271, R34): an enabled element has the container that its function gives
for its SR addend, a disabled one has zero bits, and under SR each enabled element steps its own lane once
and no other lane steps. -/
def Obligations.VectorUnitsAndResults : Prop :=
  (∀ (s : State) (occ lat : Nat), let c := s.iss.core; let k := s.core c; let own := s.iss.slot - 1
    let u := if k.ufence.contains (own + 1) then 1 - own else own
    let free := fun (k : Core) => if u = 0 then k.vu0Free else k.vu1Free
    (s.iss.units.contains u = false → k.ncyc < free k → Stops (useVU occ lat) s .stall) ∧
    (s.iss.units.contains u = true ∨ free k ≤ k.ncyc → ∃ t, Gives (useVU occ lat) s u t ∧ t.me = s.me ∧ t.mem = s.mem ∧
      (t.core c).run = k.run ∧ t.iss.pc = s.iss.pc ∧ t.iss.units.contains u = true ∧
      (s.iss.units.contains u = false → free (t.core c) = k.ncyc + occ ∧ (t.core c).extra = k.extra) ∧
      (s.iss.units.contains u = true → free (t.core c) = free k + occ))) ∧
  (∀ (mode base : Nat) (m : VMask) (fs : List (Nat → Nat × Nat)) (x : Slice), fs.length = 1024 →
    (∀ f ∈ fs, ∀ r, (f r).1 < 2 ^ 32) →
    let w := vbuild mode base m fs 0 x
    (∀ i f, fs[i]? = some f → VReg.elem (BitVec.ofNat 32768 w.1) i =
      if m.getLsbD i then (f (x.addend mode (base + i)).1).1 else 0) ∧
    (∀ l, w.2.2.gen l = if mode = 5 ∧ base ≤ l ∧ l < base + 1024 ∧ m.getLsbD (l - base) = true then genStep (x.gen l) else x.gen l) ∧
    w.2.2.vreg = x.vreg ∧ w.2.2.sreg = x.sreg ∧ w.2.2.vmask = x.vmask)

/-- Elementwise arithmetic (R271, R272, R278): one rounding to the element type, or the exact integer wrapped or clamped. -/
def Obligations.VectorArithmetic : Prop :=
  ∀ (f : VR) (s : State), let ty := f.ty.toNat; let sat := f.fn == 1
    let m := if tyF ty then s.me.mode f.rnd.toNat else 0
    let n := elemNum ty; let z := elemInt ty
    let flt := fun (r : Nat) (v : Machine.Num) => (contOf ty (roundTo (tyFmt ty) m r false v).1, 0)
    (tyF ty = true →
      Elementwise (.vadd f) f s 4 6 m (fun a b _ r => flt r ((n a).add (m == 2) (n b))) ∧
      Elementwise (.vsub f) f s 4 6 m (fun a b _ r => flt r ((n a).add (m == 2) (n b).negate)) ∧
      Elementwise (.vmul f) f s 4 6 m (fun a b _ r => flt r ((n a).mul (n b)))) ∧
    (tyF ty = false →
      Elementwise (.vadd f) f s 4 6 0 (fun a b _ _ => intRes ty sat (z a + z b)) ∧
      Elementwise (.vsub f) f s 4 6 0 (fun a b _ _ => intRes ty sat (z a - z b)) ∧
      (f.fn ≠ 2 → Elementwise (.vmul f) f s 4 6 0 (fun a b _ _ => intRes ty sat (z a * z b))) ∧
      (f.fn = 2 → Elementwise (.vmul f) f s 4 6 0 (fun a b _ _ => intRes ty false (Int.fdiv (z a * z b) (2 ^ 32))))) ∧
    Elementwise (.vfma f) f s 4 6 m (fun a b c r => let p := (n a).mul (n b)
      flt r ((if 2 ≤ f.fn.toNat then p.negate else p).add (m == 2) (if f.fn.toNat % 2 = 1 then (n c).negate else n c)))

/-- Choices, signs, logic and shifts (R124, R278, R279, R280): minimum and maximum with their NaN rule, absolute value and negation, the
four bitwise functions on containers, and shifts whose amounts of 64 and more act alike. The values of integer results and of the order
(R124, R133, R271, R272): wrapping, clamping with its count, minimum and maximum of two numbers that are no NaN, and the NaN that either
makes. -/
def Obligations.VectorChoiceLogicShift : Prop :=
  ((∀ (f : VR) (s : State), let ty := f.ty.toNat; let sat := f.fn == 1; let n := elemNum ty; let z := elemInt ty
    let flt := fun (v : Machine.Num) => (contOf ty (roundTo (tyFmt ty) 1 0 false v).1, 0)
    (tyF ty = true →
      Elementwise (.vmin f) f s 4 6 0 (fun a b _ _ => flt ((n a).min (n b))) ∧ Elementwise (.vmax f) f s 4 6 0 (fun a b _ _ => flt ((n a).max (n b))) ∧
      Elementwise (.vabs f) f s 4 6 0 (fun a _ _ _ => flt (n a).abs) ∧ Elementwise (.vneg f) f s 4 6 0 (fun a _ _ _ => flt (n a).negate)) ∧
    (tyF ty = false →
      Elementwise (.vmin f) f s 4 6 0 (fun a b _ _ => intRes ty false (min (z a) (z b))) ∧
      Elementwise (.vmax f) f s 4 6 0 (fun a b _ _ => intRes ty false (max (z a) (z b))) ∧
      Elementwise (.vabs f) f s 4 6 0 (fun a _ _ _ => intRes ty sat (z a).natAbs) ∧
      Elementwise (.vneg f) f s 4 6 0 (fun a _ _ _ => intRes ty sat (-z a))) ∧
    (f.fn = 1 → Elementwise (.vand f) f s 4 6 0 (fun a b _ _ => (Nat.land a (2 ^ 32 - 1 - b), 0))) ∧
    (f.fn ≠ 1 → Elementwise (.vand f) f s 4 6 0 (fun a b _ _ => (Nat.land a b, 0))) ∧
    Elementwise (.vor f) f s 4 6 0 (fun a b _ _ => (Nat.lor a b, 0)) ∧ Elementwise (.vxor f) f s 4 6 0 (fun a b _ _ => (Nat.xor a b, 0))) ∧
  (∀ (f : VI) (s x w : State) (v : W64) (u : Nat), Gives (viVal f) s v x → Gives (useVU 4 6) x u w →
    let ty := f.ty.toNat; let n := min v.toNat 64
    let shifts := fun (i : Instr) (g : Int → Nat × Nat) => exec i s = .next (w.planV 6 f.d.toNat (w.me.mget f.m.toNat) u 0
      (vidx.map fun k _ => g (elemInt ty ((w.me.vget f.a.toNat).elem k))))
    shifts (.vshl f) (fun z => intRes ty (f.fn == 1) (z * 2 ^ n)) ∧
    (f.fn ≠ 1 ∨ n = 0 → shifts (.vshr f) (fun z => (bitsZ (Int.fdiv z (2 ^ n)) 32, 0))) ∧
    (f.fn = 1 → 1 ≤ n → shifts (.vshr f) (fun z => (bitsZ (Int.fdiv (z + 2 ^ (n - 1)) (2 ^ n)) 32, 0))))) ∧
  ((∀ ty (v : Int), ((intRes ty false v).1 : Int) = v % 2 ^ 32 ∧ (intRes ty false v).2 = 0) ∧
  (∀ ty (v : Int), let r := tyRange ty
    (r.1 ≤ v → v ≤ r.2 → ((intRes ty true v).1 : Int) = v % 2 ^ 32 ∧ (intRes ty true v).2 = 0) ∧
    (v < r.1 → ((intRes ty true v).1 : Int) = r.1 % 2 ^ 32 ∧ (intRes ty true v).2 = 1) ∧
    (r.2 < v → ((intRes ty true v).1 : Int) = r.2 % 2 ^ 32 ∧ (intRes ty true v).2 = 1)) ∧
  (∀ a b : Machine.Num, (a.isNan = true ∨ b.isNan = true → a.min b = .nan ∧ a.max b = .nan) ∧
    (a.isNan = false → b.isNan = false → (a.lt b = true → a.min b = a ∧ a.max b = b) ∧ (a.lt b = false → b.lt a = true → a.min b = b ∧ a.max b = a))) ∧
  (∀ c, c < 2 ^ 32 → elemInt 2 c = c ∧ elemInt 1 c % 2 ^ 32 = c ∧ -2 ^ 31 ≤ elemInt 1 c ∧ elemInt 1 c < 2 ^ 31))

/-- Comparison, selection and mask logic (R268, R281, R282, R297): every bit or element of the destination is written. -/
def Obligations.VectorCompareSelectMask : Prop :=
  ∀ (f : VR) (s : State), let x := s.me; let ty := f.ty.toNat; let a := x.vget f.a.toNat; let b := x.vget f.b.toNat; let m := x.mget f.m.toNat
    let ma := x.mget (f.a.toNat % 8); let mb := x.mget (f.b.toNat % 8)
    let mask := fun (i : Instr) (w : State) (lat : Nat) (p : Nat → Bool) =>
      ∃ r : VMask, exec i s = .next (w.plan lat (some (.vmask (f.d.toNat % 8) r))) ∧ ∀ k, k < 1024 → r.getLsbD k = p k
    (∀ u w, Gives (useVU 4 6) s u w →
      (tyF ty = true → mask (.vcmp f) w 6 fun k => m.getLsbD k && numCond f.fn.toNat (elemNum ty (a.elem k)) (elemNum ty (b.elem k))) ∧
      (tyF ty = false → mask (.vcmp f) w 6 fun k => m.getLsbD k && intCond f.fn.toNat (elemInt ty (a.elem k)) (elemInt ty (b.elem k))) ∧
      exec (.vsel f) s = .next (w.planV 6 f.d.toNat vmAll u 0 (vidx.map fun k _ => (if m.getLsbD k then a.elem k else b.elem k, 0))) ∧
      (f.fn = 8 → mask (.vmask f) w 6 fun k => a.elem k != 0) ∧
      (f.fn = 9 → exec (.vmask f) s = .next (w.planV 6 f.d.toNat vmAll u 0 (vidx.map fun k _ =>
        (if ma.getLsbD k then (if f.ty = 0 then 0x3F800000 else 1) else 0, 0))))) ∧
    (∀ u w, Gives (useVU 1 2) s u w →
      (f.fn = 0 → mask (.vmask f) w 2 fun k => ma.getLsbD k && mb.getLsbD k) ∧
      (f.fn = 1 → mask (.vmask f) w 2 fun k => ma.getLsbD k || mb.getLsbD k) ∧
      (f.fn = 2 → mask (.vmask f) w 2 fun k => ma.getLsbD k ^^ mb.getLsbD k) ∧
      (f.fn = 3 → mask (.vmask f) w 2 fun k => ma.getLsbD k && !mb.getLsbD k) ∧
      (f.fn = 4 → mask (.vmask f) w 2 fun k => !ma.getLsbD k) ∧
      (f.fn = 5 → mask (.vmask f) w 2 fun _ => true) ∧ (f.fn = 6 → mask (.vmask f) w 2 fun _ => false) ∧
      (f.fn = 7 → mask (.vmask f) w 2 fun k => ma.getLsbD k))

/-- Conversion, special functions, scaling and byte products (R37, R38, R283 to R286). -/
def Obligations.VectorConversionAndProducts : Prop :=
  ∀ (f : VR) (s : State), let ty := f.ty.toNat; let x := s.me; let m := x.mode f.rnd.toNat; let g := f.fn.toNat % 16
    let mf := if tyF ty then m else 0
    Elementwise (.vcvt f) f s 4 6 m (fun a _ _ r => let v := roundTo g m r (x.sat f.es.toNat) (elemNum ty a)
      (cvtCont g v.1, if v.2 then 1 else 0)) ∧
    Elementwise (.vsfu f) f s 8 12 0 (fun a _ _ _ => (sfu (f.fn.toNat % 8) a, 0)) ∧
    Elementwise (.vscale f) f s 4 6 mf (fun a b _ r =>
      (contOf ty (roundTo (tyFmt ty) mf r false (scaleNum (elemNum ty a) (sext b 32))).1, 0)) ∧
    Elementwise (.vdot4 f) f s 4 6 0 (fun a b c _ =>
      let p := fun j => byteZ (f.fn != 1) a j * byteZ (f.fn == 0) b j
      intRes 1 true (sext c 32 + (p 0 + p 1 + p 2 + p 3)))

/-- Index, constant and single-element moves (R287 to R290). -/
def Obligations.VectorIndexAndElementMoves : Prop :=
  ∀ (f : VI) (s x : State) (v : W64), Gives (viVal f) s v x → let ty := f.ty.toNat
    (∀ u w, Gives (useVU 4 6) x u w →
      let put := fun (i : Instr) (g : Nat → Nat) =>
        exec i s = .next (w.planV 6 f.d.toNat (w.me.mget f.m.toNat) u 0 (vidx.map fun k _ => (g k, 0)))
      let iota := fun (g : Nat → Nat) => (ty = 0 → put (.viota f) fun k => toF32 (.int (g k + v.toInt))) ∧
        (ty ≠ 0 → put (.viota f) fun k => bitsZ (g k + v.toInt) 32)
      (f.fn = 0 → iota id) ∧ (f.fn = 1 → iota (· % 64)) ∧ (f.fn = 2 → iota (· / 64)) ∧
      (3 ≤ ty → put (.vsplat f) fun _ => v.toNat % 2 ^ 16 * 2 ^ 16) ∧ (ty < 3 → put (.vsplat f) fun _ => v.toNat % 2 ^ 32)) ∧
    (∀ u w, Gives (useVU 1 4) x u w → let i := bitsN v.toNat 32 10
      (∃ m y, exec (.vins f) s = .next (w.plan 4 (some (.vreg (w.me.phys f.d.toNat) m y))) ∧
        (∀ k, k < 1024 → (m.getLsbD k = true ↔ k = i)) ∧ y.elem i = if 3 ≤ ty then v.toNat % 2 ^ 16 * 2 ^ 16 else v.toNat % 2 ^ 32) ∧
      (∀ e y t, e = (w.me.vget f.a.toNat).elem (v.toNat % 1024) →
        Gives (destS (32 * (f.fn.toNat % 2) + f.d.toNat) (if ty = 1 then BitVec.ofInt 64 (sext e 32) else
          BitVec.ofNat 64 (if 3 ≤ ty then e / 2 ^ 16 else e))) w y t → exec (.vmovs f) s = .next (t.plan 4 y)))

/-- Rotations, broadcasts, transpose and permutation (R291, R294, R295): which element each enabled element takes, and zero where a shift leaves the
axis. -/
def Obligations.VectorAxisMoves : Prop :=
  (∀ (f : VI) (s x : State) (v : W64), Gives (viVal f) s v x →
    let a := x.me.vget f.a.toNat
    let moves := fun (i : Instr) (lat : Nat) (g : Nat → Nat → Nat) => ∀ u w, Gives (useVU 2 lat) x u w →
      exec i s = .next (w.planV lat f.d.toNat (x.me.mget f.m.toNat) u 0 (vidx.map fun k _ => (g (k / 64) (k % 64), 0)))
    (f.fn ≠ 1 → moves (.vrotr f) 3 (fun row col => a.elem (64 * row + (col + v.toNat) % 64)) ∧
      moves (.vrotc f) 2 (fun row col => a.elem (64 * ((row + v.toNat) % 16) + col))) ∧
    (f.fn = 1 → moves (.vrotr f) 3 (fun row col => let j := (col : Int) + v.toInt
        if 0 ≤ j ∧ j < 64 then a.elem (64 * row + j.toNat) else 0) ∧
      moves (.vrotc f) 2 (fun row col => let j := (row : Int) + v.toInt
        if 0 ≤ j ∧ j < 16 then a.elem (64 * j.toNat + col) else 0)) ∧
    moves (.vbcr f) 3 (fun row _ => a.elem (64 * row + v.toNat % 64)) ∧ moves (.vbcc f) 2 (fun _ col => a.elem (64 * (v.toNat % 16) + col))) ∧
  (∀ (f : VR) (s : State), let a := s.me.vget f.a.toNat; let b := s.me.vget f.b.toNat; let c := s.me.vget f.c.toNat
    Moves (.vpermr f) s 4 6 f.d.toNat f.m.toNat fun k =>
      let w := if f.fn.getLsbD 1 then 7 else 6
      let t := b.elem k % 2 ^ w
      if f.fn.getLsbD 0 = true ∧ 2 ^ w ≤ b.elem k then 0 else if t < 64 then a.elem (64 * (k / 64) + t) else c.elem (64 * (k / 64) + (t - 64))) ∧
  (∀ (f : VR) (s : State), Moves (.vtrn f) s 4 6 f.d.toNat f.m.toNat fun k =>
    (s.me.vget f.a.toNat).elem (64 * (k % 64 % 16) + 16 * (k % 64 / 16) + k / 64))

/-- Reductions, scans and compare-exchange (R40, R126, R292, R293, R296): each line's tree or serial order with the identity at disabled elements, the
lanes that the roundings step, where results stand, and which pairs are exchanged. -/
def Obligations.VectorReduceScanExchange : Prop :=
  (∀ (f : VR) (s : State), let x := s.me; let fn := f.fn.toNat % 4; let ty := f.ty.toNat; let a := x.vget f.a.toNat; let m := x.mget f.m.toNat
    let red := fun (i : Instr) (lat lines k : Nat) (pos : Nat → Nat → Nat) (line : Nat → Nat) => ∀ u w, Gives (useVU 4 lat) s u w →
      let q := redLines ty (x.mode f.rnd.toNat) (1024 * u) ((List.range lines).map fun l =>
        (pos l 0, (treeRed (redOp fn) k ((List.range (2 ^ k)).map fun j => redIn fn ty a m (pos l j))).headD (.inr 0))) x
      exec i s = .next (((w.onSl fun _ => q.2.2).planV lat f.d.toNat vmAll u 0 (vidx.map fun e _ =>
        (if f.fn.getLsbD 2 = true ∨ pos (line e) 0 = e then q.1.getD (line e) 0 else 0, 0))).planCnt lat q.2.1 0)
    red (.vredr f) 7 16 6 (fun l j => 64 * l + j) (· / 64) ∧ red (.vredc f) 5 64 4 (fun l j => 64 * j + l) (· % 64) ∧
    (∀ u w, Gives (useVU 8 16) s u w → exec (.vscanr f) s = .next (w.planV 16 f.d.toNat vmAll u (if 3 ≤ ty then x.mode f.rnd.toNat else 0)
      (((List.range 16).flatMap fun l => scanAcc (redOp fn) (f.fn.getLsbD 2) (if tyF ty then .inl (idNum fn) else .inr (idInt fn ty))
        ((List.range 64).map fun j => redIn fn ty a m (64 * l + j))).map fun v r => redRes ty (if 3 ≤ ty then x.mode f.rnd.toNat else 0) r v))) ∧
    (∀ u w, Gives (useVU 4 6) s u w → let j := f.fn.toNat % 16
      let mate := fun k => if bitN k j then k - 2 ^ j else k + 2 ^ j
      let src := fun k => if cmxSwap ty j f.b.toNat a (if bitN k j then k - 2 ^ j else k) then mate k else k
      let t := w.planV 6 f.d.toNat vmAll u 0 (vidx.map fun k _ => (a.elem (src k), 0))
      exec (.vcmx f) s = .next (if f.fn.getLsbD 4 then t.planV 6 f.c.toNat vmAll u 0 (vidx.map fun k _ => ((x.vget f.c.toNat).elem (src k), 0))
        else t))) ∧
  (∀ k (l : List Int), l.length = 2 ^ k → treeRed (· + ·) k l = [sumZ l]) ∧
  (∀ (op : Int → Int → Int) a b c d, treeRed op 2 [a, b, c, d] = [op (op a c) (op b d)]) ∧
  (∀ (op : Int → Int → Int) z a b c, scanAcc op false z [a, b, c] = [op z a, op (op z a) b, op (op (op z a) b) c] ∧
    scanAcc op true z [a, b, c] = [z, op z a, op (op z a) b])

/-- The row addresses of `VLD` and `VST` in the private scratchpad (R326, R346, R355): sixteen rows at the fixed pitch or at a register's,
or one row; range at the first row outside, then alignment of base and pitch. `VLD` and `VST` (R27, R330, R331, R346): a load's elements
and its landing; a store changes its rows and no other byte, a disabled element's bytes stay, and a format that the container holds is
stored bit by bit. -/
def Obligations.VectorLoadStore : Prop :=
  (∀ (f : VM) (s u v : State) (base p : W64) (acc : Nat), Gives (vmAddress f) s base u → f.sp = 0 → let n := rowBytes f.fmt.toNat
    (f.fn = 0 ∧ p = BitVec.ofNat 64 (max 64 (64 * cdiv n 64)) ∧ v = u) ∨ (f.fn = 1 ∧ Gives (rdS (f.a.toNat + 1)) u p v) ∨
      (f.fn = 2 ∧ p = 0 ∧ v = u) →
    let rows := (List.range (if f.fn = 2 then 1 else 16)).map fun r => (base + BitVec.ofNat 64 r * p).toNat
    ((∀ a ∈ rows, a + n ≤ 2 ^ 21) → base.toNat % 64 = 0 → p.toNat % 64 = 0 →
      Gives (vmRows f acc) s (rows, rows.map fun a => (List.range (cdiv n 64)).map fun j =>
        (padKey v.iss.core (a + 64 * j), min 64 (n - 64 * j))) v) ∧
    (∀ a, rows.find? (fun a => 2 ^ 21 < a + n) = some a → Stops (vmRows f acc) s (.trap 0x10 (memDetail 0 a 0) 0xFFFF)) ∧
    ((∀ a ∈ rows, a + n ≤ 2 ^ 21) → base.toNat % 64 ≠ 0 ∨ p.toNat % 64 ≠ 0 →
      Stops (vmRows f acc) s (.trap 0x11 (memDetail 0 base.toNat 0) 0xFFFF))) ∧
  (∀ (f : VM) (s w t : State) (q : Nat) (as_ : List Nat) (ps : List (List (Nat × Nat))), let g := f.fmt.toNat; let base := as_.headD 0
    (Gives (useVU 4 f.arr.toNat) s q w → Gives (vmRows f 0) w (as_, ps) t → t.held true < 8 →
      let c := fun i => loadCont g (rowElem g ((ps.map t.rdPieces).getD (if f.fn = 2 then 0 else i / 64) 0) (i % 64))
      let m := t.me.mget f.m.toNat
      exec (.vld f) s = .next ((t.landNext true f.arr.toNat (arrBound f.sp.toNat t.iss.core base (cdiv (rowBytes g * ps.length) 512))
        (BitVec.ofNat 64 base) (globalPages f.sp.toNat (as_.flatMap fun a => [a, a + rowBytes g - 1]))
        (some (.vreg (t.me.phys f.d.toNat) m (BitVec.ofNat 32768 (packV (vidx.map fun i => (c i).1)))))).planCnt f.arr.toNat 0 (vidx.filter fun i => m.getLsbD i && (c i).2 == 1).length) ∧
      ∀ i, i < 1024 → (∀ j, (c j).1 < 2 ^ 32) → VReg.elem (BitVec.ofNat 32768 (packV (vidx.map fun i => (c i).1))) i = (c i).1) ∧
    (Gives (useVU 4 4) s q w → Gives (vmRows f 1) w (as_, ps) t →
      ∃ z, exec (.vst f) s = .next z ∧ z.me.vreg = t.me.vreg ∧ z.me.sreg = t.me.sreg ∧
        (∀ a, (∀ r ∈ ps, ∀ p ∈ r, a < p.1 ∨ p.1 + p.2 ≤ a) → z.rd8 a = t.rd8 a) ∧
        ((ps.flatten.flatMap fun p => (List.range p.2).map (p.1 + ·)).Nodup → g ∈ [0, 1, 2, 7, 13] →
          ∀ r row j, ps[r]? = some row → r < 16 → j < 64 → (row.map (·.2)).sum = rowBytes g →
            let old := rowElem g (t.rdPieces row) j; let e := (t.me.vget f.d.toNat).elem (64 * r + j)
            rowElem g (z.rdPieces row) j = if (t.me.mget f.m.toNat).getLsbD (64 * r + j) then (if g = 1 ∨ g = 2 then e / 2 ^ 16 else e) else old)))

/-- `VGATH` and `VSCAT` (R4, R326, R330, R347): the exact address of every enabled element and its checks, the gathered elements, and a scatter's
stores, of which the highest index stays. -/
def Obligations.GatherScatterEffects : Prop :=
  ∀ (f : VG) (s w : State) (q : Nat), let g := f.fmt.toNat; let z := fmtBits g / 8; let sp := f.sp.toNat
    (∀ as_ t b u, Gives (vgAddrs f) w as_ t → Gives (rdS f.a.toNat) w b u → t = u ∧
      as_ = (vidx.filter fun i => (u.me.mget f.m.toNat).getLsbD i).map (fun i => (i, vgAddr b ((u.me.vget f.ix.toNat).elem i) z)) ∧
      ∀ p ∈ as_, (p.2 : Int) = b.toNat + sext ((u.me.vget f.ix.toNat).elem p.1) 32 * z ∧ p.2 % z = 0 ∧ (sp = 0 → p.2 + z ≤ 2 ^ 21) ∧
        (sp = 2 → p.2 + z ≤ 4096)) ∧
    (∀ as_ t b u, Gives (useVU 4 f.top.toNat) s q w → Gives (vgAddrs f) w as_ t → Gives (rdS f.a.toNat) t b u → u.held true < 8 →
      exec (.vgath f) s = .next (u.landNext true f.top.toNat (vgBound sp t.iss.core (as_.map (·.2))) b []
        (some (.vreg (t.me.phys f.d.toNat) (t.me.mget f.m.toNat)
          (BitVec.ofNat 32768 (as_.foldl (fun x p => x + (loadCont g (vgRead t sp z p.1 p.2)).1 * 2 ^ (32 * p.1)) 0)))))) ∧
    (∀ as_ t, Gives (useVU 4 4) s q w → Gives (vgAddrs f) w as_ t → ∃ y, exec (.vscat f) s = .next y ∧ y.me.vreg = t.me.vreg ∧
      (sp = 2 → y.mem = t.mem) ∧
      (sp = 0 → y.me.lanes = t.me.lanes ∧
        (∀ a, (∀ p ∈ as_, a < padKey t.iss.core p.2 ∨ padKey t.iss.core p.2 + z ≤ a) → y.rd8 a = t.rd8 a) ∧
        (g ∈ [0, 7, 13] → ∀ p ∈ as_, (∀ r ∈ as_, p.1 < r.1 → r.2 + z ≤ p.2 ∨ p.2 + z ≤ r.2) →
          y.rdN (padKey t.iss.core p.2) z = (t.me.vget f.d.toNat).elem p.1)))

/-- Weight loads, swaps and feeds (R299, R305, R308, R310, R311, R312): a full path stalls the bundle; else the instruction enters its path under the
next number of tl3 with its operands captured, and the issue-order view takes the new shadow mode, the exchanged modes, or the buffer's class
and log length. -/
def Obligations.MatrixLoadSwapFeed : Prop :=
  ∀ (f : MX) (s : State), let mx := s.me.mx
    (mx.pathFull 0 = true → exec (.mldw f) s = .next s.stallNext) ∧ (mx.pathFull 2 = true → exec (.mswap f) s = .next s.stallNext) ∧
    (mx.pathFull 1 = true → exec (.mfeed f) s = .next s.stallNext) ∧
    (∀ src u, mx.pathFull 0 = false → f.fn.getLsbD 0 = false → Gives (ldwSrc f) s src u →
      src.kw ≤ matKA f.mode.toNat ∧ src.nw ≤ 512 ∧ src.pitch % 64 = 0 ∧
      ∃ t, exec (.mldw f) s = .next t ∧ Entered u t 0 3 (.ldw src false) ∧ View t.me.mx = View { u.me.mx with vShd := f.mode.toNat }) ∧
    (mx.pathFull 2 = false → ∃ t, exec (.mswap f) s = .next t ∧ Entered s t 2 3 .swap ∧
      View t.me.mx = View { mx with vAct := mx.vShd, vShd := mx.vAct }) ∧
    (∀ u v w x y a b p sp cur, mx.pathFull 1 = false → Gives (rdS f.a.toNat) s a u → Gives (rdS f.b.toNat) u b v → Gives (rdS f.c.toNat) v p w →
      Gives (feedStream f.str.toNat) w (sp, cur) x → a.toNat ≤ 64 → b.toNat < 2 ^ 32 →
      let mode := f.mode.toNat; let k0 := bitsN b.toNat 0 16; let kn := bitsN b.toNat 16 16; let f1 := f.fn.getLsbD 0; let z := f.fn.getLsbD 1
      k0 + kn ≤ matKA mode →
      Gives (feedRows sp cur p (max a.toNat 1) (feedW mode) (if a.toNat = 0 then 0 else kn * feedW mode) 3) x () y →
      let cls := if z then 3 else y.me.mx.vCls f1; let log := if z then 0 else y.me.mx.vLog f1
      (a.toNat ≠ 0 → kn ≠ 0 → (cls = 3 ∨ cls = feedCls mode) ∧ log < 32) →
      ∃ t, exec (.mfeed f) s = .next t ∧ Entered y t 1 3 (.feed f1 z ⟨cur, sp, a.toNat, k0, kn, p.toInt, mode⟩) ∧
        View t.me.mx = View (if a.toNat ≠ 0 ∧ kn ≠ 0 then y.me.mx.setView f1 (feedCls mode) (log + 1) else y.me.mx.setView f1 cls log))

/-- Multiplies (R303, R305, R306, R313, R314, R315): what stops them in order, the no-op of no rows or columns, and the entry with the group's slots
opened, committed or both in the view; a gang multiply enters the path of each of its four cores. -/
def Obligations.MatrixMultiplies : Prop :=
  ∀ (f : MX) (s u v w : State) (a b c : W64), let mode := f.mode.toNat; let m := a.toNat; let n := b.toNat
    let grp := f.grp.toNat; let sl := f.sl.toNat; let f1 := f.fn.getLsbD 0
    s.me.mx.pathFull 2 = false →
    (Gives (rdS f.a.toNat) s a u → Gives (rdS f.b.toNat) u b v → Gives (rdS f.c.toNat) v c w →
      (64 < m → exec (.mma f) s = .next (s.trapNext 0x30 (BitVec.ofNat 64 (1 + 4 * 16)) 0xFFFF)) ∧
      (m ≤ 64 → 512 < n → exec (.mma f) s = .next (s.trapNext 0x30 (BitVec.ofNat 64 (2 + 4 * 16)) 0xFFFF)) ∧
      (m ≤ 64 → n ≤ 512 → matKA mode < c.toNat → exec (.mma f) s = .next (s.trapNext 0x30 (BitVec.ofNat 64 (3 + 4 * 16)) 0xFFFF)) ∧
      (m ≤ 64 → n ≤ 512 → c.toNat ≤ matKA mode → let work := MWork.mma mode grp f1 sl m n c.toNat
        let chk := w.me.mx.checkMul mode grp sl n (some (w.me.mx.vCls f1))
        (m = 0 ∨ n = 0 → ∃ t, exec (.mma f) s = .next t ∧ Entered w t 2 3 work ∧ View t.me.mx = View w.me.mx) ∧
        (m ≠ 0 → n ≠ 0 →
          (chk = .ok () → ∃ t, exec (.mma f) s = .next t ∧ Entered w t 2 3 work ∧ View t.me.mx = View (w.me.mx.viewMul mode grp sl n)) ∧
          (chk = .error .stall → exec (.mma f) s = .next s.stallNext) ∧
          (∀ code d h, chk = .error (.trap code d h) → exec (.mma f) s = .next (s.trapNext code d h))))) ∧
    (∀ x y z gang sp cur, Gives needGang s gang x → Gives (rdS f.a.toNat) x a u → Gives (rdS f.b.toNat) u b v → Gives (rdS f.c.toNat) v c w →
      Gives (feedStream f.str.toNat) w (sp, cur) y → m ≤ 256 → n ≤ 384 → m ≠ 0 → n ≠ 0 → let k := bitsN c.toNat 0 16
      k ≤ matKA mode → bitsN c.toNat 16 16 = 0 → let pitch := sext (bitsN c.toNat 32 32) 32
      Gives (feedRows sp cur (w64 pitch) m (feedW mode) (k * feedW mode) 5) y () z →
      (∀ d ∈ gang, (z.sl d).mx.checkMul mode grp sl n none = .ok () ∧ (z.sl d).mx.pathFull 2 = false) →
      ∃ t, exec (.mmag f) s = .next t ∧ t.mem = z.mem ∧ t.me.tl3.iss = z.me.tl3.iss + 1 ∧
        ∀ d ∈ gang, View (t.sl d).mx = View ((z.sl d).mx.viewMul mode grp sl n) ∧ ∃ o, (t.sl d).mx.ops = (z.sl d).mx.ops ++ [o] ∧ o.path = 2 ∧
          o.start = none ∧ o.work = .mmag mode grp sl (gangRows m (d % 4)) n k cur sp pitch s.iss.core)

/-- Configuration, drains, clearing and status (R303, R305, R316 to R320): a valid configuration is kept, a drain of the group at DPNT enters its path
under the next number of tl2 with the configuration captured and, unless it holds, frees the group in the view; clearing and status wait for every
matrix instruction. -/
def Obligations.MatrixConfigureDrainClear : Prop :=
  ∀ (f : MX) (s : State), let mx := s.me.mx
    (∀ u v a b, Gives (rdS f.a.toNat) s a u → Gives (rdS f.b.toNat) u b v → let g := a.toNat
      (g < 2 ^ 17 → bitsN g 14 2 = 0 → bitsN g 11 2 ≠ 3 → bitsN g 8 3 ≠ 7 → bitsN g 4 4 ∉ [11, 12, 15] → bitsN g 0 4 ≤ 5 →
        b.toNat / 2 ^ 62 ≤ 1 → b.toNat % 2 ^ 62 < (if b.toNat / 2 ^ 62 = 0 then 2 ^ 21 else 2 ^ 25) → b.toNat % 4 = 0 →
        exec (.mcfg f) s = .next (v.updMx v.iss.core fun x => { x with cfg := a, bias := b })) ∧
      (2 ^ 17 ≤ g → exec (.mcfg f) s = .next (s.trapNext 0x30 (BitVec.ofNat 64 (1 + 6 * 16)) 0xFFFF))) ∧
    (mx.pathFull 3 = true → exec (.mdrain f) s = .next s.stallNext) ∧
    (∀ u v w a b p, mx.pathFull 3 = false → f.fn.getLsbD 0 = false → Gives (rdS f.a.toNat) s a u → Gives (rdS f.b.toNat) u b v →
      Gives (rdS f.c.toNat) v p w → let y := w.me.mx; let first := y.dpnt % 8; let r := y.slot first
      let m := bitsN b.toNat 0 7; let n := bitsN b.toNat 16 10; let h := bitsN b.toNat 32 16; let cfg := w.me.drainCfg
      let hold := f.fn.getLsbD 1
      y.opnt ≠ y.dpnt → r.st ≠ 0 → b.toNat = m + n * 65536 + h * 2 ^ 32 → m ≤ 64 → n ≤ 512 → n ≤ 128 * r.g → h = 0xFFFF ∨ h < 4096 →
      p.toNat % 64 = 0 → a.toNat % 64 = 0 → a.toNat < 2 ^ 21 →
      (∀ i, i < m → padInside 0 (a + BitVec.ofNat 64 i * p).toNat (packedBytes (bitsN cfg.toNat 4 4) n) = true) → bitN cfg.toNat 13 = false →
      ∃ t, exec (.mdrain f) s = .next t ∧
        Entered w t 3 2 (.drain first r.g r.int48 hold m n a p.toInt (if h = 0xFFFF then none else some h) cfg y.bias) ∧
        (hold = true → View t.me.mx = View y) ∧ (hold = false → t.me.mx.dpnt = (y.dpnt + r.g) % 16 ∧
          ∀ i, i < 8 → t.me.mx.slot i = if i ∈ groupSlots first r.g then { y.slot i with freeing := true } else y.slot i)) ∧
    (∀ u v a b, mx.pathFull 3 = false → f.fn.getLsbD 0 = true → Gives (rdS f.a.toNat) s a u → Gives (rdS f.b.toNat) u b v →
      let y := v.me.mx; let first := y.dpnt % 8; let r := y.slot first; let cfg := v.me.drainCfg
      let row := bitsN b.toNat 0 6; let col := bitsN b.toNat 16 9
      y.opnt ≠ y.dpnt → r.st ≠ 0 → a.toNat < 32 → b.toNat = row + col * 65536 → row % 16 = 0 → col % 64 = 0 → col + 64 ≤ 128 * r.g →
      bitsN cfg.toNat 4 4 ∈ [0, 1, 2, 7, 13] → bitN cfg.toNat 13 = false →
      ∃ t, exec (.mdrain f) s = .next t ∧
        Entered v t 3 2 (.drainV first r.g r.int48 (f.fn.getLsbD 1) (v.me.phys a.toNat) row col cfg y.bias)) ∧
    (mx.ops ≠ [] → exec (.mclr f) s = .next s.stallNext ∧ exec (.mstat f) s = .next s.stallNext) ∧
    (mx.ops = [] → Yields (.mstat f) s s f.a.toNat (BitVec.ofNat 64 (mstatVal (s.core s.iss.core) f.fn.toNat f.sl.toNat)) 2 ∧
      ∃ t, exec (.mclr f) s = .next t ∧ Entered s t 2 3 (.clr (f.fn.getLsbD 0) (f.fn.getLsbD 1) (f.fn.getLsbD 2)) ∧
        (f.fn.getLsbD 0 = true → t.me.mx.slots = [] ∧ t.me.mx.opnt = 0 ∧ t.me.mx.cpnt = 0 ∧ t.me.mx.dpnt = 0) ∧
        (f.fn.getLsbD 1 = true → t.me.mx.vAct = 3 ∧ t.me.mx.vShd = 3) ∧
        (f.fn.getLsbD 2 = true → t.me.mx.vCls0 = 3 ∧ t.me.mx.vCls1 = 3 ∧ t.me.mx.vLog0 = 0 ∧ t.me.mx.vLog1 = 0) ∧
        (f.fn.getLsbD 0 = false → t.me.mx.slots = mx.slots ∧ t.me.mx.opnt = mx.opnt ∧ t.me.mx.cpnt = mx.cpnt ∧ t.me.mx.dpnt = mx.dpnt) ∧
        (f.fn.getLsbD 1 = false → t.me.mx.vAct = mx.vAct ∧ t.me.mx.vShd = mx.vShd))

/-- A descriptor's checks (R326, R360, R362, R386): its address, the first word at fault, the spaces and the pairing that the instruction
allows; a descriptor that passes is the forty words in memory. The copies that a descriptor describes (R42, R356, R357, R365, R366): a
full unit or engine stalls the bundle; else the operation waits with the rounding mode and saturation of its issue, under the next number
of its slot's timeline or of tl8, which the result register takes, and `CPYG` waits for its time or counts a late one. -/
def Obligations.DescriptorCopies : Prop :=
  (∀ (f : CX) (s u : State) (a : W64) (sg dg plain cmp mx : Bool), Gives (rdS f.a.toNat) s a u →
    let w := (List.range 40).map fun i => BitVec.ofNat 64 (u.rdN (padKey u.iss.core (a.toNat + 8 * i)) 8)
    let d := readDesc f sg dg plain cmp mx; let stops := fun (c : Nat) (x : W64) => Stops d s (.trap c x 0xFFFF)
    (2 ^ 21 < a.toNat + 320 → stops 0x10 (memDetail 0 a.toNat 0)) ∧
    (a.toNat + 320 ≤ 2 ^ 21 → a.toNat % 64 ≠ 0 → stops 0x11 (memDetail 0 a.toNat 0)) ∧
    (a.toNat + 320 ≤ 2 ^ 21 → a.toNat % 64 = 0 →
      (∀ i, descBad1 w = some i → stops 0x40 (BitVec.ofNat 64 (1 + 16 * i))) ∧
      (descBad1 w = none →
        ((dfield w 0 62 2 == 3) ≠ sg → stops 0x40 2) ∧
        ((dfield w 0 62 2 == 3) = sg → (dfield w 1 62 2 == 3) ≠ dg → stops 0x40 18) ∧
        ((dfield w 0 62 2 == 3) = sg → (dfield w 1 62 2 == 3) = dg →
          (descMx w = false → pairOk plain cmp mx w = false → stops 0x40 35) ∧
          (∀ x t, Gives d s x t → x = w ∧ t.mem = u.mem ∧ pairOk plain cmp mx w = true)))) ∧
    (pairOk true cmp mx w = true → descSf w = descDf w ∧ descMx w = false ∧ descCmp w = false)) ∧
  (∀ s : State, let c := s.iss.core; let i := 10 + unitOf s
    (¬ Room s → Stops needUnit s .stall) ∧
    (Room s → ∃ q, Gives needUnit s (unitOf s) q ∧ q.me = s.me ∧ q.mem = s.mem ∧ q.eops = s.eops ∧ q.iss.units.contains i = true ∧
      (s.iss.units.contains i = false → (q.core c).extra = (s.core c).extra) ∧
      (s.iss.units.contains i = true → (q.core c).extra = (s.core c).extra + 1))) ∧
  (∀ (f : CX) (s : State), let c := s.iss.core; let k := s.iss.slot - 4
    let ends := fun (i : Instr) (x : State) (n : Nat) => ∀ y z, Gives (destS f.b.toNat (BitVec.ofNat 64 n)) x y z → exec i s = .next (z.plan 2 y)
    let work := fun (v : State) (conv : Bool) (w : List W64) => CWork.copy conv (v.me.mode f.rnd.toNat) (v.me.sat f.es.toNat) w
    (¬ Room s → exec (.cpy f) s = .next s.stallNext ∧ exec (.cpyx f) s = .next s.stallNext ∧ exec (.cpyg f) s = .next s.stallNext ∧
      exec (.cpys f) s = .next s.stallNext) ∧
    (Room s → 256 ≤ s.bteHeld (clOf c) → exec (.cpyg f) s = .next s.stallNext ∧ exec (.cpys f) s = .next s.stallNext) ∧
    (∀ un q, Gives needUnit s un q →
      (∀ w u, Gives (readDesc f false false true false false) q w u → ∃ x, ends (.cpy f) x ((u.me.tl k).iss + 1) ∧
        Copied u x un k ((u.me.tl k).iss + 1) (cxH f 0) (work u false w) ∧ x.me.tl k = { u.me.tl k with iss := (u.me.tl k).iss + 1 }) ∧
      (∀ w u, Gives (readDesc f false false false false true) q w u → ∃ x, ends (.cpyx f) x ((u.me.tl k).iss + 1) ∧
        Copied u x un k ((u.me.tl k).iss + 1) (cxH f 0) (work u true w) ∧ x.me.tl k = { u.me.tl k with iss := (u.me.tl k).iss + 1 })) ∧
    (∀ un q, Gives needUnit s un q → s.bteHeld (clOf c) < 256 → let num := fun (v : State) => (v.ctl_ (clOf c) (v.ctxOf c) 8).iss + 1
      (∀ t u w v, Gives (rdS f.c.toNat) q t u → Gives (readDesc f true false false true true) u w v → ∃ x, ends (.cpyg f) x (num v) ∧
        Copied v x 2 8 (num v) (cxH f 0) (work v true w) ∧ (x.ctl_ (clOf c) (v.ctxOf c) 8).iss = num v ∧
        (∃ e ∈ x.eops, e.tstamp = t.toNat ∧ e.eff = max t.toNat v.gcyc) ∧
        (x.cluster (clOf c)).late = (v.cluster (clOf c)).late + if 0 < t.toNat ∧ t.toNat < v.gcyc then 1 else 0) ∧
      (∀ w v, Gives (readDesc f false true false false false) q w v → ∃ x, ends (.cpys f) x (num v) ∧
        Copied v x 2 8 (num v) none (work v true w) ∧ (x.ctl_ (clOf c) (v.ctxOf c) 8).iss = num v)))

/-- Multicast, fill, prefetch and scale loads (R326, R356, R371 to R374): their checks' success, what waits in the unit, the 24 cycles of a multicast,
the 16 ticks of a scale load, and a prefetch that changes nothing. -/
def Obligations.MulticastFillScale : Prop :=
  ∀ (f : CX) (s q u v w : State) (a b d : W64) (un : Nat), let c := s.iss.core; let k := s.iss.slot - 4
    (¬ Room s → ∀ i ∈ [Instr.cpymc f, .fill f, .pref f, .cscl f], exec i s = .next s.stallNext) ∧
    (Gives needUnit s un q → Gives (rdS f.a.toNat) q a u →
      (Gives (rdS f.b.toNat) u b v →
        exec (.pref f) s = .next v ∧
        (Gives (rdS f.c.toNat) v d w →
          (let n := (bitsN b.toNat 16 5 + 1) * 16; let cs := maskCores (clOf c) (bitsN b.toNat 0 16)
           (∀ j ∈ cs, (∀ r, (w.core j).run = some r → r.ctx = w.ctxOf c) ∧ (w.core j).fenced = false) →
           a.toNat + n ≤ 2 ^ 21 → b.toNat < 2 ^ 21 → d.toNat + n ≤ 2 ^ 21 → a.toNat % 16 = 0 → d.toNat % 16 = 0 →
           ∃ t, exec (.cpymc f) s = .next t ∧
             Copied w t un k ((w.me.tl k).iss + 1) (cxH f 0) (.multi (w.rdBytes (padKey c a.toNat) n) (bitsN b.toNat 0 16) d.toNat) ∧
             ∃ e ∈ t.eops, e.num = (w.me.tl k).iss + 1 ∧ e.start = some (w.core c).ncyc ∧ e.endAt = w.ccyc + 24) ∧
          (let z := 2 ^ (f.fn.toNat % 4)
           b.toNat ≤ 2 ^ 32 → a.toNat / 2 ^ 62 = 3 ∨ a.toNat + b.toNat ≤ 2 ^ 21 → a.toNat % 2 ^ 62 % z = 0 → b.toNat % z = 0 →
           ∃ t, exec (.fill f) s = .next t ∧ Copied w t un k ((w.me.tl k).iss + 1) (cxH f 2) (.fill z a b.toNat d)))) ∧
      (let rd := fun i => BitVec.ofNat 4096 (u.rdN (padKey c (a.toNat + 512 * i)) 512); let all := f.fn.getLsbD 2
       let js := if all then [(0, rd 0), (1, rd 1), (2, rd 2), (3, rd 3)] else [(f.fn.toNat % 4, rd 0)]
       a.toNat + (if all then 2048 else 512) ≤ 2 ^ 21 → a.toNat % 64 = 0 →
       exec (.cscl f) s = .next ((u.onSl fun x => x.setTl k { x.tl k with iss := (x.tl k).iss + 1 }).plan 16
         (some (.scale js k ((u.me.tl k).iss + 1))))))

/-- Permits, handle states and software timelines (R101, R134, R141, R356, R375 to R377): a handle number of 4,096 or more takes HANDLE_RANGE, the state
that `HSET` requires, its three changes with the generation's advance, and the item that a permit pushes. -/
def Obligations.PermitsAndHandles : Prop :=
  ∀ (f : CX) (s p u : State) (x : W64) (un : Nat), let c := s.iss.core; let cl := clOf c; let h := x + BitVec.ofNat 64 (cxImm f)
    (¬ Room s → ∀ i ∈ [Instr.permit f, .hset f, .tladv f], exec i s = .next s.stallNext) ∧
    (Gives needUnit s un p → Gives (rdS f.a.toNat) p x u →
      (4096 ≤ h.toNat → exec (.permit f) s = .next (s.trapNext 0x20 h 0xFFFF) ∧ exec (.hset f) s = .next (s.trapNext 0x20 h 0xFFFF)) ∧
      (h.toNat < 4096 →
        (∀ q y, u.permitQ c f.fn.toNat = some q → u.queues.find q = some y →
          (y.full = true → exec (.permit f) s = .next (s.trapNext 0x62 (BitVec.ofNat 64 y.vq) h.toNat)) ∧
          (y.full = false → exec (.permit f) s = .next (u.pushFly q c 0 (mkItem h.toNat (u.handle cl (u.ctxOf c) h.toNat).gen 0)))) ∧
        (u.permitQ c f.fn.toNat = none → exec (.permit f) s = .next (s.trapNext 0x61 (qpDetail 0 f.fn.toNat 2) h.toNat)) ∧
        (∀ n v, Gives (rdS f.b.toNat) u n v → let e := v.handle cl (v.ctxOf c) h.toNat
          let put := fun (y : HEnt) => exec (.hset f) s = .next (v.setHandle cl (v.ctxOf c) h.toNat y)
          let ok := if f.fn = 0 then e.st = 2 else if f.fn = 1 then e.st = 1 else e.st = 1 ∨ e.st = 2 ∧ e.fullAt = v.ccyc + 1
          (¬ ok →
            exec (.hset f) s = .next (s.trapNext 0x22 (BitVec.ofNat 64 (h.toNat + e.st * 2 ^ 16 + f.fn.toNat * 2 ^ 18)) h.toNat)) ∧
          (f.fn = 0 → e.st = 2 → 0 < n.toNat → put { e with st := 1, tgt := n.toNat, cnt := 0 }) ∧
          (f.fn = 1 → e.st = 1 → e.zeroAt = none → put { e with st := 2, gen := (e.gen + 1) % 65536 }) ∧
          (f.fn = 2 → e.st = 1 → e.cnt + n.toNat < e.tgt → put { e with cnt := e.cnt + n.toNat }) ∧
          (f.fn = 2 → e.st = 1 → e.zeroAt = none → e.tgt ≤ e.cnt + n.toNat →
            put { e with cnt := e.cnt + n.toNat, st := 2, gen := (e.gen + 1) % 65536, fullAt := v.ccyc + 1 }) ∧
          (f.fn = 2 → e.st = 2 → e.fullAt = v.ccyc + 1 → put { e with cnt := e.cnt + n.toNat }))) ∧
      (f.fn.getLsbD 2 = true → ∃ t, exec (.tladv f) s = .next t ∧
        Copied u t un (s.iss.slot - 4) (u.me.tl (s.iss.slot - 4)).iss none (.tladv (f.imm.toNat % 16) (some x.toNat)))) ∧
    (Gives needUnit s un p → f.fn.getLsbD 2 = false → ∃ t, exec (.tladv f) s = .next t ∧
      Copied p t un (s.iss.slot - 4) (p.me.tl (s.iss.slot - 4)).iss none (.tladv (f.imm.toNat % 16) none))

/-- Capability channels (R378 to R381, R386): the reasons of CAP_FAULT in order, the checks of the buffer, the send that takes one from a bounded
allowance, and what waits in the unit. -/
def Obligations.CapabilitySendReceive : Prop :=
  ∀ (f : CX) (s q u v w : State) (a n x : W64) (un : Nat), let c := s.iss.core; let k := s.iss.slot - 4; let i := f.imm.toNat
    Gives needUnit s un q → Gives (rdS f.a.toNat) q a u → Gives (rdS f.b.toNat) u n v → Gives (rdS f.c.toNat) v x w →
    let cap := fun (t : State) => t.rdN (t.capAt (t.ctxOf c) i) 8; let left := w.rdN (w.capAt (w.ctxOf c) i + 16) 4
    let kind := fun (t : State) => bitsN (cap t) 59 2
    let good := fun (t : State) => bitN (cap t) 63 = true ∧ i < 248 ∧ (kind t = 0 ∨ kind t = 1 ∧ ¬ (bitN (cap t) 62 = true ∧ bitN (cap t) 61 = true) ∧
      bitN (cap t) 58 = false)
    let fault := fun (i' : Instr) (r : Nat) => exec i' s = .next (s.trapNext 0x43 (BitVec.ofNat 64 (i + r * 256)) 0xFFFF)
    (¬ good w → fault (.send f) 0) ∧ (¬ good v → fault (.recv f) 0) ∧
    (good w → bitN (cap w) 62 = false → fault (.send f) 1) ∧ (good v → bitN (cap v) 61 = false → fault (.recv f) 1) ∧
    (good w → bitN (cap w) 62 = true → left = 0 → fault (.send f) 2) ∧
    (good w → bitN (cap w) 62 = true → 0 < left → a.toNat + n.toNat ≤ 2 ^ 21 → n.toNat ≤ 4096 → n.toNat % 64 = 0 → a.toNat % 64 = 0 →
      ∃ t m, exec (.send f) s = .next t ∧
        m = (if left = 2 ^ 32 - 1 then w else w.wrN (w.capAt (w.ctxOf c) i + 16) 4 (left - 1)) ∧
        Copied m t un k ((w.me.tl k).iss + 1) none (.send i a.toNat n.toNat (some (m.rdBytes (padKey c a.toNat) n.toNat)) x)) ∧
    (good v → bitN (cap v) 61 = true → a.toNat + 64 + n.toNat ≤ 2 ^ 21 → n.toNat ≤ 4096 → n.toNat % 64 = 0 → a.toNat % 64 = 0 →
      ∃ t, exec (.recv f) s = .next t ∧ Copied v t un k ((v.me.tl k).iss + 1) none (.recv i a.toNat n.toNat))

namespace Sys2Proof.Claims

/-- A core's matrix engine. -/
def mxOf (s : State) (c : Nat) : Matrix := (s.core c).sl.mx

/-- In t, the instruction `id` of core c has started in the cycle that s shows, with n cycles of its path (R305). -/
def Started (s t : State) (c id n : Nat) : Prop :=
  ∀ q ∈ (mxOf t c).ops, q.id = id → q.start = some (s.core c).ncyc ∧ q.last = (s.core c).ncyc + n - 1

/-- An event whose subject is not there leaves the state as it is; else it answers a next state of which P holds. -/
def Event {α : Type} (i : Instr) (s : State) (o : Option α) (P : α → State → Prop) : Prop :=
  (o = none → exec i s = .next s) ∧ ∀ a, o = some a → ∃ t, exec i s = .next t ∧ P a t

end Sys2Proof.Claims

/-- The matrix paths (R302, R305, R308, R310 to R315, R319, R322): which instruction starts, the banks and buffers that loads and feeds fill from memory,
a swap, clearing, a multiply's ring and duration on every core that takes part, and the ends, which leave the path and pass tl3. Each event answers a
next state: with its instruction's effect when one is there, else the state as it is. -/
def Obligations.MatrixPathEvents : Prop :=
  (∀ (s : State) (c : Nat) (o : MOp), s.nextStart c 0 = some o → ∃ t, exec (.eLoadPathStart c) s = .next t ∧ t.mem = s.mem ∧
    ∀ d ∈ s.holders c o.id, ∀ p, (mxOf s d).ops.find? (·.id == o.id) = some p →
      (∀ w g, p.work = .ldw w g → (mxOf t d).shd = ⟨w.mode, some w, (s.loadRows d w).1, (mxOf s d).shd.perr⟩ ∧
        (mxOf t d).act = (mxOf s d).act ∧ Started s t d o.id (loadCycles w)) ∧
      (∀ w n, p.work = .reload false w n → (mxOf t d).act = ⟨w.mode, some w, (s.loadRows d w).1, (mxOf s d).act.perr⟩ ∧
        (mxOf t d).shd = (mxOf s d).shd)) ∧
  (∀ (s : State) (c : Nat) (o : MOp), s.nextStart c 1 = some o → ∃ t, exec (.eFeedPathStart c) s = .next t ∧ t.mem = s.mem ∧
    (∀ f1 z e, o.work = .feed f1 z e → let b := if z then Feed.empty else (mxOf s c).buf f1
      (mxOf t c).buf f1 = (if e.m ≠ 0 ∧ e.kn ≠ 0 then { s.feedInto c b e with cls := feedCls e.mode, log := b.log ++ [e] } else b) ∧
      (mxOf t c).buf (!f1) = (mxOf s c).buf (!f1) ∧ Started s t c o.id (feedCycles e)) ∧
    (∀ f1 e, o.work = .replay f1 e → (mxOf t c).buf f1 = s.feedInto c ((mxOf s c).buf f1) e)) ∧
  (∀ (s : State) (c : Nat) (par : Option Nat) (o : MOp), s.nextStart c 2 = some o → ∃ t, exec (.eArrayPathStart c par) s = .next t ∧ t.mem = s.mem ∧
    (o.work = .swap → (mxOf t c).act = (mxOf s c).shd ∧ (mxOf t c).shd = (mxOf s c).act ∧ (mxOf t c).ring = (mxOf s c).ring) ∧
    (∀ r w f, o.work = .clr r w f → (r = true → (mxOf t c).ring = []) ∧ (r = false → (mxOf t c).ring = (mxOf s c).ring) ∧
      (w = true → (mxOf t c).act = { Bank.empty with perr := (mxOf s c).act.perr } ∧
        (mxOf t c).shd = { Bank.empty with perr := (mxOf s c).shd.perr }) ∧
      (f = true → (mxOf t c).f0 = .empty ∧ (mxOf t c).f1 = .empty)) ∧
    (∀ mode grp f1 slot m n k, o.work = .mma mode grp f1 slot m n k →
      (m = 0 ∨ n = 0 → (mxOf t c).ring = (mxOf s c).ring) ∧
      (m ≠ 0 → n ≠ 0 → Started s t c o.id (8 * m) ∧
        (mxOf t c).ring = (mxOf (s.multiply c mode grp slot m n k (fun i => feedCodes mode k (AMap.get 0 ((mxOf s c).buf f1).rows i).toNat) par) c).ring ∧
        (mxOf t c).act.perr = (mxOf s c).act.perr + if par = none then 0 else 1)) ∧
    (∀ mode grp slot m n k cur sp pitch lead, o.work = .mmag mode grp slot m n k cur sp pitch lead → ∀ d ∈ s.holders c o.id,
      ∀ md g sl rows cols kk cu spc pt ld p, (mxOf s d).ops.find? (·.id == o.id) = some p → p.work = .mmag md g sl rows cols kk cu spc pt ld →
        Started s t d o.id (max 1 (8 * rows)))) ∧
  (∀ (s : State) (c : Nat) (feed : Bool) (o : MOp), (mxOf s c).ops.find? (fun o => o.path == (if feed then 1 else 0) && o.over (s.core c).ncyc) = some o →
    ∃ t, exec (.eLoadFeedEnd c feed) s = .next t ∧ t.mem = s.mem ∧ (∀ p, p ∈ (mxOf t c).ops ↔ p ∈ (mxOf s c).ops ∧ p.id ≠ o.id) ∧
      (∀ f1 z e, o.work = .feed f1 z e → o.num ≠ 0 → (t.sl c).tl3 = ((s.sl c).tl3.fin o.num))) ∧
  (∀ (s : State) (c : Nat) (o : MOp),
    (mxOf s c).ops.find? (fun o => o.path == 2 && o.start.isSome && decide (o.done < (s.core c).ncyc)) = some o →
    ∃ t, exec (.eMmaComplete c) s = .next t ∧ t.mem = s.mem ∧ (∀ p, p ∈ (mxOf t c).ops ↔ p ∈ (mxOf s c).ops ∧ p.id ≠ o.id) ∧
      (o.num ≠ 0 → (t.sl c).tl3 = (s.sl c).tl3.fin o.num) ∧ (mxOf t c).ring = (mxOf s c).ring) ∧
  (∀ (s : State) (c : Nat), ((mxOf s c).replay = true → (∀ o ∈ (mxOf s c).ops, o.again = false) → ∃ t, exec (.eReplay c) s = .next t ∧
      t = s.updMx c fun mx => { mx with replay := false, ops := mx.ops.map fun o => { o with iss := (s.core c).ncyc } }) ∧
    ((mxOf s c).replay = false ∨ (∃ o ∈ (mxOf s c).ops, o.again = true) → exec (.eReplay c) s = .next s)) ∧
  (∀ (s : State) (c : Nat), (s.nextStart c 0 = none → exec (.eLoadPathStart c) s = .next s) ∧
    (s.nextStart c 1 = none → exec (.eFeedPathStart c) s = .next s) ∧
    (s.nextStart c 2 = none → ∀ par, exec (.eArrayPathStart c par) s = .next s) ∧
    ((∀ o ∈ (mxOf s c).ops, o.start = none) → exec (.eMmaComplete c) s = .next s ∧ ∀ feed, exec (.eLoadFeedEnd c feed) s = .next s)) ∧
  (∀ mode first old (a b : List Nat), mode ≠ 0 → let z := sext old 48 + sumZ (List.zipWith (fun x y => matInt 8 x * matInt (matBits mode) y) a b)
    (-2 ^ 47 ≤ z → z < 2 ^ 47 → sext (mulEntry mode first old a b).1 48 = z ∧ (mulEntry mode first old a b).2 = (0, 0)) ∧
    (2 ^ 47 ≤ z → sext (mulEntry mode first old a b).1 48 = 2 ^ 47 - 1 ∧ (mulEntry mode first old a b).2 = (1, 0)) ∧
    (z < -2 ^ 47 → sext (mulEntry mode first old a b).1 48 = -2 ^ 47 ∧ (mulEntry mode first old a b).2 = (1, 0)))

/-- Drains (R101, R305, R308, R317, R318, R321): a start writes its rows and no other byte, or one vector register; an end leaves the path, credits its
handle, frees the group's slots unless it holds, passes tl2, and reports a poisoned group. Each event answers a next state: with its drain's effect when
one is there, else the state as it is. -/
def Obligations.MatrixDrainEvents : Prop :=
  (∀ (s : State) (c : Nat) (o : MOp), s.nextStart c 3 = some o → ∃ t, exec (.eGlazeStart c) s = .next t ∧
    (∀ slot g i48 hold m n dst pitch h cfg bias, o.work = .drain slot g i48 hold m n dst pitch h cfg bias →
      let rb := packedBytes (bitsN cfg.toNat 4 4) n
      let row := fun (i : Nat) => padFlat c (dst.toNat / 2 ^ 62) (BitVec.ofNat 64 (dst.toNat % 2 ^ 62) + w64 (i * pitch)).toNat
      Started s t c o.id (max m (cdiv ((if n = 0 then 0 else m) * rb) 512) + 16) ∧
      ∀ a, (∀ i, i < m → a < row i ∨ row i + rb ≤ a) → t.rd8 a = s.rd8 a) ∧
    (∀ slot g i48 hold phys row col cfg bias, o.work = .drainV slot g i48 hold phys row col cfg bias →
      t.mem = s.mem ∧ Started s t c o.id 32 ∧ ∀ r, r ≠ phys → AMap.get 0 (t.sl c).vreg r = AMap.get 0 (s.sl c).vreg r)) ∧
  (∀ (s : State) (c : Nat) (o : MOp), (mxOf s c).ops.find? (fun o => o.path == 3 && o.over (s.core c).ncyc) = some o →
    ∃ t, exec (.eGlazeComplete c) s = .next t ∧ t.mem = s.mem ∧ (∀ p, p ∈ (mxOf t c).ops ↔ p ∈ (mxOf s c).ops ∧ p.id ≠ o.id) ∧
      ∀ slot g hold h n, o.drainEnd = some (slot, g, hold, h, n) →
        let pois := ∃ i ∈ groupSlots slot g, (AMap.get Ring.empty (mxOf s c).ring i).pois = true
        (t.sl c).tl2.val = ((s.sl c).tl2.fin o.num).val ∧ (t.sl c).tl2.out = ((s.sl c).tl2.fin o.num).out ∧
        (∀ i, i < 8 → (mxOf t c).slot i = if hold = false ∧ i ∈ groupSlots slot g then .free else (mxOf s c).slot i) ∧
        (h = none → t.clusters = s.clusters) ∧
        (∀ k, h = some k → (s.handle (clOf c) (s.ctxOf c) k).st = 1 → t.handle (clOf c) (s.ctxOf c) k =
          { s.handle (clOf c) (s.ctxOf c) k with cnt := (s.handle (clOf c) (s.ctxOf c) k).cnt + n }.settle s.ccyc) ∧
        (¬ pois → t.traps = s.traps ∧ (t.sl c).tl2.flt = (s.sl c).tl2.flt) ∧
        (pois → t.traps.length = s.traps.length + 1 ∧ (t.sl c).tl2.flt = o.num :: (s.sl c).tl2.flt)) ∧
  (∀ (s : State) (c : Nat), (s.nextStart c 3 = none → exec (.eGlazeStart c) s = .next s) ∧
    ((∀ o ∈ (mxOf s c).ops, o.start = none) → exec (.eGlazeComplete c) s = .next s)) ∧
  (∀ (e : HEnt) (now : Nat),
    (e.st = 1 → e.tgt ≤ e.cnt → e.zeroAt = none → e.settle now = { e with st := 2, gen := (e.gen + 1) % 65536, fullAt := now + 1 }) ∧
    (e.st ≠ 1 ∨ e.cnt < e.tgt ∨ e.zeroAt ≠ none → e.settle now = e))

/-- Copies at work (R340, R356, R358, R366, R370, R371, R374, R377, R381 to R383): which operation a unit or the engine starts, a multicast's bytes and
credit, an advance of a software timeline, a delivery into a ring (of this chip's `SEND` or another's) and a message taken from one, the registers that
a scale load fills, and an end, which passes the operation's timeline. Each event answers a next state: with its operation's effect when one is there and
due, else the state as it is. -/
def Obligations.CopyEvents : Prop :=
  (∀ (s : State) (c u : Nat) (e : EOp), s.unitHead c u = some e →
    (s.copyDue c u = true → ∃ t, exec (.eCopyStart c u) s = .next t ∧ t = s.beginOp e) ∧
    (s.copyDue c u = false → exec (.eCopyStart c u) s = .next s)) ∧
  (∀ (s : State) (cl : Nat), let lost := 11 ∈ (s.cluster cl).fences
    let fails := fun (e : EOp) => s.endOp e (some (0x83, BitVec.ofNat 64 (16 * cl % 256 + 11 * 256)))
    (s.bteDue cl = false → exec (.eBteStart cl) s = .next s) ∧
    (∀ e, s.bteResume cl = some e → ∃ t, exec (.eBteStart cl) s = .next t ∧ (¬ lost → t = s.beginOp e) ∧ (lost → t = fails e)) ∧
    (∀ e, s.bteResume cl = none → s.bteHead cl = some e → s.bteDue cl = true → ∃ t, exec (.eBteStart cl) s = .next t ∧ (lost → t = fails e) ∧
      (¬ lost → s.inPhase e = false → t = s.beginOp e) ∧ (¬ lost → s.inPhase e = true → t = s.beginLate e))) ∧
  (∀ (s : State) (cl : Nat) (e : EOp), s.bteHead cl = some e → e ∈ s.eops ∧ e.start = none ∧ e.eff ≤ s.gcyc ∧
    ∀ o ∈ s.eops, o.unit = 2 → o.start = none → o.ended = false → clOf o.core = cl → o.eff ≤ s.gcyc → e.eff ≤ o.eff) ∧
  (∀ (s : State) (id : Nat) (e : EOp), s.eops.find? (fun e => e.id == id && !e.ended) = some e →
    (s.endDue e = true → ∃ t, exec (.eCopyEnd id .ok) s = .next t ∧ t = s.endOp e e.fault) ∧
    (s.endDue e = false → exec (.eCopyEnd id .ok) s = .next s) ∧
    (∀ code d, (engCode code = true → ∃ t, exec (.eCopyEnd id (.fault code d)) s = .next t ∧ t = s.endOp e (some (code, BitVec.ofNat 64 d)) ∧
        ((∀ m, e.work ≠ .glaze (some m)) → t.traps.length = s.traps.length + 1)) ∧
      (engCode code = false → exec (.eCopyEnd id (.fault code d)) s = .next s)) ∧
    (∀ data mask dst, e.work = .multi data mask dst →
      (e.endAt ≤ s.ccyc → e.tl < 4 → ∃ t, exec (.eMulticast id) s = .next t ∧
        (∀ a, (∀ j ∈ maskCores (clOf e.core) mask, a < padKey j dst ∨ padKey j dst + data.length ≤ a) → t.rd8 a = s.rd8 a) ∧
        (∀ j ∈ maskCores (clOf e.core) mask, ∀ i b, data[i]? = some b → dst + data.length ≤ 2 ^ 21 →
          (∀ o ∈ s.eops, e.later o = true → o.wrote = []) → t.rd8 (padKey j (dst + i)) = b)) ∧
      (s.ccyc < e.endAt → exec (.eMulticast id) s = .next s)) ∧
    ((∀ data mask dst, e.work ≠ .multi data mask dst) → exec (.eMulticast id) s = .next s)) ∧
  (∀ (s : State) (c u : Nat) (e : EOp), s.unitHead c u = some e →
    (∀ k n, e.work = .tladv k n → s.tladvDue e = true → ∃ t, exec (.eTladv c u) s = .next t ∧ t.mem = s.mem ∧
      (∀ p, p ∈ t.eops ↔ p ∈ s.eops ∧ p.id ≠ e.id) ∧ (t.ctl_ (clOf e.core) e.ctx k).val = (match n with
        | none => ((s.ctl_ (clOf e.core) e.ctx k).val + 1) % 2 ^ 64
        | some x => max (s.ctl_ (clOf e.core) e.ctx k).val x)) ∧
    (s.tladvDue e = false ∨ (∀ k n, e.work ≠ .tladv k n) → exec (.eTladv c u) s = .next s)) ∧
  (∀ (s : State) (c u : Nat) (e : EOp) cap src len kept item w0 r h tail slot depth, s.unitHead c u = some e → e.work = .send cap src len kept item →
    s.sendDue e = true → s.capWords e cap = (w0, r) → s.sendAway w0 = false → bitsN w0 59 2 = 0 → bitN w0 58 = false →
    s.ring r = some (h, tail, slot, depth) → let data := kept.getD (s.rdBytes (padKey e.core src) len); let m := ringSlot r slot depth tail
    data.length ≤ slot → ∃ t, exec (.eSendDeliver c (.unit u)) s = .next t ∧
      t.rdBytes (m + 64) data.length = data ∧ t.rdN m 8 = item.toNat ∧ t.rdN (r + 8) 8 = (tail + 1) % 2 ^ 64 ∧
      ∀ a, a + 1 ≤ r + 8 ∨ r + 16 ≤ a → a < m ∨ m + 64 + data.length ≤ a → t.rd8 a = s.rd8 a) ∧
  (∀ (s : State) (c : Nat) (f : FarSend), ∃ t, exec (.eSendDeliver c (.far f)) s = .next t ∧
    ∀ h tail slot depth, s.deadCtx f.ectx = false → f.sig = none → s.ring f.ring = some (h, tail, slot, depth) → f.data.length ≤ slot →
      (tail + 2 ^ 64 - h) % 2 ^ 64 < depth → let m := ringSlot f.ring slot depth tail
      t.rdBytes (m + 64) f.data.length = f.data ∧ t.rdN m 8 = f.item.toNat ∧ t.rdN (f.ring + 8) 8 = (tail + 1) % 2 ^ 64 ∧
      ∀ a, a + 1 ≤ f.ring + 8 ∨ f.ring + 16 ≤ a → a < m ∨ m + 64 + f.data.length ≤ a → t.rd8 a = s.rd8 a) ∧
  (∀ (s : State) (c u : Nat) (e : EOp) cap dst len h tail slot depth, s.unitHead c u = some e → e.work = .recv cap dst len → s.recvDue e = true →
    s.ring (s.capWords e cap).2 = some (h, tail, slot, depth) → (∀ o ∈ s.eops, e.later o = true → o.wrote = []) →
    let r := (s.capWords e cap).2; let m := ringSlot r slot depth h; let n := min (bitsN (s.rdN (m + 8) 8) 0 13) len; let k := padKey e.core dst
    k + 64 + n ≤ r ∨ r + 8 ≤ k → k + 64 + n ≤ m ∨ m + 64 + n ≤ k → ∃ t, exec (.eRecvTake c u) s = .next t ∧
      t.rdBytes k 16 = s.rdBytes m 16 ∧ t.rdBytes (k + 64) n = s.rdBytes (m + 64) n ∧ t.rdN r 8 = (h + 1) % 2 ^ 64 ∧
      ∀ a, a < r ∨ r + 8 ≤ a → a < k ∨ k + 64 + n ≤ a → t.rd8 a = s.rd8 a) ∧
  (∀ (s : State) (c : Nat) (p : Pend), (s.sl c).duePend Wr.isScale = some p → ∀ js tl num, p.wr = .scale js tl num →
    ∃ t, exec (.eCsclLanding c) s = .next t ∧ t.mem = s.mem ∧ (t.sl c).pend = (s.sl c).pend.erase p ∧ (t.sl c).tl tl = ((s.sl c).tl tl).fin num ∧
      (t.sl c).scale = (s.sl c).scale ∧ (t.sl c).scNew = (s.sl c).scNew ++ js) ∧
  (∀ (x : Slice) (j : Nat) (v : ScReg), x.scNew = [(j, v)] → x.newScales.scNew = [] ∧ AMap.get 0 x.newScales.scale j = v ∧
    ∀ i, i ≠ j → AMap.get 0 x.newScales.scale i = AMap.get 0 x.scale i) ∧
  (∀ (s : State) (c u : Nat), s.unitHead c u = none → exec (.eCopyStart c u) s = .next s ∧ exec (.eTladv c u) s = .next s ∧
    exec (.eSendDeliver c (.unit u)) s = .next s ∧ exec (.eRecvTake c u) s = .next s) ∧
  (∀ (s : State) (c : Nat), (s.sl c).duePend Wr.isScale = none → exec (.eCsclLanding c) s = .next s)

/-- Arrivals and landings, page walks, the end of a phase, trap records and queue pushes (R142, R145, R327, R329 to R332, R393). -/
def Obligations.CoreEvents : Prop :=
  (∀ (s : State) (c k : Nat) (bad : Bool), ∃ t, exec (.eLoadDataArrival c k bad) s = .next t ∧ t.mem = s.mem ∧ (t.sl c).sreg = (s.sl c).sreg ∧
    (∀ l ∈ (s.sl c).lands, l.key = k → l.here = false → { l with here := true, bad := bad } ∈ (t.sl c).lands) ∧
    ∀ l ∈ (s.sl c).lands, l.key ≠ k ∨ l.here = true → l ∈ (t.sl c).lands) ∧
  (∀ (s : State) (c : Nat), Event (.eLanding c) s (s.sl c).dueLand fun l t => l ∈ (s.sl c).lands ∧ l.due ≤ (s.sl c).tick ∧ (l.here = false → t = s) ∧
    (l.here = true → l.bad = false → t.mem = s.mem ∧ (∀ m ∈ (t.sl c).lands, m.key ≠ l.key) ∧
      ∀ r v, l.wr = .sreg r v → 0 < r → (t.sl c).sget r = v ∧ ∀ k, k ≠ r → (t.sl c).sget k = (s.sl c).sget k) ∧
    (l.here = true → l.bad = true → (t.core c).stop = .held ∧ t.traps.length = s.traps.length + 1)) ∧
  (∀ (s : State) (c : Nat), Event (.eLandingTimeout c) s (s.sl c).dueLand fun l t => (l.here = true ∨ (s.core c).frzRun < 2 ^ 20 → t = s) ∧
    (l.here = false → 2 ^ 20 ≤ (s.core c).frzRun → t.mem = s.mem ∧ (t.core c).stop = .held ∧ (∀ m ∈ (t.sl c).lands, m.key ≠ l.key) ∧
      ∃ r, t.traps = s.traps ++ [r] ∧ r.words[4]? = some (BitVec.ofNat 64 (l.arr + if l.vec then 256 else 0)))) ∧
  (∀ (s : State) (cl ctx va acc : Nat), ∃ t, exec (.ePageWalk cl ctx va acc) s = .next t ∧ t.iss.want = none ∧ t.cores = s.cores ∧
    (∀ x p, acc ≤ 4 → s.ctx? ctx = some x → s.walk x.root va acc = .ok p →
      (∀ a, a < p.1 ∨ p.1 + 8 ≤ a → t.rd8 a = s.rd8 a) ∧ bitN (t.rdN p.1 8) 7 = true ∧
      ((t.cluster cl).tlb.find? fun e => e.serves ctx va acc) ≠ none) ∧
    (∀ x e, s.ctx? ctx = some x → s.walk x.root va acc = .error e → t.mem = s.mem ∧ t.clusters = s.clusters)) ∧
  (∀ (s : State) (cl ctx va : Nat), ∃ t, exec (.eTlbInvalidate cl ctx va) s = .next t ∧ t.mem = s.mem ∧ t.cores = s.cores ∧
    ∀ e, e ∈ (t.cluster cl).tlb ↔ e ∈ (s.cluster cl).tlb ∧ ¬ (e.ctx = ctx ∧ va / 2 ^ e.bits = e.va / 2 ^ e.bits)) ∧
  (∀ s : State, exec .ePhaseEnd s = .next (if s.ccyc < s.phaseEnd then s else { s with phaseEnd := 0, phaseLo := 0, phaseHi := 0 })) ∧
  (∀ (s : State) (ctx : Nat), Event (.eTrapDeliver ctx) s (firstIdx (fun r => r.ctx == ctx && s.trapDue r) s.traps) fun i t =>
    ∀ r x h tail slot depth, s.traps[i]? = some r → r.queue = true → r.err = false → s.ctx? ctx = some x → s.ring x.tq = some (h, tail, slot, depth) →
      (tail + 2 ^ 64 - h) % 2 ^ 64 < depth → r.words.length = 8 → 64 ≤ slot →
      t.traps = s.traps.eraseIdx i ∧ t.cores = s.cores ∧ t.rdN (x.tq + 8) 8 = (tail + 1) % 2 ^ 64 ∧
      ∀ k w, r.words[k]? = some w → t.rdN (ringSlot x.tq slot depth tail + 64 + 8 * k) 8 = w.toNat) ∧
  (∀ (s : State) (q : Nat), Event (.eQueuePush q) s (s.queues.find q) fun x t => t.cores = s.cores ∧ ∀ p, x.nextFly = some p →
    (s.ccyc < p.at_ → t = s) ∧
    (p.at_ ≤ s.ccyc → t.queues.find q = some { x with items := x.items ++ [⟨p.val, 0, p.src⟩], fly := x.fly.erase p, tail := x.tail + 1 } ∧
      (x.phys = true → t.mem = s.mem)))

namespace Sys2Proof.Claims

/-- The places of a slice's registers, ring slots and lane slices lie inside its record of 1 MiB (R397). -/
def RecFits (x : Slice) : Prop :=
  (∀ p ∈ x.loops, p.1 < 4) ∧ (∀ p ∈ x.strms, p.1 < 8) ∧ (∀ p ∈ x.scale, p.1 < 4) ∧ (∀ p ∈ x.vreg, p.1 < 80) ∧
  (∀ p ∈ x.mx.ring, p.1 < 8 ∧ ∀ r ∈ p.2.rows, r.1 < 64) ∧ ∀ p ∈ x.lanes, p.1 < 65536

end Sys2Proof.Claims

/-- Slices (R109, R161 to R163, R315, R384, R394, R395, R397, R399): a dispatch's record, budget and fresh state, with what an ended slice of the record
left; a decision point at an item boundary, where the slice ends or goes on, and what an end leaves in a record; the budget's trap; pre-emption and the
hard stop; what a save puts into its record and into memory, and what a restore brings back; a kill, which a running `MMAG` holds up. -/
def Obligations.SliceEvents : Prop :=
  (∀ (s : State) (c : Nat), (s.dispatchDue c = false → exec (.eSliceDispatch c) s = .next s) ∧
    ∀ k b x, s.dispatchDue c = true → s.bestRec c = some (k, b) → s.insts.find b.inst = some x → ∃ t, exec (.eSliceDispatch c) s = .next t ∧
      (t.core c).run = some ⟨k, x.ctx, b.inst, b.stage, b.pipe, b.deadline, b.budget⟩ ∧ (t.core c).budget = b.budget ∧ (t.core c).stop = .none ∧
      (∀ d, d ≠ c → t.core d = s.core d) ∧
      (s.idleWork c k b = 1 → t.mem = s.mem ∧ t.sl c = Slice.zero) ∧
      (s.idleWork c k b ≠ 1 → (t.sl c).sreg = [] ∧ (t.sl c).preds = 0 ∧ (t.sl c).loops = [] ∧ (t.sl c).strms = [] ∧
        (∀ y, s.ctx? x.ctx = some y → (t.sl c).e4sat = y.e4sat ∧ (t.sl c).rnddef = y.rnddef ∧ (t.sl c).seed = y.seed) ∧
        (s.leftOf b x.ctx false = none → t.mem = s.mem ∧ (t.sl c).tick = 0 ∧ (t.sl c).pend = []) ∧
        ∀ q y, s.leftOf b x.ctx false = some q → q.sl = some y → (t.sl c).tick = y.tick ∧ (t.sl c).pend = y.pend ∧ (t.sl c).lands = y.lands ∧
          (t.sl c).tl0 = y.tl0 ∧ q ∉ t.recs)) ∧
  (∀ (s : State) (c : Nat), (s.boundaryDue c = false → exec (.eItemBoundary c) s = .next s) ∧
    (s.boundaryDue c = true → ∃ t, exec (.eItemBoundary c) s = .next t ∧ ∀ r, (s.core c).run = some r → let stop := (s.core c).stop
      (stop = .finish → s.leaves c = false ∨ s.freeRec r.ctx ≠ none → (t.core c).run = none ∧ t.sl c = Slice.zero) ∧
      (∀ i, stop = .finish → s.leaves c = true → s.freeRec r.ctx = some i → ∃ q ∈ t.recs, q.ctx = r.ctx ∧ q.idx = i ∧ q.left = true ∧
        ∃ x, q.sl = some x ∧ x.pend = (s.sl c).pend ∧ x.lands = (s.sl c).lands ∧ x.tick = (s.sl c).tick) ∧
      (stop ≠ .finish → stop ≠ .again → (s.sl c).walk ≠ none → (s.sl c).yield = true →
        (t.core c).stop = .finish ∧ (t.core c).run = (s.core c).run) ∧
      (stop ≠ .finish → stop ≠ .again → (s.sl c).walk = none → stop ≠ .none ∨ (s.core c).move ≠ none ∨ s.lostTo c = true →
        t.core c = { s.core c with stop := .finish } ∧ t.mem = s.mem) ∧
      (∀ b, stop = .none → (s.core c).move = none → (s.sl c).walk = none → s.lostTo c = false → (s.cluster (clOf c)).binds.find r.slot = some b →
        b.inst = r.inst → (s.workOf c r.slot b = 0 → t = s.updCore c fun q => { q with stop := .finish }) ∧
          (s.workOf c r.slot b = 1 → t = s.updCore c fun q => { q with stop := .again }) ∧ (s.workOf c r.slot b = 3 →
            (t.core c).run = some r ∧ (t.core c).stop = .none ∧ (t.sl c).pend = (s.sl c).pend ∧ (t.sl c).sreg = (s.sl c).sreg)))) ∧
  (∀ (s : State) (c : Nat), ∃ t, exec (.eBudget c) s = .next t ∧ t.mem = s.mem ∧
    (∀ r, (s.core c).live = true → (s.core c).budget = 0 → (s.core c).run = some r → (t.core c).stop = .budget ∧
      ∃ q, t.traps = s.traps ++ [q] ∧ q.ctx = r.ctx ∧ q.words[4]? = some (BitVec.ofNat 64 (r.budget % 2 ^ 32 + r.stage % 16 * 2 ^ 32))) ∧
    ((s.core c).live = false ∨ (s.core c).budget ≠ 0 → t = s)) ∧
  (∀ (s : State) (c : Nat), ∃ t, exec (.ePreempt c) s = .next t ∧ t.mem = s.mem ∧ (∀ d, d ≠ c → t.core d = s.core d) ∧
    ((s.core c).run ≠ none → (s.core c).stop = .none → t.core c =
      { s.core c with stop := .preempt s.ccyc, stopped := (s.sl c).id != 0 && (s.sl c).orec.isNone }) ∧
    ((s.core c).run = none ∨ (s.core c).stop ≠ .none → t.core c = s.core c)) ∧
  (∀ (s : State) (c : Nat), ∃ t, exec (.eHardStop c) s = .next t ∧
    (∀ r, (s.core c).stop = .preempt r → r + 4096 ≤ s.ccyc → (s.core c).stopped = false → (s.core c).frzRun = 0 →
      t = s.setCore c { s.core c with stopped := true }) ∧
    ((∀ r, (s.core c).stop = .preempt r → s.ccyc < r + 4096 ∨ (s.core c).stopped = true ∨ 0 < (s.core c).frzRun) → t = s)) ∧
  (∀ (s : State) (c : Nat), (s.saveDue c = false → exec (.eSliceSave c) s = .next s) ∧
    ∀ r, s.saveDue c = true → (s.core c).run = some r → ∃ t, exec (.eSliceSave c) s = .next t ∧
      (∀ i, s.freeRec r.ctx = some i → (t.core c).run = none ∧ t.sl c = Slice.zero ∧ (∃ q x, q ∈ t.recs ∧ q.sl = some x ∧
          q.ctx = r.ctx ∧ q.idx = i ∧ q.run = r ∧ q.resume = (s.sl c).pc ∧ q.kind = (if (s.core c).stop = .held then 2 else 0) ∧
          x = { s.sl c with mx := (s.sl c).mx.save, gens := [] }) ∧
        ∀ b, s.recAt r.ctx i = some b → t.rdN b 8 = 2 ^ 63 + (if (s.core c).stop = .held then 2 else 0) * 2 ^ 61 ∧
          t.rdN (b + 8) 8 = (s.sl c).pc.toNat % 2 ^ 52 ∧ (RecFits (s.sl c) → ∀ a, a < b ∨ b + recSize ≤ a → t.rd8 a = s.rd8 a)) ∧
      (s.freeRec r.ctx = none → (∃ q ∈ t.traps, q.ctx = r.ctx) ∧ ∀ x, t.ctx? r.ctx = some x → x.stopped = true)) ∧
  (∀ (s : State) (c i : Nat), Event (.eSliceRestore c i) s (s.restoreRec c i) fun q t => ∀ x, q.sl = some x →
    (t.sl c).pc = s.resumeOf q ∧ (t.sl c).sreg = x.sreg ∧ (t.sl c).preds = x.preds ∧ (t.sl c).gpreds = x.gpreds ∧ (t.sl c).vreg = x.vreg ∧
    (t.sl c).vmask = x.vmask ∧ (t.sl c).loops = x.loops ∧ (t.sl c).strms = x.strms ∧ (t.sl c).scale = x.scale ∧ (t.sl c).gens = x.gens ∧
    (t.sl c).pend = x.pend ∧ (t.sl c).lands = x.lands ∧ (t.sl c).tick = x.tick ∧ (t.sl c).tl0 = x.tl0 ∧ (t.sl c).orec = x.orec ∧
    (t.sl c).shadow = x.shadow ∧ (∀ p ∈ t.recs, p.ctx ≠ q.ctx ∨ p.idx ≠ q.idx) ∧
    (∀ b, s.recAt q.ctx q.idx = some b → t.rdN b 8 = 0) ∧
    ∀ a, (∀ b, s.recAt q.ctx q.idx = some b → a < b ∨ b + 8 ≤ a) → t.rd8 a = s.rd8 a) ∧
  (∀ (s : State) (c : Nat), ((s.core c).run = none → exec (.eSliceKill c) s = .next s) ∧
    ((s.core c).run ≠ none → (s.core c).inGang = true → exec (.eSliceKill c) s = .next (s.updCore c fun k => { k with stop := .kill })) ∧
    ((s.core c).run ≠ none → (s.core c).inGang = false → ∃ t, exec (.eSliceKill c) s = .next t ∧ t.mem = s.mem ∧ (t.core c).run = none ∧
      t.sl c = Slice.zero ∧ (∀ e ∈ t.eops, e.sid ≠ (s.sl c).id ∨ e.start ≠ none) ∧
      ∀ o ∈ (mxOf s c).ops, o.path = 3 → o.start ≠ none → o.drainEnd ≠ none → ∃ e ∈ t.eops, e.id = o.id ∧ e.sid = (s.sl c).id ∧ e.tl = 2 ∧
        e.num = o.num ∧ e.endAt = o.last + 1))

/-- Tiles and what a cluster's engines do around them (R101, R105, R108, R109, R134, R135, R188, R418): the shadow record of a tile, the swap into s40 to
s55, an operator's completion or the collective that follows its partial product, a fence's K flag, a handle's release, the zeroing of granules, and a
chunk's page-in. -/
def Obligations.TileEvents : Prop :=
  (∀ (s : State) (c op tile : Nat), Event (.eShadowWrite c op tile) s (s.lops.find op) fun o t => (s.shadowDue c op tile o = false → t = s) ∧
    (s.shadowDue c op tile o = true → s.lopStale o = none →
      t.lops.find op = some { o with tiles := o.tiles.filter fun p => p.1 != tile, live := o.live + 1 } ∧
      (t.sl c).sreg = (s.sl c).sreg ∧ (t.sl c).orec = (s.sl c).orec ∧
      ∃ r, (t.sl c).shadow = some r ∧ r.lop = op ∧ ∃ pos, r.words = tileWords o tile pos (s.sl c).tileCnt s.fresh (s.sl c).item) ∧
    (s.shadowDue c op tile o = true → ∀ h, s.lopStale o = some h → ∃ r ∈ t.traps, r.ctx = o.ctx)) ∧
  (∀ (s : State) (c : Nat), Event (.eOpSwap c) s (s.sl c).shadow fun r t => (s.swapDue c = false → t = s) ∧
    (s.swapDue c = true → t.mem = s.mem ∧ (t.sl c).orec = some r ∧ (t.sl c).shadow = none ∧ (t.sl c).pc = r.entry ∧
      (∀ i v, i < 16 → r.words[i]? = some v → AMap.get 0 (t.sl c).sreg (40 + i) = v) ∧
      (∀ k, k < 40 ∨ 56 ≤ k → AMap.get 0 (t.sl c).sreg k = AMap.get 0 (s.sl c).sreg k) ∧
      (s.core c).extra ≤ (t.core c).extra ∧ (r.builtin = false → (t.core c).extra < (s.core c).extra + 12))) ∧
  (∀ (s : State) (op : Nat), Event (.eOpComplete op) s (s.lops.find op) fun o t => (s.lopDue op o = false → t = s) ∧
    (s.lopDue op o = true →
      (o.kind = 1 ∨ o.kind = 3 ∨ o.kind = 0 ∧ o.parts = false → t.mem = s.mem ∧ t.lops.find op = none ∧
        ∀ d ∈ o.outs, ∀ h, d.hnd = some h → (s.handle o.cluster o.ctx h).alloc = d.alloc → (s.handle o.cluster o.ctx h).zeroAt = none →
          (t.handle o.cluster o.ctx h).st ≠ 1) ∧
      (o.kind = 0 → o.parts = true → t = s.updLop op fun p => p.summed.next (s.lopLev o).1 (s.lopLev o).2) ∧
      (o.kind = 3 → ∀ w r c k, o.ins = .lFence w r → bitN (r.word 0x101 0) 0 = true → s.fenceCores o (r.word 0x100 2 % 4) c = true →
        t.cores.find c = some k → k.kcache = []))) ∧
  (∀ (s : State) (cl ctx h : Nat), ∃ t, exec (.eHandleRelease cl ctx h) s = .next t ∧ t.mem = s.mem ∧
    ((s.handle cl ctx h).st = 3 → (∀ n ∈ (s.handle cl ctx h).wait, s.opDone n = true) →
      t.handle cl ctx h = { HEnt.free with gen := (s.handle cl ctx h).gen }) ∧
    ((s.handle cl ctx h).st ≠ 3 ∨ (∃ n ∈ (s.handle cl ctx h).wait, s.opDone n = false) → t = s)) ∧
  (∀ (s : State) (cl ctx h : Nat), Event (.eZeroFill cl ctx h) s (s.handle cl ctx h).zeroAt fun n t => (s.ccyc < n → t = s) ∧
    (n ≤ s.ccyc → t.mem = s.mem ∧ t.handle cl ctx h = { s.handle cl ctx h with zeroAt := none }.settle s.ccyc)) ∧
  (∀ (s : State) (cl obj chunk : Nat) (bad : Bool), ∃ t, exec (.eChunkPageIn cl obj chunk bad) s = .next t ∧ t.mem = s.mem ∧
    (∀ o key l pa, s.objs.find obj = some o → o.keys[chunk]? = some key → s.storeRoom cl = some l → cl < 16 → o.fenced = false →
      l.contains (obj, chunk) = false → s.chunkPA key = some pa →
        (bad = false → chunkKey (s.rdBytes pa 4096) = key → (obj, chunk) ∈ (t.cluster cl).store) ∧
        (bad = true ∨ chunkKey (s.rdBytes pa 4096) ≠ key → t.clusters = s.clusters ∧
          (o.badOnce.contains (16 * chunk + cl) = false → t.objs.find obj = some { o with badOnce := o.badOnce ++ [16 * chunk + cl] }) ∧
          (o.badOnce.contains (16 * chunk + cl) = true → ∀ p, t.objs.find obj = some p → p.fenced = true))))

/-- SCHED's tables and Knead (R160, R163 to R166): a bind record written and the others kept, KNCFG's ranges, a decision point, and a move. -/
def Obligations.KneadEvents : Prop :=
  (∀ (s : State) (cl k : Nat) (r : BindRec), ∃ t, exec (.eBindWrite cl k r) s = .next t ∧
    (16 ≤ cl ∨ s.ctl.takeover = none ∧ s.schedUp = false → t = s) ∧
    (cl < 16 → s.ctl.takeover ≠ none → t.ctl.needs = s.ctl.needs ++ [(cl, k, r)] ∧ t.clusters = s.clusters) ∧
    (cl < 16 → s.schedUp = true → k < 64 → (s.ctl.needs.find? fun n => n.1 == cl) = none →
      (t.cluster cl).binds.find k = some (bindOf r) ∧ (∀ j, j ≠ k → (t.cluster cl).binds.find j = (s.cluster cl).binds.find j) ∧
      ∀ d, d ≠ cl → t.cluster d = s.cluster d)) ∧
  (∀ (s : State) (cl : Nat) (v : W64), ∃ t, exec (.eKncfgWrite cl v) s = .next t ∧ t.mem = s.mem ∧
    (kncfgOk v = true → cl < 16 → (t.cluster cl).kncfg = v) ∧ (kncfgOk v = false → t = s)) ∧
  (∀ (s : State) (cl : Nat), ∃ t, exec (.eKnead cl) s = .next t ∧ t.mem = s.mem ∧ (t.cluster cl).binds = (s.cluster cl).binds ∧
    (s.kneadDue cl = false → t = s) ∧
    (s.kneadDue cl = true → ∀ l, l < 16 → (t.core (16 * cl + l)).hold = (s.core (16 * cl + l)).hold - 1 ∧
      (t.core (16 * cl + l)).run = (s.core (16 * cl + l)).run ∧
      ∀ m, (s.core (16 * cl + l)).move = some m → (t.core (16 * cl + l)).move = some m)) ∧
  (∀ (s : State) (cl l : Nat), Event (.eKneadMove cl l) s (s.core (16 * cl + l)).move fun m t => ((s.core (16 * cl + l)).run ≠ none → t = s) ∧
    ((s.core (16 * cl + l)).run = none → l < 16 → (t.core (16 * cl + l)).move = none ∧ (t.core (16 * cl + l)).hold = 2 ∧
      (∀ b, (t.cluster cl).binds.find m.2.1 = some b → b.crew.getLsbD l = true) ∧
      (m.1 ≠ m.2.1 → ∀ b, (t.cluster cl).binds.find m.1 = some b → b.crew.getLsbD l = false)))

/-- Instances and launches (R143, R168, R171, R172, R179, R202, R399): the start of an instance and its walk, its completion and its kill, marks in a
launch's window with the base's advance, a forwarded record accepted or ignored, and a collective that completes or faults on this chip. -/
def Obligations.InstanceEvents : Prop :=
  (∀ (s : State) (l i : Nat), (s.startDue l i = false → exec (.eInstStart l i) s = .next s) ∧
    ∀ x, s.startDue l i = true → s.launches.find l = some x → ∃ t y w, exec (.eInstStart l i) s = .next t ∧ t.mem = s.mem ∧
      t.insts.find (l * 2 ^ 24 + i) = some y ∧ y.launch = l ∧ y.idx = i ∧ y.ctx = x.ctx ∧ y.obj = x.obj ∧ y.cores = unitCores x.levels x.clmask i ∧
      y.started = true ∧ y.done = false ∧ t.walks.find y.walk = some w ∧ w.inst = l * 2 ^ 24 + i ∧ w.stage = none ∧ w.st = 0 ∧
      ∃ f, w.frames = [f] ∧ f.fn = x.func ∧ f.ip = 0 ∧ f.params.length = x.args.length) ∧
  (∀ (s : State) (i : Nat), Event (.eInstComplete i) s (s.insts.find i) fun x t => (s.instDue i x = false → t = s) ∧
    (s.instDue i x = true → ((∀ q ∈ s.recs, q.run.inst ≠ i) → t.mem = s.mem) ∧
      t.insts.find i = some { x with done := true, ewalks := [], stages := [] } ∧ (∀ q ∈ t.recs, q.run.inst ≠ i) ∧
      (∀ p ∈ t.queues, p.2.inst ≠ i) ∧ (∀ p ∈ t.walks, p.2.inst ≠ i) ∧ t.cores = s.cores)) ∧
  (∀ (s : State) (i : Nat), Event (.eInstKill i) s (s.insts.find i) fun x t => (x.done = true → t = s) ∧
    (x.done = false → s.gangHeld (fun r => r.inst == i) = true → t.insts.find i = some { x with killing := true } ∧ t.mem = s.mem ∧
      ∀ c k r, s.cores.find c = some k → k.run = some r → r.inst = i → (t.core c).stop = .kill) ∧
    (x.done = false → s.gangHeld (fun r => r.inst == i) = false → (∃ y, t.insts.find i = some y ∧ y.done = true ∧ y.killed = true) ∧ (∀ p ∈ t.queues, p.2.inst ≠ i) ∧
      (∀ p ∈ t.lops, p.2.inst ≠ i) ∧ (∀ q ∈ t.recs, q.run.inst ≠ i) ∧ ∀ c r, (t.core c).run = some r → r.inst ≠ i)) ∧
  (∀ (s : State) (l i : Nat) (k : Bool), Event (.eMemberDone l i k) s (s.launches.find l) fun x t =>
    (i < x.b ∨ x.total ≤ i ∨ (∃ m ∈ x.marks, m.1 = i) → t = s) ∧
    (x.b < i → i < x.total → x.done = false → (∀ m ∈ x.marks, m.1 ≠ i ∧ m.1 ≠ x.b) →
      t.launches.find l = some { x with marks := x.marks ++ [(i, k)], killed := x.killed || k } ∧ t.ctl = s.ctl) ∧
    (i = x.b → i < x.total → x.done = false → (∀ m ∈ x.marks, m.1 ≠ i) → ∃ y, t.launches.find l = some y ∧ x.b < y.b)) ∧
  (∀ (s : State) (ctx src obj seq : Nat) (ws : List W64), ∃ t, exec (.eFwdLaunch ctx ws src obj seq) s = .next t ∧
    (s.hostLaunch ctx obj (ws.map (·.toNat)) = none ∨ s.group.stOf s.group.chip ≠ 2 ∨ s.group.stOf src ≠ 2 → t = s) ∧
    (∀ r vs, s.hostLaunch ctx obj (ws.map (·.toNat)) = some (r, vs) → s.group.stOf s.group.chip = 2 → s.group.stOf src = 2 →
      ∃ y, t.launches.find s.ids = some y ∧ y.ctx = ctx ∧ y.obj = obj ∧ y.func = r.func ∧ y.args = vs ∧ y.levels = r.levels ∧
        y.src = some (src, seq) ∧ y.host = none ∧ y.chips = s.group.members)) ∧
  (∀ (s : State) (op : Nat) (rem : List (Nat × List Nat)), Event (.eCollComplete op rem) s (s.lops.find op) fun o t => (o.kind ≠ 2 → t = s) ∧
    (∀ p, o.kind = 2 → s.collCause o = some p → t.lops.find op = none ∧ (∃ r ∈ t.traps, r.ctx = o.ctx) ∧
      ∀ x, s.insts.find o.inst = some x → x.done = false → ∃ y, t.insts.find o.inst = some y ∧
        (y.killed = true ∨ y.killing = true ∧ s.gangHeld (fun r => r.inst == o.inst) = true)) ∧
    (∀ w r, o.kind = 2 → s.collCause o = none → o.ins = .lAred w r ∨ o.ins = .lAgath w r ∨ o.ins = .lRscat w r ∨ o.ins = .lA2a w r →
      (s.collBlock o rem = some none → t = s) ∧
      (s.collBlock o rem = none → t = s.runColl o rem ∧
        ∀ q xs u, o.coll = some q → memberArgs o q.k rem ((List.range o.set_.length).zip o.set_) s = .ok (xs, u) →
          (s.collShape o q xs rem = none → ∀ m ∈ s.mates o, m.2.2.steps = [] → t.lops.find m.2.1 = none) ∧
          ((s.collShape o q xs rem).isSome = true → s.mates o ≠ [] → ∃ r ∈ t.traps, r.ctx = o.ctx ∨ ∃ m ∈ s.mates o, r.ctx = m.2.2.ctx))))

/-- Pipelines (R154 to R158, R167): the three steps of a queue's watchdog, and the tile-walk engines' steps: a tile pushed with its count on the
timeline, a permit that names no region of the walk, a fenced engine, the window's release, a store's item, and its store, which no full permit queue
holds back. -/
def Obligations.PipelineEvents : Prop :=
  (∀ (s : State) (q : Nat), Event (.eW1 q) s (s.queues.find q) fun x t => t.mem = s.mem ∧ (x.wDue 1 = false → t = s) ∧
    (x.wDue 1 = true → t.queues.find q = some { x with wstep := 1 } ∧
      ∀ c ∈ s.consCores q, (s.core c).run ≠ none → (s.core c).stop = .none → (t.core c).stop = .preempt s.ccyc)) ∧
  (∀ (s : State) (q : Nat), Event (.eW2 q) s (s.queues.find q) fun x t => (x.wDue 2 = false → t = s) ∧
    (x.wDue 2 = true → t.queues.find q = some { x with wstep := 2 } ∧ ∀ i k g u, s.consumer q = some (i, k, g, u) →
      (∀ c ∈ s.consCores q, (t.core c).stop = .kill) ∧ t.traps.length = s.traps.length + 1 ∧
      ∃ y g', t.insts.find i = some y ∧ y.stages[k]? = some g' ∧ g'.st = 3)) ∧
  (∀ (s : State) (q : Nat), Event (.eW3 q) s (s.queues.find q) fun x t => t.mem = s.mem ∧ (x.wDue 3 = false → t = s) ∧
    (x.wDue 3 = true → t.queues.find q = some { x with wstep := 3 } ∧ ∀ c ∈ s.consCores q, (t.core c).fenced = true)) ∧
  (∀ (s : State) (i j : Nat), (s.insts.find i = none → exec (.eLoadWalk i j) s = .next s) ∧ ∀ x, s.insts.find i = some x →
    Event (.eLoadWalk i j) s (x.ewalks.find j) fun e t => (s.loadAct x e = 0 → t = s) ∧
      ((s.cluster x.cluster).fences.contains (7 + j) = true → s.loadAct x e ≠ 0 → ∃ r ∈ t.traps, r.ctx = x.ctx) ∧
      ((s.cluster x.cluster).fences.contains (7 + j) = false →
        (∀ h n rest, s.loadAct x e = 1 → e.pend = (h, n) :: rest → t.mem = s.mem ∧ (t.ctl_ x.cluster x.ctx (4 + j)).val = n + 1 ∧
          t.insts.find i = some { x with ewalks := x.ewalks.upd j { e with pend := rest, n := n + 1 } }) ∧
        (∀ it u, s.loadAct x e = 2 → s.engPop e.pq = some (it, u) → e.regs.contains (it.val.toNat / 2 ^ 48) = false →
          ∃ r ∈ t.traps, r.ctx = x.ctx) ∧
        (s.loadAct x e = 3 → ∀ y, t.queues.find e.dq = some y → y.closed = true))) ∧
  (∀ (s : State) (i j : Nat), (s.insts.find i = none → exec (.eStoreWalk i j) s = .next s) ∧ ∀ x, s.insts.find i = some x →
    Event (.eStoreWalk i j) s (x.ewalks.find j) fun e t => (s.storeAct x e = 0 → t = s) ∧
      ((s.cluster x.cluster).fences.contains (7 + j) = true → s.storeAct x e ≠ 0 → ∃ r ∈ t.traps, r.ctx = x.ctx) ∧
      ((s.cluster x.cluster).fences.contains (7 + j) = false →
        (s.storeAct x e = 1 → t.mem = s.mem ∧
          t.insts.find i = some { x with ewalks := x.ewalks.upd j { e with b := e.b + 1, marks := e.marks.filter (· != e.b) } }) ∧
        (∀ it u, s.storeAct x e = 2 → s.engPop e.dq = some (it, u) → t.mem = s.mem ∧
          t.insts.find i = some { x with ewalks := x.ewalks.upd j { e with cur := some (it.val, it.src) } }) ∧
        (∀ v src u, s.storeAct x e = 3 → e.cur = some (v, src) → (e.put x.cluster x.ctx (v.toNat % 2 ^ 32)
            (s.handle x.cluster x.ctx (v.toNat / 2 ^ 48)).region.g0 (if src < 256 then src else x.coreSet.headD (16 * x.cluster))).run.run s = (.ok (), u) →
          t.mem = u.mem ∧ (t.ctl_ x.cluster x.ctx (4 + j)).val = e.n + 1)))


namespace Sys2Proof.Claims

/-- FABRIC takes up a flit that it has not seen, in a chip that is in the group or joins it (R190, R192, R198). -/
def Taken (s : State) (f : Flit) (typ : Nat) : Prop :=
  s.fabUp = true ∧ f.mz = 0 ∧ s.group.stOf s.group.chip ≠ 0 ∧ s.group.stOf s.group.chip ≠ 5 ∧ s.group.seen.contains (f.src, typ, f.tsend) = false

/-- A chip's own state in its table. -/
def ownSt (s : State) : Nat := s.group.stOf s.group.chip

end Sys2Proof.Claims

/-- Control flits received (R190 to R193, R196, R198, R199, R200): each type's change of the sender's or the named chip's entry, the counters of
discarded, late and disagreeing ones; and no type acts where FABRIC does not run. -/
def Obligations.FlitEvents : Prop :=
  (∀ (s : State) (f : Flit), ∃ t, exec (.eLimit f) s = .next t ∧ (s.fabUp = false → t = s) ∧
    (s.fabUp = true → f.mz ≠ 0 → t.group.badctl = s.group.badctl + 1 ∧ t.group.tbl = s.group.tbl) ∧
    (∀ m, Taken s f 1 → s.group.tbl.find f.src = some m → (s.gcyc + 64 ≤ f.teff → (t.group.entry f.src).lims = m.lims ++ [(f.code, f.tsend, f.teff)] ∧
        t.group.late = s.group.late) ∧
      (f.teff < s.gcyc + 64 → t.group.late = s.group.late + 1 ∧ (ownSt s = 2 → ownSt t = 3)))) ∧
  (∀ (s : State) (f : Flit), ∃ t, exec (.eHeartbeat f) s = .next t ∧ (s.fabUp = false → t = s) ∧
    (s.fabUp = true → f.mz = 0 → t.group.tbl = s.group.tbl ∧ (∀ n ∈ t.group.nbrs, n.chip = f.frm → n.last = s.gcyc ∧ n.tsend = f.tsend) ∧
      (ownSt s = 2 → s.group.stOf f.src = 2 →
        t.group.cmism = s.group.cmism + if f.aux = s.group.ceil f.tsend then 0 else 1))) ∧
  (∀ (s : State) (f : Flit), ∃ t, exec (.eSilent f) s = .next t ∧ (s.fabUp = false → t = s) ∧
    (Taken s f 3 → s.group.stOf f.chip = 2 → (t.group.entry f.chip).st = 3 ∧ (t.group.entry f.chip).self = false ∧
      (t.group.entry f.chip).drop = some f.teff)) ∧
  (∀ (s : State) (f : Flit), ∃ t, exec (.eSuspect f) s = .next t ∧ (s.fabUp = false → t = s) ∧
    (Taken s f 4 → s.group.stOf f.src = 2 → (t.group.entry f.src).st = 3 ∧ (t.group.entry f.src).self = true ∧
      (t.group.entry f.src).depart = some f.teff)) ∧
  (∀ (s : State) (f : Flit), ∃ t, exec (.eLeave f) s = .next t ∧ (s.fabUp = false → t = s) ∧
    (f.src ≠ s.group.chip → Taken s f 5 → s.group.stOf f.src = 2 → (t.group.entry f.src).st = 4 ∧ (t.group.entry f.src).depart = some f.teff) ∧
    (f.src = s.group.chip → s.fabUp = true → ownSt s = 2 → ownSt t = 4 ∧
      (t.group.entry s.group.chip).depart = some (s.gcyc + s.group.lead))) ∧
  (∀ (s : State) (f : Flit), ∃ t, exec (.eEvict f) s = .next t ∧ (s.fabUp = false → t = s) ∧
    (∀ m, Taken s f 8 → s.group.tbl.find f.chip = some m → m.st = 2 ∨ m.st = 3 ∧ m.self = false →
      (t.group.entry f.chip).evict = some (min f.teff (m.evict.getD f.teff)))) ∧
  (∀ (s : State) (f : Flit), ∃ t, exec (.eJoinReq f) s = .next t ∧ (s.fabUp = false → t = s) ∧
    (f.src = s.group.chip → s.fabUp = true → ownSt s = 0 ∨ ownSt s = 5 → ownSt t = 1 ∧ t.group.joinReq = some s.gcyc) ∧
    (f.src ≠ s.group.chip → Taken s f 6 → ownSt s = 2 → s.group.coord = s.group.chip → s.group.stOf f.src = 0 ∨ s.group.stOf f.src = 5 →
      (t.group.entry f.src).st = 1 ∧ (t.group.entry f.src).lims = [(f.code, s.gcyc, 0)] ∧
      ∃ tj, (t.group.entry f.src).join = some tj ∧ tj % 65536 = 0 ∧ s.gcyc + s.group.lead ≤ tj)) ∧
  (∀ (s : State) (f : Flit) (align : Nat) (table : List (Nat × List Nat)), ∃ t, exec (.eJoinGrant f align table) s = .next t ∧ (s.fabUp = false → t = s) ∧
    (f.chip ≠ s.group.chip → Taken s f 7 → (t.group.entry f.chip).st = 1 ∧ (t.group.entry f.chip).lims = [(f.aux, f.tsend, 0)] ∧
      (t.group.entry f.chip).join = some f.teff) ∧
    (f.chip = s.group.chip → s.fabUp = true → f.mz = 0 → ownSt s = 1 → s.group.seen.contains (f.src, 7, f.tsend) = false → t.gcyc = align ∧ t.group.epoch = f.epoch ∧ ownSt t = 1 ∧
      (t.group.entry f.chip).join = some f.teff)) ∧
  (∀ (s : State) (f : Flit), ∃ t, exec (.eBadFlit f) s = .next t ∧ t.group.tbl = s.group.tbl ∧
    t.group.badctl = s.group.badctl + if s.fabUp = true then 1 else 0)

/-- The group's own time (R190, R193 to R200, R400): heartbeats, changes of C with the frequency, silence, eviction, join points and their timeout,
departures, alignment marks, and a failed link. -/
def Obligations.GroupTimeEvents : Prop :=
  (∀ s : State, ∃ t, exec .eHeartbeatSend s = .next t ∧ t.mem = s.mem ∧ t.group.tbl = s.group.tbl ∧ (s.beatDue = false → t = s) ∧
    (s.beatDue = true → t.group.lastHb = s.gcyc + 1 ∧ ∀ n ∈ s.group.nbrs, n.up = true → n.chip ≠ s.group.chip →
      ∃ f, (n.chip, f) ∈ t.group.out ∧ f.typ = 2 ∧ f.src = s.group.chip ∧ f.tsend = s.gcyc ∧ f.code = s.power.li ∧ f.aux = s.group.c)) ∧
  (∀ s : State, ∃ t, exec .eCeilingChange s = .next t ∧ t.group.c = s.group.ceil s.gcyc ∧ t.group.tbl = s.group.tbl ∧
    (s.ceilDue = true → t.power.fnow = if s.power.clamp then s.power.fnow else 470 + 10 * s.group.ceil s.gcyc) ∧ (s.ceilDue = false → t = s)) ∧
  (∀ (s : State) (c : Nat), ∃ t, exec (.eSilenceDetect c) s = .next t ∧ (s.silenceDue c = false → t = s) ∧
    (s.silenceDue c = true → c = s.group.chip → ownSt t = 3 ∧ (t.group.entry c).self = true) ∧
    (s.silenceDue c = true → c ≠ s.group.chip → (t.group.entry c).st = 3 ∧ (t.group.entry c).self = false ∧
      (t.group.entry c).drop = some (s.gcyc + s.group.lead))) ∧
  (∀ (s : State) (c : Nat), ∃ t, exec (.eEviction c) s = .next t ∧ (s.evictDue c = false → t = s) ∧
    (s.evictDue c = true → (t.group.entry c).st = 5 ∧ t.group.epoch = s.group.epoch + 1 ∧ ∀ e, (s.group.entry c).evict = some e →
      ((s.group.entry c).drop.getD s.gcyc, raiseB (e + s.group.lead)) ∈ t.group.low)) ∧
  (∀ (s : State) (c : Nat), ∃ t, exec (.eJoinPoint c) s = .next t ∧ (s.joinDue c = false → t = s) ∧
    (s.joinDue c = true → (t.group.entry c).st = 2 ∧ (t.group.entry c).join = none ∧ t.group.epoch = s.group.epoch + 1)) ∧
  (∀ s : State, ∃ t, exec .eJoinTimeout s = .next t ∧ (s.joinLate = false → t = s) ∧
    (s.joinLate = true → ownSt t = 0 ∧ t.group.joinReq = none ∧ t.group.epoch = s.group.epoch)) ∧
  (∀ (s : State) (c : Nat), ∃ t, exec (.eDeparture c) s = .next t ∧ (s.departDue c = false → t = s) ∧
    (s.departDue c = true → (t.group.entry c).st = 0 ∧ t.group.epoch = s.group.epoch + if c = s.group.chip then 0 else 1)) ∧
  (∀ (s : State) (c : Nat) (d : Int), ∃ t, exec (.eAlignMark c d) s = .next t ∧ t.gcyc = s.gcyc ∧ t.mem = s.mem ∧ t.group.tbl = s.group.tbl ∧
    ∀ n ∈ s.group.nbrs, (n.chip = c → d.natAbs ≤ 4 → { n with diff := d } ∈ t.group.nbrs) ∧ (n.chip ≠ c ∨ 4 < d.natAbs → n ∈ t.group.nbrs)) ∧
  (∀ (s : State) (c d h : Nat), ∃ t, exec (.eLinkFail c d h) s = .next t ∧ t.group.d = d ∧ t.group.h = h ∧ t.group.tbl = s.group.tbl ∧
    (∀ n ∈ t.group.nbrs, n.chip = c → n.up = false) ∧ ∀ n ∈ s.group.nbrs, n.chip ≠ c → n ∈ t.group.nbrs)

/-- POWER (R191, R193, R201, R444 to R446): an evaluation's temperature and L_i, a lowering announced for the first possible cycle, a raise after its
fourth evaluation at a raise boundary, the clamp at 300 MHz, its release at code 0, and the trip, after which no step goes on. -/
def Obligations.PowerEvents : Prop :=
  (∀ (s : State) (tmp pm : Nat), let l := (localLimit s.power.fnow s.power.plim pm tmp s.power.tmax s.group.lead s.power.lcode).1
    ∃ t, exec (.ePowerEval tmp pm) s = .next t ∧
      (s.ctl.phase ≠ 2 ∨ s.ctl.failed.contains 5 = true ∨ s.gcyc % 65536 ≠ 0 → t = s) ∧
      (s.ctl.phase = 2 → s.ctl.failed.contains 5 = false → s.gcyc % 65536 = 0 → t.power.tmax = some tmp ∧ t.power.li = l ∧ l ≤ 65 ∧
        (s.power.clamp = true ∨ s.power.last ≤ l ∧ (l < s.power.last + 2 ∨ s.power.raise ≠ 3) → t.group = s.group ∧ t.power.last = s.power.last) ∧
        (s.power.clamp = false → l < s.power.last → t.power.last = l ∧
          (t.group.entry s.group.chip).lims = (s.group.entry s.group.chip).lims ++ [(l, s.gcyc, s.gcyc + s.group.lead)]) ∧
        (s.power.clamp = false → s.power.last + 2 ≤ l → s.power.raise = 3 → t.power.last = l ∧
          (t.group.entry s.group.chip).lims = (s.group.entry s.group.chip).lims ++ [(l, s.gcyc, raiseB (s.gcyc + s.group.lead))]))) ∧
  (∀ (s : State) (k : Nat), ∃ t, exec (.eClamp k) s = .next t ∧ t.power.clamp = true ∧ t.power.fnow = 300 ∧ t.power.clampAt = s.ccyc ∧
    (s.power.clamp = false → ownSt s = 2 → ownSt t = 3 ∧ (t.group.entry s.group.chip).self = true)) ∧
  (∀ s : State, ∃ t, exec .eClampRelease s = .next t ∧ (s.clampDue = false → t = s) ∧
    (s.clampDue = true → t.power.clamp = false ∧ t.power.last = 0 ∧ t.power.fnow = 470 ∧ t.group.c = 0 ∧
      (s.fabUp = true → s.group.nbrs ≠ [] → ownSt s = 0 ∨ ownSt s = 5 → ownSt t = 1))) ∧
  (∀ s : State, ∃ t, exec .eThermtrip s = .next t ∧ t.power.trip = true ∧ t.mem = s.mem ∧ step t = .fault .powerRemoved) ∧
  (∀ a m, m ≠ 0 → roundUp a m % m = 0 ∧ a ≤ roundUp a m ∧ roundUp a m < a + m)

/-- Faults and the control complex (R400, R423 to R429, R431, R437 to R440): containment of each failed part, boot with every image verified or recovery, a
recovery frame, an isolation fault, posts and pops, doorbells, journalled completion entries, take-over, failed functions, and the test port. -/
def Obligations.ControlEvents : Prop :=
  (∀ (s : State) (c u : Nat), c < 256 → ∃ t, exec (.eUncorrectable (.core c u)) s = .next t ∧ (t.core c).fenced = true ∧ (t.core c).run = none) ∧
  (∀ (s : State) (c u : Nat), c < 256 → ∃ t, exec (.eUncorrectable (.unit c u)) s = .next t ∧ (t.core c).run = none ∧
    (unitsOk ((s.core c).ufence ++ [u]) = true → u ∈ (t.core c).ufence ∧ (t.core c).fenced = (s.core c).fenced) ∧
    (unitsOk [u] = false → (t.core c).fenced = true)) ∧
  (∀ (s : State) (cl j : Nat), cl < 16 → j < 4 → ∃ t, exec (.eUncorrectable (.walkEngine cl j)) s = .next t ∧ 7 + j ∈ (t.cluster cl).fences) ∧
  (∀ (s : State) (cl : Nat), cl < 16 → ∃ t, exec (.eUncorrectable (.bte cl)) s = .next t ∧ 11 ∈ (t.cluster cl).fences) ∧
  (∀ (s : State) (cl : Nat), cl < 16 → ∃ t, exec (.eUncorrectable (.sequencer cl)) s = .next t ∧ 12 ∈ (t.cluster cl).fences ∧
    ∀ i x, s.insts.find i = some x → x.cluster = cl → x.done = false → ∃ y, t.insts.find i = some y ∧ (y.killed = true ∨ y.killing = true)) ∧
  (∀ (s : State) (ctx va : Nat), ∃ t, exec (.eUncorrectable (.hbm ctx va)) s = .next t ∧ ∀ x p, s.ctx? ctx = some x → s.walk x.root va 0 = .ok p →
    bitN (t.rdN p.1 8) 6 = true ∧ ∀ a, a < p.1 ∨ p.1 + 8 ≤ a → t.rd8 a = s.rd8 a) ∧
  (∀ (s : State) (im : List (List Byte)), ∃ t, exec (.eChipReset im) s = .next t ∧ (s.power.trip = true → t = s) ∧
    (s.power.trip = false → t.ccyc = 0 ∧ t.gcyc = 0 ∧ t.cores = [] ∧ t.ctxs = [] ∧ (im = [] → t.ctl.fw = s.ctl.fw) ∧
      (t.ctl.phase = 2 ↔ ∀ f ∈ bootOrder, imageOk (t.ctl.image f) f = true) ∧ (t.ctl.phase ≠ 2 → t.ctl.phase = 1) ∧
      (t.ctl.phase = 2 → t.ctl.locked = true ∧ t.ctl.log.length = 9))) ∧
  (∀ (s : State) (o n : Nat) (d : List Byte), ∃ t, exec (.eRecoveryFrame o n d) s = .next t ∧
    (s.ctl.phase ≠ 1 ∨ d.length < 64 ∨ 1024 < d.length → t = s) ∧
    (s.ctl.phase = 1 → 64 ≤ d.length → d.length ≤ 1024 → s.ctl.rlen = none → s.ctl.rimg = [] → d.length < n → t.ctl.phase = 1 ∧
      t.ctl.rlen = some n ∧ ∀ i b, d[i]? = some b → AMap.get 0 t.ctl.rimg (o + i) = b)) ∧
  (∀ (s : State) (fc a acc : Nat), ∃ t, exec (.eIsolationFault fc a acc) s = .next t ∧ t.mem = s.mem ∧ t.cores = s.cores ∧
    (s.ctl.locked = true → s.ctl.allows fc a acc = false → t.ctl.faulted = s.ctl.faulted ++ [fc]) ∧
    (s.ctl.locked = false ∨ s.ctl.allows fc a acc = true → t = s)) ∧
  (∀ (s : State) (x m : Nat) (d : List Byte), ∃ t, exec (.eMailboxPost x m d) s = .next t ∧ t.mem = s.mem ∧ (x < 32 → m < 14 → m ≠ 12 →
    (Config.mayPost x m = false → t.ctl.outcome.find x = some 2 ∧ t.ctl.mail = s.ctl.mail) ∧
    (Config.mayPost x m = true → (AMap.get [] s.ctl.mail m).length < 64 → t.ctl.outcome.find x = some 0 ∧
      (AMap.get [] t.ctl.mail m).length = (AMap.get [] s.ctl.mail m).length + 1) ∧
    (Config.mayPost x m = true → 64 ≤ (AMap.get [] s.ctl.mail m).length → t.ctl.outcome.find x = some 1 ∧ t.ctl.mail = s.ctl.mail))) ∧
  (∀ (s : State) (fc k : Nat), ∃ t, exec (.eMailboxPop fc k) s = .next t ∧ ((s.ctl.boxes fc)[k]? = none → t = s) ∧
    (∀ m e r, (s.ctl.boxes fc)[k]? = some m → AMap.get [] s.ctl.mail m = e :: r → AMap.get [] t.ctl.mail m = r ∧
      (m = 1 ∨ m = 13 → s.ctl.jseq < t.ctl.jseq))) ∧
  (∀ (s : State) (q : Nat), ∃ t, exec (.eDbell q) s = .next t ∧ (∀ i, i ≠ q → t.ctl.kick.getLsbD i = s.ctl.kick.getLsbD i) ∧
    (s.ctl.phase = 2 → q < 64 → t.ctl.kick.getLsbD q = true)) ∧
  (∀ (s : State) (c reg : Nat) (v : W64), ∃ t, exec (.eRegWrite c reg v) s = .next t ∧ t.mem = s.mem ∧ (reg = 0x100 → t.power.plim = min v.toNat 1900) ∧
    (0x200 ≤ reg → reg < 0x280 → t.ctl.qbase.find (reg - 0x200) = some v.toNat) ∧
    (c < 256 → reg = 0x12 → (t.sl c).e4sat = v.getLsbD 0) ∧ (c < 256 → reg = 0x14 → (t.sl c).seed = v.setWidth 32) ∧
    (c < 256 → (reg = 0x0E → (t.core c).cntOvf = v.toNat % 2 ^ 32) ∧ (reg = 0x0F → (t.core c).cntNan = v.toNat % 2 ^ 32) ∧
      (reg = 0x10 → (t.core c).cntSat = v.toNat % 2 ^ 32) ∧ (reg = 0x11 → (t.core c).cntTrn = v.toNat % 2 ^ 32)) ∧
    (∀ x, c < 256 → s.ctx? (s.ctxOf c) = some x → (reg = 0x0A → t.ctx? (s.ctxOf c) = some { x with fsm := v.getLsbD 0 }) ∧
      (reg = 0x0B → t.ctx? (s.ctxOf c) = some { x with ctxrev := v.toNat % 256 })) ∧
    (reg < 8 ∨ 0x0C ≤ reg ∧ reg < 0x0E ∨ 0x16 ≤ reg ∧ reg < 0x1A → t = s)) ∧
  (∀ (s : State) (q : Nat), ∃ t, exec (.eCompletionWrite q) s = .next t ∧ (s.complDue q = false → t = s) ∧
    (∀ e a h n slot depth, s.complDue q = true → s.ctl.compl.find? (fun c => c.queue == q) = some e → s.ctl.qbase.find (64 + q) = some a →
      s.ring (ctlKey a) = some (h, n, slot, depth) → t.ctl.compl = s.ctl.compl.erase e ∧
        t.rdBytes (ctlKey a + 0x40 + 64 * (n % depth)) e.data.length = e.data ∧ t.rdN (ctlKey a + 8) 8 = (n + 1) % 2 ^ 64 ∧
        s.ctl.jseq < t.ctl.jseq)) ∧
  (∀ s : State, ∃ t, exec .eSchedWatchdog s = .next t ∧ (s.watchdogDue = false → t = s) ∧
    (s.watchdogDue = true → (s.ctl.takeover ≠ none → t.ctl.takeover = none ∧ t.ctl.kicked = s.ccyc) ∧
      (s.ctl.takeover = none → 1 ∈ t.ctl.failed ∧ (s.ctl.spare = 0 → 7 ∉ s.ctl.failed → t.ctl.spare = 1 ∧ ∃ e, t.ctl.takeover = some e ∧
        s.ccyc ≤ e ∧ e ≤ s.ccyc + 2 ^ 20 + 64 * s.ctl.replays)))) ∧
  (∀ (s : State) (f : Nat), ∃ t, exec (.eFnFail f) s = .next t ∧ f ∈ t.ctl.failed ∧ (∀ g ∈ s.ctl.failed, g ∈ t.ctl.failed) ∧
    (f = 5 → s.fabUp = true → ownSt s = 2 → ownSt t = 4)) ∧
  (∀ (s : State) (i : Nat), exec (.eTestAccess i) s = .next (if 6 ≤ i ∧ s.ctl.locked = true then s else { s with ctl := { s.ctl with tap := i } })) ∧
  (∀ s : State, exec .eWdKick s = .next { s with ctl := { s.ctl with kicked := s.ccyc } })

/-- Contexts in and out, with the pending arrivals of a save area consumed, and pushes into the image of a queue that is out (R145, R398, R401). -/
def Obligations.ContextEvents : Prop :=
  (∀ (s : State) (n : Nat), Event (.eCtxOut n) s (s.ctx? n) fun x t => (x.state ≠ 1 → x.state ≠ 2 → t = s) ∧
    (x.state = 1 ∨ x.state = 2 → (s.onCores n = true → ∃ y, t.ctx? n = some y ∧ y.leaving = true ∧ y.state = x.state) ∧
      (s.onCores n = false → x.again = false → (∃ y, t.ctx? n = some y ∧ y.leaving = false ∧ y.state = 0) ∧
        ∀ i, t.res.find i ≠ some n))) ∧
  (∀ (s : State) (n : Nat), Event (.eCtxIn n) s (s.ctx? n) fun x t => (x.state ≠ 0 ∨ s.freeRes = none → t = s) ∧
    (∀ i, x.state = 0 → s.freeRes = some i → (x.gone = none → t.res.find i = some n ∧ ∃ y, t.ctx? n = some y ∧
        y.state = (if x.stopped then 2 else 1) ∧ y.fsm = x.rev1 ∧ ∀ j, j < 1024 → t.rdN (x.save + 0x1000 + 4 * j) 4 = 0) ∧
      (x.gone ≠ none → (∃ r ∈ t.traps, r.ctx = n) ∧ ∃ y, t.ctx? n = some y ∧
        (y.state = 3 ∨ y.killing = true ∧ s.gangHeld (fun r => r.ctx == n) = true)))) ∧
  (∀ (s : State) (q : Nat) (v : W64), Event (.eBitternPush q v) s (s.queues.find q) fun x t => ∀ c, s.ctx? x.ctx = some c →
    (c.state ≠ 0 ∨ x.depth ≤ x.items.length → t = s) ∧
    (c.state = 0 → x.items.length < x.depth → t.queues.find q = some { x with items := x.items ++ [⟨v, 0, 256⟩], tail := x.tail + 1 }))


namespace Sys2Proof.Claims

/-- PARSE takes a command of a queue at once (R431, R438). -/
def Parsed (s : State) (h : CmdHdr) (sched : Bool) : Prop :=
  s.ctl.phase = 2 ∧ s.ctl.failed.contains 0 = false ∧ s.cqFull h.queue = false ∧ (sched = true → s.ctl.takeover = none)

/-- In t, the last completion entry is the command's, with a status (R435). -/
def Ended (t : State) (h : CmdHdr) (status : Nat) : Prop :=
  ∃ e, t.ctl.compl.getLast? = some e ∧ e.queue = h.queue ∧ ∃ r rep, e.data = complBytes h.seq 0 status r rep

/-- A command i with header h that PARSE takes answers a next state of which P holds; before boot it does nothing, and a full completion queue keeps it
waiting. -/
def Command (i : Instr) (h : CmdHdr) (sched : Bool) (s : State) (P : State → Prop) : Prop :=
  (Parsed s h sched → ∃ t, exec i s = .next t ∧ P t) ∧ (s.ctl.phase ≠ 2 → exec i s = .next s) ∧
  (s.ctl.phase = 2 → s.ctl.failed.contains 0 = false → s.cqFull h.queue = true → ∃ t, exec i s = .next t ∧ t.ctl.wait = s.ctl.wait ++ [i] ∧
    t.mem = s.mem ∧ t.cores = s.cores)

end Sys2Proof.Claims

/-- Commands (R169, R392, R393, R396, R399, R408, R414, R421, R422, R426, R431, R433 to R435): what each does when PARSE takes it, with the status of
its completion entry. -/
def Obligations.HostCommands : Prop :=
  (∀ (s : State) (h : CmdHdr) (a n : Nat), Command (.cLoad h a n) h false s fun t =>
    (∀ e, s.loadImage h (s.rdBytes a n) = .error e → t.objs = s.objs ∧ t.mem = s.mem ∧ Ended t h 5) ∧
    (∀ k u, s.loadImage h (s.rdBytes a n) = .ok (k, u) → t.objs = u.objs ∧ t.mem = u.mem ∧ Ended t h 0)) ∧
  (∀ (s : State) (h : CmdHdr) (o : Nat) (f : Bool), Command (.cUnload h o f) h false s fun t => (s.objs.find o = none → Ended t h 2) ∧
    (∀ b, s.objs.find o = some b → (s.unloadReady o f = true → t.objs.find o = none ∧ Ended t h 0) ∧
      (s.unloadReady o f = false → (∃ i ∈ t.ctl.wait, i = .cUnload h o f) ∧ ∃ c, t.objs.find o = some c ∧ c.unload = true))) ∧
  (∀ (s : State) (h : CmdHdr) (a : Nat), Command (.cCtxnew h a) h false s fun t => let w := fun i => s.rdN (a + 8 * i) 8
    let live := ∃ x, s.ctx? (w 4 % 65536) = some x ∧ x.state ≠ 3
    (descOk w = false ∨ live → t.ctxs = s.ctxs ∧ Ended t h 2) ∧
    (descOk w = true → ¬ live → Ended t h 0 ∧ ∃ x, t.ctx? (w 4 % 65536) = some x ∧ x.state = 0 ∧ x.save = a ∧ x.root = w 0 ∧ x.tq = w 1 ∧
      x.srbase = w 2 ∧ x.srcount = w 3 ∧ x.objs = [] ∧ x.seed = BitVec.ofNat 32 (w 6))) ∧
  (∀ (s : State) (h : CmdHdr) (n : Nat), Command (.cCtxkill h n) h false s fun t => (s.ctx? n = none → Ended t h 2) ∧
    (∀ x, s.ctx? n = some x → Ended t h 0 ∧
      (x.state = 3 ∨ s.gangHeld (fun r => r.ctx == n) = false → ∃ y, t.ctx? n = some y ∧ y.state = 3) ∧
      (x.state ≠ 3 → s.gangHeld (fun r => r.ctx == n) = false → (∀ c r, (t.core c).run = some r → r.ctx ≠ n) ∧ ∃ r ∈ t.traps, r.ctx = n) ∧
      (x.state ≠ 3 → s.gangHeld (fun r => r.ctx == n) = true → t.ctx? n = some { x with killing := true } ∧
        ∀ c k r, s.cores.find c = some k → k.run = some r → r.ctx = n → (t.core c).stop = .kill))) ∧
  (∀ (s : State) (h : CmdHdr) (n o : Nat), Command (.cMap h n o) h false s fun t => (s.ctx? n = none ∨ s.objs.find o = none → Ended t h 2) ∧
    (∀ x b, s.ctx? n = some x → s.objs.find o = some b →
      (x.state = 3 ∨ b.unload = true ∨ x.objs.contains o = true ∨ s.staticFree n b = false →
        t.ctxs = s.ctxs ∧ t.clusters = s.clusters ∧ t.mem = s.mem ∧ ∃ st, st ≠ 0 ∧ Ended t h st) ∧
      (x.state ≠ 3 → b.unload = false → x.objs.contains o = false → s.staticFree n b = true → Ended t h 0 ∧
        ∃ y, t.ctx? n = some y ∧ y.objs = x.objs ++ [o]))) ∧
  (∀ (s : State) (h : CmdHdr) (n o : Nat), Command (.cUnmap h n o) h false s fun t => (s.ctx? n = none ∨ s.objs.find o = none → Ended t h 2) ∧
    (∀ x b, s.ctx? n = some x → s.objs.find o = some b → (x.objs.contains o = false → t.ctxs = s.ctxs ∧ t.mem = s.mem ∧ ∃ st, st ≠ 0 ∧ Ended t h st) ∧
      (x.objs.contains o = true → Ended t h 0 ∧ ∃ y, t.ctx? n = some y ∧ y.objs = x.objs.filter (· != o)))) ∧
  (∀ (s : State) (h : CmdHdr) (n a o : Nat), Command (.cLaunch h n a o) h true s fun t =>
    let ws := (List.range (2 + bitsN (s.rdN a 8) 36 4 + bitsN (s.rdN a 8) 40 8)).map fun k => s.rdN (a + 8 * k) 8
    (s.schedLost = true → t.launches = s.launches ∧ Ended t h 6) ∧
    (s.schedLost = false → s.hostLaunch n o ws = none → t.launches = s.launches ∧ Ended t h 4) ∧
    (∀ r vs, s.schedLost = false → s.hostLaunch n o ws = some (r, vs) → let d := (r.levels.headD ⟨1, 0, 0⟩).domain
      (d = 0 → ownSt s ≠ 2 ∨ h.place ≠ [] → t.launches = s.launches ∧ Ended t h 4) ∧
      (d ≠ 0 ∨ ownSt s = 2 ∧ h.place = [] → (∃ y, t.launches.find s.ids = some y ∧ y.ctx = n ∧ y.obj = o ∧ y.func = r.func ∧ y.args = vs ∧
        y.levels = r.levels ∧ y.ldepth = r.ldepth ∧ y.qreg = r.qreg ∧ y.host = some (h.queue, h.seq)) ∧
        (d = 0 → ∀ c ∈ s.group.members, c ≠ s.group.chip → (c, [0, n, o, s.ids] ++ ws) ∈ t.group.reports)))) ∧
  (∀ (s : State) (h : CmdHdr) (n k : Nat), Command (.cRelease h n k) h false s fun t =>
    (s.ctx? n = none ∨ (∃ x, s.ctx? n = some x ∧ x.srcount ≤ k) → t.recs = s.recs ∧ Ended t h 2) ∧
    (∀ x, s.ctx? n = some x → k < x.srcount → Ended t h 0 ∧
      ((∀ r ∈ s.recs, r.ctx ≠ n ∨ r.idx ≠ k ∨ r.kind ≠ 2) → t.recs = s.recs ∧ t.lops = s.lops) ∧
      ((∃ r ∈ s.recs, r.ctx = n ∧ r.idx = k ∧ r.kind = 2 ∧ r.sl ≠ none) → (∀ r ∈ s.recs, r.ctx = n → r.idx = k → r.sl ≠ none) →
        ∀ r ∈ t.recs, r.ctx = n → r.idx = k → r.kind = 1) ∧
      ((∃ r ∈ s.recs, r.ctx = n ∧ r.idx = k ∧ r.kind = 2) → (∀ r ∈ s.recs, r.ctx = n → r.idx = k → r.sl = none) →
        ∀ r ∈ t.recs, r.ctx ≠ n ∨ r.idx ≠ k))) ∧
  (∀ (s : State) (h : CmdHdr) (n : Nat), Command (.cUnstop h n) h false s fun t => (s.ctx? n = none → Ended t h 2) ∧
    (∀ x, s.ctx? n = some x → Ended t h 0 ∧ ((∀ p ∈ s.walks, p.2.st ≠ 1) → (∀ p ∈ s.lops, p.2.fault = none) → ∃ y, t.ctx? n = some y ∧ y.stopped = false ∧
      y.state = (if x.state = 2 then 1 else x.state) ∧ x.srcount ≤ y.srcount))) ∧
  (∀ (s : State) (h : CmdHdr) (c : Nat), Command (.cLimit h c) h false s fun t => (65 < c → t.power = s.power ∧ Ended t h 2) ∧
    (c ≤ 65 → t.power = { s.power with lcode := some c } ∧ Ended t h 0)) ∧
  (∀ (s : State) (h : CmdHdr) (d : List Byte), Command (.cAttest h d) h false s fun t => (s.ctl.failed.contains 6 = true → t = s) ∧
    (s.ctl.failed.contains 6 = false → (d.length ≠ 32 → Ended t h 2) ∧
      (d.length = 32 → let q := sha3 (d ++ sha3 s.ctl.log.flatten)
        t.ctl.quote = s.ctl.log.flatten ++ q ++ Config.deviceSign q ∧ t.ctl.log = s.ctl.log ∧ Ended t h 0)))


namespace Sys2Proof.Claims

/-- Walk w stands at record r, whose producers have completed (R65); the context's static handles have entries in u (R99). -/
def At (s : State) (w : Nat) (r : LRec) (c : Cur) (u : State) : Prop :=
  ∃ c0, s.curOf w = some c0 ∧ c = { c0 with rec_ := r } ∧ (c0.vals r).all (Val.ready s) = true ∧ s.takeStatic c0.inst.cluster c0.inst.ctx = some u

/-- A record's instruction i: a walk that is not there or not ready leaves the state; a ready one answers a next state of which P holds. -/
def Record (i : Instr) (w : Nat) (r : LRec) (s : State) (P : Cur → State → State → Prop) : Prop :=
  (s.curOf w = none → exec i s = .next s) ∧ (∀ c, s.curOf w = some c → (c.vals r).all (Val.ready s) = false → exec i s = .next s) ∧
  ∀ c u, At s w r c u → ∃ t, exec i s = .next t ∧ P c u t

/-- The innermost frame of a walk. -/
def top (s : State) (w : Nat) : Option Frame := (s.walks.find w).bind (·.frames.getLast?)

/-- Nothing but walks has changed. -/
def Same (u t : State) : Prop :=
  t.mem = u.mem ∧ t.cores = u.cores ∧ t.clusters = u.clusters ∧ t.lops = u.lops ∧ t.queues = u.queues ∧ t.insts = u.insts

/-- The walk's innermost frame is f, and nothing but walks has changed. -/
def Walks (c : Cur) (u t : State) (f : Frame) : Prop := top t c.w = some f ∧ Same u t

/-- The frame after results vs and an advance. -/
def after (c : Cur) (vs : List Val) : Frame := { c.fr.setRes c.fr.ip vs with ip := c.fr.ip + 1 }

/-- Results that a record's TYPE agrees with (R57). -/
def Fits (r : LRec) (vs : List Val) : Prop := firstIdx (fun p => !VDesc.agrees p.1 p.2) (r.types.zip vs) = none

/-- A precise trap of the sequencer: a record for the context, and the walk is HELD (R392). -/
def Held (c : Cur) (t : State) : Prop := (∃ k, t.walks.find c.w = some k ∧ k.st = 1) ∧ ∃ q ∈ t.traps, q.ctx = c.inst.ctx

/-- Record q gives results vs: as its TYPE and sharding make them they enter the frame that f makes, and P holds; what these contradict raises SHAPE_MISMATCH
(R56, R57). -/
def Goes (c : Cur) (q : LRec) (vs : List Val) (t : State) (f : List Val → Frame) (P : Prop) : Prop :=
  (∀ us, c.typed q vs = .ok us → top t c.w = some (f us) ∧ P) ∧ (∀ i, c.typed q vs = .error i → Held c t)

/-- Record i of a frame's function. -/
def recOf (c : Cur) (f : Frame) (i : Nat) : LRec := (lrecOf (((c.obj.body f.fn)[i]?).getD (.lNop 0 LRec.none_))).2

end Sys2Proof.Claims

/-- The control operators of LORYIL (R70 to R78): regions, frames and results, what ends a walk, and launches of children. -/
def Obligations.RecordControl : Prop :=
  (∀ s w r, Record (.lNop w r) w r s fun c u t => Walks c u t { c.fr with ip := c.fr.ip + 1 }) ∧
  (∀ s w r, Record (.lLoop w r) w r s fun c u t => let vs := c.vals r
    let n := ((vs.headD (.i64 0)).int).toNat
    let e := c.close false c.fr.ip
    (n = 0 → (∃ p ∈ r.types.zip (.i64 0 :: vs.drop 1), p.1.agrees p.2 = false) → Held c t) ∧
    (n = 0 → (∀ p ∈ r.types.zip (.i64 0 :: vs.drop 1), p.1.agrees p.2 = true) →
      Goes c (recOf c c.fr e) (vs.drop 1) t (fun us => { c.fr.setRes e us with ip := e + 1 }) (Same u t)) ∧
    (n ≠ 0 → (∀ i, c.sharded r (.i64 0 :: vs.drop 1) = .error i → Held c t) ∧ ∀ us, c.sharded r (.i64 0 :: vs.drop 1) = .ok us →
      Walks c u t { c.fr.setRes c.fr.ip us with ip := c.fr.ip + 1, ctl := c.fr.ctl ++ [⟨0, c.fr.ip, 0, n, vs.drop 1⟩] })) ∧
  (∀ s w r, Record (.lEndloop w r) w r s fun c u t => let vs := c.vals r
    let loop := fun (k : LCtl) => (lrecOf (((c.obj.body c.fr.fn)[k.at_]?).getD (.lNop 0 r))).2
    let fit := fun (k : LCtl) (i : Nat) (v q : Val) => v.agrees q = true ∧ ∀ d, (loop k).types[i + 1]? = some d → d.agrees v = true ∧ d.agrees q = true
    ∀ k, c.fr.ctl.getLast? = some k →
      ((∃ (i : Nat) (v q : Val), vs[i]? = some v ∧ k.carry[i]? = some q ∧ ¬ fit k i v q) → Held c t) ∧
      ((∀ (i : Nat) (v q : Val), vs[i]? = some v → k.carry[i]? = some q → fit k i v q) →
        (k.i + 1 < k.n → ∀ us, c.sharded (loop k) (.i64 (BitVec.ofNat 64 (k.i + 1)) :: vs) = .ok us → Walks c u t { c.fr.setRes k.at_ us with
          ip := k.at_ + 1, ctl := c.fr.ctl.dropLast ++ [{ k with i := k.i + 1, carry := vs }] }) ∧
        (k.n ≤ k.i + 1 → Goes c (recOf c c.fr c.fr.ip) vs t (fun us => { c.fr.setRes c.fr.ip us with ip := c.fr.ip + 1, ctl := c.fr.ctl.dropLast })
          (Same u t)))) ∧
  (∀ s w r, Record (.lBrk w r) w r s fun c u t => let vs := c.vals r
    ∀ k, c.fr.ctl.reverse.find? (·.kind == 0) = some k →
      ((vs.headD (.i64 0)).int = 0 → Walks c u t { c.fr with ip := c.fr.ip + 1 }) ∧
      ((vs.headD (.i64 0)).int ≠ 0 → let e := c.close false k.at_
        Goes c (recOf c c.fr e) (vs.drop 1) t (fun us => { c.fr.setRes e us with ip := e + 1, ctl := dropLoop c.fr.ctl }) (Same u t))) ∧
  (∀ s w r, Record (.lIf w r) w r s fun c u t => let v := ((c.vals r).headD (.i64 0)).int
    (v ≠ 0 → Walks c u t { c.fr with ip := c.fr.ip + 1, ctl := c.fr.ctl ++ [⟨1, c.fr.ip, 0, 0, []⟩] }) ∧
    (v = 0 → ∀ k q, (c.obj.body c.fr.fn)[c.close true c.fr.ip]? = some (.lElse k q) →
      Walks c u t { c.fr with ip := c.close true c.fr.ip + 1, ctl := c.fr.ctl ++ [⟨2, c.fr.ip, 0, 0, []⟩] }) ∧
    (v = 0 → (∀ k q, (c.obj.body c.fr.fn)[c.close true c.fr.ip]? ≠ some (.lElse k q)) →
      Walks c u t { c.fr with ip := c.close true c.fr.ip + 1 })) ∧
  (∀ s w r, Record (.lElse w r) w r s fun c u t => let e := c.close false c.fr.ip
    Goes c (recOf c c.fr e) (c.vals r) t (fun us => { c.fr.setRes e us with ip := e + 1, ctl := c.fr.ctl.dropLast }) (Same u t)) ∧
  (∀ s w r, Record (.lEndif w r) w r s fun c u t => Goes c (recOf c c.fr c.fr.ip) (c.vals r) t
    (fun us => { c.fr.setRes c.fr.ip us with ip := c.fr.ip + 1, ctl := c.fr.ctl.dropLast }) (Same u t)) ∧
  (∀ s w r, Record (.lCall w r) w r s fun c u t =>
    let ps := ((List.range (c.vals r).length).zip (c.vals r)).map fun p => c.asParam (r.word 5 0) p.1 p.2
    (c.wk.frames.length < 64 → ∀ us, ps = us.map some → Walks c u t ⟨r.word 5 0, 0, [], us, []⟩ ∧
      ∃ k, t.walks.find c.w = some k ∧ k.frames.length = c.wk.frames.length + 1) ∧
    (64 ≤ c.wk.frames.length ∨ none ∈ ps → Held c t)) ∧
  (∀ s w r, Record (.lRet w r) w r s fun c u t =>
    (c.wk.frames.length ≤ 1 → t.mem = u.mem ∧ ∃ k, t.walks.find c.w = some k ∧ k.st = 2) ∧
    (1 < c.wk.frames.length → ∀ f, c.wk.frames.dropLast.getLast? = some f →
      Goes c (recOf c f f.ip) (c.vals r) t (fun us => { f.setRes f.ip us with ip := f.ip + 1 }) (Same u t))) ∧
  (∀ s w r, Record (.lLaunch w r) w r s fun c u t => let vs := c.vals r
    let nlev := r.word 6 0 % 16
    let exts := (vs.take nlev).map Val.int
    ∀ l x, u.launches.find c.inst.launch = some l → u.ctx? c.ctx = some x → (∀ v ∈ vs, v.stands u c = true) →
      (∀ q ∈ tensorsOf (vs.drop nlev), 2 ≤ q.base.toNat / 2 ^ 62) → Fits r [.tok 0, .i64 0] →
      (l.ldepth < l.depth + 1 → Walks c u t (after c [.tok 0, .i64 1])) ∧
      (l.depth + 1 ≤ l.ldepth → 128 ≤ x.pool → Walks c u t (after c [.tok 0, .i64 2])) ∧
      (l.depth + 1 ≤ l.ldepth → x.pool < 128 → exts.any (65535 < ·) = true ∨ 2 ^ 24 < prodN (exts.map Int.toNat) → Walks c u t (after c [.tok 0, .i64 3])) ∧
      (l.depth + 1 ≤ l.ldepth → x.pool < 128 → exts.all (· ≤ 65535) = true → prodN (exts.map Int.toNat) ≤ 2 ^ 24 →
        top t c.w = some (after c [.tok u.ids, .i64 0]) ∧ t.mem = u.mem ∧ ∃ k, t.launches.find u.ids = some k ∧ k.depth = l.depth + 1 ∧
          k.ldepth = l.ldepth ∧ k.func = r.word 5 0 ∧ k.parent = some c.wk.inst ∧ k.host = none ∧ k.ctx = c.ctx)) ∧
  (∀ s w r, Record (.lSyncchild w r) w r s fun c u t => let ks := if r.opds = [] then c.inst.kids else (c.vals r).map Val.prod
    ((∃ k ∈ ks, u.opDone k = false) → t = s) ∧
    ((∀ k ∈ ks, u.opDone k = true) → Fits r [.i64 0] → ∃ b : W64, Walks c u t (after c [.i64 b]) ∧ (b = 0 ∨ b = 1) ∧
      (b = 1 ↔ ∃ k ∈ ks, ∃ l, u.launches.find k = some l ∧ l.killed = true)))

/-- The scalar operators of LORYIL (R79 to R85): each result, and `sop`'s traps. -/
def Obligations.RecordScalars : Prop :=
  (∀ s w r, Record (.lConst w r) w r s fun c u t => Goes c r (c.vals r) t (after c) (Same u t)) ∧
  (∀ s w r, Record (.lSop w r) w r s fun c u t => let op := r.word 0x100 0 % 32
    let a := c.argZ r 0
    let b := c.argZ r 1
    let res := fun (z : Int) => Walks c u t (after c [.i64 (w64 z)])
    (op = 3 ∨ op = 4 ∨ op = 5 → b = 0 → Held c t) ∧ (op = 16 → b ≤ 0 → Held c t) ∧
    (Fits r [.i64 0] → (op = 0 → res (a + b)) ∧ (op = 1 → res (a - b)) ∧ (op = 2 → res (a * b)) ∧ (op = 3 → b ≠ 0 → res (a.tdiv b)) ∧
      (op = 4 → b ≠ 0 → res (a.tmod b)) ∧ (op = 5 → b ≠ 0 → ∀ q, (b * (q - 1) < a ∧ a ≤ b * q ∧ 0 < b) ∨ (a < b * (q - 1) ∧ b * q ≤ a ∧ b < 0) → res q) ∧
      (op = 6 → res (min a b)) ∧ (op = 7 → res (max a b)) ∧ (op = 10 → res (Nat.land (uns a) (uns b) : Nat)) ∧
      (op = 13 → uns b < 64 → res (a * 2 ^ uns b)) ∧ (op = 13 ∨ op = 14 → 64 ≤ uns b → res 0) ∧ (op = 14 → uns b < 64 → res (uns a / 2 ^ uns b : Nat)) ∧
      (op = 16 → 0 < b → ∀ q, b * (q - 1) < a → a ≤ b * q → res (b * q)))) ∧
  (∀ s w r, Record (.lScmp w r) w r s fun c u t => let a := c.argZ r 0
    let b := c.argZ r 1
    Fits r [.i64 0] → ∀ p : Bool, ((r.word 0x100 0 % 16 = 0 ∧ (p = true ↔ a = b)) ∨ (r.word 0x100 0 % 16 = 1 ∧ (p = true ↔ a ≠ b)) ∨
      (r.word 0x100 0 % 16 = 2 ∧ (p = true ↔ a < b)) ∨ (r.word 0x100 0 % 16 = 3 ∧ (p = true ↔ a ≤ b)) ∨ (r.word 0x100 0 % 16 = 4 ∧ (p = true ↔ b < a)) ∨
      (r.word 0x100 0 % 16 = 5 ∧ (p = true ↔ b ≤ a)) ∨ (r.word 0x100 0 % 16 = 6 ∧ (p = true ↔ uns a < uns b)) ∨
      (7 ≤ r.word 0x100 0 % 16 ∧ (p = true ↔ uns a ≤ uns b))) → Walks c u t (after c [.i64 (w64 (if p then 1 else 0))])) ∧
  (∀ s w r, Record (.lSel w r) w r s fun c u t => let v := (c.vals r).getD (if c.argZ r 0 ≠ 0 then 1 else 2) (.i64 0)
    Goes c r [v] t (after c) (Same u t)) ∧
  (∀ s w r, Record (.lDim w r) w r s fun c u t => ∀ q l, tensorsOf ((c.vals r).take 1) = q :: l → Fits r [.i64 0] →
    Walks c u t (after c [.i64 (w64 (q.ext.getD (c.argZ r 1).toNat 0))])) ∧
  (∀ s w r, Record (.lIdx w r) w r s fun c u t => Fits r [.i64 0] → Walks c u t (after c [.i64 (w64
    (if (c.argZ r 0).toNat = 8 then c.inst.idx else (levelIdx c.lev c.inst.idx).getD (c.argZ r 0).toNat 0))]))

/-- The operators over handles (R98 to R101, R112 to R114, R135 to R137): allocation and its refusals, release, views inside their region, fences,
waits and assertions. -/
def Obligations.RecordHandles : Prop :=
  (∀ s w r, Record (.lAlloc w r) w r s fun c u t => ∀ d whole, tensorTypeOf r = some d → (dynExts c r d 0).run u = .ok (whole, u) →
    let crew := u.crewOf c
    let sp := r.word 0x100 0 % 4
    let pos := r.word 0x101 0 % 65536
    let ext := c.ownExt whole d.axes
    let cs := if sp = 0 then [crew.getD pos 0] else if sp = 1 then crew else []
    ((∃ e, u.freeHandle c.cl c.ctx = .error e) → Held c t) ∧
    (∀ h, u.freeHandle c.cl c.ctx = .ok h → (sp = 0 → crew.length ≤ pos → Held c t) ∧ (sp ≠ 0 ∨ pos < crew.length →
      ((∃ e, u.takeRegion c.cl c.ctx (u.quota c.inst) sp h (tensorSpan d.fmt d.lay d.mx ext (d.strides ext)).2 cs = .error e) → Held c t) ∧
      (∀ v, u.takeRegion c.cl c.ctx (u.quota c.inst) sp h (tensorSpan d.fmt d.lay d.mx ext (d.strides ext)).2 cs = .ok v →
        ∃ z : TRef, z.hnd = some h ∧ z.ext = ext ∧ z.fmt = d.fmt ∧ z.alloc = (v.handle c.cl c.ctx h).alloc ∧ Goes c r [.ten z] t (after c)
          ((t.handle c.cl c.ctx h).inst = c.wk.inst ∧ (t.handle c.cl c.ctx h).st = (v.handle c.cl c.ctx h).st ∧ t.mem = v.mem))))) ∧
  (∀ s w r, Record (.lFree w r) w r s fun c u t => ∀ q l, tensorsOf ((c.vals r).take 1) = q :: l → Fits r [.tok 0] →
    (q.hnd = none → Held c t) ∧ (∀ h, q.hnd = some h → let e := u.handle c.cl c.ctx h
      (e.alloc ≠ q.alloc ∨ e.st = 0 ∨ e.st = 3 → Held c t) ∧
      (e.alloc = q.alloc → e.st = 1 ∨ e.st = 2 → (u.pinned c.cl c.ctx h ≠ none → Held c t) ∧
        (u.pinned c.cl c.ctx h = none → t.mem = u.mem ∧ top t c.w = some (after c [.tok u.ids]) ∧ (t.lops.find u.ids).isSome = true ∧
          (t.handle c.cl c.ctx h).st = if e.st = 2 then 3 else 1)))) ∧
  (∀ s w r, Record (.lView w r) w r s fun c u t => ∀ q l d whole, tensorsOf ((c.vals r).take 1) = q :: l → tensorTypeOf r = some d →
    (dynExts c r d 2).run u = .ok (whole, u) → let ext := c.ownExt whole d.axes
    let off := c.argZ r 1
    let v := q.viewed d ext whole off
    let ok := v.within (q.origin + q.first + off) (u.regionSpan c q)
    (ok = false → Held c t) ∧ (ok = true → Goes c r [.ten v] t (after c) (Same u t))) ∧
  (∀ s w r, Record (.lFence w r) w r s fun c u t => Fits r [.tok 0] → t.mem = u.mem ∧ t.cores = u.cores ∧ top t c.w = some (after c [.tok u.ids]) ∧
    ∃ o, t.lops.find u.ids = some o ∧ o.waits = [] ∧ ∀ n, n ∈ o.deps ↔ (∃ v ∈ c.vals r, v.prod = n) ∧ u.opDone n = false) ∧
  (∀ s w r, Record (.lWaith w r) w r s fun c u t => ∀ q l, tensorsOf ((c.vals r).take 1) = q :: l →
    Goes c r [.ten { q with prod := u.ids }] t (after c) (t.mem = u.mem ∧ ∃ o, t.lops.find u.ids = some o ∧
      ∀ h, q.hnd = some h → o.waits = [(h, q.alloc, if r.word 0x100 0 % 4 = 1 then 0 else 2)] ∧ o.deps = [])) ∧
  (∀ s w r, Record (.lAssert w r) w r s fun c u t => (c.argZ r 0 = 0 → Held c t) ∧
    (c.argZ r 0 ≠ 0 → Fits r [.tok 0] → Walks c u t (after c [.tok 0])))


namespace Sys2Proof.Claims

/-- The destinations of an operator are FULL or without a handle (R101). -/
def DestsFull (c : Cur) (u : State) (ds : List (Nat × TRef)) : Prop :=
  ∀ p ∈ ds, ∀ h, p.2.hnd = some h → (u.handle c.cl c.ctx h).alloc = p.2.alloc ∧ (u.handle c.cl c.ctx h).st = 2

/-- Every row of the tensors starts on its boundary (R60). -/
def Placed (ts : List (Nat × TRef)) : Prop := ∀ p ∈ ts, p.2.misplaced = false

/-- No source and destination share a byte where R94 forbids it. -/
def Apart (sp : TSpec) : Prop :=
  (∀ (k : Nat) (p : Nat × TRef), sp.srcs[k]? = some p → ∀ d ∈ sp.dsts, p.2.overlaps d.2 = true → sp.inpl.contains k = true ∧ p.2.same d.2 = true) ∧
  ∀ a b, sp.dsts = [a, b] → a.2.overlaps b.2 = false

/-- In t, operator n of record r is in flight: its instruction, kind and outputs. -/
def InFlight (t : State) (n : Nat) (i : Instr) (kind : Nat) (c : Cur) (outs : List TRef) : Prop :=
  ∃ o, t.lops.find n = some o ∧ o.ins = i ∧ o.kind = kind ∧ o.walk = c.w ∧ o.inst = c.wk.inst ∧ o.ctx = c.ctx ∧ o.cluster = c.cl ∧ o.outs = outs ∧ o.fault = none

/-- The kind of a lowered operator in flight: its tiles are open when lowering inserts no collective before them, else it waits for the first (R187). -/
def lowKind (lw : Lower) : Nat := if (lw.plan.head?.any fun p => p.2 == .part) = true ∨ (∀ p ∈ lw.plan, p.2.level = none) then 0 else 2

/-- The result that names a destination's storage under operator n (R92). -/
def Names (v : Val) (d : TRef) (n : Nat) : Prop :=
  ∃ z : TRef, v = .ten z ∧ z.prod = n ∧ z.hnd = d.hnd ∧ z.base = d.base ∧ z.ext = d.ext ∧ z.fmt = d.fmt ∧ z.crew = d.crew ∧ z.alloc = d.alloc

/-- Each destination's handle is FILLING for the bytes that the operator writes into its region through every destination, FULL at once for none (R101). -/
def Filling (c : Cur) (t : State) (ds : List (Nat × TRef)) (n : TRef → Nat) : Prop :=
  ∀ p ∈ ds, ∀ h, p.2.hnd = some h → let m := sumN ((ds.filter fun q => q.2.hnd == some h).map fun q => n q.2)
    (t.handle c.cl c.ctx h).tgt = m ∧ (0 < m → (t.handle c.cl c.ctx h).st = 1 ∧ (t.handle c.cl c.ctx h).cnt = 0)

end Sys2Proof.Claims

/-- The tensor operators (R65, R66, R90 to R95, R101, R115 to R133, R187): each dispatches when its destinations are FULL and its checks pass, with its
operands' bytes untouched, its destinations FILLING and its results named; it waits for a FILLING destination, and traps at a dead one. -/
def Obligations.TensorDispatch : Prop := ∀ (s : State) (w : Nat) (r : LRec) (i : Instr),
  i ∈ [Instr.lLoad w r, .lStore w r, .lRelayout w r, .lCast w r, .lPad w r, .lConcat w r, .lMatmul w r, .lConv w r, .lEwu w r, .lEwb w r, .lEwt w r,
    .lReduce w r, .lSoftmax w r, .lNorm w r, .lRope w r, .lAttn w r, .lGather w r, .lScatter w r, .lTopk w r, .lSort w r, .lPermute w r,
    .lCumsum w r] →
  Record i w r s fun c u t => let args := (c.vals r).map (Val.atDispatch u c)
    let sp := tspec i r args
    let es := fun (lw : Lower) => (sp.srcs.zip lw.axes).map fun p => (p.1.1, if p.1.2.axes = p.2 then p.1.2.ext else c.ownExt p.1.2.whole p.2)
    (∀ p l h, sp.dsts = p :: l → p.2.hnd = some h → let e := u.handle c.cl c.ctx h
      (e.alloc = p.2.alloc → e.st = 1 → t = s) ∧ (e.alloc ≠ p.2.alloc ∨ e.st = 0 ∨ e.st = 3 → Held c t)) ∧
    (DestsFull c u sp.dsts → (∃ p ∈ sp.srcs ++ sp.dsts, p.2.misplaced = true) → Held c t) ∧
    (DestsFull c u sp.dsts → Placed (sp.srcs ++ sp.dsts) → lowering i r sp = none → Held c t) ∧
    (∀ lw, DestsFull c u sp.dsts → Placed (sp.srcs ++ sp.dsts) → lowering i r sp = some lw →
      (shapeBad i r args (es lw) sp.dsts ≠ none ∨ ¬ Apart sp → Held c t) ∧
      (shapeBad i r args (es lw) sp.dsts = none → Apart sp → ∃ vs, (i = .lStore w r → vs = [.tok u.ids]) ∧
        (i ≠ .lStore w r → vs.length = sp.dsts.length ∧ ∀ (k : Nat) v p, vs[k]? = some v → sp.dsts[k]? = some p → Names v p.2 u.ids) ∧
        Goes c r vs t (after c) (t.mem = u.mem ∧ t.cores = u.cores ∧ InFlight t u.ids i (lowKind lw) c (sp.dsts.map (·.2)) ∧
          Filling c t sp.dsts TRef.wrBytes)))

/-- `uop` and the collectives (R134, R175 to R183, R205): tiles in the crew's turn, a number on tl9 and a place in the collective's set for each member,
and a peer or a tag outside its range refused. -/
def Obligations.CrewAndCollectives : Prop :=
  (∀ s w r, Record (.lUop w r) w r s fun c u t => let args := (c.vals r).map (Val.atDispatch u c)
    let as_ := uopArgs args
    let ds := uopTens (r.word 0x101 0) true as_
    let n := (args.headD (.i64 0)).int
    let crew := u.crewOf c
    DestsFull c u ds → Placed (tensIdx args) → (n < 0 → Held c t) ∧
      (0 ≤ n → ∃ vs, vs.getLast? = some (.tok u.ids) ∧ vs.length = ds.length + 1 ∧
        (∀ (k : Nat) v p, vs[k]? = some v → ds[k]? = some p → Names v p.2 u.ids) ∧
        Goes c r vs t (after c) (t.mem = u.mem ∧ t.cores = u.cores ∧ InFlight t u.ids (.lUop w r) 1 c (ds.map (·.2)) ∧
          Filling c t ds (fun _ => 2 ^ 64) ∧
          ∃ o, t.lops.find u.ids = some o ∧ o.ntile = n.toNat ∧ o.rtn = r.word 0x100 0 % 4096 ∧ o.csize = crew.length ∧
            ∀ k, k < n.toNat → crew ≠ [] → ∃ core, crew[k % crew.length]? = some core ∧ (k, core, k % crew.length) ∈ o.tiles))) ∧
  (∀ (s : State) (w : Nat) (r : LRec) (i : Instr), i ∈ [Instr.lAred w r, .lAgath w r, .lRscat w r, .lA2a w r] →
    Record i w r s fun c u t => let sp := tspec i r ((c.vals r).map (Val.atDispatch u c))
      let m := r.word 0x102 0 % 256
      let set_ := (collSet c.lev c.inst.idx m).map (c.inst.launch * 2 ^ 24 + ·)
      ∀ ka a kd d, sp.srcs = [(ka, a)] → sp.dsts = [(kd, d)] → DestsFull c u sp.dsts → Placed (sp.srcs ++ sp.dsts) → a.overlaps d = false →
        (i = .lAred w r ∧ a.ext = d.ext ∨ (i = .lAgath w r ∨ i = .lA2a w r) ∧ a.fmt = d.fmt ∧ a.ext.length = d.ext.length ∨
          i = .lRscat w r ∧ d.ext = setAt a.ext (collAxis r) (blockExt [collSize c m]
            [(firstIdx (· == c.inst.idx) (collSet c.lev c.inst.idx m)).getD 0] (a.ext.getD (collAxis r) 0) 0)) →
        ∃ v, Names v d u.ids ∧ Goes c r [v] t (after c) (t.mem = u.mem ∧ t.cores = u.cores ∧ InFlight t u.ids i 2 c [d] ∧
          Filling c t sp.dsts TRef.wrBytes ∧
          ∃ o x, t.lops.find u.ids = some o ∧ o.set_ = set_ ∧ 0 < o.seq ∧ u.ctx? c.ctx = some x ∧ o.tl9 = x.tl9.iss + 1)) ∧
  (∀ s w r, Record (.lTsend w r) w r s fun c u t => ∀ k q l, tensIdx ((c.vals r).take 1) = (k, q) :: l → q.misplaced = false →
    let p := c.argZ r 1
    let g := c.argZ r 2
    let m := r.word 0x102 0 % 256
    (p < 0 ∨ (collSize c m : Int) ≤ p ∨ g < 0 ∨ 65535 < g → Held c t) ∧
    (0 ≤ p → p < collSize c m → 0 ≤ g → g ≤ 65535 → Fits r [.tok 0] → t.mem = u.mem ∧ t.cores = u.cores ∧
      InFlight t u.ids (.lTsend w r) 2 c [] ∧ top t c.w = some (after c [.tok u.ids]))) ∧
  (∀ s w r, Record (.lTrecv w r) w r s fun c u t => ∀ k q l, tensIdx ((c.vals r).take 1) = (k, q) :: l → q.misplaced = false → DestsFull c u [(k, q)] →
    let p := c.argZ r 1
    let g := c.argZ r 2
    let m := r.word 0x102 0 % 256
    (p < 0 ∨ (collSize c m : Int) ≤ p ∨ g < 0 ∨ 65535 < g → Held c t) ∧
    (0 ≤ p → p < collSize c m → 0 ≤ g → g ≤ 65535 → ∃ v, Names v q u.ids ∧ Goes c r [v] t (after c) (t.mem = u.mem ∧ t.cores = u.cores ∧
      InFlight t u.ids (.lTrecv w r) 2 c [q] ∧ Filling c t [(k, q)] TRef.wrBytes)))

/-- The operators of pipelines (R140, R143, R147, R149 to R155, R174): queues and stages declared, what ends a stage's walk, pops, pushes, and a
tile-walk engine with its regions and its permits. -/
def Obligations.RecordPipelines : Prop :=
  (∀ s w r, Record (.lQdecl w r) w r s fun c u t => let p := (r.attr 0x100).getD []
    let w0 := (p.getD 0 0).toNat
    let v := u.newQueue c.ctx c.wk.inst c.cl (bitsN w0 0 13) (p.getD 1 0).toNat (bitsN w0 16 2) (bitsN w0 19 13)
    (v = none → Held c t) ∧ (∀ n z, v = some (n, z) → Fits r [.i64 0] → t.mem = u.mem ∧ u.queues.find (c.ctx * 4096 + n) = none ∧
      (∀ k, k < n → u.queues.find (c.ctx * 4096 + k) ≠ none) ∧
      top t c.w = some (after c [.i64 (BitVec.ofNat 64 n)]) ∧ ∃ q, t.queues.find (c.ctx * 4096 + n) = some q ∧ q.depth = bitsN w0 0 13 ∧
        q.kind = bitsN w0 16 2 ∧ q.items = [] ∧ q.closed = false ∧ q.inst = c.wk.inst)) ∧
  (∀ s w r, Record (.lStage w r) w r s fun c u t => let mins := ((stageRecs (c.obj.body c.fr.fn)).map fun q => (schedOf q).2.1).foldl (· + ·) 0
    (c.inst.stages = [] → c.inst.cores.length < mins → Held c t) ∧
    (c.inst.stages ≠ [] ∨ mins ≤ c.inst.cores.length → t.mem = u.mem ∧
      top t c.w = some { c.fr.setRes c.fr.ip [.i64 (w64 (-1))] with ip := c.close false c.fr.ip } ∧
      ∃ x g, t.insts.find c.wk.inst = some x ∧ x.stages = c.inst.stages ++ [g] ∧ g.rec0 = c.fr.ip ∧ g.rec1 = c.close false c.fr.ip ∧
        g.st = 0 ∧ g.walks = [] ∧ g.qs.length = r.opds.length)) ∧
  (∀ s w r, Record (.lEndstage w r) w r s fun c u t =>
    (∀ k, c.wk.stage = some k → ((∃ p ∈ u.lops, p.2.walk = c.w) → t = s) ∧
      ((∀ p ∈ u.lops, p.2.walk ≠ c.w) → ∀ h, (u.sl c.wk.core).walk = some h → ((∃ p ∈ h.ins, p.2 ≠ 0) → Held c t) ∧
        ((∀ p ∈ h.ins, p.2 = 0) → t.mem = u.mem ∧ t.cores = u.cores ∧ ∃ k, t.walks.find c.w = some k ∧ k.st = 2))) ∧
    (c.wk.stage = none → (stageRecs ((c.obj.body c.fr.fn).drop (c.fr.ip + 1))).isEmpty = false → Walks c u t { c.fr with ip := c.fr.ip + 1 }) ∧
    (c.wk.stage = none → (stageRecs ((c.obj.body c.fr.fn).drop (c.fr.ip + 1))).isEmpty = true → let z := u.settlePipe c.wk.inst
      ∀ x, z.insts.find c.wk.inst = some x → top t c.w = some (if z.pipeDone x then { c.fr with ip := c.fr.ip + 1 } else c.fr))) ∧
  (∀ s w r, Record (.lQpop w r) w r s fun c u t => let q := qkey c.ctx (c.argZ r 0)
    (c.wk.stage = none → Held c t) ∧
    (∀ k h x d v rest n, c.wk.stage = some k → (u.sl c.wk.core).walk = some h → u.queues.find q = some x →
      u.portOf c.wk.core (c.portIdx k q false) = some (d, 0, n) → takeItem c.w x.items = some (v, rest) →
        (AMap.get 0 h.ins (c.portIdx k q false) = 0 → Held c t) ∧
        (AMap.get 0 h.ins (c.portIdx k q false) ≠ 0 → Fits r [.i64 0] → top t c.w = some (after c [.i64 v]) ∧
          ∃ y, t.queues.find q = some y ∧ y.items = rest ∧ y.head = x.head + 1))) ∧
  (∀ s w r, Record (.lQpush w r) w r s fun c u t => let q := qkey c.ctx (c.argZ r 0)
    (c.wk.stage = none → Held c t) ∧
    (∀ k h x d n, c.wk.stage = some k → (u.sl c.wk.core).walk = some h → u.queues.find q = some x →
      u.portOf c.wk.core (c.portIdx k q true) = some (d, 1, n) → (AMap.get 0 h.outs (c.portIdx k q true) = 0 → Held c t) ∧
        (AMap.get 0 h.outs (c.portIdx k q true) ≠ 0 → x.kind < 2 ∨ x.full = false → Fits r [.tok 0] → t.mem = u.mem ∧
          top t c.w = some (after c [.tok u.ids]) ∧ ∃ y p, t.queues.find q = some y ∧ y.fly = x.fly ++ [p] ∧ p.val = w64 (c.argZ r 1) ∧
            p.src = c.wk.core ∧ y.items = x.items))) ∧
  (∀ s w r, Record (.lWalk w r) w r s fun c u t => ∀ q l, tensorsOf ((c.vals r).take 1) = q :: l → let wd := r.word 0x100 0
    let tile := ((r.attr 0x101).getD []).map (·.toNat)
    let nb := (tensorSpan q.fmt q.lay q.mx tile (denseStr q.fmt q.lay tile)).2
    (q.isGlobal = false ∨ q.misplaced = true → Held c t) ∧
    (q.isGlobal = true → q.misplaced = false → ∀ regs v n z, (takeTiles c nb (bitsN wd 8 8)).run u = .ok (regs, v) →
      v.newQueue c.ctx c.wk.inst c.cl (bitsN wd 8 8) nb 3 0 = some (n, z) → Fits r [.i64 0, .tok 0] →
        top t c.w = some (after c [.i64 (BitVec.ofNat 64 n), .tok v.ids]) ∧ regs.length = bitsN wd 8 8 ∧
        (∃ y, t.queues.find (c.ctx * 4096 + n) = some y ∧ y.items.length = regs.length) ∧
        ∃ x e, t.insts.find c.wk.inst = some x ∧ x.ewalks.find c.inst.ewalks.length = some e ∧ e.regs = regs ∧ e.t = 0 ∧ e.tile = tile ∧
          e.store = bitN wd 0 ∧ e.pq = c.ctx * 4096 + n ∧ e.done = false))

namespace Sys2Proof.Claims

/-- No input, no internal step, no due event, no record and no core's decision point comes before the cores' turns (log 3). -/
def Quiet (s : State) : Prop :=
  s.power.trip = false ∧ s.inbox = [] ∧ s.innerStep = none ∧ s.dueEvent = none ∧ s.seqStep = none ∧ s.decision = none

/-- s in the turn of core c, which is not frozen. -/
def inTurn (s : State) (c : Nat) : State := { s with turn := c + 1 }.setCore c { s.core c with frzRun := 0 }

/-- v with bundle b of core c about to issue. -/
def opened (v : State) (c : Nat) (b : Bundle) : State :=
  { v with iss := { Iss.idle with core := c, pc := (v.sl c).pc, npc := (v.sl c).pc + BitVec.ofNat 64 b.size } }

/-- v when slot k of the open bundle begins. -/
def atSlot (v : State) (k : Slot) : State := { v with iss := { v.iss with slot := k.bit, stat := .ok } }

/-- Core c has its turn at s, in a user routine whose fetch finds bundle b of object o. -/
def Decodes (s : State) (c : Nat) (o : Obj) (b : Bundle) : Prop :=
  s.nextCore = some c ∧ s.frozen (s.core c) = false ∧ (s.core c).extra = 0 ∧
  ∃ r l, (s.sl c).orec = some r ∧ r.builtin = false ∧ s.objs.find r.obj = some o ∧ (inTurn s c).fetch c r.obj o = .bytes l ∧
    decodeBundle (((s.sl c).pc.toNat - o.textVA) % 4096) l = .ok b

/-- b is the transpose of a's four blocks: element (row, 16j + c) of b is element (c, 16j + row) of a (R294). -/
def Transposed (a b : VReg) (m : VMask) : Prop :=
  ∀ j row c, j < 4 → row < 16 → c < 16 → m.getLsbD (64 * row + 16 * j + c) = true →
    b.elem (64 * row + 16 * j + c) = a.elem (64 * c + 16 * j + row)

end Sys2Proof.Claims

/-- The chip right after reset (R16, R165, R423, R444): its counters stand at zero, every cluster's KNCFG holds the reset values of R165, boot begins
at phase 0, no core runs and no context exists; memory is in its canonical form. Memory that reads zero, core counters at zero, 940 MHz and P_LIM
1,900 W are the model's (log 1, log 14, log 21). -/
def Obligations.ResetValues : Prop := let s := State.reset
  s.MemOk ∧ (∀ a, s.rd8 a = 0) ∧ s.ccyc = 0 ∧ s.gcyc = 0 ∧ s.inbox = [] ∧ s.ctl.phase = 0 ∧ s.power.trip = false ∧ s.power.fnow = 940 ∧
  s.power.plim = 1900 ∧ (∀ x, s.ctx? x = none) ∧ s.launches = [] ∧ s.queues = [] ∧
  (∀ j, let v := (s.cluster j).kncfg.toNat
    v / 2 ^ 40 % 32 = 26 ∧ v / 2 ^ 16 % 8 = 1 ∧ v / 2 ^ 8 % 256 = 64 ∧ v % 32 = 16) ∧
  (∀ c, let k := s.core c
    k.run = none ∧ k.fenced = false ∧ k.frz = 0 ∧ k.issued = 0 ∧ k.cntOvf = 0 ∧ k.cntNan = 0 ∧ k.cntSat = 0 ∧ k.cntTrn = 0 ∧
    (∀ d, k.sl.sget d = 0) ∧ ∀ d i, (k.sl.vget d).elem i = 0)

/-- Every step keeps memory canonical: strictly rising addresses, and no entry that an unlisted address reads as, so that equal memories are equal
lists. -/
def Obligations.StepKeepsMemoryCanonical : Prop := ∀ s t : State, s.MemOk → step s = .next t → t.MemOk

/-- Encodings (R49, R51, R55, R206 to R211, R216 to R227): for every well-formed slot instruction, predicate that R210 allows and PM bit of its class,
decoding its slot word gives it back with every operand; its bundle of one slot decodes to it whatever follows; the empty bundle is `NOP` with its HNT;
and for every operator of LORYIL, decoding its record's words gives it back with every operand and attribute, whatever follows. -/
def Obligations.EncodingRoundTrip : Prop :=
  (∀ (i : Instr) (psel : BitVec 4) (neg : Bool) k w x, i.WellFormed → (psel = 0 → neg = false) → encodeSlot psel neg i = some (k, w, x) →
    (∀ bit, classOf bit = k → decodeSlot bit x w = .ok ⟨bit, psel, neg, i⟩) ∧
    (psel = 0 → ∀ (o : Nat) (l : List Byte), o + 10 ≤ 4096 →
      decodeBundle o (encode i ++ l) = .ok ⟨10, 0, [⟨firstBit k, 0, false, i⟩]⟩)) ∧
  (∀ (h : BitVec 4) (o : Nat) (l : List Byte), o + 4 ≤ 4096 → decodeBundle o (encode (.nop h) ++ l) = .ok ⟨4, h, []⟩) ∧
  (∀ (w : Nat) (opc : BitVec 8) (r : LRec) (i : Instr), opsL w r opc.toNat = some i → i.WellFormed →
    recParts i = some (opc, r) ∧ ∀ l, decodeRec w r.off (encodeRec opc r ++ l) = .ok (i, (encodeRec opc r).length))

/-- A step runs what it decodes. The oldest input comes first and a due event before the records and the cores; a record's step is that of its
instruction, a core's decision point that of its event; the bundle at the pc of the core in turn is issued slot by slot (R209, R212, R215): each enabled slot's `exec` on what the slots before it
did, nothing for a slot whose predicate is false, and `NOP` for the empty bundle; then the bundle retires, waits unchanged, or takes its trap. The order
among inputs, events, records and cores is the model's (log 3). -/
def Obligations.StepRunsDecodedBundle : Prop :=
  (∀ (s : State) (i : Instr) (r : List Instr), s.power.trip = false → s.inbox = i :: r → cmdHdr i = none → step s = exec i { s with inbox := r }) ∧
  (∀ (s : State) (i : Instr), s.power.trip = false → s.inbox = [] → s.innerStep = none → s.dueEvent = some i → step s = exec i s) ∧
  (∀ (s t : State), s.power.trip = false → s.inbox = [] → s.innerStep = none → s.dueEvent = none → s.seqStep = some t →
    step s = .next t ∧ ∃ w i, s.recordOf w = some i ∧ exec i s = .next t) ∧
  (∀ (s : State) (c : Nat) (i : Instr), s.power.trip = false → s.inbox = [] → s.innerStep = none → s.dueEvent = none → s.seqStep = none →
    s.decision = some (c, i) → step s = exec i { s with decided := c }) ∧
  (∀ (s : State) (c : Nat) (o : Obj) (b : Bundle), Quiet s → Decodes s c o b →
    let v := inTurn s c; let x := v.sl c; let u := opened v c b
    step s = v.settleIssue c o (runBundle x b u) ∧
    (b.slots = [] → ∀ t, exec (.nop b.hnt) (atSlot u ⟨7, 0, false, .nop b.hnt⟩) = .next t → t.iss.stat = .ok → step s = .next (t.retire c o)) ∧
    (∀ k, b.slots = [k] → x.enabled k.psel.toNat k.neg = false → step s = .next (u.retire c o)) ∧
    (∀ k t, b.slots = [k] → x.enabled k.psel.toNat k.neg = true → exec k.ins (atSlot u k) = .next t →
      (t.iss.stat = .ok → step s = .next (t.retire c o)) ∧
      (t.iss.stat = .stalled → step s = .next { v with iss := { v.iss with want := t.iss.want } }) ∧
      (∀ code d h, t.iss.stat = .trapped code d h → step s = .next { (v.takeTrap c k.bit code d h x.pc) with fresh := t.fresh })) ∧
    (∀ k r t, b.slots = k :: r → x.enabled k.psel.toNat k.neg = true → exec k.ins (atSlot u k) = .next t → t.iss.stat = .ok →
      runBundle x b u = runSlots x r none t) ∧
    (∀ k r, b.slots = k :: r → x.enabled k.psel.toNat k.neg = false → runBundle x b u = runSlots x r none u))

/-- Words that spec/ writes out bit by bit decode to the instructions that they stand for (the worked examples after R211, R227, R89 and of the families'
chapters: R206, R217 to R223, R49, R51), and reserved words are refused by name (R211). -/
def Obligations.DecodeSanity : Prop :=
  decodeBundle 0 [0x03, 0, 0, 0, 0x81, 0x18, 0x02, 0x01, 0, 0, 0x01, 0x10, 0xC4, 0, 0xC0, 0] = .ok ⟨16, 0,
    [⟨0, 2, false, .add { fn := 0, src := .reg 0 0 2, a := 1, d := 3 }⟩,
     ⟨1, 0, false, .vadd { fn := 0, ty := 0, rnd := 6, es := 0, m := 0, c := 0, b := 3, a := 2, d := 1 }⟩]⟩ ∧
  decodeBundle 0 [0x01, 0, 0x02, 0, 0x01, 0x28, 0x0A, 0x2B, 0x1A, 0xC1] = .ok ⟨10, 0,
    [⟨0, 0, false, .add { fn := 0, src := .imm (some 2) 0x23456, a := 5, d := 5 }⟩]⟩ ∧
  decodeBundle 0 [0x01, 0, 0, 0, 0x1A, 0x20, 0x0E, 0x82, 0x65, 0x06] = .ok ⟨10, 0,
    [⟨0, 0, false, .ld { xi := none, arr := 12, fn := 6, am := false, w := 2, sp := 3, off := 4, a := 7, d := 4 }⟩]⟩ ∧
  decodeBundle 0 [0x01, 0, 0, 0, 0x2E, 0x20, 0, 0xA0, 0, 0] = .ok ⟨10, 0,
    [⟨0, 0, false, .mfs { xi := none, fn := 0, imm := 0x14, md := 0, a := 0, d := 4 }⟩]⟩ ∧
  decodeBundle 0 [0x02, 0, 0, 0, 0x18, 0x40, 0x4A, 0xFF, 0x1F, 0x08] = .ok ⟨10, 0,
    [⟨1, 0, false, .vrotr { fn := 1, ty := 0, m := 0, src := .imm none 0x3FFD, a := 5, d := 4 }⟩]⟩ ∧
  decodeBundle 0 [0x08, 0, 0, 0, 0x04, 0x10, 0x08, 0x03, 0, 0x0B] = .ok ⟨10, 0,
    [⟨3, 0, false, .mma { mode := 2, grp := 3, fn := 0, sl := 0, str := 0, c := 3, b := 2, a := 1 }⟩]⟩ ∧
  decodeBundle 0 [0x10, 0, 0, 0, 0x02, 0x60, 0x40, 0x24, 0x46, 0x08] = .ok ⟨10, 0,
    [⟨4, 0, false, .cpyg { xi := none, fn := 1, rnd := 0, es := 1, c := 6, b := 9, a := 4, imm := 12 }⟩]⟩ ∧
  decodeBundle 0 [0, 0x03, 0, 0] = .ok ⟨4, 3, []⟩ ∧
  decodeBundle 0 [0x01, 0, 0, 0, 0x3F, 0, 0, 0, 0, 0] = .error (.illegalOp 0) ∧
  decodeBundle 0 [0x80, 0, 0, 0] = .error (.illegalRsvd 7) ∧
  decodeRec 0 18 [0x00022111, 0x00100001, 0x00000003, 0x80010100, 0x00000000] = .ok (.lSop 0
    { off := 18, fuse := 0, nres := 1, opds := [.val 1 1, .val 3 0], attrs := [⟨true, 0x0100, [0]⟩] }, 5) ∧
  decodeRec 0 15 [0x00002201, 0x00000003, 0x00000001] = .ok (.lLoop 0
    { off := 15, fuse := 0, nres := 2, opds := [.val 3 0, .val 1 0], attrs := [] }, 3) ∧
  decodeRec 0 8 [0x0000000B] = .error 3

/-- `VTRN` (R294): each enabled element of the result is the element of vA across its 16 × 16 block's diagonal, bits unchanged; and a second `VTRN` restores
the register. -/
def Obligations.VectorTranspose : Prop :=
  (∀ (f : VR) (s w : State) (u : Nat), Gives (useVU 4 6) s u w → ∃ x : VReg, Transposed (s.me.vget f.a.toNat) x (s.me.mget f.m.toNat) ∧
    exec (.vtrn f) s = .next (w.plan 6 (some (.vreg (s.me.phys f.d.toNat) (s.me.mget f.m.toNat) x)))) ∧
  (∀ a b c : VReg, Transposed a b vmAll → Transposed b c vmAll → c = a)

/-- Blocks of a sharded dimension (R63): instance j along a level of extent X holds indices j·⌈E / X⌉ up to, but not including, min((j + 1)·⌈E / X⌉, E), so
that each index lies in the block of exactly one instance; a block may be empty. -/
def Obligations.ShardBlocks : Prop :=
  (∀ (lev idx : List Nat) (e a : Nat), a < 8 → 0 < lev.getD a 1 →
    let x := lev.getD a 1; let j := idx.getD a 0; let b := cdiv e x
    let holds := fun i => blockOff lev idx e a ≤ i ∧ i < blockOff lev idx e a + blockExt lev idx e a
    (e ≤ x * b ∧ x * b < e + x) ∧ (∀ i, holds i ↔ j * b ≤ i ∧ i < Nat.min ((j + 1) * b) e)) ∧
  (∀ (lev : List Nat) (e a i : Nat), a < 8 → a < lev.length → 0 < lev.getD a 1 → i < e →
    ∃ j, j < lev.getD a 1 ∧ ∀ idx : List Nat, idx.length = lev.length → idx.getD a 0 < lev.getD a 1 →
      (blockOff lev idx e a ≤ i ∧ i < blockOff lev idx e a + blockExt lev idx e a ↔ idx.getD a 0 = j)) ∧
  (∃ lev idx e, blockExt lev idx e 0 = 0 ∧ 0 < e ∧ idx.getD 0 0 < lev.getD 0 1)
end

