-- ==== Sys2Proof/Laws/Encode.lean ====
section
/-! SUPPORT. Each operand format of a slot word decodes to what its encoder was given (R217 to R224), whatever the predicate and the opcode are. -/
namespace Sys2Proof
open Machine

/-! ### Fields of an appended word -/

/-- A field wholly in the low part. -/
theorem extract_low {m n : Nat} (a : BitVec m) (b : BitVec n) (lo k : Nat) (h : lo + k ≤ n) :
    BitVec.extractLsb' lo k (a ++ b) = BitVec.extractLsb' lo k b := by
  ext i hi
  simp only [BitVec.getElem_extractLsb', BitVec.getLsbD_append]
  rw [if_pos (by omega)]

/-- A field wholly in the high part. -/
theorem extract_high {m n : Nat} (a : BitVec m) (b : BitVec n) (lo k : Nat) (h : n ≤ lo) :
    BitVec.extractLsb' lo k (a ++ b) = BitVec.extractLsb' (lo - n) k a := by
  ext i hi
  simp only [BitVec.getElem_extractLsb', BitVec.getLsbD_append]
  rw [if_neg (by omega)]
  congr 1
  omega

/-- A field that is the whole word. -/
theorem extract_whole {n : Nat} (a : BitVec n) : BitVec.extractLsb' 0 n a = a := by
  ext i hi
  simp

theorem getLsbD_low {m n : Nat} (a : BitVec m) (b : BitVec n) (i : Nat) (h : i < n) : (a ++ b).getLsbD i = b.getLsbD i := by
  simp [BitVec.getLsbD_append, h]

theorem getLsbD_high {m n : Nat} (a : BitVec m) (b : BitVec n) (i : Nat) (h : n ≤ i) : (a ++ b).getLsbD i = a.getLsbD (i - n) := by
  rw [BitVec.getLsbD_append, if_neg (by omega)]

@[simp] theorem getElem_bit1 (b : Bool) : (bit1 b)[0] = b := by cases b <;> rfl

@[simp] theorem xOf_xBit (x : Option (BitVec 16)) : xOf (xVal x) (xBit x)[0] = x := by
  cases x <;> simp [xOf, xVal, xBit]

/-! ### One lemma per format -/

theorem decSA_encSA (f : SA) (n : Bool) (p : BitVec 4) (o : BitVec 6) : decSA (ximSA f) (encSA f ++ bit1 n ++ p ++ o) = some f := by
  obtain ⟨fn, src, a, d⟩ := f
  cases src <;>
  simp -index only [decSA, encSA, ximSA, SlotWord.fld, extract_low, extract_high, getLsbD_low, getLsbD_high, extract_whole, Nat.reduceLeDiff,
    Nat.reduceLT, Nat.reduceSub, Nat.reduceAdd]
  · simp
  · simp

theorem decSI_encSI (f : SI) (n : Bool) (p : BitVec 4) (o : BitVec 6) : decSI (ximSI f) (encSI f ++ bit1 n ++ p ++ o) = some f := by
  simp -index only [decSI, encSI, ximSI, SlotWord.fld, extract_low, extract_high, getLsbD_low, getLsbD_high, extract_whole, Nat.reduceLeDiff,
    Nat.reduceLT, Nat.reduceSub, Nat.reduceAdd]
  simp

theorem decSB_encSB (f : SB) (n : Bool) (p : BitVec 4) (o : BitVec 6) : decSB (ximSB f) (encSB f ++ bit1 n ++ p ++ o) = some f := by
  simp -index only [decSB, encSB, ximSB, SlotWord.fld, extract_low, extract_high, getLsbD_low, getLsbD_high, extract_whole, Nat.reduceLeDiff,
    Nat.reduceLT, Nat.reduceSub, Nat.reduceAdd]
  simp

theorem decSM_encSM (f : SM) (n : Bool) (p : BitVec 4) (o : BitVec 6) : decSM (ximSM f) (encSM f ++ bit1 n ++ p ++ o) = some f := by
  simp -index only [decSM, encSM, ximSM, SlotWord.fld, extract_low, extract_high, getLsbD_low, getLsbD_high, extract_whole, Nat.reduceLeDiff,
    Nat.reduceLT, Nat.reduceSub, Nat.reduceAdd]
  simp

theorem decSQ_encSQ (f : SQ) (n : Bool) (p : BitVec 4) (o : BitVec 6) : decSQ (ximSQ f) (encSQ f ++ bit1 n ++ p ++ o) = some f := by
  simp -index only [decSQ, encSQ, ximSQ, SlotWord.fld, extract_low, extract_high, getLsbD_low, getLsbD_high, extract_whole, Nat.reduceLeDiff,
    Nat.reduceLT, Nat.reduceSub, Nat.reduceAdd]
  simp

theorem decSY_encSY (f : SY) (n : Bool) (p : BitVec 4) (o : BitVec 6) : decSY (ximSY f) (encSY f ++ bit1 n ++ p ++ o) = some f := by
  simp -index only [decSY, encSY, ximSY, SlotWord.fld, extract_low, extract_high, getLsbD_low, getLsbD_high, extract_whole, Nat.reduceLeDiff,
    Nat.reduceLT, Nat.reduceSub, Nat.reduceAdd]
  simp

theorem decVR_encVR (f : VR) (n : Bool) (p : BitVec 4) (o : BitVec 6) : decVR (ximVR f) (encVR f ++ bit1 n ++ p ++ o) = some f := by
  simp -index only [decVR, encVR, ximVR, SlotWord.fld, extract_low, extract_high, getLsbD_low, getLsbD_high, extract_whole, Nat.reduceLeDiff,
    Nat.reduceLT, Nat.reduceSub, Nat.reduceAdd]
  simp

theorem decVI_encVI (f : VI) (n : Bool) (p : BitVec 4) (o : BitVec 6) : decVI (ximVI f) (encVI f ++ bit1 n ++ p ++ o) = some f := by
  obtain ⟨fn, ty, m, src, a, d⟩ := f
  cases src <;>
  simp -index only [decVI, encVI, ximVI, SlotWord.fld, extract_low, extract_high, getLsbD_low, getLsbD_high, extract_whole, Nat.reduceLeDiff,
    Nat.reduceLT, Nat.reduceSub, Nat.reduceAdd]
  · simp
  · simp

theorem decVM_encVM (f : VM) (n : Bool) (p : BitVec 4) (o : BitVec 6) : decVM (ximVM f) (encVM f ++ bit1 n ++ p ++ o) = some f := by
  simp -index only [decVM, encVM, ximVM, SlotWord.fld, extract_low, extract_high, getLsbD_low, getLsbD_high, extract_whole, Nat.reduceLeDiff,
    Nat.reduceLT, Nat.reduceSub, Nat.reduceAdd]
  simp

theorem decVG_encVG (f : VG) (n : Bool) (p : BitVec 4) (o : BitVec 6) : decVG (ximVG f) (encVG f ++ bit1 n ++ p ++ o) = some f := by
  simp -index only [decVG, encVG, ximVG, SlotWord.fld, extract_low, extract_high, getLsbD_low, getLsbD_high, extract_whole, Nat.reduceLeDiff,
    Nat.reduceLT, Nat.reduceSub, Nat.reduceAdd]
  simp

theorem decMX_encMX (f : MX) (n : Bool) (p : BitVec 4) (o : BitVec 6) : decMX (ximMX f) (encMX f ++ bit1 n ++ p ++ o) = some f := by
  simp -index only [decMX, encMX, ximMX, SlotWord.fld, extract_low, extract_high, getLsbD_low, getLsbD_high, extract_whole, Nat.reduceLeDiff,
    Nat.reduceLT, Nat.reduceSub, Nat.reduceAdd]
  simp

theorem decCX_encCX (f : CX) (n : Bool) (p : BitVec 4) (o : BitVec 6) : decCX (ximCX f) (encCX f ++ bit1 n ++ p ++ o) = some f := by
  simp -index only [decCX, encCX, ximCX, SlotWord.fld, extract_low, extract_high, getLsbD_low, getLsbD_high, extract_whole, Nat.reduceLeDiff,
    Nat.reduceLT, Nat.reduceSub, Nat.reduceAdd]
  simp

theorem decAL_encAL (f : AL) (n : Bool) (p : BitVec 4) (o : BitVec 6) : decAL (ximAL f) (encAL f ++ bit1 n ++ p ++ o) = some f := by
  obtain ⟨lv, rot, ns, len, cnt⟩ := f
  cases cnt <;>
  simp -index only [decAL, encAL, ximAL, SlotWord.fld, extract_low, extract_high, getLsbD_low, getLsbD_high, extract_whole, Nat.reduceLeDiff,
    Nat.reduceLT, Nat.reduceSub, Nat.reduceAdd]
  · simp
  · simp

theorem decAS_encAS (f : AS) (n : Bool) (p : BitVec 4) (o : BitVec 6) : decAS (ximAS f) (encAS f ++ bit1 n ++ p ++ o) = some f := by
  simp -index only [decAS, encAS, ximAS, SlotWord.fld, extract_low, extract_high, getLsbD_low, getLsbD_high, extract_whole, Nat.reduceLeDiff,
    Nat.reduceLT, Nat.reduceSub, Nat.reduceAdd]
  simp

end Sys2Proof
end

