-- ==== Sys2Proof/Laws/State.lean ====
section
/-! SUPPORT. What each named update of the state leaves: one lemma per field and update; then reading back what was written, in maps, cores,
clusters and memory. -/
namespace Sys2Proof.Machine

/-! ### Every field after every update -/

@[simp] theorem wr8_cores (s : State) (a : Nat) (b : Byte) : (s.wr8 a b).cores = s.cores := rfl
@[simp] theorem wr8_clusters (s : State) (a : Nat) (b : Byte) : (s.wr8 a b).clusters = s.clusters := rfl
@[simp] theorem wr8_ctxs (s : State) (a : Nat) (b : Byte) : (s.wr8 a b).ctxs = s.ctxs := rfl
@[simp] theorem wr8_res (s : State) (a : Nat) (b : Byte) : (s.wr8 a b).res = s.res := rfl
@[simp] theorem wr8_recs (s : State) (a : Nat) (b : Byte) : (s.wr8 a b).recs = s.recs := rfl
@[simp] theorem wr8_queues (s : State) (a : Nat) (b : Byte) : (s.wr8 a b).queues = s.queues := rfl
@[simp] theorem wr8_eops (s : State) (a : Nat) (b : Byte) : (s.wr8 a b).eops = s.eops := rfl
@[simp] theorem wr8_objs (s : State) (a : Nat) (b : Byte) : (s.wr8 a b).objs = s.objs := rfl
@[simp] theorem wr8_launches (s : State) (a : Nat) (b : Byte) : (s.wr8 a b).launches = s.launches := rfl
@[simp] theorem wr8_insts (s : State) (a : Nat) (b : Byte) : (s.wr8 a b).insts = s.insts := rfl
@[simp] theorem wr8_walks (s : State) (a : Nat) (b : Byte) : (s.wr8 a b).walks = s.walks := rfl
@[simp] theorem wr8_lops (s : State) (a : Nat) (b : Byte) : (s.wr8 a b).lops = s.lops := rfl
@[simp] theorem wr8_sends (s : State) (a : Nat) (b : Byte) : (s.wr8 a b).sends = s.sends := rfl
@[simp] theorem wr8_traps (s : State) (a : Nat) (b : Byte) : (s.wr8 a b).traps = s.traps := rfl
@[simp] theorem wr8_chunks (s : State) (a : Nat) (b : Byte) : (s.wr8 a b).chunks = s.chunks := rfl
@[simp] theorem wr8_group (s : State) (a : Nat) (b : Byte) : (s.wr8 a b).group = s.group := rfl
@[simp] theorem wr8_ctl (s : State) (a : Nat) (b : Byte) : (s.wr8 a b).ctl = s.ctl := rfl
@[simp] theorem wr8_power (s : State) (a : Nat) (b : Byte) : (s.wr8 a b).power = s.power := rfl
@[simp] theorem wr8_chipS (s : State) (a : Nat) (b : Byte) : (s.wr8 a b).chipS = s.chipS := rfl
@[simp] theorem wr8_phaseLo (s : State) (a : Nat) (b : Byte) : (s.wr8 a b).phaseLo = s.phaseLo := rfl
@[simp] theorem wr8_phaseHi (s : State) (a : Nat) (b : Byte) : (s.wr8 a b).phaseHi = s.phaseHi := rfl
@[simp] theorem wr8_phaseEnd (s : State) (a : Nat) (b : Byte) : (s.wr8 a b).phaseEnd = s.phaseEnd := rfl
@[simp] theorem wr8_phaseTo (s : State) (a : Nat) (b : Byte) : (s.wr8 a b).phaseTo = s.phaseTo := rfl
@[simp] theorem wr8_cgran (s : State) (a : Nat) (b : Byte) : (s.wr8 a b).cgran = s.cgran := rfl
@[simp] theorem wr8_clast (s : State) (a : Nat) (b : Byte) : (s.wr8 a b).clast = s.clast := rfl
@[simp] theorem wr8_dropsig (s : State) (a : Nat) (b : Byte) : (s.wr8 a b).dropsig = s.dropsig := rfl
@[simp] theorem wr8_ccyc (s : State) (a : Nat) (b : Byte) : (s.wr8 a b).ccyc = s.ccyc := rfl
@[simp] theorem wr8_gcyc (s : State) (a : Nat) (b : Byte) : (s.wr8 a b).gcyc = s.gcyc := rfl
@[simp] theorem wr8_inbox (s : State) (a : Nat) (b : Byte) : (s.wr8 a b).inbox = s.inbox := rfl
@[simp] theorem wr8_iss (s : State) (a : Nat) (b : Byte) : (s.wr8 a b).iss = s.iss := rfl
@[simp] theorem wr8_turn (s : State) (a : Nat) (b : Byte) : (s.wr8 a b).turn = s.turn := rfl
@[simp] theorem wr8_decided (s : State) (a : Nat) (b : Byte) : (s.wr8 a b).decided = s.decided := rfl
@[simp] theorem wr8_fresh (s : State) (a : Nat) (b : Byte) : (s.wr8 a b).fresh = s.fresh := rfl
@[simp] theorem wr8_ids (s : State) (a : Nat) (b : Byte) : (s.wr8 a b).ids = s.ids := rfl

@[simp] theorem clear_cores (s : State) (a n : Nat) : (s.clear a n).cores = s.cores := rfl
@[simp] theorem clear_clusters (s : State) (a n : Nat) : (s.clear a n).clusters = s.clusters := rfl
@[simp] theorem clear_ctxs (s : State) (a n : Nat) : (s.clear a n).ctxs = s.ctxs := rfl
@[simp] theorem clear_res (s : State) (a n : Nat) : (s.clear a n).res = s.res := rfl
@[simp] theorem clear_recs (s : State) (a n : Nat) : (s.clear a n).recs = s.recs := rfl
@[simp] theorem clear_queues (s : State) (a n : Nat) : (s.clear a n).queues = s.queues := rfl
@[simp] theorem clear_eops (s : State) (a n : Nat) : (s.clear a n).eops = s.eops := rfl
@[simp] theorem clear_objs (s : State) (a n : Nat) : (s.clear a n).objs = s.objs := rfl
@[simp] theorem clear_launches (s : State) (a n : Nat) : (s.clear a n).launches = s.launches := rfl
@[simp] theorem clear_insts (s : State) (a n : Nat) : (s.clear a n).insts = s.insts := rfl
@[simp] theorem clear_walks (s : State) (a n : Nat) : (s.clear a n).walks = s.walks := rfl
@[simp] theorem clear_lops (s : State) (a n : Nat) : (s.clear a n).lops = s.lops := rfl
@[simp] theorem clear_sends (s : State) (a n : Nat) : (s.clear a n).sends = s.sends := rfl
@[simp] theorem clear_traps (s : State) (a n : Nat) : (s.clear a n).traps = s.traps := rfl
@[simp] theorem clear_chunks (s : State) (a n : Nat) : (s.clear a n).chunks = s.chunks := rfl
@[simp] theorem clear_group (s : State) (a n : Nat) : (s.clear a n).group = s.group := rfl
@[simp] theorem clear_ctl (s : State) (a n : Nat) : (s.clear a n).ctl = s.ctl := rfl
@[simp] theorem clear_power (s : State) (a n : Nat) : (s.clear a n).power = s.power := rfl
@[simp] theorem clear_chipS (s : State) (a n : Nat) : (s.clear a n).chipS = s.chipS := rfl
@[simp] theorem clear_phaseLo (s : State) (a n : Nat) : (s.clear a n).phaseLo = s.phaseLo := rfl
@[simp] theorem clear_phaseHi (s : State) (a n : Nat) : (s.clear a n).phaseHi = s.phaseHi := rfl
@[simp] theorem clear_phaseEnd (s : State) (a n : Nat) : (s.clear a n).phaseEnd = s.phaseEnd := rfl
@[simp] theorem clear_phaseTo (s : State) (a n : Nat) : (s.clear a n).phaseTo = s.phaseTo := rfl
@[simp] theorem clear_cgran (s : State) (a n : Nat) : (s.clear a n).cgran = s.cgran := rfl
@[simp] theorem clear_clast (s : State) (a n : Nat) : (s.clear a n).clast = s.clast := rfl
@[simp] theorem clear_dropsig (s : State) (a n : Nat) : (s.clear a n).dropsig = s.dropsig := rfl
@[simp] theorem clear_ccyc (s : State) (a n : Nat) : (s.clear a n).ccyc = s.ccyc := rfl
@[simp] theorem clear_gcyc (s : State) (a n : Nat) : (s.clear a n).gcyc = s.gcyc := rfl
@[simp] theorem clear_inbox (s : State) (a n : Nat) : (s.clear a n).inbox = s.inbox := rfl
@[simp] theorem clear_iss (s : State) (a n : Nat) : (s.clear a n).iss = s.iss := rfl
@[simp] theorem clear_turn (s : State) (a n : Nat) : (s.clear a n).turn = s.turn := rfl
@[simp] theorem clear_decided (s : State) (a n : Nat) : (s.clear a n).decided = s.decided := rfl
@[simp] theorem clear_fresh (s : State) (a n : Nat) : (s.clear a n).fresh = s.fresh := rfl
@[simp] theorem clear_ids (s : State) (a n : Nat) : (s.clear a n).ids = s.ids := rfl

@[simp] theorem setCore_mem (s : State) (c : Nat) (k : Core) : (s.setCore c k).mem = s.mem := rfl
@[simp] theorem setCore_clusters (s : State) (c : Nat) (k : Core) : (s.setCore c k).clusters = s.clusters := rfl
@[simp] theorem setCore_ctxs (s : State) (c : Nat) (k : Core) : (s.setCore c k).ctxs = s.ctxs := rfl
@[simp] theorem setCore_res (s : State) (c : Nat) (k : Core) : (s.setCore c k).res = s.res := rfl
@[simp] theorem setCore_recs (s : State) (c : Nat) (k : Core) : (s.setCore c k).recs = s.recs := rfl
@[simp] theorem setCore_queues (s : State) (c : Nat) (k : Core) : (s.setCore c k).queues = s.queues := rfl
@[simp] theorem setCore_eops (s : State) (c : Nat) (k : Core) : (s.setCore c k).eops = s.eops := rfl
@[simp] theorem setCore_objs (s : State) (c : Nat) (k : Core) : (s.setCore c k).objs = s.objs := rfl
@[simp] theorem setCore_launches (s : State) (c : Nat) (k : Core) : (s.setCore c k).launches = s.launches := rfl
@[simp] theorem setCore_insts (s : State) (c : Nat) (k : Core) : (s.setCore c k).insts = s.insts := rfl
@[simp] theorem setCore_walks (s : State) (c : Nat) (k : Core) : (s.setCore c k).walks = s.walks := rfl
@[simp] theorem setCore_lops (s : State) (c : Nat) (k : Core) : (s.setCore c k).lops = s.lops := rfl
@[simp] theorem setCore_sends (s : State) (c : Nat) (k : Core) : (s.setCore c k).sends = s.sends := rfl
@[simp] theorem setCore_traps (s : State) (c : Nat) (k : Core) : (s.setCore c k).traps = s.traps := rfl
@[simp] theorem setCore_chunks (s : State) (c : Nat) (k : Core) : (s.setCore c k).chunks = s.chunks := rfl
@[simp] theorem setCore_group (s : State) (c : Nat) (k : Core) : (s.setCore c k).group = s.group := rfl
@[simp] theorem setCore_ctl (s : State) (c : Nat) (k : Core) : (s.setCore c k).ctl = s.ctl := rfl
@[simp] theorem setCore_power (s : State) (c : Nat) (k : Core) : (s.setCore c k).power = s.power := rfl
@[simp] theorem setCore_chipS (s : State) (c : Nat) (k : Core) : (s.setCore c k).chipS = s.chipS := rfl
@[simp] theorem setCore_phaseLo (s : State) (c : Nat) (k : Core) : (s.setCore c k).phaseLo = s.phaseLo := rfl
@[simp] theorem setCore_phaseHi (s : State) (c : Nat) (k : Core) : (s.setCore c k).phaseHi = s.phaseHi := rfl
@[simp] theorem setCore_phaseEnd (s : State) (c : Nat) (k : Core) : (s.setCore c k).phaseEnd = s.phaseEnd := rfl
@[simp] theorem setCore_phaseTo (s : State) (c : Nat) (k : Core) : (s.setCore c k).phaseTo = s.phaseTo := rfl
@[simp] theorem setCore_cgran (s : State) (c : Nat) (k : Core) : (s.setCore c k).cgran = s.cgran := rfl
@[simp] theorem setCore_clast (s : State) (c : Nat) (k : Core) : (s.setCore c k).clast = s.clast := rfl
@[simp] theorem setCore_dropsig (s : State) (c : Nat) (k : Core) : (s.setCore c k).dropsig = s.dropsig := rfl
@[simp] theorem setCore_ccyc (s : State) (c : Nat) (k : Core) : (s.setCore c k).ccyc = s.ccyc := rfl
@[simp] theorem setCore_gcyc (s : State) (c : Nat) (k : Core) : (s.setCore c k).gcyc = s.gcyc := rfl
@[simp] theorem setCore_inbox (s : State) (c : Nat) (k : Core) : (s.setCore c k).inbox = s.inbox := rfl
@[simp] theorem setCore_iss (s : State) (c : Nat) (k : Core) : (s.setCore c k).iss = s.iss := rfl
@[simp] theorem setCore_turn (s : State) (c : Nat) (k : Core) : (s.setCore c k).turn = s.turn := rfl
@[simp] theorem setCore_decided (s : State) (c : Nat) (k : Core) : (s.setCore c k).decided = s.decided := rfl
@[simp] theorem setCore_fresh (s : State) (c : Nat) (k : Core) : (s.setCore c k).fresh = s.fresh := rfl
@[simp] theorem setCore_ids (s : State) (c : Nat) (k : Core) : (s.setCore c k).ids = s.ids := rfl

@[simp] theorem updCore_mem (s : State) (c : Nat) (f : Core → Core) : (s.updCore c f).mem = s.mem := rfl
@[simp] theorem updCore_clusters (s : State) (c : Nat) (f : Core → Core) : (s.updCore c f).clusters = s.clusters := rfl
@[simp] theorem updCore_ctxs (s : State) (c : Nat) (f : Core → Core) : (s.updCore c f).ctxs = s.ctxs := rfl
@[simp] theorem updCore_res (s : State) (c : Nat) (f : Core → Core) : (s.updCore c f).res = s.res := rfl
@[simp] theorem updCore_recs (s : State) (c : Nat) (f : Core → Core) : (s.updCore c f).recs = s.recs := rfl
@[simp] theorem updCore_queues (s : State) (c : Nat) (f : Core → Core) : (s.updCore c f).queues = s.queues := rfl
@[simp] theorem updCore_eops (s : State) (c : Nat) (f : Core → Core) : (s.updCore c f).eops = s.eops := rfl
@[simp] theorem updCore_objs (s : State) (c : Nat) (f : Core → Core) : (s.updCore c f).objs = s.objs := rfl
@[simp] theorem updCore_launches (s : State) (c : Nat) (f : Core → Core) : (s.updCore c f).launches = s.launches := rfl
@[simp] theorem updCore_insts (s : State) (c : Nat) (f : Core → Core) : (s.updCore c f).insts = s.insts := rfl
@[simp] theorem updCore_walks (s : State) (c : Nat) (f : Core → Core) : (s.updCore c f).walks = s.walks := rfl
@[simp] theorem updCore_lops (s : State) (c : Nat) (f : Core → Core) : (s.updCore c f).lops = s.lops := rfl
@[simp] theorem updCore_sends (s : State) (c : Nat) (f : Core → Core) : (s.updCore c f).sends = s.sends := rfl
@[simp] theorem updCore_traps (s : State) (c : Nat) (f : Core → Core) : (s.updCore c f).traps = s.traps := rfl
@[simp] theorem updCore_chunks (s : State) (c : Nat) (f : Core → Core) : (s.updCore c f).chunks = s.chunks := rfl
@[simp] theorem updCore_group (s : State) (c : Nat) (f : Core → Core) : (s.updCore c f).group = s.group := rfl
@[simp] theorem updCore_ctl (s : State) (c : Nat) (f : Core → Core) : (s.updCore c f).ctl = s.ctl := rfl
@[simp] theorem updCore_power (s : State) (c : Nat) (f : Core → Core) : (s.updCore c f).power = s.power := rfl
@[simp] theorem updCore_chipS (s : State) (c : Nat) (f : Core → Core) : (s.updCore c f).chipS = s.chipS := rfl
@[simp] theorem updCore_phaseLo (s : State) (c : Nat) (f : Core → Core) : (s.updCore c f).phaseLo = s.phaseLo := rfl
@[simp] theorem updCore_phaseHi (s : State) (c : Nat) (f : Core → Core) : (s.updCore c f).phaseHi = s.phaseHi := rfl
@[simp] theorem updCore_phaseEnd (s : State) (c : Nat) (f : Core → Core) : (s.updCore c f).phaseEnd = s.phaseEnd := rfl
@[simp] theorem updCore_phaseTo (s : State) (c : Nat) (f : Core → Core) : (s.updCore c f).phaseTo = s.phaseTo := rfl
@[simp] theorem updCore_cgran (s : State) (c : Nat) (f : Core → Core) : (s.updCore c f).cgran = s.cgran := rfl
@[simp] theorem updCore_clast (s : State) (c : Nat) (f : Core → Core) : (s.updCore c f).clast = s.clast := rfl
@[simp] theorem updCore_dropsig (s : State) (c : Nat) (f : Core → Core) : (s.updCore c f).dropsig = s.dropsig := rfl
@[simp] theorem updCore_ccyc (s : State) (c : Nat) (f : Core → Core) : (s.updCore c f).ccyc = s.ccyc := rfl
@[simp] theorem updCore_gcyc (s : State) (c : Nat) (f : Core → Core) : (s.updCore c f).gcyc = s.gcyc := rfl
@[simp] theorem updCore_inbox (s : State) (c : Nat) (f : Core → Core) : (s.updCore c f).inbox = s.inbox := rfl
@[simp] theorem updCore_iss (s : State) (c : Nat) (f : Core → Core) : (s.updCore c f).iss = s.iss := rfl
@[simp] theorem updCore_turn (s : State) (c : Nat) (f : Core → Core) : (s.updCore c f).turn = s.turn := rfl
@[simp] theorem updCore_decided (s : State) (c : Nat) (f : Core → Core) : (s.updCore c f).decided = s.decided := rfl
@[simp] theorem updCore_fresh (s : State) (c : Nat) (f : Core → Core) : (s.updCore c f).fresh = s.fresh := rfl
@[simp] theorem updCore_ids (s : State) (c : Nat) (f : Core → Core) : (s.updCore c f).ids = s.ids := rfl

@[simp] theorem updSl_mem (s : State) (c : Nat) (f : Slice → Slice) : (s.updSl c f).mem = s.mem := rfl
@[simp] theorem updSl_clusters (s : State) (c : Nat) (f : Slice → Slice) : (s.updSl c f).clusters = s.clusters := rfl
@[simp] theorem updSl_ctxs (s : State) (c : Nat) (f : Slice → Slice) : (s.updSl c f).ctxs = s.ctxs := rfl
@[simp] theorem updSl_res (s : State) (c : Nat) (f : Slice → Slice) : (s.updSl c f).res = s.res := rfl
@[simp] theorem updSl_recs (s : State) (c : Nat) (f : Slice → Slice) : (s.updSl c f).recs = s.recs := rfl
@[simp] theorem updSl_queues (s : State) (c : Nat) (f : Slice → Slice) : (s.updSl c f).queues = s.queues := rfl
@[simp] theorem updSl_eops (s : State) (c : Nat) (f : Slice → Slice) : (s.updSl c f).eops = s.eops := rfl
@[simp] theorem updSl_objs (s : State) (c : Nat) (f : Slice → Slice) : (s.updSl c f).objs = s.objs := rfl
@[simp] theorem updSl_launches (s : State) (c : Nat) (f : Slice → Slice) : (s.updSl c f).launches = s.launches := rfl
@[simp] theorem updSl_insts (s : State) (c : Nat) (f : Slice → Slice) : (s.updSl c f).insts = s.insts := rfl
@[simp] theorem updSl_walks (s : State) (c : Nat) (f : Slice → Slice) : (s.updSl c f).walks = s.walks := rfl
@[simp] theorem updSl_lops (s : State) (c : Nat) (f : Slice → Slice) : (s.updSl c f).lops = s.lops := rfl
@[simp] theorem updSl_sends (s : State) (c : Nat) (f : Slice → Slice) : (s.updSl c f).sends = s.sends := rfl
@[simp] theorem updSl_traps (s : State) (c : Nat) (f : Slice → Slice) : (s.updSl c f).traps = s.traps := rfl
@[simp] theorem updSl_chunks (s : State) (c : Nat) (f : Slice → Slice) : (s.updSl c f).chunks = s.chunks := rfl
@[simp] theorem updSl_group (s : State) (c : Nat) (f : Slice → Slice) : (s.updSl c f).group = s.group := rfl
@[simp] theorem updSl_ctl (s : State) (c : Nat) (f : Slice → Slice) : (s.updSl c f).ctl = s.ctl := rfl
@[simp] theorem updSl_power (s : State) (c : Nat) (f : Slice → Slice) : (s.updSl c f).power = s.power := rfl
@[simp] theorem updSl_chipS (s : State) (c : Nat) (f : Slice → Slice) : (s.updSl c f).chipS = s.chipS := rfl
@[simp] theorem updSl_phaseLo (s : State) (c : Nat) (f : Slice → Slice) : (s.updSl c f).phaseLo = s.phaseLo := rfl
@[simp] theorem updSl_phaseHi (s : State) (c : Nat) (f : Slice → Slice) : (s.updSl c f).phaseHi = s.phaseHi := rfl
@[simp] theorem updSl_phaseEnd (s : State) (c : Nat) (f : Slice → Slice) : (s.updSl c f).phaseEnd = s.phaseEnd := rfl
@[simp] theorem updSl_phaseTo (s : State) (c : Nat) (f : Slice → Slice) : (s.updSl c f).phaseTo = s.phaseTo := rfl
@[simp] theorem updSl_cgran (s : State) (c : Nat) (f : Slice → Slice) : (s.updSl c f).cgran = s.cgran := rfl
@[simp] theorem updSl_clast (s : State) (c : Nat) (f : Slice → Slice) : (s.updSl c f).clast = s.clast := rfl
@[simp] theorem updSl_dropsig (s : State) (c : Nat) (f : Slice → Slice) : (s.updSl c f).dropsig = s.dropsig := rfl
@[simp] theorem updSl_ccyc (s : State) (c : Nat) (f : Slice → Slice) : (s.updSl c f).ccyc = s.ccyc := rfl
@[simp] theorem updSl_gcyc (s : State) (c : Nat) (f : Slice → Slice) : (s.updSl c f).gcyc = s.gcyc := rfl
@[simp] theorem updSl_inbox (s : State) (c : Nat) (f : Slice → Slice) : (s.updSl c f).inbox = s.inbox := rfl
@[simp] theorem updSl_iss (s : State) (c : Nat) (f : Slice → Slice) : (s.updSl c f).iss = s.iss := rfl
@[simp] theorem updSl_turn (s : State) (c : Nat) (f : Slice → Slice) : (s.updSl c f).turn = s.turn := rfl
@[simp] theorem updSl_decided (s : State) (c : Nat) (f : Slice → Slice) : (s.updSl c f).decided = s.decided := rfl
@[simp] theorem updSl_fresh (s : State) (c : Nat) (f : Slice → Slice) : (s.updSl c f).fresh = s.fresh := rfl
@[simp] theorem updSl_ids (s : State) (c : Nat) (f : Slice → Slice) : (s.updSl c f).ids = s.ids := rfl

@[simp] theorem updCl_mem (s : State) (j : Nat) (f : Cluster → Cluster) : (s.updCl j f).mem = s.mem := rfl
@[simp] theorem updCl_cores (s : State) (j : Nat) (f : Cluster → Cluster) : (s.updCl j f).cores = s.cores := rfl
@[simp] theorem updCl_ctxs (s : State) (j : Nat) (f : Cluster → Cluster) : (s.updCl j f).ctxs = s.ctxs := rfl
@[simp] theorem updCl_res (s : State) (j : Nat) (f : Cluster → Cluster) : (s.updCl j f).res = s.res := rfl
@[simp] theorem updCl_recs (s : State) (j : Nat) (f : Cluster → Cluster) : (s.updCl j f).recs = s.recs := rfl
@[simp] theorem updCl_queues (s : State) (j : Nat) (f : Cluster → Cluster) : (s.updCl j f).queues = s.queues := rfl
@[simp] theorem updCl_eops (s : State) (j : Nat) (f : Cluster → Cluster) : (s.updCl j f).eops = s.eops := rfl
@[simp] theorem updCl_objs (s : State) (j : Nat) (f : Cluster → Cluster) : (s.updCl j f).objs = s.objs := rfl
@[simp] theorem updCl_launches (s : State) (j : Nat) (f : Cluster → Cluster) : (s.updCl j f).launches = s.launches := rfl
@[simp] theorem updCl_insts (s : State) (j : Nat) (f : Cluster → Cluster) : (s.updCl j f).insts = s.insts := rfl
@[simp] theorem updCl_walks (s : State) (j : Nat) (f : Cluster → Cluster) : (s.updCl j f).walks = s.walks := rfl
@[simp] theorem updCl_lops (s : State) (j : Nat) (f : Cluster → Cluster) : (s.updCl j f).lops = s.lops := rfl
@[simp] theorem updCl_sends (s : State) (j : Nat) (f : Cluster → Cluster) : (s.updCl j f).sends = s.sends := rfl
@[simp] theorem updCl_traps (s : State) (j : Nat) (f : Cluster → Cluster) : (s.updCl j f).traps = s.traps := rfl
@[simp] theorem updCl_chunks (s : State) (j : Nat) (f : Cluster → Cluster) : (s.updCl j f).chunks = s.chunks := rfl
@[simp] theorem updCl_group (s : State) (j : Nat) (f : Cluster → Cluster) : (s.updCl j f).group = s.group := rfl
@[simp] theorem updCl_ctl (s : State) (j : Nat) (f : Cluster → Cluster) : (s.updCl j f).ctl = s.ctl := rfl
@[simp] theorem updCl_power (s : State) (j : Nat) (f : Cluster → Cluster) : (s.updCl j f).power = s.power := rfl
@[simp] theorem updCl_chipS (s : State) (j : Nat) (f : Cluster → Cluster) : (s.updCl j f).chipS = s.chipS := rfl
@[simp] theorem updCl_phaseLo (s : State) (j : Nat) (f : Cluster → Cluster) : (s.updCl j f).phaseLo = s.phaseLo := rfl
@[simp] theorem updCl_phaseHi (s : State) (j : Nat) (f : Cluster → Cluster) : (s.updCl j f).phaseHi = s.phaseHi := rfl
@[simp] theorem updCl_phaseEnd (s : State) (j : Nat) (f : Cluster → Cluster) : (s.updCl j f).phaseEnd = s.phaseEnd := rfl
@[simp] theorem updCl_phaseTo (s : State) (j : Nat) (f : Cluster → Cluster) : (s.updCl j f).phaseTo = s.phaseTo := rfl
@[simp] theorem updCl_cgran (s : State) (j : Nat) (f : Cluster → Cluster) : (s.updCl j f).cgran = s.cgran := rfl
@[simp] theorem updCl_clast (s : State) (j : Nat) (f : Cluster → Cluster) : (s.updCl j f).clast = s.clast := rfl
@[simp] theorem updCl_dropsig (s : State) (j : Nat) (f : Cluster → Cluster) : (s.updCl j f).dropsig = s.dropsig := rfl
@[simp] theorem updCl_ccyc (s : State) (j : Nat) (f : Cluster → Cluster) : (s.updCl j f).ccyc = s.ccyc := rfl
@[simp] theorem updCl_gcyc (s : State) (j : Nat) (f : Cluster → Cluster) : (s.updCl j f).gcyc = s.gcyc := rfl
@[simp] theorem updCl_inbox (s : State) (j : Nat) (f : Cluster → Cluster) : (s.updCl j f).inbox = s.inbox := rfl
@[simp] theorem updCl_iss (s : State) (j : Nat) (f : Cluster → Cluster) : (s.updCl j f).iss = s.iss := rfl
@[simp] theorem updCl_turn (s : State) (j : Nat) (f : Cluster → Cluster) : (s.updCl j f).turn = s.turn := rfl
@[simp] theorem updCl_decided (s : State) (j : Nat) (f : Cluster → Cluster) : (s.updCl j f).decided = s.decided := rfl
@[simp] theorem updCl_fresh (s : State) (j : Nat) (f : Cluster → Cluster) : (s.updCl j f).fresh = s.fresh := rfl
@[simp] theorem updCl_ids (s : State) (j : Nat) (f : Cluster → Cluster) : (s.updCl j f).ids = s.ids := rfl

@[simp] theorem setHandle_mem (s : State) (cl ctx h : Nat) (e : HEnt) : (s.setHandle cl ctx h e).mem = s.mem := rfl
@[simp] theorem setHandle_cores (s : State) (cl ctx h : Nat) (e : HEnt) : (s.setHandle cl ctx h e).cores = s.cores := rfl
@[simp] theorem setHandle_ctxs (s : State) (cl ctx h : Nat) (e : HEnt) : (s.setHandle cl ctx h e).ctxs = s.ctxs := rfl
@[simp] theorem setHandle_res (s : State) (cl ctx h : Nat) (e : HEnt) : (s.setHandle cl ctx h e).res = s.res := rfl
@[simp] theorem setHandle_recs (s : State) (cl ctx h : Nat) (e : HEnt) : (s.setHandle cl ctx h e).recs = s.recs := rfl
@[simp] theorem setHandle_queues (s : State) (cl ctx h : Nat) (e : HEnt) : (s.setHandle cl ctx h e).queues = s.queues := rfl
@[simp] theorem setHandle_eops (s : State) (cl ctx h : Nat) (e : HEnt) : (s.setHandle cl ctx h e).eops = s.eops := rfl
@[simp] theorem setHandle_objs (s : State) (cl ctx h : Nat) (e : HEnt) : (s.setHandle cl ctx h e).objs = s.objs := rfl
@[simp] theorem setHandle_launches (s : State) (cl ctx h : Nat) (e : HEnt) : (s.setHandle cl ctx h e).launches = s.launches := rfl
@[simp] theorem setHandle_insts (s : State) (cl ctx h : Nat) (e : HEnt) : (s.setHandle cl ctx h e).insts = s.insts := rfl
@[simp] theorem setHandle_walks (s : State) (cl ctx h : Nat) (e : HEnt) : (s.setHandle cl ctx h e).walks = s.walks := rfl
@[simp] theorem setHandle_lops (s : State) (cl ctx h : Nat) (e : HEnt) : (s.setHandle cl ctx h e).lops = s.lops := rfl
@[simp] theorem setHandle_sends (s : State) (cl ctx h : Nat) (e : HEnt) : (s.setHandle cl ctx h e).sends = s.sends := rfl
@[simp] theorem setHandle_traps (s : State) (cl ctx h : Nat) (e : HEnt) : (s.setHandle cl ctx h e).traps = s.traps := rfl
@[simp] theorem setHandle_chunks (s : State) (cl ctx h : Nat) (e : HEnt) : (s.setHandle cl ctx h e).chunks = s.chunks := rfl
@[simp] theorem setHandle_group (s : State) (cl ctx h : Nat) (e : HEnt) : (s.setHandle cl ctx h e).group = s.group := rfl
@[simp] theorem setHandle_ctl (s : State) (cl ctx h : Nat) (e : HEnt) : (s.setHandle cl ctx h e).ctl = s.ctl := rfl
@[simp] theorem setHandle_power (s : State) (cl ctx h : Nat) (e : HEnt) : (s.setHandle cl ctx h e).power = s.power := rfl
@[simp] theorem setHandle_chipS (s : State) (cl ctx h : Nat) (e : HEnt) : (s.setHandle cl ctx h e).chipS = s.chipS := rfl
@[simp] theorem setHandle_phaseLo (s : State) (cl ctx h : Nat) (e : HEnt) : (s.setHandle cl ctx h e).phaseLo = s.phaseLo := rfl
@[simp] theorem setHandle_phaseHi (s : State) (cl ctx h : Nat) (e : HEnt) : (s.setHandle cl ctx h e).phaseHi = s.phaseHi := rfl
@[simp] theorem setHandle_phaseEnd (s : State) (cl ctx h : Nat) (e : HEnt) : (s.setHandle cl ctx h e).phaseEnd = s.phaseEnd := rfl
@[simp] theorem setHandle_phaseTo (s : State) (cl ctx h : Nat) (e : HEnt) : (s.setHandle cl ctx h e).phaseTo = s.phaseTo := rfl
@[simp] theorem setHandle_cgran (s : State) (cl ctx h : Nat) (e : HEnt) : (s.setHandle cl ctx h e).cgran = s.cgran := rfl
@[simp] theorem setHandle_clast (s : State) (cl ctx h : Nat) (e : HEnt) : (s.setHandle cl ctx h e).clast = s.clast := rfl
@[simp] theorem setHandle_dropsig (s : State) (cl ctx h : Nat) (e : HEnt) : (s.setHandle cl ctx h e).dropsig = s.dropsig := rfl
@[simp] theorem setHandle_ccyc (s : State) (cl ctx h : Nat) (e : HEnt) : (s.setHandle cl ctx h e).ccyc = s.ccyc := rfl
@[simp] theorem setHandle_gcyc (s : State) (cl ctx h : Nat) (e : HEnt) : (s.setHandle cl ctx h e).gcyc = s.gcyc := rfl
@[simp] theorem setHandle_inbox (s : State) (cl ctx h : Nat) (e : HEnt) : (s.setHandle cl ctx h e).inbox = s.inbox := rfl
@[simp] theorem setHandle_iss (s : State) (cl ctx h : Nat) (e : HEnt) : (s.setHandle cl ctx h e).iss = s.iss := rfl
@[simp] theorem setHandle_turn (s : State) (cl ctx h : Nat) (e : HEnt) : (s.setHandle cl ctx h e).turn = s.turn := rfl
@[simp] theorem setHandle_decided (s : State) (cl ctx h : Nat) (e : HEnt) : (s.setHandle cl ctx h e).decided = s.decided := rfl
@[simp] theorem setHandle_fresh (s : State) (cl ctx h : Nat) (e : HEnt) : (s.setHandle cl ctx h e).fresh = s.fresh := rfl
@[simp] theorem setHandle_ids (s : State) (cl ctx h : Nat) (e : HEnt) : (s.setHandle cl ctx h e).ids = s.ids := rfl

@[simp] theorem setCtl_mem (s : State) (cl ctx k : Nat) (t : Tline) : (s.setCtl cl ctx k t).mem = s.mem := rfl
@[simp] theorem setCtl_cores (s : State) (cl ctx k : Nat) (t : Tline) : (s.setCtl cl ctx k t).cores = s.cores := rfl
@[simp] theorem setCtl_ctxs (s : State) (cl ctx k : Nat) (t : Tline) : (s.setCtl cl ctx k t).ctxs = s.ctxs := rfl
@[simp] theorem setCtl_res (s : State) (cl ctx k : Nat) (t : Tline) : (s.setCtl cl ctx k t).res = s.res := rfl
@[simp] theorem setCtl_recs (s : State) (cl ctx k : Nat) (t : Tline) : (s.setCtl cl ctx k t).recs = s.recs := rfl
@[simp] theorem setCtl_queues (s : State) (cl ctx k : Nat) (t : Tline) : (s.setCtl cl ctx k t).queues = s.queues := rfl
@[simp] theorem setCtl_eops (s : State) (cl ctx k : Nat) (t : Tline) : (s.setCtl cl ctx k t).eops = s.eops := rfl
@[simp] theorem setCtl_objs (s : State) (cl ctx k : Nat) (t : Tline) : (s.setCtl cl ctx k t).objs = s.objs := rfl
@[simp] theorem setCtl_launches (s : State) (cl ctx k : Nat) (t : Tline) : (s.setCtl cl ctx k t).launches = s.launches := rfl
@[simp] theorem setCtl_insts (s : State) (cl ctx k : Nat) (t : Tline) : (s.setCtl cl ctx k t).insts = s.insts := rfl
@[simp] theorem setCtl_walks (s : State) (cl ctx k : Nat) (t : Tline) : (s.setCtl cl ctx k t).walks = s.walks := rfl
@[simp] theorem setCtl_lops (s : State) (cl ctx k : Nat) (t : Tline) : (s.setCtl cl ctx k t).lops = s.lops := rfl
@[simp] theorem setCtl_sends (s : State) (cl ctx k : Nat) (t : Tline) : (s.setCtl cl ctx k t).sends = s.sends := rfl
@[simp] theorem setCtl_traps (s : State) (cl ctx k : Nat) (t : Tline) : (s.setCtl cl ctx k t).traps = s.traps := rfl
@[simp] theorem setCtl_chunks (s : State) (cl ctx k : Nat) (t : Tline) : (s.setCtl cl ctx k t).chunks = s.chunks := rfl
@[simp] theorem setCtl_group (s : State) (cl ctx k : Nat) (t : Tline) : (s.setCtl cl ctx k t).group = s.group := rfl
@[simp] theorem setCtl_ctl (s : State) (cl ctx k : Nat) (t : Tline) : (s.setCtl cl ctx k t).ctl = s.ctl := rfl
@[simp] theorem setCtl_power (s : State) (cl ctx k : Nat) (t : Tline) : (s.setCtl cl ctx k t).power = s.power := rfl
@[simp] theorem setCtl_chipS (s : State) (cl ctx k : Nat) (t : Tline) : (s.setCtl cl ctx k t).chipS = s.chipS := rfl
@[simp] theorem setCtl_phaseLo (s : State) (cl ctx k : Nat) (t : Tline) : (s.setCtl cl ctx k t).phaseLo = s.phaseLo := rfl
@[simp] theorem setCtl_phaseHi (s : State) (cl ctx k : Nat) (t : Tline) : (s.setCtl cl ctx k t).phaseHi = s.phaseHi := rfl
@[simp] theorem setCtl_phaseEnd (s : State) (cl ctx k : Nat) (t : Tline) : (s.setCtl cl ctx k t).phaseEnd = s.phaseEnd := rfl
@[simp] theorem setCtl_phaseTo (s : State) (cl ctx k : Nat) (t : Tline) : (s.setCtl cl ctx k t).phaseTo = s.phaseTo := rfl
@[simp] theorem setCtl_cgran (s : State) (cl ctx k : Nat) (t : Tline) : (s.setCtl cl ctx k t).cgran = s.cgran := rfl
@[simp] theorem setCtl_clast (s : State) (cl ctx k : Nat) (t : Tline) : (s.setCtl cl ctx k t).clast = s.clast := rfl
@[simp] theorem setCtl_dropsig (s : State) (cl ctx k : Nat) (t : Tline) : (s.setCtl cl ctx k t).dropsig = s.dropsig := rfl
@[simp] theorem setCtl_ccyc (s : State) (cl ctx k : Nat) (t : Tline) : (s.setCtl cl ctx k t).ccyc = s.ccyc := rfl
@[simp] theorem setCtl_gcyc (s : State) (cl ctx k : Nat) (t : Tline) : (s.setCtl cl ctx k t).gcyc = s.gcyc := rfl
@[simp] theorem setCtl_inbox (s : State) (cl ctx k : Nat) (t : Tline) : (s.setCtl cl ctx k t).inbox = s.inbox := rfl
@[simp] theorem setCtl_iss (s : State) (cl ctx k : Nat) (t : Tline) : (s.setCtl cl ctx k t).iss = s.iss := rfl
@[simp] theorem setCtl_turn (s : State) (cl ctx k : Nat) (t : Tline) : (s.setCtl cl ctx k t).turn = s.turn := rfl
@[simp] theorem setCtl_decided (s : State) (cl ctx k : Nat) (t : Tline) : (s.setCtl cl ctx k t).decided = s.decided := rfl
@[simp] theorem setCtl_fresh (s : State) (cl ctx k : Nat) (t : Tline) : (s.setCtl cl ctx k t).fresh = s.fresh := rfl
@[simp] theorem setCtl_ids (s : State) (cl ctx k : Nat) (t : Tline) : (s.setCtl cl ctx k t).ids = s.ids := rfl

@[simp] theorem updCtx_mem (s : State) (x : Nat) (f : Ctx → Ctx) : (s.updCtx x f).mem = s.mem := by unfold State.updCtx; split <;> rfl
@[simp] theorem updCtx_cores (s : State) (x : Nat) (f : Ctx → Ctx) : (s.updCtx x f).cores = s.cores := by unfold State.updCtx; split <;> rfl
@[simp] theorem updCtx_clusters (s : State) (x : Nat) (f : Ctx → Ctx) : (s.updCtx x f).clusters = s.clusters := by unfold State.updCtx; split <;> rfl
@[simp] theorem updCtx_res (s : State) (x : Nat) (f : Ctx → Ctx) : (s.updCtx x f).res = s.res := by unfold State.updCtx; split <;> rfl
@[simp] theorem updCtx_recs (s : State) (x : Nat) (f : Ctx → Ctx) : (s.updCtx x f).recs = s.recs := by unfold State.updCtx; split <;> rfl
@[simp] theorem updCtx_queues (s : State) (x : Nat) (f : Ctx → Ctx) : (s.updCtx x f).queues = s.queues := by unfold State.updCtx; split <;> rfl
@[simp] theorem updCtx_eops (s : State) (x : Nat) (f : Ctx → Ctx) : (s.updCtx x f).eops = s.eops := by unfold State.updCtx; split <;> rfl
@[simp] theorem updCtx_objs (s : State) (x : Nat) (f : Ctx → Ctx) : (s.updCtx x f).objs = s.objs := by unfold State.updCtx; split <;> rfl
@[simp] theorem updCtx_launches (s : State) (x : Nat) (f : Ctx → Ctx) : (s.updCtx x f).launches = s.launches := by unfold State.updCtx; split <;> rfl
@[simp] theorem updCtx_insts (s : State) (x : Nat) (f : Ctx → Ctx) : (s.updCtx x f).insts = s.insts := by unfold State.updCtx; split <;> rfl
@[simp] theorem updCtx_walks (s : State) (x : Nat) (f : Ctx → Ctx) : (s.updCtx x f).walks = s.walks := by unfold State.updCtx; split <;> rfl
@[simp] theorem updCtx_lops (s : State) (x : Nat) (f : Ctx → Ctx) : (s.updCtx x f).lops = s.lops := by unfold State.updCtx; split <;> rfl
@[simp] theorem updCtx_sends (s : State) (x : Nat) (f : Ctx → Ctx) : (s.updCtx x f).sends = s.sends := by unfold State.updCtx; split <;> rfl
@[simp] theorem updCtx_traps (s : State) (x : Nat) (f : Ctx → Ctx) : (s.updCtx x f).traps = s.traps := by unfold State.updCtx; split <;> rfl
@[simp] theorem updCtx_chunks (s : State) (x : Nat) (f : Ctx → Ctx) : (s.updCtx x f).chunks = s.chunks := by unfold State.updCtx; split <;> rfl
@[simp] theorem updCtx_group (s : State) (x : Nat) (f : Ctx → Ctx) : (s.updCtx x f).group = s.group := by unfold State.updCtx; split <;> rfl
@[simp] theorem updCtx_ctl (s : State) (x : Nat) (f : Ctx → Ctx) : (s.updCtx x f).ctl = s.ctl := by unfold State.updCtx; split <;> rfl
@[simp] theorem updCtx_power (s : State) (x : Nat) (f : Ctx → Ctx) : (s.updCtx x f).power = s.power := by unfold State.updCtx; split <;> rfl
@[simp] theorem updCtx_chipS (s : State) (x : Nat) (f : Ctx → Ctx) : (s.updCtx x f).chipS = s.chipS := by unfold State.updCtx; split <;> rfl
@[simp] theorem updCtx_phaseLo (s : State) (x : Nat) (f : Ctx → Ctx) : (s.updCtx x f).phaseLo = s.phaseLo := by unfold State.updCtx; split <;> rfl
@[simp] theorem updCtx_phaseHi (s : State) (x : Nat) (f : Ctx → Ctx) : (s.updCtx x f).phaseHi = s.phaseHi := by unfold State.updCtx; split <;> rfl
@[simp] theorem updCtx_phaseEnd (s : State) (x : Nat) (f : Ctx → Ctx) : (s.updCtx x f).phaseEnd = s.phaseEnd := by unfold State.updCtx; split <;> rfl
@[simp] theorem updCtx_phaseTo (s : State) (x : Nat) (f : Ctx → Ctx) : (s.updCtx x f).phaseTo = s.phaseTo := by unfold State.updCtx; split <;> rfl
@[simp] theorem updCtx_cgran (s : State) (x : Nat) (f : Ctx → Ctx) : (s.updCtx x f).cgran = s.cgran := by unfold State.updCtx; split <;> rfl
@[simp] theorem updCtx_clast (s : State) (x : Nat) (f : Ctx → Ctx) : (s.updCtx x f).clast = s.clast := by unfold State.updCtx; split <;> rfl
@[simp] theorem updCtx_dropsig (s : State) (x : Nat) (f : Ctx → Ctx) : (s.updCtx x f).dropsig = s.dropsig := by unfold State.updCtx; split <;> rfl
@[simp] theorem updCtx_ccyc (s : State) (x : Nat) (f : Ctx → Ctx) : (s.updCtx x f).ccyc = s.ccyc := by unfold State.updCtx; split <;> rfl
@[simp] theorem updCtx_gcyc (s : State) (x : Nat) (f : Ctx → Ctx) : (s.updCtx x f).gcyc = s.gcyc := by unfold State.updCtx; split <;> rfl
@[simp] theorem updCtx_inbox (s : State) (x : Nat) (f : Ctx → Ctx) : (s.updCtx x f).inbox = s.inbox := by unfold State.updCtx; split <;> rfl
@[simp] theorem updCtx_iss (s : State) (x : Nat) (f : Ctx → Ctx) : (s.updCtx x f).iss = s.iss := by unfold State.updCtx; split <;> rfl
@[simp] theorem updCtx_turn (s : State) (x : Nat) (f : Ctx → Ctx) : (s.updCtx x f).turn = s.turn := by unfold State.updCtx; split <;> rfl
@[simp] theorem updCtx_decided (s : State) (x : Nat) (f : Ctx → Ctx) : (s.updCtx x f).decided = s.decided := by unfold State.updCtx; split <;> rfl
@[simp] theorem updCtx_fresh (s : State) (x : Nat) (f : Ctx → Ctx) : (s.updCtx x f).fresh = s.fresh := by unfold State.updCtx; split <;> rfl
@[simp] theorem updCtx_ids (s : State) (x : Nat) (f : Ctx → Ctx) : (s.updCtx x f).ids = s.ids := by unfold State.updCtx; split <;> rfl

@[simp] theorem updQ_mem (s : State) (q : Nat) (f : Queue → Queue) : (s.updQ q f).mem = s.mem := by unfold State.updQ; split <;> rfl
@[simp] theorem updQ_cores (s : State) (q : Nat) (f : Queue → Queue) : (s.updQ q f).cores = s.cores := by unfold State.updQ; split <;> rfl
@[simp] theorem updQ_clusters (s : State) (q : Nat) (f : Queue → Queue) : (s.updQ q f).clusters = s.clusters := by unfold State.updQ; split <;> rfl
@[simp] theorem updQ_ctxs (s : State) (q : Nat) (f : Queue → Queue) : (s.updQ q f).ctxs = s.ctxs := by unfold State.updQ; split <;> rfl
@[simp] theorem updQ_res (s : State) (q : Nat) (f : Queue → Queue) : (s.updQ q f).res = s.res := by unfold State.updQ; split <;> rfl
@[simp] theorem updQ_recs (s : State) (q : Nat) (f : Queue → Queue) : (s.updQ q f).recs = s.recs := by unfold State.updQ; split <;> rfl
@[simp] theorem updQ_eops (s : State) (q : Nat) (f : Queue → Queue) : (s.updQ q f).eops = s.eops := by unfold State.updQ; split <;> rfl
@[simp] theorem updQ_objs (s : State) (q : Nat) (f : Queue → Queue) : (s.updQ q f).objs = s.objs := by unfold State.updQ; split <;> rfl
@[simp] theorem updQ_launches (s : State) (q : Nat) (f : Queue → Queue) : (s.updQ q f).launches = s.launches := by unfold State.updQ; split <;> rfl
@[simp] theorem updQ_insts (s : State) (q : Nat) (f : Queue → Queue) : (s.updQ q f).insts = s.insts := by unfold State.updQ; split <;> rfl
@[simp] theorem updQ_walks (s : State) (q : Nat) (f : Queue → Queue) : (s.updQ q f).walks = s.walks := by unfold State.updQ; split <;> rfl
@[simp] theorem updQ_lops (s : State) (q : Nat) (f : Queue → Queue) : (s.updQ q f).lops = s.lops := by unfold State.updQ; split <;> rfl
@[simp] theorem updQ_sends (s : State) (q : Nat) (f : Queue → Queue) : (s.updQ q f).sends = s.sends := by unfold State.updQ; split <;> rfl
@[simp] theorem updQ_traps (s : State) (q : Nat) (f : Queue → Queue) : (s.updQ q f).traps = s.traps := by unfold State.updQ; split <;> rfl
@[simp] theorem updQ_chunks (s : State) (q : Nat) (f : Queue → Queue) : (s.updQ q f).chunks = s.chunks := by unfold State.updQ; split <;> rfl
@[simp] theorem updQ_group (s : State) (q : Nat) (f : Queue → Queue) : (s.updQ q f).group = s.group := by unfold State.updQ; split <;> rfl
@[simp] theorem updQ_ctl (s : State) (q : Nat) (f : Queue → Queue) : (s.updQ q f).ctl = s.ctl := by unfold State.updQ; split <;> rfl
@[simp] theorem updQ_power (s : State) (q : Nat) (f : Queue → Queue) : (s.updQ q f).power = s.power := by unfold State.updQ; split <;> rfl
@[simp] theorem updQ_chipS (s : State) (q : Nat) (f : Queue → Queue) : (s.updQ q f).chipS = s.chipS := by unfold State.updQ; split <;> rfl
@[simp] theorem updQ_phaseLo (s : State) (q : Nat) (f : Queue → Queue) : (s.updQ q f).phaseLo = s.phaseLo := by unfold State.updQ; split <;> rfl
@[simp] theorem updQ_phaseHi (s : State) (q : Nat) (f : Queue → Queue) : (s.updQ q f).phaseHi = s.phaseHi := by unfold State.updQ; split <;> rfl
@[simp] theorem updQ_phaseEnd (s : State) (q : Nat) (f : Queue → Queue) : (s.updQ q f).phaseEnd = s.phaseEnd := by unfold State.updQ; split <;> rfl
@[simp] theorem updQ_phaseTo (s : State) (q : Nat) (f : Queue → Queue) : (s.updQ q f).phaseTo = s.phaseTo := by unfold State.updQ; split <;> rfl
@[simp] theorem updQ_cgran (s : State) (q : Nat) (f : Queue → Queue) : (s.updQ q f).cgran = s.cgran := by unfold State.updQ; split <;> rfl
@[simp] theorem updQ_clast (s : State) (q : Nat) (f : Queue → Queue) : (s.updQ q f).clast = s.clast := by unfold State.updQ; split <;> rfl
@[simp] theorem updQ_dropsig (s : State) (q : Nat) (f : Queue → Queue) : (s.updQ q f).dropsig = s.dropsig := by unfold State.updQ; split <;> rfl
@[simp] theorem updQ_ccyc (s : State) (q : Nat) (f : Queue → Queue) : (s.updQ q f).ccyc = s.ccyc := by unfold State.updQ; split <;> rfl
@[simp] theorem updQ_gcyc (s : State) (q : Nat) (f : Queue → Queue) : (s.updQ q f).gcyc = s.gcyc := by unfold State.updQ; split <;> rfl
@[simp] theorem updQ_inbox (s : State) (q : Nat) (f : Queue → Queue) : (s.updQ q f).inbox = s.inbox := by unfold State.updQ; split <;> rfl
@[simp] theorem updQ_iss (s : State) (q : Nat) (f : Queue → Queue) : (s.updQ q f).iss = s.iss := by unfold State.updQ; split <;> rfl
@[simp] theorem updQ_turn (s : State) (q : Nat) (f : Queue → Queue) : (s.updQ q f).turn = s.turn := by unfold State.updQ; split <;> rfl
@[simp] theorem updQ_decided (s : State) (q : Nat) (f : Queue → Queue) : (s.updQ q f).decided = s.decided := by unfold State.updQ; split <;> rfl
@[simp] theorem updQ_fresh (s : State) (q : Nat) (f : Queue → Queue) : (s.updQ q f).fresh = s.fresh := by unfold State.updQ; split <;> rfl
@[simp] theorem updQ_ids (s : State) (q : Nat) (f : Queue → Queue) : (s.updQ q f).ids = s.ids := by unfold State.updQ; split <;> rfl

@[simp] theorem updInst_mem (s : State) (i : Nat) (f : Inst → Inst) : (s.updInst i f).mem = s.mem := by unfold State.updInst; split <;> rfl
@[simp] theorem updInst_cores (s : State) (i : Nat) (f : Inst → Inst) : (s.updInst i f).cores = s.cores := by unfold State.updInst; split <;> rfl
@[simp] theorem updInst_clusters (s : State) (i : Nat) (f : Inst → Inst) : (s.updInst i f).clusters = s.clusters := by unfold State.updInst; split <;> rfl
@[simp] theorem updInst_ctxs (s : State) (i : Nat) (f : Inst → Inst) : (s.updInst i f).ctxs = s.ctxs := by unfold State.updInst; split <;> rfl
@[simp] theorem updInst_res (s : State) (i : Nat) (f : Inst → Inst) : (s.updInst i f).res = s.res := by unfold State.updInst; split <;> rfl
@[simp] theorem updInst_recs (s : State) (i : Nat) (f : Inst → Inst) : (s.updInst i f).recs = s.recs := by unfold State.updInst; split <;> rfl
@[simp] theorem updInst_queues (s : State) (i : Nat) (f : Inst → Inst) : (s.updInst i f).queues = s.queues := by unfold State.updInst; split <;> rfl
@[simp] theorem updInst_eops (s : State) (i : Nat) (f : Inst → Inst) : (s.updInst i f).eops = s.eops := by unfold State.updInst; split <;> rfl
@[simp] theorem updInst_objs (s : State) (i : Nat) (f : Inst → Inst) : (s.updInst i f).objs = s.objs := by unfold State.updInst; split <;> rfl
@[simp] theorem updInst_launches (s : State) (i : Nat) (f : Inst → Inst) : (s.updInst i f).launches = s.launches := by unfold State.updInst; split <;> rfl
@[simp] theorem updInst_walks (s : State) (i : Nat) (f : Inst → Inst) : (s.updInst i f).walks = s.walks := by unfold State.updInst; split <;> rfl
@[simp] theorem updInst_lops (s : State) (i : Nat) (f : Inst → Inst) : (s.updInst i f).lops = s.lops := by unfold State.updInst; split <;> rfl
@[simp] theorem updInst_sends (s : State) (i : Nat) (f : Inst → Inst) : (s.updInst i f).sends = s.sends := by unfold State.updInst; split <;> rfl
@[simp] theorem updInst_traps (s : State) (i : Nat) (f : Inst → Inst) : (s.updInst i f).traps = s.traps := by unfold State.updInst; split <;> rfl
@[simp] theorem updInst_chunks (s : State) (i : Nat) (f : Inst → Inst) : (s.updInst i f).chunks = s.chunks := by unfold State.updInst; split <;> rfl
@[simp] theorem updInst_group (s : State) (i : Nat) (f : Inst → Inst) : (s.updInst i f).group = s.group := by unfold State.updInst; split <;> rfl
@[simp] theorem updInst_ctl (s : State) (i : Nat) (f : Inst → Inst) : (s.updInst i f).ctl = s.ctl := by unfold State.updInst; split <;> rfl
@[simp] theorem updInst_power (s : State) (i : Nat) (f : Inst → Inst) : (s.updInst i f).power = s.power := by unfold State.updInst; split <;> rfl
@[simp] theorem updInst_chipS (s : State) (i : Nat) (f : Inst → Inst) : (s.updInst i f).chipS = s.chipS := by unfold State.updInst; split <;> rfl
@[simp] theorem updInst_phaseLo (s : State) (i : Nat) (f : Inst → Inst) : (s.updInst i f).phaseLo = s.phaseLo := by unfold State.updInst; split <;> rfl
@[simp] theorem updInst_phaseHi (s : State) (i : Nat) (f : Inst → Inst) : (s.updInst i f).phaseHi = s.phaseHi := by unfold State.updInst; split <;> rfl
@[simp] theorem updInst_phaseEnd (s : State) (i : Nat) (f : Inst → Inst) : (s.updInst i f).phaseEnd = s.phaseEnd := by unfold State.updInst; split <;> rfl
@[simp] theorem updInst_phaseTo (s : State) (i : Nat) (f : Inst → Inst) : (s.updInst i f).phaseTo = s.phaseTo := by unfold State.updInst; split <;> rfl
@[simp] theorem updInst_cgran (s : State) (i : Nat) (f : Inst → Inst) : (s.updInst i f).cgran = s.cgran := by unfold State.updInst; split <;> rfl
@[simp] theorem updInst_clast (s : State) (i : Nat) (f : Inst → Inst) : (s.updInst i f).clast = s.clast := by unfold State.updInst; split <;> rfl
@[simp] theorem updInst_dropsig (s : State) (i : Nat) (f : Inst → Inst) : (s.updInst i f).dropsig = s.dropsig := by unfold State.updInst; split <;> rfl
@[simp] theorem updInst_ccyc (s : State) (i : Nat) (f : Inst → Inst) : (s.updInst i f).ccyc = s.ccyc := by unfold State.updInst; split <;> rfl
@[simp] theorem updInst_gcyc (s : State) (i : Nat) (f : Inst → Inst) : (s.updInst i f).gcyc = s.gcyc := by unfold State.updInst; split <;> rfl
@[simp] theorem updInst_inbox (s : State) (i : Nat) (f : Inst → Inst) : (s.updInst i f).inbox = s.inbox := by unfold State.updInst; split <;> rfl
@[simp] theorem updInst_iss (s : State) (i : Nat) (f : Inst → Inst) : (s.updInst i f).iss = s.iss := by unfold State.updInst; split <;> rfl
@[simp] theorem updInst_turn (s : State) (i : Nat) (f : Inst → Inst) : (s.updInst i f).turn = s.turn := by unfold State.updInst; split <;> rfl
@[simp] theorem updInst_decided (s : State) (i : Nat) (f : Inst → Inst) : (s.updInst i f).decided = s.decided := by unfold State.updInst; split <;> rfl
@[simp] theorem updInst_fresh (s : State) (i : Nat) (f : Inst → Inst) : (s.updInst i f).fresh = s.fresh := by unfold State.updInst; split <;> rfl
@[simp] theorem updInst_ids (s : State) (i : Nat) (f : Inst → Inst) : (s.updInst i f).ids = s.ids := by unfold State.updInst; split <;> rfl

@[simp] theorem updWalk_mem (s : State) (w : Nat) (f : Walk → Walk) : (s.updWalk w f).mem = s.mem := by unfold State.updWalk; split <;> rfl
@[simp] theorem updWalk_cores (s : State) (w : Nat) (f : Walk → Walk) : (s.updWalk w f).cores = s.cores := by unfold State.updWalk; split <;> rfl
@[simp] theorem updWalk_clusters (s : State) (w : Nat) (f : Walk → Walk) : (s.updWalk w f).clusters = s.clusters := by unfold State.updWalk; split <;> rfl
@[simp] theorem updWalk_ctxs (s : State) (w : Nat) (f : Walk → Walk) : (s.updWalk w f).ctxs = s.ctxs := by unfold State.updWalk; split <;> rfl
@[simp] theorem updWalk_res (s : State) (w : Nat) (f : Walk → Walk) : (s.updWalk w f).res = s.res := by unfold State.updWalk; split <;> rfl
@[simp] theorem updWalk_recs (s : State) (w : Nat) (f : Walk → Walk) : (s.updWalk w f).recs = s.recs := by unfold State.updWalk; split <;> rfl
@[simp] theorem updWalk_queues (s : State) (w : Nat) (f : Walk → Walk) : (s.updWalk w f).queues = s.queues := by unfold State.updWalk; split <;> rfl
@[simp] theorem updWalk_eops (s : State) (w : Nat) (f : Walk → Walk) : (s.updWalk w f).eops = s.eops := by unfold State.updWalk; split <;> rfl
@[simp] theorem updWalk_objs (s : State) (w : Nat) (f : Walk → Walk) : (s.updWalk w f).objs = s.objs := by unfold State.updWalk; split <;> rfl
@[simp] theorem updWalk_launches (s : State) (w : Nat) (f : Walk → Walk) : (s.updWalk w f).launches = s.launches := by unfold State.updWalk; split <;> rfl
@[simp] theorem updWalk_insts (s : State) (w : Nat) (f : Walk → Walk) : (s.updWalk w f).insts = s.insts := by unfold State.updWalk; split <;> rfl
@[simp] theorem updWalk_lops (s : State) (w : Nat) (f : Walk → Walk) : (s.updWalk w f).lops = s.lops := by unfold State.updWalk; split <;> rfl
@[simp] theorem updWalk_sends (s : State) (w : Nat) (f : Walk → Walk) : (s.updWalk w f).sends = s.sends := by unfold State.updWalk; split <;> rfl
@[simp] theorem updWalk_traps (s : State) (w : Nat) (f : Walk → Walk) : (s.updWalk w f).traps = s.traps := by unfold State.updWalk; split <;> rfl
@[simp] theorem updWalk_chunks (s : State) (w : Nat) (f : Walk → Walk) : (s.updWalk w f).chunks = s.chunks := by unfold State.updWalk; split <;> rfl
@[simp] theorem updWalk_group (s : State) (w : Nat) (f : Walk → Walk) : (s.updWalk w f).group = s.group := by unfold State.updWalk; split <;> rfl
@[simp] theorem updWalk_ctl (s : State) (w : Nat) (f : Walk → Walk) : (s.updWalk w f).ctl = s.ctl := by unfold State.updWalk; split <;> rfl
@[simp] theorem updWalk_power (s : State) (w : Nat) (f : Walk → Walk) : (s.updWalk w f).power = s.power := by unfold State.updWalk; split <;> rfl
@[simp] theorem updWalk_chipS (s : State) (w : Nat) (f : Walk → Walk) : (s.updWalk w f).chipS = s.chipS := by unfold State.updWalk; split <;> rfl
@[simp] theorem updWalk_phaseLo (s : State) (w : Nat) (f : Walk → Walk) : (s.updWalk w f).phaseLo = s.phaseLo := by unfold State.updWalk; split <;> rfl
@[simp] theorem updWalk_phaseHi (s : State) (w : Nat) (f : Walk → Walk) : (s.updWalk w f).phaseHi = s.phaseHi := by unfold State.updWalk; split <;> rfl
@[simp] theorem updWalk_phaseEnd (s : State) (w : Nat) (f : Walk → Walk) : (s.updWalk w f).phaseEnd = s.phaseEnd := by unfold State.updWalk; split <;> rfl
@[simp] theorem updWalk_phaseTo (s : State) (w : Nat) (f : Walk → Walk) : (s.updWalk w f).phaseTo = s.phaseTo := by unfold State.updWalk; split <;> rfl
@[simp] theorem updWalk_cgran (s : State) (w : Nat) (f : Walk → Walk) : (s.updWalk w f).cgran = s.cgran := by unfold State.updWalk; split <;> rfl
@[simp] theorem updWalk_clast (s : State) (w : Nat) (f : Walk → Walk) : (s.updWalk w f).clast = s.clast := by unfold State.updWalk; split <;> rfl
@[simp] theorem updWalk_dropsig (s : State) (w : Nat) (f : Walk → Walk) : (s.updWalk w f).dropsig = s.dropsig := by unfold State.updWalk; split <;> rfl
@[simp] theorem updWalk_ccyc (s : State) (w : Nat) (f : Walk → Walk) : (s.updWalk w f).ccyc = s.ccyc := by unfold State.updWalk; split <;> rfl
@[simp] theorem updWalk_gcyc (s : State) (w : Nat) (f : Walk → Walk) : (s.updWalk w f).gcyc = s.gcyc := by unfold State.updWalk; split <;> rfl
@[simp] theorem updWalk_inbox (s : State) (w : Nat) (f : Walk → Walk) : (s.updWalk w f).inbox = s.inbox := by unfold State.updWalk; split <;> rfl
@[simp] theorem updWalk_iss (s : State) (w : Nat) (f : Walk → Walk) : (s.updWalk w f).iss = s.iss := by unfold State.updWalk; split <;> rfl
@[simp] theorem updWalk_turn (s : State) (w : Nat) (f : Walk → Walk) : (s.updWalk w f).turn = s.turn := by unfold State.updWalk; split <;> rfl
@[simp] theorem updWalk_decided (s : State) (w : Nat) (f : Walk → Walk) : (s.updWalk w f).decided = s.decided := by unfold State.updWalk; split <;> rfl
@[simp] theorem updWalk_fresh (s : State) (w : Nat) (f : Walk → Walk) : (s.updWalk w f).fresh = s.fresh := by unfold State.updWalk; split <;> rfl
@[simp] theorem updWalk_ids (s : State) (w : Nat) (f : Walk → Walk) : (s.updWalk w f).ids = s.ids := by unfold State.updWalk; split <;> rfl

@[simp] theorem updLop_mem (s : State) (o : Nat) (f : LOp → LOp) : (s.updLop o f).mem = s.mem := by unfold State.updLop; split <;> rfl
@[simp] theorem updLop_cores (s : State) (o : Nat) (f : LOp → LOp) : (s.updLop o f).cores = s.cores := by unfold State.updLop; split <;> rfl
@[simp] theorem updLop_clusters (s : State) (o : Nat) (f : LOp → LOp) : (s.updLop o f).clusters = s.clusters := by unfold State.updLop; split <;> rfl
@[simp] theorem updLop_ctxs (s : State) (o : Nat) (f : LOp → LOp) : (s.updLop o f).ctxs = s.ctxs := by unfold State.updLop; split <;> rfl
@[simp] theorem updLop_res (s : State) (o : Nat) (f : LOp → LOp) : (s.updLop o f).res = s.res := by unfold State.updLop; split <;> rfl
@[simp] theorem updLop_recs (s : State) (o : Nat) (f : LOp → LOp) : (s.updLop o f).recs = s.recs := by unfold State.updLop; split <;> rfl
@[simp] theorem updLop_queues (s : State) (o : Nat) (f : LOp → LOp) : (s.updLop o f).queues = s.queues := by unfold State.updLop; split <;> rfl
@[simp] theorem updLop_eops (s : State) (o : Nat) (f : LOp → LOp) : (s.updLop o f).eops = s.eops := by unfold State.updLop; split <;> rfl
@[simp] theorem updLop_objs (s : State) (o : Nat) (f : LOp → LOp) : (s.updLop o f).objs = s.objs := by unfold State.updLop; split <;> rfl
@[simp] theorem updLop_launches (s : State) (o : Nat) (f : LOp → LOp) : (s.updLop o f).launches = s.launches := by unfold State.updLop; split <;> rfl
@[simp] theorem updLop_insts (s : State) (o : Nat) (f : LOp → LOp) : (s.updLop o f).insts = s.insts := by unfold State.updLop; split <;> rfl
@[simp] theorem updLop_walks (s : State) (o : Nat) (f : LOp → LOp) : (s.updLop o f).walks = s.walks := by unfold State.updLop; split <;> rfl
@[simp] theorem updLop_sends (s : State) (o : Nat) (f : LOp → LOp) : (s.updLop o f).sends = s.sends := by unfold State.updLop; split <;> rfl
@[simp] theorem updLop_traps (s : State) (o : Nat) (f : LOp → LOp) : (s.updLop o f).traps = s.traps := by unfold State.updLop; split <;> rfl
@[simp] theorem updLop_chunks (s : State) (o : Nat) (f : LOp → LOp) : (s.updLop o f).chunks = s.chunks := by unfold State.updLop; split <;> rfl
@[simp] theorem updLop_group (s : State) (o : Nat) (f : LOp → LOp) : (s.updLop o f).group = s.group := by unfold State.updLop; split <;> rfl
@[simp] theorem updLop_ctl (s : State) (o : Nat) (f : LOp → LOp) : (s.updLop o f).ctl = s.ctl := by unfold State.updLop; split <;> rfl
@[simp] theorem updLop_power (s : State) (o : Nat) (f : LOp → LOp) : (s.updLop o f).power = s.power := by unfold State.updLop; split <;> rfl
@[simp] theorem updLop_chipS (s : State) (o : Nat) (f : LOp → LOp) : (s.updLop o f).chipS = s.chipS := by unfold State.updLop; split <;> rfl
@[simp] theorem updLop_phaseLo (s : State) (o : Nat) (f : LOp → LOp) : (s.updLop o f).phaseLo = s.phaseLo := by unfold State.updLop; split <;> rfl
@[simp] theorem updLop_phaseHi (s : State) (o : Nat) (f : LOp → LOp) : (s.updLop o f).phaseHi = s.phaseHi := by unfold State.updLop; split <;> rfl
@[simp] theorem updLop_phaseEnd (s : State) (o : Nat) (f : LOp → LOp) : (s.updLop o f).phaseEnd = s.phaseEnd := by unfold State.updLop; split <;> rfl
@[simp] theorem updLop_phaseTo (s : State) (o : Nat) (f : LOp → LOp) : (s.updLop o f).phaseTo = s.phaseTo := by unfold State.updLop; split <;> rfl
@[simp] theorem updLop_cgran (s : State) (o : Nat) (f : LOp → LOp) : (s.updLop o f).cgran = s.cgran := by unfold State.updLop; split <;> rfl
@[simp] theorem updLop_clast (s : State) (o : Nat) (f : LOp → LOp) : (s.updLop o f).clast = s.clast := by unfold State.updLop; split <;> rfl
@[simp] theorem updLop_dropsig (s : State) (o : Nat) (f : LOp → LOp) : (s.updLop o f).dropsig = s.dropsig := by unfold State.updLop; split <;> rfl
@[simp] theorem updLop_ccyc (s : State) (o : Nat) (f : LOp → LOp) : (s.updLop o f).ccyc = s.ccyc := by unfold State.updLop; split <;> rfl
@[simp] theorem updLop_gcyc (s : State) (o : Nat) (f : LOp → LOp) : (s.updLop o f).gcyc = s.gcyc := by unfold State.updLop; split <;> rfl
@[simp] theorem updLop_inbox (s : State) (o : Nat) (f : LOp → LOp) : (s.updLop o f).inbox = s.inbox := by unfold State.updLop; split <;> rfl
@[simp] theorem updLop_iss (s : State) (o : Nat) (f : LOp → LOp) : (s.updLop o f).iss = s.iss := by unfold State.updLop; split <;> rfl
@[simp] theorem updLop_turn (s : State) (o : Nat) (f : LOp → LOp) : (s.updLop o f).turn = s.turn := by unfold State.updLop; split <;> rfl
@[simp] theorem updLop_decided (s : State) (o : Nat) (f : LOp → LOp) : (s.updLop o f).decided = s.decided := by unfold State.updLop; split <;> rfl
@[simp] theorem updLop_fresh (s : State) (o : Nat) (f : LOp → LOp) : (s.updLop o f).fresh = s.fresh := by unfold State.updLop; split <;> rfl
@[simp] theorem updLop_ids (s : State) (o : Nat) (f : LOp → LOp) : (s.updLop o f).ids = s.ids := by unfold State.updLop; split <;> rfl

/-- Storing bytes changes memory alone. -/
theorem wrBytes_eq (l : List Byte) : ∀ (s : State) (a : Nat), s.wrBytes a l = { s with mem := (s.wrBytes a l).mem } := by
  induction l with
  | nil => intro s a; rfl
  | cons b r ih => intro s a; rw [State.wrBytes, ih]; rfl

@[simp] theorem wrBytes_cores (s : State) (a : Nat) (l : List Byte) : (s.wrBytes a l).cores = s.cores := by rw [wrBytes_eq]
@[simp] theorem wrBytes_clusters (s : State) (a : Nat) (l : List Byte) : (s.wrBytes a l).clusters = s.clusters := by rw [wrBytes_eq]
@[simp] theorem wrBytes_ctxs (s : State) (a : Nat) (l : List Byte) : (s.wrBytes a l).ctxs = s.ctxs := by rw [wrBytes_eq]
@[simp] theorem wrBytes_res (s : State) (a : Nat) (l : List Byte) : (s.wrBytes a l).res = s.res := by rw [wrBytes_eq]
@[simp] theorem wrBytes_recs (s : State) (a : Nat) (l : List Byte) : (s.wrBytes a l).recs = s.recs := by rw [wrBytes_eq]
@[simp] theorem wrBytes_queues (s : State) (a : Nat) (l : List Byte) : (s.wrBytes a l).queues = s.queues := by rw [wrBytes_eq]
@[simp] theorem wrBytes_eops (s : State) (a : Nat) (l : List Byte) : (s.wrBytes a l).eops = s.eops := by rw [wrBytes_eq]
@[simp] theorem wrBytes_objs (s : State) (a : Nat) (l : List Byte) : (s.wrBytes a l).objs = s.objs := by rw [wrBytes_eq]
@[simp] theorem wrBytes_launches (s : State) (a : Nat) (l : List Byte) : (s.wrBytes a l).launches = s.launches := by rw [wrBytes_eq]
@[simp] theorem wrBytes_insts (s : State) (a : Nat) (l : List Byte) : (s.wrBytes a l).insts = s.insts := by rw [wrBytes_eq]
@[simp] theorem wrBytes_walks (s : State) (a : Nat) (l : List Byte) : (s.wrBytes a l).walks = s.walks := by rw [wrBytes_eq]
@[simp] theorem wrBytes_lops (s : State) (a : Nat) (l : List Byte) : (s.wrBytes a l).lops = s.lops := by rw [wrBytes_eq]
@[simp] theorem wrBytes_sends (s : State) (a : Nat) (l : List Byte) : (s.wrBytes a l).sends = s.sends := by rw [wrBytes_eq]
@[simp] theorem wrBytes_traps (s : State) (a : Nat) (l : List Byte) : (s.wrBytes a l).traps = s.traps := by rw [wrBytes_eq]
@[simp] theorem wrBytes_chunks (s : State) (a : Nat) (l : List Byte) : (s.wrBytes a l).chunks = s.chunks := by rw [wrBytes_eq]
@[simp] theorem wrBytes_group (s : State) (a : Nat) (l : List Byte) : (s.wrBytes a l).group = s.group := by rw [wrBytes_eq]
@[simp] theorem wrBytes_ctl (s : State) (a : Nat) (l : List Byte) : (s.wrBytes a l).ctl = s.ctl := by rw [wrBytes_eq]
@[simp] theorem wrBytes_power (s : State) (a : Nat) (l : List Byte) : (s.wrBytes a l).power = s.power := by rw [wrBytes_eq]
@[simp] theorem wrBytes_chipS (s : State) (a : Nat) (l : List Byte) : (s.wrBytes a l).chipS = s.chipS := by rw [wrBytes_eq]
@[simp] theorem wrBytes_phaseLo (s : State) (a : Nat) (l : List Byte) : (s.wrBytes a l).phaseLo = s.phaseLo := by rw [wrBytes_eq]
@[simp] theorem wrBytes_phaseHi (s : State) (a : Nat) (l : List Byte) : (s.wrBytes a l).phaseHi = s.phaseHi := by rw [wrBytes_eq]
@[simp] theorem wrBytes_phaseEnd (s : State) (a : Nat) (l : List Byte) : (s.wrBytes a l).phaseEnd = s.phaseEnd := by rw [wrBytes_eq]
@[simp] theorem wrBytes_phaseTo (s : State) (a : Nat) (l : List Byte) : (s.wrBytes a l).phaseTo = s.phaseTo := by rw [wrBytes_eq]
@[simp] theorem wrBytes_cgran (s : State) (a : Nat) (l : List Byte) : (s.wrBytes a l).cgran = s.cgran := by rw [wrBytes_eq]
@[simp] theorem wrBytes_clast (s : State) (a : Nat) (l : List Byte) : (s.wrBytes a l).clast = s.clast := by rw [wrBytes_eq]
@[simp] theorem wrBytes_dropsig (s : State) (a : Nat) (l : List Byte) : (s.wrBytes a l).dropsig = s.dropsig := by rw [wrBytes_eq]
@[simp] theorem wrBytes_ccyc (s : State) (a : Nat) (l : List Byte) : (s.wrBytes a l).ccyc = s.ccyc := by rw [wrBytes_eq]
@[simp] theorem wrBytes_gcyc (s : State) (a : Nat) (l : List Byte) : (s.wrBytes a l).gcyc = s.gcyc := by rw [wrBytes_eq]
@[simp] theorem wrBytes_inbox (s : State) (a : Nat) (l : List Byte) : (s.wrBytes a l).inbox = s.inbox := by rw [wrBytes_eq]
@[simp] theorem wrBytes_iss (s : State) (a : Nat) (l : List Byte) : (s.wrBytes a l).iss = s.iss := by rw [wrBytes_eq]
@[simp] theorem wrBytes_turn (s : State) (a : Nat) (l : List Byte) : (s.wrBytes a l).turn = s.turn := by rw [wrBytes_eq]
@[simp] theorem wrBytes_decided (s : State) (a : Nat) (l : List Byte) : (s.wrBytes a l).decided = s.decided := by rw [wrBytes_eq]
@[simp] theorem wrBytes_fresh (s : State) (a : Nat) (l : List Byte) : (s.wrBytes a l).fresh = s.fresh := by rw [wrBytes_eq]
@[simp] theorem wrBytes_ids (s : State) (a : Nat) (l : List Byte) : (s.wrBytes a l).ids = s.ids := by rw [wrBytes_eq]

@[simp] theorem wrN_cores (s : State) (a n v : Nat) : (s.wrN a n v).cores = s.cores := wrBytes_cores s a _
@[simp] theorem wrN_clusters (s : State) (a n v : Nat) : (s.wrN a n v).clusters = s.clusters := wrBytes_clusters s a _
@[simp] theorem wrN_ctxs (s : State) (a n v : Nat) : (s.wrN a n v).ctxs = s.ctxs := wrBytes_ctxs s a _
@[simp] theorem wrN_res (s : State) (a n v : Nat) : (s.wrN a n v).res = s.res := wrBytes_res s a _
@[simp] theorem wrN_recs (s : State) (a n v : Nat) : (s.wrN a n v).recs = s.recs := wrBytes_recs s a _
@[simp] theorem wrN_queues (s : State) (a n v : Nat) : (s.wrN a n v).queues = s.queues := wrBytes_queues s a _
@[simp] theorem wrN_eops (s : State) (a n v : Nat) : (s.wrN a n v).eops = s.eops := wrBytes_eops s a _
@[simp] theorem wrN_objs (s : State) (a n v : Nat) : (s.wrN a n v).objs = s.objs := wrBytes_objs s a _
@[simp] theorem wrN_launches (s : State) (a n v : Nat) : (s.wrN a n v).launches = s.launches := wrBytes_launches s a _
@[simp] theorem wrN_insts (s : State) (a n v : Nat) : (s.wrN a n v).insts = s.insts := wrBytes_insts s a _
@[simp] theorem wrN_walks (s : State) (a n v : Nat) : (s.wrN a n v).walks = s.walks := wrBytes_walks s a _
@[simp] theorem wrN_lops (s : State) (a n v : Nat) : (s.wrN a n v).lops = s.lops := wrBytes_lops s a _
@[simp] theorem wrN_sends (s : State) (a n v : Nat) : (s.wrN a n v).sends = s.sends := wrBytes_sends s a _
@[simp] theorem wrN_traps (s : State) (a n v : Nat) : (s.wrN a n v).traps = s.traps := wrBytes_traps s a _
@[simp] theorem wrN_chunks (s : State) (a n v : Nat) : (s.wrN a n v).chunks = s.chunks := wrBytes_chunks s a _
@[simp] theorem wrN_group (s : State) (a n v : Nat) : (s.wrN a n v).group = s.group := wrBytes_group s a _
@[simp] theorem wrN_ctl (s : State) (a n v : Nat) : (s.wrN a n v).ctl = s.ctl := wrBytes_ctl s a _
@[simp] theorem wrN_power (s : State) (a n v : Nat) : (s.wrN a n v).power = s.power := wrBytes_power s a _
@[simp] theorem wrN_chipS (s : State) (a n v : Nat) : (s.wrN a n v).chipS = s.chipS := wrBytes_chipS s a _
@[simp] theorem wrN_phaseLo (s : State) (a n v : Nat) : (s.wrN a n v).phaseLo = s.phaseLo := wrBytes_phaseLo s a _
@[simp] theorem wrN_phaseHi (s : State) (a n v : Nat) : (s.wrN a n v).phaseHi = s.phaseHi := wrBytes_phaseHi s a _
@[simp] theorem wrN_phaseEnd (s : State) (a n v : Nat) : (s.wrN a n v).phaseEnd = s.phaseEnd := wrBytes_phaseEnd s a _
@[simp] theorem wrN_phaseTo (s : State) (a n v : Nat) : (s.wrN a n v).phaseTo = s.phaseTo := wrBytes_phaseTo s a _
@[simp] theorem wrN_cgran (s : State) (a n v : Nat) : (s.wrN a n v).cgran = s.cgran := wrBytes_cgran s a _
@[simp] theorem wrN_clast (s : State) (a n v : Nat) : (s.wrN a n v).clast = s.clast := wrBytes_clast s a _
@[simp] theorem wrN_dropsig (s : State) (a n v : Nat) : (s.wrN a n v).dropsig = s.dropsig := wrBytes_dropsig s a _
@[simp] theorem wrN_ccyc (s : State) (a n v : Nat) : (s.wrN a n v).ccyc = s.ccyc := wrBytes_ccyc s a _
@[simp] theorem wrN_gcyc (s : State) (a n v : Nat) : (s.wrN a n v).gcyc = s.gcyc := wrBytes_gcyc s a _
@[simp] theorem wrN_inbox (s : State) (a n v : Nat) : (s.wrN a n v).inbox = s.inbox := wrBytes_inbox s a _
@[simp] theorem wrN_iss (s : State) (a n v : Nat) : (s.wrN a n v).iss = s.iss := wrBytes_iss s a _
@[simp] theorem wrN_turn (s : State) (a n v : Nat) : (s.wrN a n v).turn = s.turn := wrBytes_turn s a _
@[simp] theorem wrN_decided (s : State) (a n v : Nat) : (s.wrN a n v).decided = s.decided := wrBytes_decided s a _
@[simp] theorem wrN_fresh (s : State) (a n v : Nat) : (s.wrN a n v).fresh = s.fresh := wrBytes_fresh s a _
@[simp] theorem wrN_ids (s : State) (a n v : Nat) : (s.wrN a n v).ids = s.ids := wrBytes_ids s a _

/-! ### Maps -/

@[simp] theorem amap_get_upd_same {α : Type} (d : α) (m : AMap α) (k : Nat) (v : α) : AMap.get d (m.upd k v) k = v := by
  induction m with
  | nil => simp [AMap.upd, AMap.get]
  | cons p r ih =>
    simp only [AMap.upd]
    split
    · simp [AMap.get]
    · split
      · simp [AMap.get]
      · simp [AMap.get, *]

theorem amap_get_upd_other {α : Type} (d : α) (m : AMap α) {k j : Nat} (v : α) (h : j ≠ k) : AMap.get d (m.upd k v) j = AMap.get d m j := by
  induction m with
  | nil => simp [AMap.upd, AMap.get, h]
  | cons p r ih =>
    simp only [AMap.upd]
    split
    · simp [AMap.get, h]
    · split
      · subst k; simp [AMap.get, h]
      · simp only [AMap.get, ih]

@[simp] theorem amap_find_upd_same {α : Type} (m : AMap α) (k : Nat) (v : α) : AMap.find (m.upd k v) k = some v := by
  induction m with
  | nil => simp [AMap.upd, AMap.find]
  | cons p r ih =>
    simp only [AMap.upd]
    split
    · simp [AMap.find]
    · split
      · simp [AMap.find]
      · simp [AMap.find, *]

theorem amap_find_upd_other {α : Type} (m : AMap α) {k j : Nat} (v : α) (h : j ≠ k) : AMap.find (m.upd k v) j = AMap.find m j := by
  induction m with
  | nil => simp [AMap.upd, AMap.find, h]
  | cons p r ih =>
    simp only [AMap.upd]
    split
    · simp [AMap.find, h]
    · split
      · subst k; simp [AMap.find, h]
      · simp only [AMap.find, ih]

@[simp] theorem amap_upd_upd {α : Type} (m : AMap α) (k : Nat) (v w : α) : (m.upd k v).upd k w = m.upd k w := by
  induction m with
  | nil => simp [AMap.upd]
  | cons p r ih =>
    simp only [AMap.upd]
    split
    · simp [AMap.upd]
    · split
      · simp [AMap.upd]
      · simp [AMap.upd, *]

@[simp] theorem amap_get_erase_same {α : Type} (d : α) (m : AMap α) (k : Nat) : AMap.get d (m.erase k) k = d := by
  induction m with
  | nil => rfl
  | cons p r ih =>
    simp only [AMap.erase]
    split
    · exact ih
    · simp [AMap.get, *]

theorem amap_get_erase_other {α : Type} (d : α) (m : AMap α) {k j : Nat} (h : j ≠ k) : AMap.get d (m.erase k) j = AMap.get d m j := by
  induction m with
  | nil => rfl
  | cons p r ih =>
    simp only [AMap.erase]
    split
    · subst k; simp [AMap.get, h, ih]
    · simp [AMap.get, ih]

@[simp] theorem amap_get_put_same {α : Type} [DecidableEq α] (d : α) (m : AMap α) (k : Nat) (v : α) : AMap.get d (AMap.put d m k v) k = v := by
  unfold AMap.put; split <;> simp [*]

theorem amap_get_put_other {α : Type} [DecidableEq α] (d : α) (m : AMap α) {k j : Nat} (v : α) (h : j ≠ k) :
    AMap.get d (AMap.put d m k v) j = AMap.get d m j := by
  unfold AMap.put; split
  · exact amap_get_erase_other d m h
  · exact amap_get_upd_other d m v h

/-! ### Cores and clusters -/

@[simp] theorem core_setCore_same (s : State) (c : Nat) (k : Core) : (s.setCore c k).core c = k := amap_get_upd_same ..

theorem core_setCore_other (s : State) {c j : Nat} (k : Core) (h : j ≠ c) : (s.setCore c k).core j = s.core j := amap_get_upd_other _ _ _ h

@[simp] theorem core_updCore_same (s : State) (c : Nat) (f : Core → Core) : (s.updCore c f).core c = f (s.core c) := amap_get_upd_same ..

theorem core_updCore_other (s : State) {c j : Nat} (f : Core → Core) (h : j ≠ c) : (s.updCore c f).core j = s.core j :=
  amap_get_upd_other _ _ _ h

@[simp] theorem core_updSl_same (s : State) (c : Nat) (f : Slice → Slice) :
    (s.updSl c f).core c = { s.core c with sl := f (s.core c).sl } := amap_get_upd_same ..

theorem core_updSl_other (s : State) {c j : Nat} (f : Slice → Slice) (h : j ≠ c) : (s.updSl c f).core j = s.core j :=
  amap_get_upd_other _ _ _ h

@[simp] theorem sl_updSl_same (s : State) (c : Nat) (f : Slice → Slice) : (s.updSl c f).sl c = f (s.sl c) := by
  simp [State.sl]

theorem sl_updSl_other (s : State) {c j : Nat} (f : Slice → Slice) (h : j ≠ c) : (s.updSl c f).sl j = s.sl j := by
  simp [State.sl, core_updSl_other s f h]

@[simp] theorem updSl_updSl (s : State) (c : Nat) (f g : Slice → Slice) : (s.updSl c f).updSl c g = s.updSl c (g ∘ f) := by
  simp [State.updSl, State.updCore, State.setCore, State.core, Function.comp]

@[simp] theorem cluster_updCl_same (s : State) (j : Nat) (f : Cluster → Cluster) : (s.updCl j f).cluster j = f (s.cluster j) :=
  amap_get_upd_same ..

theorem cluster_updCl_other (s : State) {j i : Nat} (f : Cluster → Cluster) (h : i ≠ j) : (s.updCl j f).cluster i = s.cluster i :=
  amap_get_upd_other _ _ _ h

@[simp] theorem handle_setHandle_same (s : State) (cl ctx h : Nat) (e : HEnt) : (s.setHandle cl ctx h e).handle cl ctx h = e := by
  simp [State.setHandle, State.handle]

end Sys2Proof.Machine
end

