-- ==== Sys2Proof/Laws/Memory.lean ====
section
/-! SUPPORT. Memory: every operation keeps the canonical form, and what is read back after a store. -/
namespace Sys2Proof.Machine

/-! ### The canonical form -/

theorem amap_sorted_iff {α : Type} : ∀ m : AMap α, AMap.sorted m = true ↔ m.Pairwise (fun p q => p.1 < q.1)
  | [] => by simp [AMap.sorted]
  | [_] => by simp [AMap.sorted]
  | p :: q :: r => by
    have ih := amap_sorted_iff (q :: r)
    simp only [AMap.sorted, Bool.and_eq_true, decide_eq_true_eq, ih]
    constructor
    · rintro ⟨h, t⟩
      refine List.Pairwise.cons (fun x hx => ?_) t
      rcases List.mem_cons.1 hx with rfl | hx
      · exact h
      · exact Nat.lt_trans h (List.rel_of_pairwise_cons t hx)
    · intro t
      exact ⟨List.rel_of_pairwise_cons t (by simp), List.Pairwise.of_cons t⟩

theorem amap_erase_eq_filter {α : Type} (m : AMap α) (k : Nat) : m.erase k = m.filter (fun p => p.1 != k) := by
  induction m with
  | nil => rfl
  | cons p r ih =>
    simp only [AMap.erase, ih, List.filter_cons]
    by_cases h : k = p.1
    · simp [h]
    · simp [h, Ne.symm h]

/-- What an entry of an updated map is. -/
theorem mem_amap_upd {α : Type} {m : AMap α} {k : Nat} {v : α} {p : Nat × α} (h : p ∈ m.upd k v) : p = (k, v) ∨ p ∈ m := by
  induction m with
  | nil => simpa [AMap.upd] using h
  | cons q r ih =>
    simp only [AMap.upd] at h
    split at h
    · rcases List.mem_cons.1 h with h | h
      · exact .inl h
      · exact .inr h
    · split at h
      · rcases List.mem_cons.1 h with h | h
        · exact .inl h
        · exact .inr (List.mem_cons_of_mem _ h)
      · rcases List.mem_cons.1 h with h | h
        · exact .inr (by rw [h]; exact List.mem_cons_self)
        · rcases ih h with h | h
          · exact .inl h
          · exact .inr (List.mem_cons_of_mem _ h)

theorem amap_sorted_upd {α : Type} {m : AMap α} (k : Nat) (v : α) (h : m.Pairwise (fun p q => p.1 < q.1)) :
    (m.upd k v).Pairwise (fun p q => p.1 < q.1) := by
  induction m with
  | nil => simp [AMap.upd]
  | cons q r ih =>
    have hr := List.Pairwise.of_cons h
    have hq := fun x hx => List.rel_of_pairwise_cons (a' := x) h hx
    simp only [AMap.upd]
    split
    · rename_i hlt
      refine List.Pairwise.cons (fun x hx => ?_) h
      rcases List.mem_cons.1 hx with rfl | hx
      · exact hlt
      · exact Nat.lt_trans hlt (hq x hx)
    · split
      · rename_i he
        exact List.Pairwise.cons (fun x hx => by simpa [he] using hq x hx) hr
      · rename_i h1 h2
        refine List.Pairwise.cons (fun x hx => ?_) (ih hr)
        rcases mem_amap_upd hx with rfl | hx
        · exact Nat.lt_of_le_of_ne (Nat.not_lt.1 h1) (Ne.symm h2)
        · exact hq x hx

theorem memory_wf_iff (m : List Host.Cell) : Memory.wf m = true ↔ m.Pairwise (fun p q => p.1 < q.1) ∧ ∀ c ∈ m, c.2 ≠ memDefault := by
  simp only [Memory.wf, Bool.and_eq_true, amap_sorted_iff, List.all_eq_true, bne_iff_ne]

/-- A sublist of a canonical memory is canonical. -/
theorem memory_wf_filter {m : List Host.Cell} (p : Host.Cell → Bool) (h : Memory.wf m = true) : Memory.wf (m.filter p) = true := by
  rw [memory_wf_iff] at *
  exact ⟨h.1.filter p, fun c hc => h.2 c (List.mem_filter.1 hc).1⟩

theorem memory_wf_put {m : List Host.Cell} (a : Nat) (b : Byte) (h : Memory.wf m = true) : Memory.wf (AMap.put memDefault m a b) = true := by
  unfold AMap.put
  split
  · rw [amap_erase_eq_filter]; exact memory_wf_filter _ h
  · rename_i hb
    rw [memory_wf_iff] at *
    refine ⟨amap_sorted_upd a b h.1, fun c hc => ?_⟩
    rcases mem_amap_upd hc with rfl | hc
    · exact hb
    · exact h.2 c hc

theorem memOk_wr8 {s : State} (a : Nat) (b : Byte) (h : s.MemOk) : (s.wr8 a b).MemOk := memory_wf_put a b h

theorem memOk_wrBytes (l : List Byte) : ∀ {s : State} (a : Nat), s.MemOk → (s.wrBytes a l).MemOk := by
  induction l with
  | nil => intro s a h; exact h
  | cons b r ih => intro s a h; exact ih _ (memOk_wr8 a b h)

theorem memOk_wrN {s : State} (a n v : Nat) (h : s.MemOk) : (s.wrN a n v).MemOk := memOk_wrBytes _ _ h

theorem memOk_clear {s : State} (a n : Nat) (h : s.MemOk) : (s.clear a n).MemOk := memory_wf_filter _ h

theorem memOk_scrub {s : State} (a n : Nat) (h : s.MemOk) : (s.scrub a n).MemOk := memory_wf_filter _ h

theorem memOk_congr {s t : State} (h : s.MemOk) (e : t.mem = s.mem) : t.MemOk := by unfold State.MemOk; rw [e]; exact h

/-! ### Reading after a store -/

@[simp] theorem rd8_wr8_same (s : State) (a : Nat) (b : Byte) : (s.wr8 a b).rd8 a = b := amap_get_put_same ..

theorem rd8_wr8_other (s : State) {a j : Nat} (b : Byte) (h : j ≠ a) : (s.wr8 a b).rd8 j = s.rd8 j := amap_get_put_other _ _ _ h

/-- A store of bytes leaves every byte outside its range. -/
theorem rd8_wrBytes_outside (l : List Byte) : ∀ (s : State) (a j : Nat), j < a ∨ a + l.length ≤ j → (s.wrBytes a l).rd8 j = s.rd8 j := by
  induction l with
  | nil => intro s a j _; rfl
  | cons b r ih =>
    intro s a j h
    simp only [List.length_cons] at h
    rw [State.wrBytes, ih _ _ _ (by omega), rd8_wr8_other _ _ (by omega)]

/-- A stored byte reads back. -/
theorem rd8_wrBytes_inside (l : List Byte) : ∀ (s : State) (a i : Nat) (h : i < l.length), (s.wrBytes a l).rd8 (a + i) = l[i] := by
  induction l with
  | nil => intro s a i h; exact absurd h (Nat.not_lt_zero i)
  | cons b r ih =>
    intro s a i h
    rw [State.wrBytes]
    cases i with
    | zero => rw [rd8_wrBytes_outside _ _ _ _ (by omega)]; simp
    | succ i =>
      rw [show a + (i + 1) = a + 1 + i by omega, ih _ _ _ (by simpa using h)]
      simp

theorem rd8_clear_inside (s : State) {a n j : Nat} (h : a ≤ j ∧ j < a + n) : (s.clear a n).rd8 j = memDefault := by
  have key : ∀ m : List Host.Cell, AMap.get memDefault (m.filter fun c => c.1 < a || a + n ≤ c.1) j = memDefault := by
    intro m
    induction m with
    | nil => rfl
    | cons p r ih =>
      rw [List.filter_cons]
      split
      · rename_i hp
        have : j ≠ p.1 := by
          rintro rfl
          simp only [Bool.or_eq_true, decide_eq_true_eq] at hp
          omega
        simp [AMap.get, this, ih]
      · exact ih
  exact key s.mem

theorem rd8_clear_outside (s : State) {a n j : Nat} (h : j < a ∨ a + n ≤ j) : (s.clear a n).rd8 j = s.rd8 j := by
  have key : ∀ m : List Host.Cell, AMap.get memDefault (m.filter fun c => c.1 < a || a + n ≤ c.1) j = AMap.get memDefault m j := by
    intro m
    induction m with
    | nil => rfl
    | cons p r ih =>
      rw [List.filter_cons]
      by_cases hj : j = p.1
      · subst hj; simp [AMap.get, h]
      · split <;> simp [AMap.get, hj, ih]
  exact key s.mem

/-- Reading bytes depends on those bytes alone. -/
theorem rdBytes_congr {s t : State} : ∀ (n a : Nat), (∀ j, a ≤ j → j < a + n → t.rd8 j = s.rd8 j) → t.rdBytes a n = s.rdBytes a n
  | 0, _, _ => rfl
  | n + 1, a, h => by
    rw [State.rdBytes, State.rdBytes, h a (by omega) (by omega), rdBytes_congr n (a + 1) fun j h1 h2 => h j (by omega) (by omega)]

/-- Bytes read back whole after their store. -/
theorem rdBytes_wrBytes (l : List Byte) : ∀ (s : State) (a : Nat), (s.wrBytes a l).rdBytes a l.length = l := by
  induction l with
  | nil => intro s a; rfl
  | cons b r ih =>
    intro s a
    simp only [List.length_cons, State.rdBytes, State.wrBytes, ih, List.cons.injEq, and_true]
    rw [rd8_wrBytes_outside _ _ _ _ (by omega)]; simp

end Sys2Proof.Machine
end

