-- ==== Sys2Proof/Laws/Slot.lean ====
section
/-! SUPPORT. What the slot monad does: how work of a slot runs, and what a slot's instruction answers from what its work answers. -/
namespace Sys2Proof.Machine

variable {α β : Type}

@[simp] theorem ok_bind {ε : Type} (a : α) (f : α → Except ε β) : (Except.ok a >>= f) = f a := rfl

@[simp] theorem error_bind {ε : Type} (e : ε) (f : α → Except ε β) : (Except.error e >>= f) = Except.error e := rfl

@[simp] theorem pure_eq_ok {ε : Type} (a : α) : (pure a : Except ε α) = .ok a := rfl

@[simp] theorem run_trapS (c : Nat) (d : W64) (s : State) : (trapS c d : SlotM α).run s = .error (.trap c d 0xFFFF) := rfl

@[simp] theorem run_trapH (c : Nat) (d : W64) (h : Nat) (s : State) : (trapH c d h : SlotM α).run s = .error (.trap c d h) := rfl

@[simp] theorem run_stallS (s : State) : (stallS : SlotM α).run s = .error .stall := rfl

@[simp] theorem run_throw (e : Stop) (s : State) : (throw e : SlotM α).run s = .error e := rfl

@[simp] theorem run_cur (s : State) : (cur : SlotM Nat).run s = .ok (s.iss.core, s) := rfl

@[simp] theorem run_curSl (s : State) : (curSl : SlotM Slice).run s = .ok (s.me, s) := rfl

@[simp] theorem run_modSl (f : Slice → Slice) (s : State) : (modSl f : SlotM Unit).run s = .ok ((), s.onSl f) := rfl

@[simp] theorem run_pendW (lat : Nat) (w : Wr) (s : State) : (pendW lat w).run s = .ok ((), s.plan lat (some w)) := rfl

theorem run_pendCnt (lat ovf nan sat trn : Nat) (s : State) : (pendCnt lat ovf nan sat trn).run s =
    .ok ((), if ovf = 0 ∧ nan = 0 ∧ sat = 0 ∧ trn = 0 then s else s.plan lat (some (.count ovf nan sat trn))) := by
  unfold pendCnt; split <;> rfl

theorem run_wrS (r : Nat) (v : W64) (lat : Nat) (s : State) :
    (wrS r v lat).run s = (destS r v).run s >>= fun p => .ok ((), p.2.plan lat p.1) := by
  simp only [wrS, StateT.run_bind]
  rcases (destS r v).run s with e | ⟨w, t⟩
  · rfl
  · cases w <;> rfl

theorem gives_wrS {r : Nat} {v : W64} {lat : Nat} {s t : State} {w : Option Wr} (h : Gives (destS r v) s w t) :
    Gives (wrS r v lat) s () (t.plan lat w) := by
  unfold Gives at *; rw [run_wrS, h]; rfl

theorem run_iteS (p : Prop) [Decidable p] (a b : SlotM α) (s : State) :
    (if p then a else b).run s = if p then a.run s else b.run s := by split <;> rfl

theorem run_bind_of_gives {m : SlotM α} {f : α → SlotM β} {s t : State} {a : α} (h : Gives m s a t) :
    (m >>= f).run s = (f a).run t := by
  unfold Gives at h; simp [StateT.run_bind, h]

theorem run_bind_of_stops {m : SlotM α} {f : α → SlotM β} {s : State} {r : Stop} (h : Stops m s r) :
    (m >>= f).run s = .error r := by
  unfold Stops at h; simp [StateT.run_bind, h]

theorem gives_bind {m : SlotM α} {f : α → SlotM β} {s t : State} {b : β} :
    Gives (m >>= f) s b t ↔ ∃ a u, Gives m s a u ∧ Gives (f a) u b t := by
  unfold Gives; rw [StateT.run_bind]
  rcases m.run s with e | ⟨a, u⟩
  · simp
  · simp only [ok_bind, Except.ok.injEq, Prod.mk.injEq]
    exact ⟨fun h => ⟨a, u, ⟨rfl, rfl⟩, h⟩, fun ⟨_, _, ⟨rfl, rfl⟩, h⟩ => h⟩

/-! ### What a slot's instruction answers -/

theorem runSlot_of_gives {m : SlotM Unit} {s t : State} (h : Gives m s () t) : runSlot m s = .next t := by
  unfold Gives at h; simp [runSlot, h]

theorem runSlot_of_stall {m : SlotM Unit} {s : State} (h : Stops m s .stall) : runSlot m s = .next s.stallNext := by
  unfold Stops at h; simp [runSlot, h, State.stallNext]

theorem runSlot_of_walk {m : SlotM Unit} {s : State} {cl x va acc : Nat} (h : Stops m s (.walk cl x va acc)) :
    runSlot m s = .next (s.walkNext cl x va acc) := by
  unfold Stops at h; simp [runSlot, h, State.walkNext]

theorem runSlot_of_trap {m : SlotM Unit} {s : State} {code hnd : Nat} {d : W64} (h : Stops m s (.trap code d hnd)) :
    runSlot m s = .next (s.trapNext code d hnd) := by
  unfold Stops at h; simp [runSlot, h, State.trapNext]

/-- A slot's instruction always answers a next state. -/
theorem runSlot_next (m : SlotM Unit) (s : State) : ∃ t, runSlot m s = .next t := by
  unfold runSlot
  rcases m.run s with (_ | ⟨_, _, _, _⟩ | ⟨_, _, _⟩) | ⟨_, _⟩ <;> exact ⟨_, rfl⟩

end Sys2Proof.Machine
end

