-- ==== Sys2Proof/Laws/Ops.lean ====
section
/-! SUPPORT. Shared operations: what each one leaves and what it can answer. -/
namespace Sys2Proof.Machine

/-! ### Taking a trap (R390 to R392) -/

@[simp] theorem trapRec_mem (s : State) (ctx code func opoff tile hnd gen core slot flags bundle : Nat) (detail : W64) (tl num : Nat) :
    (s.trapRec ctx code func opoff tile hnd gen core slot flags bundle detail tl num).mem = s.mem := by simp [State.trapRec]

@[simp] theorem trapRec_cores (s : State) (ctx code func opoff tile hnd gen core slot flags bundle : Nat) (detail : W64) (tl num : Nat) :
    (s.trapRec ctx code func opoff tile hnd gen core slot flags bundle detail tl num).cores = s.cores := by simp [State.trapRec]

@[simp] theorem trapRec_iss (s : State) (ctx code func opoff tile hnd gen core slot flags bundle : Nat) (detail : W64) (tl num : Nat) :
    (s.trapRec ctx code func opoff tile hnd gen core slot flags bundle detail tl num).iss = s.iss := by simp [State.trapRec]

@[simp] theorem takeTrap_mem (s : State) (c slot code : Nat) (d : W64) (h : Nat) (b : W64) : (s.takeTrap c slot code d h b).mem = s.mem := by
  simp [State.takeTrap]

@[simp] theorem takeTrap_iss (s : State) (c slot code : Nat) (d : W64) (h : Nat) (b : W64) : (s.takeTrap c slot code d h b).iss = s.iss := by
  simp [State.takeTrap]

@[simp] theorem takeTrap_clusters (s : State) (c slot code : Nat) (d : W64) (h : Nat) (b : W64) :
    (s.takeTrap c slot code d h b).clusters = s.clusters := by simp [State.takeTrap, State.trapRec]

@[simp] theorem takeTrap_queues (s : State) (c slot code : Nat) (d : W64) (h : Nat) (b : W64) :
    (s.takeTrap c slot code d h b).queues = s.queues := by simp [State.takeTrap, State.trapRec]

theorem core_takeTrap_same (s : State) (c slot code : Nat) (d : W64) (h : Nat) (b : W64) :
    (s.takeTrap c slot code d h b).core c = { s.core c with stop := .held } := by
  rw [State.takeTrap, core_updCore_same]
  simp [State.core]

theorem core_takeTrap_other (s : State) {c j : Nat} (slot code : Nat) (d : W64) (h : Nat) (b : W64) (hj : j ≠ c) :
    (s.takeTrap c slot code d h b).core j = s.core j := by
  rw [State.takeTrap, core_updCore_other _ _ hj]
  simp [State.core]

theorem engTrap_mem (s : State) (ctx core slot code : Nat) (w : List W64) (h : Option Nat) (b d : W64) (tl num : Nat) :
    (s.engTrap ctx core slot code w h b d tl num).mem = s.mem := by simp [State.engTrap]

/-! ### Handles and timelines -/

theorem credit_mem (s : State) (cl ctx : Nat) (h : Option Nat) (n : Nat) : (s.credit cl ctx h n).mem = s.mem := by
  unfold State.credit
  split
  · rfl
  · dsimp only
    split <;> rfl

/-- A timeline's value in the context's save area (R396): memory stays canonical. -/
theorem memOk_saveTl {s : State} (cl ctx k v : Nat) (h : s.MemOk) : (s.saveTl cl ctx k v).MemOk := by
  unfold State.saveTl
  split
  · split
    · exact memOk_wrN _ _ _ h
    · exact h
  · exact h

/-- The end of an operation of a timeline of the cluster or the context writes its value to memory, which stays canonical. -/
theorem memOk_endTl {s : State} (sid cl ctx k n : Nat) (h : s.MemOk) : (s.endTl sid cl ctx k n).MemOk := by
  unfold State.endTl
  split
  · exact memOk_congr h rfl
  · split
    · exact memOk_saveTl _ _ _ _ (memOk_congr h (by simp))
    · exact memOk_saveTl _ _ _ _ (memOk_congr h (by simp))

/-! ### Operands: memory stays -/

theorem popQ_mem (s : State) (c q : Nat) (r : List QItem) (v : W64) : (s.popQ c q r v).mem = s.mem := by simp [State.popQ]

/-- Reading a register answers its value and changes nothing, but for a queue port. -/
theorem gives_rdS {r : Nat} (s : State) (h : r < 56) : Gives (rdS r) s (s.me.sget r) s := by
  unfold Gives rdS; rw [if_pos h]; rfl

/-- Naming a register as a destination changes nothing, but for a queue port. -/
theorem gives_destS {r : Nat} (v : W64) (s : State) (h : r < 56) : Gives (destS r v) s (if r = 0 then none else some (.sreg r v)) s := by
  unfold Gives destS; split <;> first | rfl | (rw [if_pos h]; rfl)

/-- What work that only answers answers. -/
theorem answer {α : Type} {s t : State} {v w : α} (h : (pure v : SlotM α).run s = .ok (w, t)) : w = v ∧ t = s := by
  simp only [StateT.run_pure, pure_eq_ok, Except.ok.injEq, Prod.mk.injEq] at h
  exact ⟨h.1.symm, h.2.symm⟩

/-- The end of work that only checks: it answers and changes nothing. -/
theorem run_unless {p : Prop} [Decidable p] {m : SlotM Unit} {s t : State} {v : Unit} (hm : ∀ v t, m.run s ≠ .ok (v, t))
    (h : (if p then m else pure ()).run s = .ok (v, t)) : ¬p ∧ t = s := by
  split at h
  · exact absurd h (hm _ _)
  · rename_i hp
    simp only [StateT.run_pure, pure_eq_ok, Except.ok.injEq, Prod.mk.injEq] at h
    exact ⟨hp, h.2.symm⟩

/-- The checks of a span change nothing. -/
theorem checkSpan_state {sp : Nat} {lo hi : Int} {d : W64} {s t : State} {v : Unit} (h : Gives (checkSpan sp lo hi d) s v t) : t = s := by
  unfold Gives checkSpan at h
  simp only [StateT.run_bind, StateT.run_get, ok_bind, pure_eq_ok, run_iteS] at h
  repeat' (split at h)
  all_goals first | exact (answer h).2 | simp at h

/-- The checks of an access change nothing. -/
theorem checkRange_state {sp a n el : Nat} {s t : State} {v : Unit} (h : Gives (checkRange sp a n el) s v t) : t = s := checkSpan_state h

/-- Where an access of each space goes. -/
theorem run_flatS (sp a acc : Nat) (s : State) : (flatS sp a acc).run s = match sp with
    | 0 => .ok (padKey s.iss.core a, s)
    | 1 => .ok (padKey (16 * clOf s.iss.core) a, s)
    | 2 => .ok (chipKey a, s)
    | _ => (xlateS a acc).run s := by
  rcases sp with _ | _ | _ | sp <;> rfl

/-- A translation is read off the state. -/
theorem xlateS_state {a acc k : Nat} {s t : State} (h : Gives (xlateS a acc) s k t) : t = s := by
  unfold Gives xlateS at h
  simp only [StateT.run_bind, StateT.run_get, ok_bind, pure_eq_ok] at h
  split at h
  · exact (answer h).2
  · split at h
    · cases h
    · split at h <;> cases h

/-- A flat address is read off the state. -/
theorem flatS_state {sp a acc k : Nat} {s t : State} (h : Gives (flatS sp a acc) s k t) : t = s := by
  unfold Gives at h
  rw [run_flatS] at h
  split at h
  · rw [Except.ok.injEq, Prod.mk.injEq] at h; exact h.2.symm
  · rw [Except.ok.injEq, Prod.mk.injEq] at h; exact h.2.symm
  · rw [Except.ok.injEq, Prod.mk.injEq] at h; exact h.2.symm
  · exact xlateS_state h

/-- A chip-scratchpad access may freeze its core, and changes nothing else. -/
theorem touchChip_state {sp a n : Nat} {s t : State} {v : Unit} (h : Gives (touchChip sp a n) s v t) :
    t = s ∨ t = s.updCore s.iss.core fun k => { k with frzUntil := s.phaseEnd } := by
  unfold Gives touchChip at h
  simp only [StateT.run_bind, StateT.run_get, ok_bind, pure_eq_ok] at h
  split at h
  · cases h; exact .inr rfl
  · cases h; exact .inl rfl

/-- An access that passes its checks changes nothing but its core's freeze. -/
theorem addrS_state {sp n acc k : Nat} {a : W64} {s t : State} (h : Gives (addrS sp a n acc) s k t) :
    t = s ∨ t = s.updCore s.iss.core fun k => { k with frzUntil := s.phaseEnd } := by
  unfold addrS at h
  obtain ⟨_, u, h1, h2⟩ := gives_bind.1 h
  obtain rfl := checkRange_state h1
  unfold Gives at h2
  simp only [run_iteS] at h2
  split at h2
  · simp at h2
  · obtain ⟨_, v, h3, h4⟩ := gives_bind.1 h2
    obtain rfl := flatS_state h3
    obtain ⟨_, w, h5, h6⟩ := gives_bind.1 h4
    rw [(answer h6).2]
    exact touchChip_state h5

end Sys2Proof.Machine
end

