-- ==== Sys2Proof/Tests/Slice0.lean ====
section
/-! SUPPORT. Tests of the model, each expected value from the spec, and witnesses that the hypotheses of the statements can be met. -/
set_option Elab.async false
namespace Sys2Proof.Tests
open Machine Claims

/-! ### Sample states. A witness shows, with concrete states and operands, that the hypotheses of its statement can be met together, clause by
clause; `ok m s p` says that the slot's work m gives some v and t at s and that p holds of them. -/

def ok {α : Type} (m : SlotM α) (s : State) (p : α → State → Bool) : Bool :=
  match m.run s with
  | .ok r => p r.1 r.2
  | .error _ => false

theorem ok_gives {α : Type} (m : SlotM α) (s : State) (p : α → State → Bool) (h : ok m s p = true) :
    ∃ v t, Gives m s v t ∧ p v t = true := by
  unfold ok at h
  split at h
  · exact ⟨_, _, ‹_›, h⟩
  · cases h

def yes {α : Type} : α → State → Bool := fun _ _ => true

/-- Context 0: it owns the chip scratchpad and has room for four slice records; its page table stands at 0x200000. -/
def cx : Ctx := { ctxOfDesc 0x100000 (fun k => if k = 0 then 0x200000 else if k = 3 then 4 else if k = 4 then 2 ^ 60 else 0) with state := 1 }

/-- A slice of core 0 about to issue slot 0 of the bundle at 0; s1 to s6 hold 5, 3, 64, −7, 1.5 as FP32 and 2^52. Virtual addresses below 2^34
are physical ones, with every permission. -/
def s0 : State :=
  let s := ((State.reset.withFetchWord 32 0x300).wrN 0x200000 8 0x201001).wrN 0x201000 8 0x3F
  { s.updSl 0 (fun x => { x with sreg := [(1, 5), (2, 3), (3, 64), (4, w64 (-7)), (5, 0x3FC00000), (6, 0x10000000000000)] }) with
    ctxs := [(0, cx)], res := [(0, 0)], iss := { Iss.idle with npc := 4 }, chipS := 1 }

/-- An instance whose only stage has ports in, out, by hand in and by hand out, all active, and an open walk of one item on core 0. -/
def stg : Stage := { rec0 := 0, rec1 := 2, qs := [(0, 0, 1), (1, 1, 1), (2, 2, 1), (3, 3, 1)], first := false, cls := 0, minc := 1, maxc := 1,
                     budget := 100, period := 0, st := 0, started := true, walks := [9] }
def inst : Inst := { launch := 3, idx := 0, ctx := 0, obj := 1, cluster := 0, cores := [0], chip := 0, walk := 8, colls := [], kids := [],
                     stages := [stg], ewalks := [], pipe := 1, started := true, done := false, killed := false }
def que (k : Nat) (its : List QItem) (room : Nat) : Queue :=
  { ctx := 0, vq := k, inst := 5, cluster := 0, depth := 2, isize := 8, kind := 0, infl := 0, head := 0, tail := 0, closed := false, items := its,
    fly := [], room := room, phys := false, image := 0, wdt := 0, wstep := 0 }
def q0 : State :=
  let s := s0.updCore 0 fun k => { k with run := some ⟨0, 0, 5, 0, 0, 0, 0⟩, sl := { k.sl with walk := some ⟨9, [(0, 1)], [(1, 1)], false⟩ } }
  { s with insts := [(5, inst)], queues := [(0, que 0 [⟨11, 9, 0⟩] 0), (1, que 1 [] 0), (2, que 2 [⟨12, 0, 0⟩] 0), (3, que 3 [] 0)] }
def q1 : State := { q0 with queues := [(2, que 2 [] 0), (3, que 3 [⟨1, 0, 0⟩] 1)] }

def sa (fn : BitVec 4) (a b d : BitVec 6) : SA := ⟨fn, .reg 0 0 b, a, d⟩

theorem wit_ScalarOperandForms : let k := fun (s : State) => (s.me.walk).isSome
    (ok (rdS 1) s0 yes ∧ ok (rdS 55) s0 yes ∧ ok (destS 55 9) s0 yes) = true ∧
    ({ s0 with iss := { s0.iss with pops := [(2, 4)] } } : State).iss.pops.find 2 = some 4 ∧
    (q0.iss.pops.find 2 = none ∧ q0.portOf 0 2 = some (2, 2, 1) ∧ k q0 = true ∧ q0.queues.find 2 = some (que 2 [⟨12, 0, 0⟩] 0) ∧
      takeItem 0 [⟨12, 0, 0⟩] = some (12, [])) ∧
    (q1.portOf 0 2 = some (2, 2, 1) ∧ k q1 = true ∧ q1.queues.find 2 = some (que 2 [] 0) ∧ takeItem 0 [] = none) ∧
    (q0.portOf 0 3 = some (3, 3, 1) ∧ q0.queues.find 3 = some (que 3 [] 0) ∧ (que 3 [] 0).full = false) ∧
    (q1.portOf 0 3 = some (3, 3, 1) ∧ q1.queues.find 3 = some (que 3 [⟨1, 0, 0⟩] 1) ∧ (que 3 [⟨1, 0, 0⟩] 1).full = true) ∧
    (s0.iss.pops.find 0 = none ∧ s0.portOf 0 0 = none) := by decide +kernel

/-- A register and an immediate source, the second with a queue port among the reads and a push reserved. -/
theorem wit_IntegerResults :
    ok (rdS 1) s0 (fun _ u => ok (src2 (sa 0 1 2 7)) u fun _ v => ok (destS 7 1) v yes) = true ∧
    ok (rdS 58) q0 (fun _ u => ok (src2 ⟨2, .imm none 4, 58, 59⟩) u fun _ v => ok (destS 59 1) v yes) = true := by decide +kernel

theorem wit_DivideResults : let free := { s0.core 0 with divFree := 20 }
    (s0.setCore 0 { s0.core 0 with divFree := 1 }).core 0 = { s0.core 0 with divFree := 1 } ∧ (s0.core 0).ncyc < 1 ∧
    (s0.core 0).divFree ≤ (s0.core 0).ncyc ∧
    ok (rdS 1) (s0.setCore 0 free) (fun _ u => ok (src2 (sa 0 1 0 7)) u fun b _ => b == 0) = true ∧
    ok (rdS 1) (s0.setCore 0 free) (fun _ u => ok (src2 (sa 1 1 4 7)) u fun b v => b != 0 && ok (destS 7 1) v yes) = true := by
  decide +kernel

theorem wit_CountFieldAndCompareResults :
    ok (rdS 4) s0 (fun _ u => ok (bitField ⟨1, .imm none 0x104, 4, 7⟩) u (fun p v => p == (4, 4) && ok (rdS 7) v yes) &&
      ok (bitField ⟨0, .reg 0 2 1, 4, 7⟩) u (fun _ v => ok (rdS 2) v yes) && ok (src2 (sa 10 4 1 3)) u yes) = true ∧
    clzFn 0 1 = 63 ∧ (4 : Nat) + 60 ≤ 64 := by decide +kernel

theorem wit_ScalarFloatResults : let f : SA := ⟨2, .reg 0 5 5, 5, 7⟩
    (f.fn ≠ 3 ∧ f.fn.toNat < 6) ∧
    ok (rdF 0 5) s0 (fun _ u => ok (rdF 0 5) u fun _ v => ok (rdF 0 5) v fun _ w => ok (destS 7 1) w yes) = true ∧
    (s0.core 0).divFree ≤ (s0.core 0).ncyc ∧ ok (rdF 0 5) (s0.setCore 0 { s0.core 0 with divFree := 12 }) (fun _ u => ok (rdF 0 5) u yes) = true ∧
    (s0.core 0).ncyc < ({ s0.core 0 with divFree := 1 } : Core).divFree := by decide +kernel

def tlb4 : TlbEnt := ⟨0, 0, 12, 0, 15, 0, true⟩
/-- s0 with the page at 0 readable and writable, and with core 1 fenced. -/
def sg : State := (s0.updCl 0 fun k => { k with tlb := tlb4 :: k.tlb }).updCore 1 fun k => { k with fenced := true }

theorem wit_ScalarAddressChecks : let n := accBytes 3
    n = 8 ∧ 2 ^ 21 - 8 + n ≤ 2 ^ 21 ∧ 2 ^ 21 < 2 ^ 21 - 7 + n ∧ (2 ^ 21 - 7) % n ≠ 0 ∧
    (sg.core (16 * clOf 0 + 2 ^ 21 / 2 ^ 21)).fenced = true ∧ (sg.core (16 * clOf 0 + (2 ^ 25 - 8) / 2 ^ 21)).fenced = false ∧
    (sg.ctx? (sg.ctxOf 0)).map (·.cso) = some true ∧ sg.ctx? 7 = none ∧ 2 ^ 23 - 8 + n ≤ 2 ^ 23 * sg.chipS ∧ 2 ^ 23 * sg.chipS < 2 ^ 23 - 7 + n ∧
    sg.phaseEnd ≤ sg.ccyc ∧
    (sg.cluster 0).tlb.find? (fun e => e.serves 0 8 0) = some tlb4 ∧ (sg.cluster 0).tlb.find? (fun e => e.serves 0 4096 0) = none ∧
    (sg.walk cx.root 4096 0).toOption = some (0x201000, 1, 0x3F) ∧ (sg.walk cx.root (2 ^ 34) 0).toOption = none ∧ (sg.walk cx.root (2 ^ 52 - 8) 0).toOption = none := by
  decide +kernel

def sm (sp w : BitVec 2) (a d : BitVec 6) : SM := ⟨none, 8, 0, false, w, sp, 0, a, d⟩
/-- s0 with 32 landing-buffer entries of scalar loads held. -/
def full : State := s0.onSl fun x => { x with lands := List.replicate 32 ⟨20, 0, false, 8, 0, true, false, 0, [], 0, .sreg 7 0⟩ }

theorem wit_LoadStoreAndAtomicEffects : let q := fun (w : BitVec 2) (op : BitVec 4) => (⟨8, 0, op, w, 0, 2, 3, 7⟩ : SQ)
    (s0.held false < 32 ∧ 32 ≤ full.held false) ∧
    ([s0, full].all fun s => ok (smAddress (sm 0 3 3 7)) s fun a u => ok (addrS 0 a 8 0) u fun _ v => ok (destS 7 0) v yes) = true ∧
    ok (smAddress (sm 3 2 3 1)) s0 (fun a u => ok (rdS 1) u fun _ y => ok (addrS 0 a 4 1) y yes) = true ∧
    ok (smAddress (sm 0 3 3 7)) s0 (fun a u => ok (addrS 0 a 8 3) u fun k v => ok (kread k) v fun _ x => ok (destS 7 0) x yes) = true ∧
    ([(q 3 0, false), (q 2 9, true)].all fun p => ok (rdS p.1.a.toNat) s0 fun a u => ok (rdS 2) u fun _ v =>
      if p.2 then ok (rdS 7) v fun _ x => ok (addrS 0 a 4 4) x fun _ y => ok (destS 7 0) y yes
      else ok (addrS 0 a 8 4) v fun _ y => ok (destS 7 0) y yes) = true := by decide +kernel

def sy (fn : BitVec 4) (imm : BitVec 16) (a d : BitVec 6) : SY := ⟨none, fn, imm, 0, a, d⟩
/-- s0 with handle 64 FULL at GEN 2, timeline 3 at 4, a load that has not arrived, and core 0's lock table full to 127 lines. -/
def sf : State := ((s0.updCl 0 fun k => { k with hnd := [(64, { HEnt.free with st := 2, gen := 2 })] }).updCore 0 fun k =>
  { k with locks := List.range 127, sl := { k.sl with tl3 := ⟨5, 4, [], []⟩, lands := [⟨20, 0, false, 8, 0, false, false, 0, [], 0, .sreg 7 0⟩] } })

theorem wit_FencesWaitsAndLocks :
    (sf.me.lands.filter fun l => !l.here).length = 1 ∧ bitsN (0xFFF0 : BitVec 16).toNat 0 4 = 0 ∧ bitsN (0xFFFF : BitVec 16).toNat 0 4 = 15 ∧
    sf.tlVal 0 3 = 4 ∧
    ok (syBase (sy 3 0 0 0)) sf (fun n u => decide (n.toNat ≤ u.tlVal 0 3)) = true ∧ ok (syBase (sy 3 5 0 0)) sf (fun n u => decide (u.tlVal 0 3 < n.toNat)) = true ∧
    ok (syBase (sy 0 0 3 0)) sf (fun n u => decide (n.toNat < 4096) && (u.handle 0 0 n.toNat).st == 2) = true ∧
    ok (syBase (sy 1 7 0 0)) sf (fun n u => decide (n.toNat < 4096) && (u.handle 0 0 n.toNat).st == 0) = true ∧
    ok (syBase (sy 1 4095 1 0)) sf (fun n _ => decide (4096 ≤ n.toNat)) = true ∧
    ok (syBase (sy 2 0 3 2)) sf (fun _ u => ok (rdS 2) u fun g v => (v.handle 0 0 64).gen != g.toNat % 65536) = true ∧
    ok (syBase (sy 2 2 0 0)) sf (fun n u => ok (rdS 0) u fun g v => (v.handle 0 0 n.toNat).st != 2 && (v.handle 0 0 n.toNat).gen == g.toNat) = true ∧
    ok (rdS 0) (s0.updCl 0 fun k => { k with hnd := [(64, { HEnt.free with st := 2 })] }) (fun g v => (v.handle 0 0 64).gen == g.toNat % 65536) = true ∧
    ok (rdS 3) sf (fun a u => a.toNat / 128 * 128 + 128 * 2 ≤ 2 ^ 52 && ([0, 1].all fun l => (u.cluster 0).tlb.any fun e => e.serves 0 (128 * l) 2)) = true ∧
    (sf.core 0).locks.length + 1 ≤ 128 ∧ 128 < (sf.core 0).locks.length + 2 := by decide +kernel

/-- s0 with BRB 0x3000 · 16 + 0x302 (base 2, four names, rotation 3) and barrier 3 of context 0 as b. -/
def bar (b : Bar) : State := (s0.onSl fun x => { x with brb := 0x3302 }).updCl 0 fun k => { k with bars := [(5, b)] }

theorem wit_BarrierEffects : let id := fun (s : State) (rel : Nat) => let x := s.me.brb.toNat
      (bitsN x 0 6 + (bitsN x 12 3 + rel) % (bitsN x 8 3 + 1)) % 64
    id (bar .idle) 0 = 5 ∧ (bitsN 0x3302 8 3 + 1 ≤ 4 ∧ 3 < bitsN 0x3302 8 3 + 1) ∧
    (∀ b ∈ [(⟨0, 0, 0, 0⟩ : Bar), ⟨2, 1, 0, 0⟩, ⟨2, 2, 1, 0⟩, ⟨2, 2, 3, 1⟩, ⟨2, 1, 1, 0⟩, ⟨0, 2, 0, 0⟩, ⟨3, 0, 0, 0⟩],
      AMap.get Bar.idle ((bar b).cluster (clOf 0)).bars ((bar b).ctxOf 0 * 64 + 5) = b) := by decide +kernel

/-- s0 with its pc in a loop body of level 1 that ends with its bundle. -/
def lps : State := s0.onSl fun x => { x with loops := [(1, ⟨true, 3, 0, 0, 4, false, 1, false⟩)] }

theorem wit_TransfersOfControl : let o := placeObj 1
    (s0.codeObj 0 = some o ∧ o.target 4092 = true ∧ o.target 4094 = false ∧ o.target 64 = true ∧ o.target 5 = false ∧ o.target (w64 (-8)) = false) ∧
    ok (rdS 0) s0 (fun x _ => x == 0) = true ∧ ok (rdS 1) s0 (fun x _ => x != 0 && decide (0 < x.toInt)) = true ∧
    ok (rdS 4) s0 (fun x _ => decide (x.toInt < 0)) = true ∧
    endLevel s0.me s0.iss.npc = none ∧ endLevel lps.me lps.iss.npc = some 1 ∧
    ok (destS 7 (o.seqNext s0.iss.npc)) (s0.jumped 2 64) yes = true ∧
    (4094 - o.textVA) % 4096 = 4094 ∧ (4096 - o.textVA) % 4096 ≠ 4094 ∧ s0.me.walk = none ∧ q0.me.walk ≠ none := by decide +kernel

theorem wit_PreciseTrapEffects : s0.ctxs.find (s0.ctxOf s0.iss.core) = some cx := by decide +kernel

/-- The words of registers that a write changes or keeps; the window of `PHASE` during and after a transition, and units that hold a live region. -/
theorem wit_SystemRegistersAndPhases : let c := fun (v : W64) (reg : Nat) => (v ^^^ s0.sysReg 0 reg) &&& ~~~rwMask reg
    ([(5, 0x13), (6, 0x13), (0x1000, 0x09), (0x13F, 0x09), (0x303, 0x09), (5, 0x08), (1, 0x12)].all fun x => c x.1 x.2 == 0) = true ∧ c 5 0x00 ≠ 0 ∧
    (brbOk 0x13F, brbOk 0x303) = (false, true) ∧ ok (rdS 1) s0 yes = true ∧
    ({ s0 with phaseEnd := 1 } : State).phaseEnd = s0.ccyc + 1 ∧ s0.phaseEnd ≤ s0.ccyc ∧ ([24, 0, 1].all fun v => s0.liveUnit v s0.chipS == none) = true ∧
    ({ s0 with cgran := [(2047, 1)] } : State).liveUnit 0 s0.chipS = some 0 := by decide +kernel

theorem wit_ChipUser : s0.chipUser ∧ ¬ ({ s0 with ctxs := [] } : State).chipUser := by
  constructor
  · exact ⟨cx, by decide +kernel⟩
  · rintro ⟨x, hx, -⟩
    cases hx

def al (lv : BitVec 2) (rot : Bool) (r : BitVec 6) : AL := ⟨lv, rot, 2, 1, .reg r⟩
theorem wit_LoopSetUp : let rot := s0.onSl fun x => { x with loops := [(2, ⟨true, 3, 0, 0, 40, true, 1, false⟩)] }
    ok (alCount (al 1 true 1)) s0 (fun v _ => decide (0 < v) && decide (v ≤ 2 ^ 31 - 1)) = true ∧ ok (alCount (al 1 false 4)) s0 (fun v _ => decide (v ≤ 0)) = true ∧
    ok (alCount (al 1 false 6)) s0 (fun v _ => decide (2 ^ 31 - 1 < v)) = true ∧ s0.codeObj 0 = some (placeObj 1) ∧
    ((∀ k, k < 4 → (s0.me.lv k).act = false) ∧ (rot.me.lv 2).act = true ∧ (rot.me.lv 2).rot = true) ∧
    ((lps.me.lv 1).act = true ∧ (lps.me.lv 1).start ≤ lps.iss.pc.toNat ∧ lps.iss.pc.toNat < (lps.me.lv 1).stop ∧ (lps.me.lv 2).act = false ∧
      ¬ ((lps.me.lv 1).start ≤ ((placeObj 1).seqNext 4).toNat ∧ (lps.pastBundles (placeObj 1) 2 ((placeObj 1).seqNext 4)).toNat ≤ (lps.me.lv 1).stop)) := by
  decide +kernel

def as_ (fn : BitVec 4) (a : BitVec 6) : AS := ⟨none, fn, 3, 1, 0, 0, a⟩
/-- s0 with a stream record of space 0 in the core's scratchpad at 64, and stream 3 of that record. -/
def sst : State := (s0.wrN (padKey 0 64) 8 0x1000).onSl fun x => { x with strms := [(3, { Strm.zero with base := 0x1000, str1 := 8 })], loops := [(1, ⟨true, 3, 1, 0, 4, false, 1, false⟩)] }
theorem wit_StreamsAndBases :
    ok (asVal (as_ 0 3)) sst (fun v _ => decide (v.toNat / 16 * 16 + 48 ≤ 2 ^ 21)) = true ∧ ok (asVal (as_ 1 6)) sst (fun v _ => decide (2 ^ 21 < v.toNat / 16 * 16 + 48)) = true ∧
    (2 ^ 21 - 48) / 16 * 16 + 48 ≤ 2 ^ 21 ∧ (strmOf ((List.range 6).map fun i => sst.rdN (padKey 0 64 + 8 * i) 8)).isSome = true ∧
    strmOf ((List.range 6).map fun i => (sst.wrN (padKey 0 64) 8 (2 ^ 63)).rdN (padKey 0 64 + 8 * i) 8) = none ∧
    (AMap.get Strm.zero sst.me.strms 3).sp.toNat = 0 ∧ (AMap.get Strm.zero sst.me.strms 3).sp.toNat ≠ 1 ∧
    (let ok := fun (v : Nat) => decide (v = bitsN v 0 6 + bitsN v 8 3 * 256 ∧ bitsN v 0 6 + bitsN v 8 3 + 1 ≤ 64); ok 0x738 = true ∧ ok 0x739 = false) := by
  decide +kernel

theorem wit_ResultsBecomeVisible : let s := fun (w : Wr) => s0.onSl fun x => { x with tick := 3, pend := [⟨5, 0, .sreg 9 1⟩, ⟨3, 16, w⟩] }
    s0.me.dueWr = none ∧
    (∀ w ∈ [Wr.sreg 1 7, .sreg 55 7, .pred 1 true, .pred 15 true, .vreg 0 1 1, .vmask 7 1], ((s w).sl 0).dueWr = some ⟨3, 16, w⟩) := by
  decide +kernel

/-- s0 issuing slot 1 with v1 holding k in element k of its first row, and m1 enabling elements 0 and 1023. -/
def sv : State :=
  { s0.onSl (fun x => { x with vreg := [(1, BitVec.ofNat 32768 (packV (List.range 64)))], vmask := [(1, 1 + 2 ^ 1023)] }) with
    iss := { s0.iss with slot := 1 } }
def vr (fn : BitVec 5) (ty : BitVec 3) : VR := ⟨fn, ty, 1, 0, 0, 3, 2, 1, 4⟩
def vi (fn : BitVec 5) (ty : BitVec 3) (r : BitVec 6) : VI := ⟨fn, ty, 0, .reg r, 1, 4⟩

theorem wit_VectorUnitsAndResults :
    sv.iss.units.contains 0 = false ∧ (sv.core 0).ncyc < ({ sv.core 0 with vu0Free := 1 } : Core).vu0Free ∧ (sv.core 0).vu0Free ≤ (sv.core 0).ncyc ∧
    ({ sv with iss := { sv.iss with units := [0] } } : State).iss.units.contains 0 = true ∧
    (vidx.map fun k (_ : Nat) => (k, 0)).length = 1024 ∧ (∀ k ∈ vidx, k < 2 ^ 32) ∧ ([0, 1024].all fun base => base ≤ base + 1023) = true := by decide +kernel

/-- Both vector units and both kinds of element type. -/
theorem wit_VectorArithmetic : (∀ ty ∈ [0, 3, 4], tyF ty = true) ∧ (∀ ty ∈ [1, 2], tyF ty = false) ∧ ok (useVU 4 6) sv (fun u _ => u == 0) = true ∧
    ok (useVU 4 6) { sv with iss := { sv.iss with slot := 2 } } (fun u _ => u == 1) = true := by decide +kernel

theorem wit_VectorChoiceLogicShift : tyF 0 = true ∧ tyF 1 = false ∧
    ([4, 1, 3].all fun r => ok (viVal (vi 1 1 r)) sv fun _ x => ok (useVU 4 6) x yes) = true ∧ ok (viVal (vi 1 1 0)) sv (fun v _ => v == 0) = true ∧
    (tyRange 1 = (-2 ^ 31, 2 ^ 31 - 1)) ∧ Num.isNan .nan = true ∧ (Num.int 1).isNan = false ∧ (Num.int 1).lt (.int 2) = true ∧ (Num.int 2).lt (.int 1) = false := by
  decide +kernel

theorem wit_VectorCompareSelectMask : ok (useVU 4 6) sv yes = true ∧ ok (useVU 1 2) sv yes = true ∧ (sv.me.mget 1).getLsbD 1023 = true ∧
    (sv.me.mget 1).getLsbD 1 = false := by decide +kernel

theorem wit_VectorConversionAndProducts : ok (useVU 4 6) sv yes = true ∧ ok (useVU 8 12) sv yes = true := by decide +kernel

theorem wit_VectorIndexAndElementMoves :
    ok (viVal (vi 0 3 4)) sv (fun _ x => ok (useVU 4 6) x yes) = true ∧ ok (viVal (vi 2 0 0)) sv (fun _ x => ok (useVU 4 6) x yes) = true ∧
    ok (viVal (vi 1 1 1)) sv (fun _ x => ok (useVU 1 4) x fun _ w => (w.me.vget 1).elem 5 == 5 && ok (destS 36 5) w yes) = true := by decide +kernel

theorem wit_VectorAxisMoves : ok (viVal (vi 1 1 4)) sv (fun _ x => ok (useVU 2 3) x fun _ w => ok (useVU 2 2) w yes) = true ∧
    ok (viVal (vi 0 1 3)) sv (fun _ x => ok (useVU 2 2) x yes) = true ∧ ok (useVU 4 6) sv yes = true := by decide +kernel

theorem wit_VectorReduceScanExchange : ok (useVU 4 7) sv yes = true ∧ ok (useVU 4 5) sv yes = true ∧ ok (useVU 8 16) sv yes = true ∧ ok (useVU 4 6) sv yes = true ∧
    ([1, 2, 3, 4] : List Int).length = 2 ^ 2 := by decide +kernel

/-- All rows at the fixed pitch, at a register's pitch and one row; the last row that fits and the first that does not; alignment. -/
def vm (fn : BitVec 2) (fmt : BitVec 4) (a : BitVec 6) : VM := ⟨8, fmt, 0, 0, 0, false, 0, fn, a, 1⟩
theorem wit_VectorLoadStore : let rows := fun (base p : Nat) => (List.range 16).map fun r => base + r * p
    ok (vmAddress (vm 0 0 3)) sv (fun b u => b == 64 && ok (useVU 4 8) u fun _ w => ok (vmRows (vm 0 0 3) 0) w fun p t => p.2.length == 16 && decide (t.held true < 8)) = true ∧
    ok (vmAddress (vm 1 7 2)) (sv.onSl fun x => { x with sreg := [(2, 64), (3, 128)] })
      (fun b u => ok (rdS 3) u fun p v => b == 64 && p == 128 && ok (vmRows (vm 1 7 2) 1) v yes) = true ∧
    ok (vmAddress (vm 2 13 3)) sv (fun _ u => ok (vmRows (vm 2 13 3) 0) u fun p _ => p.2.length == 1) = true ∧
    (∀ a ∈ rows (2 ^ 21 - 4096) 256, a + rowBytes 0 ≤ 2 ^ 21) ∧ (rows (2 ^ 21 - 4032) 256).find? (fun a => 2 ^ 21 < a + rowBytes 0) = some (2 ^ 21 - 192) ∧
    (2 ^ 21 - 4095) % 64 ≠ 0 ∧
    ok (useVU 4 4) sv (fun _ w => ok (vmRows (vm 0 0 3) 1) w fun p _ =>
      decide ((p.2.map (·.map (·.2))).all fun r => r.sum == rowBytes 0) && (p.2.map fun r => r.map (·.1)) == (List.range 16).map fun r => (List.range 4).map fun j => padKey 0 (64 + 256 * r + 64 * j)) = true := by
  decide +kernel

def vg (sp : BitVec 2) (fmt : BitVec 4) (a : BitVec 6) : VG := ⟨8, fmt, sp, 1, a, 1, 2⟩
theorem wit_GatherScatterEffects :
    ok (useVU 4 8) sv (fun _ w => ok (vgAddrs (vg 0 0 3)) w fun l t => l == [(0, 64), (1023, 64)] && ok (rdS 3) t fun _ u => decide (u.held true < 8)) = true ∧
    ok (useVU 4 4) sv (fun _ w => ok (vgAddrs (vg 2 0 3)) w fun l _ => l.length == 2) = true ∧
    (∀ r ∈ [(0, 64), (1023, 64)], 1023 < r.1 → r.2 + 4 ≤ 64 ∨ 64 + 4 ≤ r.2) := by decide +kernel

/-! ### Matrix and copies -/

def mx0 (fn : BitVec 4) (mode : BitVec 2) (a b c : BitVec 6) : MX := ⟨mode, 0, fn, 0, 3, c, b, a⟩
/-- s0 issuing slot 3 with a bank swapped in, a group open at slot 0, and the operands of the matrix instructions in s10 to s20. -/
def sx : State :=
  { s0.onSl (fun x => { x with
      sreg := [(10, 64), (11, 64 + 128 * 65536), (12, 128), (13, 512), (14, 65), (15, 64 * 65536), (16, 0), (17, 64 + 128 * 65536 + 0xFFFF * 2 ^ 32), (18, 1024), (19, 63)]
      strms := [(3, { Strm.zero with base := 0x1000 })]
      mx := { x.mx with vAct := 0, vCls0 := 0 } }) with iss := { s0.iss with slot := 3 } }
def mop (path : Nat) (w : MWork) : MOp := { id := path + 1, path := path, num := 0, iss := 0, start := none, last := 0, done := 0, orec := [], lop := 0, bundle := 0, work := w }
def busy (path : Nat) (n : Nat) : State := sx.onSl fun x => { x with mx := { x.mx with ops := List.replicate n (mop path .swap) } }

theorem wit_MatrixLoadSwapFeed :
    (∀ p ∈ [0, 1, 2], (busy p 64).me.mx.pathFull p = true ∧ sx.me.mx.pathFull p = false) ∧
    ok (ldwSrc (mx0 0 0 16 11 13)) sx yes = true ∧
    ok (rdS 10) sx (fun a u => ok (rdS 15) u fun b v => ok (rdS 12) v fun p w => ok (feedStream 3) w fun sc x =>
      decide (a.toNat ≤ 64) && decide (b.toNat < 2 ^ 32) && decide (bitsN b.toNat 0 16 + bitsN b.toNat 16 16 ≤ matKA 0) &&
      ok (feedRows sc.1 sc.2 p (max a.toNat 1) (feedW 0) (bitsN b.toNat 16 16 * feedW 0) 3) x fun _ y => y.me.mx.vCls false == feedCls 0 && decide (y.me.mx.vLog false < 32)) = true := by
  decide +kernel

def out (r : Except Stop Unit) : Nat := match r with
  | .ok _ => 0
  | .error .stall => 1
  | .error (.walk _ _ _ _) => 2
  | .error (.trap _ _ _) => 3
/-- sx with cores 1 to 3 in context 0's slices too. -/
def gang : State := (([1, 2, 3] : List Nat).foldl (fun s c => s.updCore c fun k =>
  { k with run := some Run.zero, sl := { k.sl with mx := { k.sl.mx with vAct := 0 } } }) sx).onSl fun x => { x with sreg := [(10, 256), (13, 384), (14, 64 + 128 * 2 ^ 32)] }

theorem wit_MatrixMultiplies :
    ok (rdS 10) sx (fun a u => ok (rdS 13) u fun b v => ok (rdS 12) v fun c w => decide (a.toNat ≤ 64) && decide (b.toNat ≤ 512) && decide (c.toNat ≤ matKA 0) &&
      out (w.me.mx.checkMul 0 1 0 512 (some 0)) == 0) = true ∧
    ok (rdS 14) sx (fun a _ => decide (64 < a.toNat)) = true ∧ ok (rdS 18) sx (fun c _ => decide (512 < c.toNat) && decide (matKA 0 < c.toNat)) = true ∧
    ok (rdS 0) sx (fun c _ => c == 0) = true ∧ out (sx.me.mx.checkMul 0 1 0 128 (some 1)) = 3 ∧
    out ((sx.onSl fun x => { x with mx := { x.mx with ops := [mop 2 (.mma 0 0 false 0 1 1 1)] } }).me.mx.checkMul 0 1 0 128 (some 0)) = 1 ∧
    ok needGang gang (fun l x => l == [0, 1, 2, 3] && ok (rdS 10) x fun a u => ok (rdS 13) u fun b v => ok (rdS 14) v fun c w => ok (feedStream 3) w fun sc y =>
      decide (a.toNat ≤ 256) && decide (b.toNat ≤ 384) && c.toNat == 64 + 128 * 2 ^ 32 && ok (feedRows sc.1 sc.2 128 a.toNat (feedW 0) (64 * feedW 0) 5) y fun _ z =>
        l.all fun d => out ((z.sl d).mx.checkMul 0 1 0 384 none) == 0 && !(z.sl d).mx.pathFull 2) = true := by
  decide +kernel

/-- A group of one slot is open at slot 0. -/
def grp : State := sx.onSl fun x => { x with mx := { x.mx with slots := [(0, ⟨1, false, 1, 0, false⟩)], opnt := 1 } }
theorem wit_MatrixConfigureDrainClear :
    ok (rdS 12) sx (fun a u => ok (rdS 10) u fun b _ => let g := a.toNat
      decide (g < 2 ^ 17) && bitsN g 14 2 == 0 && bitsN g 11 2 != 3 && bitsN g 8 3 != 7 && !([11, 12, 15].contains (bitsN g 4 4)) && decide (bitsN g 0 4 ≤ 5) &&
        decide (b.toNat < 2 ^ 21) && b.toNat % 4 == 0) = true ∧
    ok (rdS 15) sx (fun a _ => decide (2 ^ 17 ≤ a.toNat)) = true ∧ (busy 3 4).me.mx.pathFull 3 = true ∧ (busy 3 4).me.mx.ops ≠ [] ∧
    ok (rdS 10) grp (fun a u => ok (rdS 17) u fun b v => ok (rdS 13) v fun p w => let r := w.me.mx.slot 0; let cfg := w.me.drainCfg
      w.me.mx.pathFull 3 == false && w.me.mx.opnt != w.me.mx.dpnt && r.st != 0 && b.toNat == 64 + 128 * 65536 + 0xFFFF * 2 ^ 32 && decide (128 ≤ 128 * r.g) &&
        p.toNat % 64 == 0 && a.toNat % 64 == 0 &&
        ((List.range 64).all fun i => padInside 0 (a + BitVec.ofNat 64 i * p).toNat (packedBytes (bitsN cfg.toNat 4 4) 128)) && !bitN cfg.toNat 13 &&
        decide (bitsN cfg.toNat 4 4 ∈ [0, 1, 2, 7, 13])) = true ∧
    ok (rdS 1) grp (fun a u => ok (rdS 10) (u.onSl fun x => { x with sreg := [(10, 48 + 64 * 65536)] }) fun b _ =>
      decide (a.toNat < 32) && b.toNat == 48 + 64 * 65536 && decide (64 + 64 ≤ 128 * (grp.me.mx.slot 0).g)) = true ∧ sx.me.mx.ops = [] := by
  decide +kernel

def cxr (fn : BitVec 4) (imm : BitVec 9) (a b c : BitVec 6) : CX := ⟨none, fn, 6, 2, c, b, a, imm⟩
/-- s0 issuing slot 4 with words stored at offset 4096 of its scratchpad; s10 holds that offset. -/
def sc (ws : List (Nat × Nat)) : State :=
  let s := { s0 with iss := { s0.iss with slot := 4 } }.onSl fun x => { x with sreg := [(10, 4096), (11, 0x30003), (12, 8192), (13, 256), (14, 64), (15, 2 ^ 21 - 64)] }
  ws.foldl (fun s p => s.wrN (padKey 0 (4096 + 8 * p.1)) 8 p.2) s
/-- A plain copy of 16 FP32 elements between private addresses, the same out of and into the global space, and one with a bad word. -/
def d16 (src dst : Nat) : List (Nat × Nat) := [(0, src * 2 ^ 62 + 0x2000), (1, dst * 2 ^ 62 + 0x3000), (2, 2 ^ 48), (4, 16), (29, 16)]
def eop (id unit : Nat) (w : CWork) : EOp := { id := id, sid := 1, core := 0, slot := 4, unit := unit, ctx := 0, tl := 0, num := 1, hnd := none, bytes := 0, iss := 0, start := none, endAt := 0, ended := false, eff := 0, tstamp := 0, wrote := [], waits := false, fault := none, orec := [], lop := 0, bundle := 0, work := w }

/-- The issuing slot's unit takes another operation, and p holds of the state that its use leaves. -/
def unit1 (s : State) (p : State → Bool) : Bool := decide (s.unitHeld s.iss.core (unitOf s) < 8) && ok needUnit s fun n q => n == unitOf s && p q
theorem unit1_gives (s : State) (p : State → Bool) (h : unit1 s p = true) : Room s ∧ ∃ n q, Gives needUnit s n q ∧ p q = true := by
  rw [unit1, Bool.and_eq_true, decide_eq_true_eq] at h
  obtain ⟨n, q, hq, hp⟩ := ok_gives _ _ _ h.2
  exact ⟨h.1, n, q, hq, (Bool.and_eq_true_iff.1 hp).2⟩

/-- Descriptors that pass and that stop at each check; and the four copies with a unit that has room, used in this bundle or not, or is full. -/
theorem wit_DescriptorCopies : let c := cxr 0 0 10 7 14
    let w := fun (s : State) => (List.range 40).map fun i => BitVec.ofNat 64 (s.rdN (padKey 0 (4096 + 8 * i)) 8)
    ok (rdS 10) (sc (d16 0 0)) (fun a _ => decide (a.toNat + 320 ≤ 2 ^ 21) && a.toNat % 64 == 0) = true ∧ ok (rdS 15) (sc []) (fun a _ => decide (2 ^ 21 < a.toNat + 320)) = true ∧
    ok (rdS 11) (sc []) (fun a _ => a.toNat % 64 != 0 && decide (a.toNat + 320 ≤ 2 ^ 21)) = true ∧ descBad1 (w (sc [])) = some 2 ∧ descBad1 (w (sc (d16 0 0))) = none ∧
    (dfield (w (sc (d16 3 0))) 0 62 2 == 3) = true ∧ (dfield (w (sc (d16 0 0))) 0 62 2 == 3) = false ∧ pairOk true false false (w (sc (d16 0 0))) = true ∧
    pairOk true false false (w (sc (d16 0 0 ++ [(2, 2 ^ 48 + 2 ^ 56)]))) = false ∧
    unit1 (sc (d16 0 0)) (fun q => ok (readDesc c false false true false false) q fun _ u => ok (destS 7 1) u yes) = true ∧
    unit1 (sc (d16 0 0)) (fun q => ok (readDesc c false false false false true) q yes) = true ∧
    unit1 (sc (d16 3 0)) (fun q => ok (rdS 14) q fun _ u => ok (readDesc c true false false true true) u fun _ v => ok (destS 7 1) v yes) = true ∧
    unit1 (sc (d16 0 3)) (fun q => ok (readDesc c false true false false false) q yes) = true ∧ (sc []).iss.units.contains 10 = false ∧
    unit1 { sc [] with iss := { (sc []).iss with units := [10] } } (fun _ => true) = true ∧ unitOf (sc []) = 0 ∧ (sc []).bteHeld 0 < 256 ∧
    ¬ ({ sc [] with eops := List.replicate 8 (eop 9 0 (.tladv 1 none)) } : State).unitHeld 0 0 < 8 ∧
    256 ≤ ({ sc [] with eops := List.replicate 256 (eop 9 2 (.tladv 1 none)) } : State).bteHeld 0 := by decide +kernel

theorem wit_MulticastFillScale : let s := sc []
    unit1 s (fun q => ok (rdS 10) q fun a u => ok (rdS 11) u fun b v => ok (rdS 12) v fun d w => let n := (bitsN b.toNat 16 5 + 1) * 16
      decide (b.toNat < 2 ^ 21) && decide (a.toNat + n ≤ 2 ^ 21) && decide (d.toNat + n ≤ 2 ^ 21) && a.toNat % 16 == 0 && d.toNat % 16 == 0 &&
      (maskCores 0 (bitsN b.toNat 0 16)).all fun j => !(w.core j).fenced && (w.core j).run.all fun r => r.ctx == 0) = true ∧ maskCores 0 3 = [0, 1] ∧
    unit1 s (fun q => ok (rdS 10) q fun a u => ok (rdS 13) u fun b _ => decide (b.toNat ≤ 2 ^ 32) && decide (a.toNat + b.toNat ≤ 2 ^ 21) && a.toNat % 8 == 0 && b.toNat % 8 == 0) = true ∧
    unit1 s (fun q => ok (rdS 12) q fun a _ => decide (a.toNat + 2048 ≤ 2 ^ 21) && a.toNat % 64 == 0) = true := by decide +kernel

def ewk : EWalk := { op := 0, store := false, ten := ⟨0, false, 0, [64], [64], [1], 0, none, 0, 0, [], 0, 0, false, [15], 0, [], []⟩, tile := [64], dq := 1, pq := 2, lq := none, nq := none, regs := [64], ordered := true, t := 0, n := 0, pend := [], b := 0, marks := [], cur := none, done := false }
/-- The walk's instance has a tile-walk engine whose permit queue is queue k of q1; handle 64 is as e says. -/
def pw (k : Nat) (e : HEnt) : State :=
  ({ q1 with iss := { q1.iss with slot := 4 }, insts := [(5, { inst with ewalks := [(0, { ewk with pq := k })] })] }.updCl 0 fun c => { c with hnd := [(64, e)] }).onSl fun x => { x with sreg := [(1, 64), (2, 3), (6, 4096)] }

/-- Permits to a queue with room, to a full one and to none; `HSET` at a handle in each state, FULL since this cycle among them; both forms of
`TLADV`. -/
theorem wit_PermitsAndHandles : let e := fun (st cnt tgt at_ : Nat) => ({ HEnt.free with st := st, cnt := cnt, tgt := tgt, fullAt := at_ } : HEnt)
    unit1 (pw 2 .free) (fun q => ok (rdS 6) q fun x _ => decide (4096 ≤ (x + BitVec.ofNat 64 (cxImm (cxr 0 0 6 2 0))).toNat)) = true ∧
    (∀ k ∈ [(2, some 2), (3, some 3)], unit1 (pw k.1 .free) (fun q => ok (rdS 1) q fun x u => (x + BitVec.ofNat 64 (cxImm (cxr 0 0 1 2 0))).toNat == 64 && u.permitQ 0 0 == k.2 && u.permitQ 0 1 == none &&
      (u.queues.find 2).any (!·.full) && (u.queues.find 3).any (·.full)) = true) ∧
    (∀ p ∈ [(2, 0, 0, 0), (1, 0, 4, 0), (1, 1, 4, 0), (1, 4, 4, 0), (2, 4, 4, 1), (0, 0, 0, 0)], unit1 (pw 2 (e p.1 p.2.1 p.2.2.1 p.2.2.2)) (fun q => ok (rdS 1) q fun _ u => ok (rdS 2) u fun n v =>
      v.handle 0 0 64 == e p.1 p.2.1 p.2.2.1 p.2.2.2 && n == 3 && v.ccyc == 0) = true) ∧ (1 : Nat) + 3 = 4 ∧ 0 + 3 < 4 ∧
    (cxr 4 3 1 2 0).fn.getLsbD 2 = true ∧ (cxr 0 3 1 2 0).fn.getLsbD 2 = false := by decide +kernel

/-- Context 0's capability entry 1: its word 0 and its allowance. -/
def cap (w0 left : Nat) : State := (((sc []).wrN ((sc []).capAt 0 1) 8 w0).wrN ((sc []).capAt 0 1 + 16) 4 left)
/-- Entries with and without V, S, R and an allowance, of KIND 0, of KIND 1 with one direction, and of KIND 1 with both, which is not good; 248 is
past the last that an instruction may name. -/
theorem wit_CapabilitySendReceive : let w0 := 2 ^ 63 + 2 ^ 62
    unit1 (cap w0 1) (fun q => ok (rdS 10) q fun a u => ok (rdS 14) u fun n v => ok (rdS 12) v fun _ w => a.toNat % 64 == 0 &&
      n.toNat == 64 && decide (a.toNat + 64 + n.toNat ≤ 2 ^ 21) && w.rdN (w.capAt (w.ctxOf 0) 1) 8 == w0 && w.rdN (w.capAt (w.ctxOf 0) 1 + 16) 4 == 1) = true ∧
    (∀ k ∈ [0, w0, 2 ^ 63 + 2 ^ 61, w0 + 2 ^ 59, 2 ^ 63 + 2 ^ 61 + 2 ^ 59, w0 + 2 ^ 61 + 2 ^ 59], (cap k 0).rdN ((cap k 0).capAt 0 1) 8 = k ∧ (cap k 0).rdN ((cap 0 0).capAt 0 1 + 16) 4 = 0) ∧
    ([w0, 2 ^ 63 + 2 ^ 61, w0 + 2 ^ 59, w0 + 2 ^ 61 + 2 ^ 59].map fun k => (bitN k 63, bitN k 62, bitN k 61, bitsN k 59 2, bitN k 58)) =
      [(true, true, false, 0, false), (true, false, true, 0, false), (true, true, false, 1, false), (true, true, true, 1, false)] ∧
    ((cxr 0 1 10 14 12).imm.toNat, (cxr 0 248 10 14 12).imm.toNat) = (1, 248) := by decide +kernel

/-! ### Events -/

def src0 : WSrc := ⟨0x1000, 0, 2, 64, 512, none⟩
def log0 : FeedLog := ⟨0x1000, 0, 2, 0, 4, 128, 0⟩
def mma0 : MWork := .mma 0 3 false 0 2 64 4
def mmag0 : MWork := .mmag 0 3 0 2 64 4 0x1000 0 128 0
def drn (hold : Bool) (h : Option Nat) : MWork := .drain 0 1 false hold 2 64 0x2000 256 h 0 0
/-- Core 0 at its cycle 1 with instructions issued in cycle 0, in the gang's other cores too when w is a gang multiply. -/
def ev (os : List MOp) (n : Nat) : State := (List.range n).foldl (fun s d => s.updCore d fun k =>
  { k with ncyc := 1, run := some Run.zero, sl := { k.sl with id := d + 1, mx := { k.sl.mx with ops := os, slots := [(0, ⟨2, false, 1, 0, true⟩)] } } }) s0
def run1 (p : Nat) (w : MWork) : MOp := { mop p w with num := 1, start := some 0, last := 0, done := 0 }

theorem wit_MatrixPathEvents :
    (∀ w ∈ [MWork.ldw src0 false, .reload false src0 none], (ev [mop 0 w] 1).nextStart 0 0 = some (mop 0 w)) ∧
    (∀ w ∈ [MWork.feed true false log0, .feed false true log0, .replay true log0], (ev [mop 1 w] 1).nextStart 0 1 = some (mop 1 w)) ∧
    (∀ w ∈ [MWork.swap, .clr true true true, .clr false false false, mma0, .mma 0 3 false 0 0 64 4], (ev [mop 2 w] 1).nextStart 0 2 = some (mop 2 w)) ∧
    (ev [mop 2 mmag0] 4).nextStart 0 2 = some (mop 2 mmag0) ∧ (ev [mop 2 mmag0] 4).holders 0 3 = [0, 1, 2, 3] ∧
    (let m := fun (b : Bool) => (ev [if b then mop 0 (.reload false src0 none) else mop 2 mma0] 1).updMx 0 fun m => { m with replay := true }
     (mxOf (m false) 0).replay = true ∧ (∀ o ∈ (mxOf (m false) 0).ops, o.again = false) ∧ (∃ o ∈ (mxOf (m true) 0).ops, o.again = true) ∧ (mxOf (ev [] 1) 0).replay = false) ∧
    (ev [] 1).nextStart 0 0 = none ∧ (∀ o ∈ (mxOf (ev [mop 0 (.ldw src0 false)] 1) 0).ops, o.start = none) ∧
    (∀ p ∈ [(0, MWork.ldw src0 false), (1, .feed true false log0)], ((mxOf (ev [run1 p.1 p.2] 1) 0).ops.find? fun o => o.path == p.1 && o.over 1) = some (run1 p.1 p.2)) ∧
    ((mxOf (ev [run1 2 mma0] 1) 0).ops.find? fun o => o.path == 2 && o.start.isSome && decide (o.done < 1)) = some (run1 2 mma0) ∧
    (sext (2 ^ 47 - 1) 48 + sumZ (List.zipWith (fun x y => matInt 8 x * matInt (matBits 1) y) [1] [1]) = 2 ^ 47) ∧
    sext (2 ^ 47) 48 + sumZ (List.zipWith (fun x y => matInt 8 x * matInt (matBits 1) y) [1] [255]) = -2 ^ 47 - 1 := by decide +kernel

theorem wit_MatrixDrainEvents :
    (∀ w ∈ [drn false (some 64), .drainV 0 1 false false 0 0 0 0 0], (ev [mop 3 w] 1).nextStart 0 3 = some (mop 3 w)) ∧
    (∀ w ∈ [drn false none, drn true (some 64)], ((mxOf (ev [run1 3 w] 1) 0).ops.find? fun o => o.path == 3 && o.over 1) = some (run1 3 w)) ∧
    (run1 3 (drn true (some 64))).drainEnd = some (0, 1, true, some 64, 2 * packedBytes 0 64) ∧
    (((ev [] 1).updCl 0 fun k => { k with hnd := [(64, { HEnt.free with st := 1 })] }).handle 0 0 64).st = 1 ∧ groupSlots 0 1 = [0] ∧
    (AMap.get Ring.empty (mxOf (ev [] 1) 0).ring 0).pois = false ∧
    (AMap.get Ring.empty (mxOf ((ev [] 1).updMx 0 fun m => { m with ring := [(0, { Ring.empty with pois := true })] }) 0).ring 0).pois = true ∧
    (∀ p ∈ [(2, 2), (2, 1)], ({ HEnt.free with st := 1, tgt := p.1, cnt := p.2 } : HEnt).zeroAt = none) := by decide +kernel

def fil : CWork := .fill 1 0x2000 64 0
/-- Core 0 in its cycle 1 and the chip in cycle 1 with copy operations; capability 1 of context 0 names a ring at 0x300000 of two messages of
64 bytes, of which h have been taken and t sent. -/
def evc (os : List EOp) (h t : Nat) : State :=
  let s := { ((sc []).updCore 0 fun k => { k with ncyc := 1 }) with eops := os, ccyc := 1, gcyc := 1 }
  ((((s.wrN (s.capAt 0 1) 8 (2 ^ 63 + 2 ^ 62 + 2 ^ 61)).wrN (s.capAt 0 1 + 8) 8 0x300000).wrN 0x300000 8 h).wrN 0x300008 8 t).wrN 0x300010 8 (64 * 2 ^ 32 + 2)
def mul0 : EOp := { eop 7 0 (.multi [1, 2] 3 0x2000) with start := some 0, endAt := 1 }

/-- A copy unit's fill that may start and one whose unit has started another in this cycle. -/
theorem wit_CopyStarts : let f := eop 7 0 fil
    (evc [f] 0 0).unitHead 0 0 = some f ∧ (evc [f] 0 0).copyDue 0 0 = true ∧ ((evc [f] 0 0).updCore 0 fun k => { k with cu0At := 2 }).unitHead 0 0 = some f ∧
    ((evc [f] 0 0).updCore 0 fun k => { k with cu0At := 2 }).copyDue 0 0 = false ∧ (evc [f] 0 0).unitHead 0 1 = none := by decide +kernel

/-- The block-transfer engine: an entry that starts, one whose units are in transition, one that goes on after it, none, and a fenced engine. -/
theorem wit_BteStarts : let b := eop 7 2 fil; let g := eop 7 2 (.fill 1 (BitVec.ofNat 64 (2 ^ 63)) 64 0); let w := { g with start := some 0, waits := true }
    let ph := fun (s : State) => { s with phaseEnd := 9, phaseHi := 1 }
    ((evc [b] 0 0).bteHead 0 = some b ∧ (evc [b] 0 0).bteResume 0 = none ∧ (evc [b] 0 0).bteDue 0 = true ∧ (evc [b] 0 0).inPhase b = false) ∧
    ((ph (evc [g] 0 0)).bteHead 0 = some g ∧ (ph (evc [g] 0 0)).bteDue 0 = true ∧ (ph (evc [g] 0 0)).inPhase g = true) ∧
    (evc [w] 0 0).bteResume 0 = some w ∧ (evc [] 0 0).bteDue 0 = false ∧ 11 ∉ ((evc [b] 0 0).cluster 0).fences ∧
    11 ∈ (((evc [b] 0 0).updCl 0 fun k => { k with fences := [11] }).cluster 0).fences := by decide +kernel

theorem wit_CopyEnds : let run := { eop 7 0 fil with start := some 0, endAt := 1 }
    let op := fun (e : EOp) => (evc [e] 0 0).eops.find? fun e => e.id == 7 && !e.ended
    op run = some run ∧ (evc [run] 0 0).endDue run = true ∧ op (eop 7 0 fil) = some (eop 7 0 fil) ∧ (evc [] 0 0).endDue (eop 7 0 fil) = false ∧ (engCode 0x42, engCode 0) = (true, false) ∧
    op mul0 = some mul0 ∧ mul0.endAt ≤ (evc [mul0] 0 0).ccyc ∧ mul0.tl < 4 ∧ s0.ccyc < mul0.endAt ∧ maskCores 0 3 = [0, 1] ∧ 0x2000 + 2 ≤ 2 ^ 21 ∧
    (∀ o ∈ (evc [mul0] 0 0).eops, mul0.later o = true → o.wrote = []) := by decide +kernel

/-- Software timelines and capability rings: an advance by one and to a number, a `SEND` whose bytes stand in the scratchpad or were kept, a `SEND` of
another chip, and a `RECV`. -/
theorem wit_CopyEvents : let adv := fun n => { eop 7 0 (.tladv 8 n) with num := 0 }
    let sd := fun kept => eop 7 0 (.send 1 0x2000 2 kept 5); let rv := eop 7 0 (.recv 1 0x2000 64)
    (∀ n ∈ [none, some 5], (evc [adv n] 0 0).unitHead 0 0 = some (adv n) ∧ (evc [adv n] 0 0).tladvDue (adv n) = true) ∧ (evc [rv] 0 0).tladvDue { adv none with iss := 1 } = false ∧
    (∀ k ∈ [none, some [1, 2]], (evc [sd k] 1 2).unitHead 0 0 = some (sd k) ∧ (evc [sd k] 1 2).sendDue (sd k) = true ∧
      (evc [sd k] 1 2).capWords (sd k) 1 = (2 ^ 63 + 2 ^ 62 + 2 ^ 61, 0x300000) ∧ (k.getD ((evc [sd k] 1 2).rdBytes (padKey 0 0x2000) 2)).length ≤ 64) ∧
    (evc [] 1 2).sendAway (2 ^ 63 + 2 ^ 62 + 2 ^ 61) = false ∧ (bitsN (2 ^ 63 + 2 ^ 62 + 2 ^ 61) 59 2, bitN (2 ^ 63 + 2 ^ 62 + 2 ^ 61) 58) = (0, false) ∧
    (evc [] 1 2).ring 0x300000 = some (1, 2, 64, 2) ∧ (evc [] 1 2).deadCtx 0 = false ∧ (2 + 2 ^ 64 - 1) % 2 ^ 64 < 2 ∧
    ((evc [rv] 1 2).unitHead 0 0 = some rv ∧ (evc [rv] 1 2).recvDue rv = true ∧ (∀ o ∈ (evc [rv] 1 2).eops, rv.later o = true → o.wrote = []) ∧
      0x300000 + 8 ≤ padKey 0 0x2000 ∧ ringSlot 0x300000 64 2 1 + 128 ≤ padKey 0 0x2000) := by decide +kernel

theorem wit_ScaleLanding : let p : Pend := ⟨0, 0, .scale [(1, 7)] 0 1⟩
    ((s0.onSl fun x => { x with pend := [p] }).sl 0).duePend Wr.isScale = some p ∧ (s0.sl 0).duePend Wr.isScale = none ∧
    ({ Slice.zero with scNew := [(1, 7)] } : Slice).scNew = [(1, 7)] := by decide +kernel

def ld0 (here bad : Bool) : Land := ⟨0, 8, false, 8, 0, here, bad, 0, [], 0, .sreg 9 7⟩
def tr0 : TRec := ⟨0, List.replicate 8 1, false, true⟩
/-- s0 with context 0's trap queue at 0x300000: two messages of 64 bytes, empty. -/
def trq : State :=
  let s := s0.wrN 0x300010 8 (64 * 2 ^ 32 + 2)
  { s with ctxs := [(0, { cx with tq := 0x300000 })], traps := [tr0] }
theorem wit_CoreEvents : let fly := fun (a : Nat) => { que 1 [] 0 with fly := [⟨a, 0, 5⟩] }
    (∀ l ∈ [ld0 false false, ld0 true false, ld0 true true], ((s0.onSl fun x => { x with lands := [l] }).sl 0).dueLand = some l) ∧
    (s0.core 0).frzRun < 2 ^ 20 ∧ 2 ^ 20 ≤ ((s0.updCore 0 fun k => { k with frzRun := 2 ^ 20 }).core 0).frzRun ∧
    (s0.walk cx.root 4096 4).toOption = some (0x201000, 1, 0x3F) ∧ (s0.walk cx.root (2 ^ 34) 0).toOption = none ∧ (s0.ctx? 0, s0.ctx? 1) = (some cx, none) ∧
    (firstIdx (fun r => r.ctx == 0 && trq.trapDue r) trq.traps = some 0 ∧ trq.traps[0]? = some tr0 ∧ (trq.ctx? 0).map (·.tq) = some 0x300000 ∧
      trq.ring 0x300000 = some (0, 0, 64, 2) ∧ (0 + 2 ^ 64 - 0) % 2 ^ 64 < 2) ∧
    (∀ a ∈ [0, 1], ({ q0 with queues := [(1, fly a)] } : State).queues.find 1 = some (fly a) ∧ (fly a).nextFly = some ⟨a, 0, 5⟩) ∧ q0.ccyc = 0 := by
  decide +kernel

def fr0 : Frame := ⟨0, 0, [], [], []⟩
def bnd : Bind := { crew := 1, ctx := 0, stage := 0, cls := 0, minc := 1, maxc := 1, pipe := 1, log := false, noknead := false, v := true, deadline := 50, budget := 100, period := 0, inst := 5 }
def sr0 : SRec := ⟨0, 0, 0, 64, ⟨0, 0, 5, 0, 1, 50, 100⟩, some { Slice.zero with id := 3, sreg := [(7, 1)] }, [], 0, 0, false⟩
/-- A `uop` of the instance outside its stages with one tile for core 0, and object 1 with its routine 4. -/
def uop0 : LOp := { inst := 5, walk := 8, ctx := 0, cluster := 0, func := 0, off := 9, kind := 1, ins := .lUop 0 ⟨9, 0, 0, [], []⟩, args := [], outs := [], deps := [], waits := [], ntile := 1,
                    tiles := [(0, 0, 0)], live := 0, csize := 1, rtn := 4, set_ := [], rank := 0, seq := 0, tl9 := 0, fault := none }
def obj4 : Obj := { placeObj 1 with rtab := [⟨4, 4, 64, 32⟩] }
/-- q0 with core 0 idle, a bind record for the instance's stage, and an item in its input queue. -/
def idle : State :=
  let s := (q0.updCore 0 fun k => { k with run := none, sl := Slice.zero }).updCl 0 fun k => { k with binds := [(0, bnd)] }
  { s with walks := [(8, ⟨5, none, 0, [fr0], 0, 0⟩)], queues := [(0, que 0 [⟨11, 0, 0⟩] 0), (1, que 1 [] 0), (2, que 2 [] 0), (3, que 3 [] 0)] }
/-- core 0 as f makes it, in the slice of the stage. -/
def run0 (f : Core → Core) : State := idle.updCore 0 fun k => f { k with run := some ⟨0, 0, 5, 0, 1, 50, 100⟩, sl := { Slice.zero with id := 1 }, budget := 9 }

/-- What an ended slice of the record left: one pending result. -/
def left0 : SRec := { sr0 with idx := 1, left := true, sl := some { Slice.zero with tick := 7, pend := [⟨9, 0, .sreg 7 1⟩] } }

/-- A saved slice, tiles outside the stages and a new walk; a record that an ended slice left; and an idle core with nothing to do. -/
theorem wit_SliceDispatch : (∀ p ∈ [(3, idle), (2, { idle with lops := [(20, uop0)] }), (1, { idle with recs := [sr0] }), (3, { idle with recs := [left0] })],
      p.2.dispatchDue 0 = true ∧ p.2.bestRec 0 = some (0, bnd) ∧ p.2.insts.find 5 = some inst ∧ p.2.idleWork 0 0 bnd = p.1 ∧ p.2.ctx? 0 = some cx) ∧
    idle.leftOf bnd 0 false = none ∧ ({ idle with recs := [left0] } : State).leftOf bnd 0 false = some left0 ∧ s0.dispatchDue 0 = false := by decide +kernel

/-- A slice that ends with and without a result pending; one whose walk yields; a pre-empted one; one that another record has beaten; and the three
choices of a slice at a decision point: nothing left, a saved slice of its record, a new walk. -/
theorem wit_SliceBoundary : let fin := run0 fun k => { k with stop := .finish }
    let pen := run0 fun k => { k with stop := .finish, sl := { k.sl with pend := [⟨9, 0, .sreg 7 1⟩] } }
    let yld := { run0 (fun k => { k with sl := { k.sl with walk := some ⟨9, [], [], false⟩, yield := true } }) with walks := [(9, ⟨5, some 0, 0, [fr0], 2, 0⟩)] }
    let at0 := fun (s : State) (n : Nat) => s.boundaryDue 0 && s.lostTo 0 == false && decide ((s.cluster (clOf 0)).binds.find 0 = some bnd) && s.workOf 0 0 bnd == n
    s0.boundaryDue 0 = false ∧ (fin.boundaryDue 0 = true ∧ fin.leaves 0 = false) ∧ (pen.boundaryDue 0 = true ∧ pen.leaves 0 = true ∧ pen.freeRec 0 = some 0) ∧
    (yld.boundaryDue 0 = true ∧ (yld.sl 0).yield = true) ∧ (run0 fun k => { k with stop := .preempt 0 }).boundaryDue 0 = true ∧ bnd.inst = 5 ∧
    (let s := { (run0 id).updCl 0 (fun k => { k with binds := [(0, bnd), (1, { bnd with deadline := 9 })] }) with queues := [(0, que 0 [⟨11, 0, 0⟩] 0), (1, que 1 [] 0)] }
     s.boundaryDue 0 = true ∧ s.lostTo 0 = true) ∧
    at0 { run0 id with queues := [] } 0 = true ∧ at0 { run0 id with recs := [sr0] } 1 = true ∧ at0 (run0 id) 3 = true := by
  decide +kernel

def saved0 : SRec := { sr0 with idx := 2 }
/-- A budget that is used up, pre-emptions, a save with and without a free record, a restore, and a kill of a slice with a running drain, in a gang
or not. -/
theorem wit_SliceEvents : let run := (⟨0, 0, 5, 0, 1, 50, 100⟩ : Run); let held := run0 fun k => { k with stop := .held }
    let full := { held with ctxs := [(0, { cx with srcount := 0 })] }
    let gang := fun (os : List MOp) => run0 fun k => { k with sl := { k.sl with mx := { k.sl.mx with ops := os } } }
    (((run0 fun k => { k with budget := 0 }).core 0).live = true ∧ ((run0 fun k => { k with budget := 0 }).core 0).budget = 0 ∧ ((run0 id).core 0).run = some run) ∧
    ((run0 id).core 0).stop = .none ∧ (idle.core 0).run = none ∧
    (let s := { run0 (fun k => { k with stop := .preempt 0 }) with ccyc := 4096 }; (s.core 0).stop = .preempt 0 ∧ 0 + 4096 ≤ s.ccyc ∧ (s.core 0).stopped = false ∧ (s.core 0).frzRun = 0) ∧
    (held.saveDue 0 = true ∧ held.freeRec 0 = some 0 ∧ held.recAt 0 0 = some cx.srbase ∧ full.saveDue 0 = true ∧ full.freeRec 0 = none ∧ (run0 id).saveDue 0 = false) ∧
    (let s := { run0 (fun k => { k with sl := Slice.zero }) with recs := [saved0] }; s.restoreRec 0 2 = some saved0 ∧ s.recAt 0 2 = some (cx.srbase + 2 * recSize)) ∧
    ((gang [run1 3 (drn false none)]).core 0).inGang = false ∧ (run1 3 (drn false none)).drainEnd ≠ none ∧ ((gang [run1 2 mmag0]).core 0).inGang = true := by decide +kernel

theorem wit_RecFits : RecFits { Slice.zero with vreg := [(79, 1)], loops := [(3, ⟨true, 3, 0, 0, 40, true, 1, false⟩)], mx := { Slice.zero.mx with ring := [(7, { Ring.empty with rows := [(63, 1)] })] } } := by
  simp only [RecFits]
  decide +kernel

/-- A `uop`'s tile, the same with a dead handle among what it waits for, and a record in the shadow bank, of a `uop` and of a built-in operator. -/
theorem wit_TileEvents : let dead := fun (s : State) => s.updCl 0 fun k => { k with hnd := [(64, { HEnt.free with st := 3 })] }
    let s := { run0 id with lops := [(20, uop0)], objs := [(1, obj4)] }; let o := { uop0 with waits := [(64, 0, 2)] }; let t := { dead (run0 id) with lops := [(20, o)], objs := [(1, obj4)] }
    (s.lops.find 20 = some uop0 ∧ s.shadowDue 0 20 0 uop0 = true ∧ s.lopStale uop0 = none ∧ s.shadowDue 0 20 1 uop0 = false) ∧ (t.shadowDue 0 20 0 o = true ∧ t.lopStale o = some 64) ∧
    (∀ r ∈ [(⟨[4, 2], 20, 1, 64⟩ : OpRec), ⟨[1024, 2], 20, 1, 64⟩], let s := run0 fun k => { k with sl := { k.sl with shadow := some r } }
      (s.sl 0).shadow = some r ∧ s.swapDue 0 = true ∧ r.words[1]? = some 2 ∧ r.builtin = decide (r.words[0]? = some 4)) ∧ (run0 id).swapDue 0 = false := by decide +kernel

/-- The ends of a `uop`, of a fence with its K flag, of a built-in operator whose destination fills, and of a partial product; and an operator with
a tile left. -/
theorem wit_OperatorEnds : let fen : LRec := ⟨9, 0, 1, [], [⟨true, 0x101, [1]⟩]⟩; let o0 := { uop0 with kind := 0, tiles := [] }
    let fil := { o0 with outs := [{ ewk.ten with ext := [2], hnd := some 64, alloc := 3 }] }; let prt := { o0 with steps := [(0, .part)] }
    let s := fun (o : LOp) => (({ run0 id with lops := [(20, o)] } : State).updCl 0 fun k => { k with hnd := [(64, { HEnt.free with st := 1, alloc := 3 })] })
    (∀ o ∈ [{ uop0 with tiles := [] }, { uop0 with kind := 3, ins := .lFence 9 fen }, fil, prt], (s o).lopDue 20 o = true) ∧ (s uop0).lopDue 20 uop0 = false ∧
    (fil.parts = false ∧ prt.parts = true) ∧ ((s fil).handle 0 0 64).alloc = 3 ∧ ((s fil).handle 0 0 64).zeroAt = none ∧
    bitN (fen.word 0x101 0) 0 = true ∧ (s { uop0 with kind := 3 }).fenceCores { uop0 with kind := 3, ins := .lFence 9 fen } (fen.word 0x100 2 % 4) 0 = true ∧
    ((s uop0).cores.find 0).isSome = true := by decide +kernel

/-- A release, a zeroing that is due, and a chunk's page-in. -/
theorem wit_ClusterEngines : let st := fun (e : HEnt) => (s0.updCl 0 fun k => { k with hnd := [(64, e)] }).handle 0 0 64; let s := s0.updCl 0 fun k => { k with store := [] }
    (st { HEnt.free with st := 3 }).st = 3 ∧ s0.opDone 0 = true ∧ (st { HEnt.free with st := 1, zeroAt := some 0 }).zeroAt = some s0.ccyc ∧
    s.objs.find 1 = some (placeObj 1) ∧ (placeObj 1).keys[0]? = some 1 ∧ s.storeRoom 0 = some [] ∧ s.chunkPA 1 = some 0 ∧ (placeObj 1).fenced = false := by decide +kernel

def brec : BindRec := { crew := 1, ctx := 0, stage := 0, cls := 0, minc := 1, maxc := 1, pipe := 1, log := false, noknead := false, v := true, deadline := 50, budget := 100, period := 0, inst := 5 }
theorem wit_KneadEvents : let up := { idle with ctl := { idle.ctl with phase := 2 } }
    s0.schedUp = false ∧ s0.ctl.takeover = none ∧ ({ s0 with ctl := { s0.ctl with takeover := some 9 } } : State).ctl.takeover ≠ none ∧ up.schedUp = true ∧
    (up.ctl.needs.find? fun n => n.1 == 0) = none ∧ kncfgOk kncfgReset = true ∧ kncfgOk 0 = false ∧ idle.kneadDue 0 = true ∧ ({ idle with gcyc := 1 } : State).kneadDue 0 = false ∧
    (let s := idle.updCore 3 fun k => { k with move := some (0, 1, 0, 0, 0) }; (s.core (16 * 0 + 3)).move = some (0, 1, 0, 0, 0) ∧ (s.core 3).run = none ∧ (s.cluster 0).binds.find 0 = some bnd) := by decide +kernel

def lau (b : Nat) (marks : List (Nat × Bool)) : Launch := { ctx := 0, obj := 1, func := 0, args := [], levels := [⟨0, 0, 4⟩], ldepth := 1, depth := 0, cso := false, clmask := 1, qreg := 0, host := some (0, 1), parent := none, src := none, group := false, next := 0, b := b, marks := marks, killed := false, done := false, chips := [0] }
/-- idle with launch 3 of four instances, of which one has run to its end, and an entry function without parameters. -/
def las (b : Nat) (marks : List (Nat × Bool)) : State :=
  { idle with launches := [(3, lau b marks)], insts := [(5, { inst with stages := [], started := true })], walks := [(8, ⟨5, none, 0, [], 2, 0⟩)],
              objs := [(1, { placeObj 1 with funcs := [⟨true, [], [], [.lRet 0 ⟨0, 0, 0, [], []⟩]⟩] })] }

def mem (st : Nat) : Member := { Member.outside with st := st }
/-- The chip in state a of a group in which chip 1 has state b. -/
def grpS (s : State) (a b : Nat) : State := { s with group := { s.group with tbl := [(0, mem a), (1, mem b)] } }
def ten (a : Nat) : TRef := { ewk.ten with ext := [2], whole := [2], base := BitVec.ofNat 64 (3 * 2 ^ 62 + a) }
/-- An all-reduce over one instance of launch 3. -/
def red0 : LOp := { uop0 with inst := 3 * 2 ^ 24, kind := 2, ins := .lAred 0 ⟨9, 0, 1, [.val 1 0], []⟩, args := [.ten (ten 0x5000)], outs := [ten 0x6000], tiles := [], set_ := [3 * 2 ^ 24], seq := 1, tl9 := 1 }
def redS (a : Nat) : State := { grpS (las 0 []) a 2 with lops := [(20, red0)], insts := [(3 * 2 ^ 24, { inst with stages := [] })] }

/-- What the shapes of a collective's members come to once their operands are read: agreement, or the operand that disagrees. -/
def shapeOf (s : State) (o : LOp) : Option (Option Nat) := match o.coll with
  | none => none
  | some q => match memberArgs o q.k [] ((List.range o.set_.length).zip o.set_) s with
    | .ok (xs, _) => some (s.collShape o q xs [])
    | .error _ => none

/-- Collectives: a cause on this chip, none, a member that waits, and members whose shapes agree or do not. -/
theorem wit_CollectiveEnds : let bad := { red0 with outs := [{ ten 0x6000 with ext := [3] }] }
    let wait := ({ redS 2 with lops := [(20, { red0 with deps := [20] })] } : State); let odd := ({ redS 2 with lops := [(20, bad)] } : State)
    (redS 3).collCause red0 = some (0x76, 3) ∧ (redS 2).collCause red0 = none ∧ wait.collBlock red0 [] = some none ∧
    (redS 2).collBlock red0 [] = none ∧ shapeOf (redS 2) red0 = some none ∧ ((redS 2).mates red0).all (fun m => m.2.2.steps == []) = true ∧
    odd.collCause bad = none ∧ odd.collBlock bad [] = none ∧ shapeOf odd bad = some (some 1) ∧ odd.mates bad ≠ [] ∧
    ((redS 3).insts.find red0.inst).any (fun x => !x.done) = true := by decide +kernel

/-- The start and the end of an instance; a kill that a gang multiply holds up and one that none does; marks above a window's base and at it; and a
forwarded record. -/
theorem wit_InstanceEvents : let ganged := run0 fun k => { k with sl := { k.sl with mx := { k.sl.mx with ops := [run1 2 mmag0] } } }
    (let s := (las 0 []).updCl 0 fun k => { k with binds := [(0, { bnd with inst := 3 * 2 ^ 24 })] }; s.startDue 3 0 = true ∧ s.launches.find 3 = some (lau 0 [])) ∧ (las 0 []).startDue 3 1 = false ∧
    ((las 0 []).insts.find 5).any (fun x => (las 0 []).instDue 5 x && !x.done) = true ∧ (idle.insts.find 5).any (fun x => !idle.instDue 5 x) = true ∧
    (ganged.gangHeld fun r => r.inst == 5) = true ∧ ((run0 id).gangHeld fun r => r.inst == 5) = false ∧
    (1 < 2 ∧ (2 : Nat) < (lau 1 [(3, false)]).total ∧ (∀ m ∈ (lau 1 [(3, false)]).marks, m.1 ≠ 2 ∧ m.1 ≠ 1) ∧ (lau 1 [(3, false)]).b = 1 ∧ (lau 1 [(3, false)]).done = false) ∧
    (let s := { grpS (las 0 []) 2 2 with ctxs := [(0, { cx with objs := [1] })] }
     (s.hostLaunch 0 1 [2 ^ 36 + 2 ^ 31, 2 ^ 48 + 1, 2 ^ 32 + 24]).isSome = true ∧ s.hostLaunch 0 1 [] = none ∧ s.group.stOf s.group.chip = 2 ∧ s.group.stOf 1 = 2) := by decide +kernel

def que2 (w : Nat) (its : List QItem) : Queue := { que 0 its 0 with wdt := w }
/-- The consumer stage of queue 0 runs on core 0, and its watchdog has reached w. -/
def wdg (w : Nat) : State := { run0 id with queues := [(0, que2 w [])] }
/-- The instance has one tile-walk engine: e, with permit queue 1 and data queue 2 as given; handle 64 is FULL. -/
def wk (e : EWalk) (p d : List QItem) : State :=
  { (s0.updCl 0 fun k => { k with hnd := [(64, { HEnt.free with st := 2 })] }) with
    insts := [(5, { inst with ewalks := [(0, e)] })], queues := [(1, que 1 p 0), (2, que 2 d 0)], lops := [(30, { uop0 with kind := 5 })] }
def lw : EWalk := { ewk with op := 30, pq := 1, dq := 2 }

theorem wit_PipelineEvents :
    (∀ p ∈ [(1, 2 ^ 20), (2, 2 ^ 20 + 2 ^ 22), (3, 2 ^ 20 + 2 ^ 22 + 2 ^ 24)], (wdg p.2).queues.find 0 = some (que2 p.2 []) ∧ (que2 p.2 []).wDue p.1 = true) ∧
    (wdg 0).consumer 0 = some (5, 0, stg, (0, 0, 1)) ∧ (wdg 0).consCores 0 = [0] ∧ ((wdg 0).core 0).stop = .none ∧ (que2 (2 ^ 20 - 1) []).wDue 1 = false ∧
    (let x := fun (s : State) => (s.insts.find 5).getD inst
     let e1 := { lw with pend := [(64, 0)] }; let e3 := { lw with t := 1 }; let it : QItem := ⟨mkItem 64 0 0, 0, 0⟩; let far : QItem := ⟨mkItem 65 0 0, 0, 0⟩
     (wk e1 [] []).loadAct (x (wk e1 [] [])) e1 = 1 ∧ (wk lw [it] []).loadAct (x (wk lw [it] [])) lw = 2 ∧ (wk lw [far] []).loadAct (x (wk lw [far] [])) lw = 2 ∧
     lw.regs.contains ((mkItem 65 0 0).toNat / 2 ^ 48) = false ∧ ((wk lw [far] []).engPop 1).isSome = true ∧
     (wk e3 [] []).loadAct (x (wk e3 [] [])) e3 = 3 ∧ ((wk lw [] []).cluster 0).fences.contains 7 = false ∧ (((wk lw [] []).updCl 0 fun k => { k with fences := [7] }).cluster 0).fences.contains (7 + 0) = true ∧
     (let st := { lw with store := true }; let s1 := { st with marks := [0] }
      (wk s1 [] []).storeAct (x (wk s1 [] [])) s1 = 1 ∧ (wk st [] [it]).storeAct (x (wk st [] [it])) st = 2 ∧ ((wk st [] [it]).engPop 2).isSome = true)) := by decide +kernel

/-- A `STORE` walk writes its tile while the permit queue is full. -/
theorem wit_StoreWalk : let e := { lw with store := true, cur := some (mkItem 64 0 0, 0), ten := { lw.ten with base := BitVec.ofNat 64 (3 * 2 ^ 62 + 0x4000) } }
    let s := { wk e [] [] with queues := [(1, que 1 [⟨0, 0, 0⟩, ⟨0, 0, 0⟩] 0), (2, que 2 [] 0)] }
    s.storeAct ((s.insts.find 5).getD inst) e = 3 ∧ (que 1 [⟨0, 0, 0⟩, ⟨0, 0, 0⟩] 0).full = true ∧
    (((e.put 0 0 0 ((s.handle 0 0 64).region.g0) 0).run.run s).1 matches .ok ()) = true ∧ ((mkItem 64 0 0).toNat % 2 ^ 32, (mkItem 64 0 0).toNat / 2 ^ 48) = (0, 64) := by decide +kernel

def fl (typ src chip teff : Nat) : Flit := { typ := typ, src := src, epoch := 0, tsend := 5, code := 9, aux := 47, chip := chip, teff := teff, tlast := 0, mz := 0, frm := 1 }
/-- The chip, running, in state a of a group in which chip 1, a neighbour, has state b. -/
def gs (a b : Nat) : State :=
  let s := { s0 with ctl := { s0.ctl with phase := 2 }, gcyc := 2 ^ 20 }
  { s with group := { s.group with tbl := [(0, mem a), (1, mem b)], nbrs := [⟨1, 2 ^ 20, 0, true, 0⟩] } }

theorem wit_FlitEvents :
    (∀ t ∈ [1, 3, 4, 5, 8], Taken (gs 2 2) (fl t 1 1 (2 ^ 20 + 64)) t) ∧ (gs 2 2).group.tbl.find 1 = some (mem 2) ∧ (gs 2 2).gcyc + 64 ≤ (fl 1 1 1 (2 ^ 20 + 64)).teff ∧
    (fl 1 1 1 (2 ^ 20 + 63)).teff < (gs 2 2).gcyc + 64 ∧ (gs 2 2).group.stOf 1 = 2 ∧ ownSt (gs 2 2) = 2 ∧ ownSt (gs 0 2) = 0 ∧ (gs 0 2).fabUp = true ∧
    (fl 5 0 0 0).src = (gs 2 2).group.chip ∧ Taken (gs 2 0) (fl 6 1 1 0) 6 ∧ (gs 2 0).group.coord = (gs 2 0).group.chip ∧ (gs 2 0).group.stOf 1 = 0 ∧
    Taken (gs 2 0) (fl 7 0 1 0) 7 ∧ ownSt (gs 1 2) = 1 ∧ (gs 1 2).fabUp = true ∧ (gs 1 2).group.seen.contains (1, 7, 5) = false ∧ s0.fabUp = false ∧ ({ fl 1 1 1 0 with mz := 1 } : Flit).mz ≠ 0 := by
  simp only [Taken]
  decide +kernel

theorem wit_GroupTimeEvents : let up := fun (s : State) (c : Nat) (f : Member → Member) => s.updMem c f
    (gs 2 2).beatDue = true ∧ (∀ n ∈ (gs 2 2).group.nbrs, n.up = true ∧ n.chip ≠ (gs 2 2).group.chip) ∧
    ({ gs 2 2 with group := { (gs 2 2).group with low := [(0, 2 ^ 21)] } } : State).ceilDue = true ∧ s0.ceilDue = false ∧
    (let s := { gs 2 2 with gcyc := 2 ^ 21 }; s.silenceDue 0 = true ∧ s.silenceDue 1 = true) ∧ (gs 2 2).silenceDue 1 = false ∧
    (up (gs 2 3) 1 fun m => { m with evict := some 0 }).evictDue 1 = true ∧ (up (gs 2 1) 1 fun m => { m with join := some 0 }).joinDue 1 = true ∧
    ({ gs 1 2 with group := { (gs 1 2).group with joinReq := some 0 } } : State).joinLate = true ∧
    (up (gs 2 4) 1 fun m => { m with depart := some 0 }).departDue 1 = true ∧ (up (gs 4 2) 0 fun m => { m with depart := some 0 }).departDue 0 = true ∧
    (4 : Int).natAbs ≤ 4 ∧ 4 < (-5 : Int).natAbs ∧ (gs 2 2).evictDue 1 = false := by decide +kernel

theorem wit_PowerEvents : let l := fun (tmp pm : Nat) => (localLimit 940 1900 pm tmp none 0 none).1
    (gs 2 2).ctl.phase = 2 ∧ (gs 2 2).ctl.failed.contains 5 = false ∧ (gs 2 2).gcyc % 65536 = 0 ∧ (gs 2 2).power.clamp = false ∧ ({ (gs 2 2).power with last := 45 } : Power).last + 2 ≤ l 500 1000 ∧
    ({ (gs 2 2).power with raise := 3 } : Power).raise = 3 ∧ l 1040 1000 < (gs 2 2).power.last ∧ (gs 2 2).power.last ≤ l 500 1000 ∧ l 500 1000 < (gs 2 2).power.last + 2 ∧
    (let s := { gs 2 2 with ccyc := 2 ^ 24, power := { (gs 2 2).power with clamp := true } }; s.clampDue = true ∧ s.fabUp = true ∧ s.group.nbrs ≠ []) ∧
    ownSt (gs 0 2) = 0 ∧ ownSt (gs 2 2) = 2 ∧ (65536 : Nat) ≠ 0 := by decide +kernel

/-- A chip that has booted, with queue 2's completion ring of 4 entries at 0x1000 of local storage, of which t − h are taken, and an entry that
waits. -/
def cs (t : Nat) : State :=
  let s := { gs 2 2 with ctl := { (gs 2 2).ctl with qbase := [(66, 0x1000)], compl := [⟨2, List.replicate 64 1, 0, 0⟩] } }
  (s.wrN (ctlKey 0x1000 + 8) 8 t).wrN (ctlKey 0x1000 + 16) 8 (64 * 2 ^ 32 + 4)

/-- What the rules of a post leave to the isolation windows is either way (`mayPost`). -/
theorem wit_ControlEvents :
    (unitsOk ((s0.core 0).ufence ++ [1]) = true ∧ unitsOk [3] = false) ∧ (s0.insts.find 5 = none ∧ (las 0 []).insts.find 5 = some { inst with stages := [], started := true }) ∧ s0.ctx? (s0.ctxOf 0) = some cx ∧
    s0.ctx? 0 = some cx ∧ (s0.walk cx.root 4096 0).toOption = some (0x201000, 1, 0x3F) ∧ s0.power.trip = false ∧
    (({ s0 with ctl := { s0.ctl with phase := 1 } } : State).ctl.phase = 1 ∧ (List.replicate 64 (0 : Byte)).length = 64 ∧ s0.ctl.rlen = none ∧ s0.ctl.rimg = []) ∧
    (({ s0.ctl with locked := true } : Ctl).allows 1 0 0 = false ∧ s0.ctl.locked = false) ∧ (AMap.get [] s0.ctl.mail 1).length < 64 ∧
    64 ≤ (AMap.get [] ({ s0.ctl with mail := [(1, List.replicate 64 ⟨0, []⟩)] } : Ctl).mail 1).length ∧
    ((gs 2 2).ctl.boxes 1)[1]? = some 13 ∧ ((gs 2 2).ctl.boxes 1)[2]? = none ∧
    (0x200 ≤ 0x27F ∧ 0x27F < 0x280) ∧ (cs 0).complDue 2 = true ∧ ((cs 0).ctl.compl.find? fun c => c.queue == 2) = some ⟨2, List.replicate 64 1, 0, 0⟩ ∧
    (cs 0).ctl.qbase.find (64 + 2) = some 0x1000 ∧ (cs 0).ring (ctlKey 0x1000) = some (0, 0, 64, 4) ∧ (cs 4).complDue 2 = false ∧
    ({ gs 2 2 with ccyc := 2 ^ 20 } : State).watchdogDue = true ∧ ({ gs 2 2 with ctl := { (gs 2 2).ctl with takeover := some 0 } } : State).watchdogDue = true ∧
    (gs 2 2).ctl.takeover = none ∧ (gs 2 2).ctl.spare = 0 ∧ 7 ∉ (gs 2 2).ctl.failed := by decide +kernel

/-- A running gang multiply holds up the kill of its context. -/
theorem wit_ContextHeld : let ganged := run0 fun k => { k with sl := { k.sl with mx := { k.sl.mx with ops := [run1 2 mmag0] } } }
    (ganged.gangHeld fun r => r.ctx == 0) = true ∧ ((run0 id).gangHeld fun r => r.ctx == 0) = false := by decide +kernel

theorem wit_ContextEvents : let out := { s0 with ctxs := [(0, { cx with state := 0 })], res := [] }
    s0.ctx? 0 = some cx ∧ cx.state = 1 ∧ s0.onCores 0 = true ∧ ({ s0 with cores := [] } : State).onCores 0 = false ∧ cx.again = false ∧
    out.ctx? 0 = some { cx with state := 0 } ∧ out.freeRes = some 0 ∧ cx.gone = none ∧ ({ cx with gone := some 4 } : Ctx).gone ≠ none ∧ s0.freeRes = some 1 ∧
    ({ out with queues := [(1, que 1 [] 0)] } : State).queues.find 1 = some (que 1 [] 0) ∧ (que 1 [] 0).items.length < (que 1 [] 0).depth ∧
    (que 1 [⟨0, 0, 0⟩, ⟨0, 0, 0⟩] 0).depth ≤ 2 := by decide +kernel

/-! ### Records. Walk 8 of instance 5 stands in a frame of object 1's function 0; `at_ s r p` says that p holds where the walk dispatches r. -/

def at_ (s : State) (r : LRec) (p : Cur → State → Bool) : Bool :=
  match s.curOf 8 with
  | some c => (c.vals r).all (Val.ready s) && (match s.takeStatic c.inst.cluster c.inst.ctx with
    | some u => p { c with rec_ := r } u
    | none => false)
  | none => false

theorem at_gives (s : State) (r : LRec) (p : Cur → State → Bool) (h : at_ s r p = true) : ∃ c u, At s 8 r c u ∧ p c u = true := by
  unfold at_ at h
  split at h
  · rw [Bool.and_eq_true] at h
    obtain ⟨h1, h2⟩ := h
    split at h2
    · exact ⟨_, _, ⟨_, ‹_›, rfl, h1, ‹_›⟩, h2⟩
    · cases h2
  · cases h

def lr (opds : List LOpd) (attrs : List LAttr) : LRec := ⟨9, 0, 1, opds, attrs⟩
def im (n : Nat) : LOpd := .imm (BitVec.ofNat 28 n)
def att (tag w : Nat) : LAttr := ⟨true, BitVec.ofNat 16 tag, [BitVec.ofNat 32 w]⟩
def ls (body : List Instr) (fr : List Frame) : State :=
  { las 0 [] with insts := [(5, { inst with stages := [] })], walks := [(8, ⟨5, none, 0, fr, 0, 0⟩)], objs := [(1, { placeObj 1 with funcs := [⟨true, [], [], body⟩] })] }
/-- The walk in one frame with the given parameters, nothing in its body. -/
def lp (ps : List Val) : State := ls [] [{ fr0 with params := ps }]
def go : Cur → State → Bool := fun _ _ => true
def fits (r : LRec) (vs : List Val) : Bool := firstIdx (fun p => !VDesc.agrees p.1 p.2) (r.types.zip vs) == none
def p0 : LOpd := .param 0
def p1 : LOpd := .param 1

/-- A walk that is not there, and one whose operand is still being produced. -/
theorem wit_Record : s0.curOf 8 = none ∧ (let s := { lp [.tok 20] with lops := [(20, uop0)] }; (s.curOf 8).any fun c => (c.vals (lr [p0] [])).all (Val.ready s) = false) = true ∧
    fits (lr [] []) [.i64 0] = true := by decide +kernel

/-- A TYPE of one tensor of n elements of FP32. -/
def ty (n : Nat) : LAttr := ⟨true, 1, [0x10, BitVec.ofNat 32 n]⟩
/-- A tensor of FP32 on the core with handle 64. -/
def t64 (n : Nat) : TRef := { ewk.ten with ext := [n], whole := [n], hnd := some 64 }
/-- Results that a record's TYPE accepts and refuses. -/
def goes (c : Cur) (q : LRec) (vs : List Val) (b : Bool) : Bool := match c.typed q vs with
  | .ok us => b && us.length == vs.length
  | .error _ => !b
theorem goes_holds (c : Cur) (q : LRec) (vs : List Val) (h : goes c q vs true = true) : ∃ us, c.typed q vs = .ok us := by
  unfold goes at h
  split at h
  · exact ⟨_, ‹_›⟩
  · cases h

/-- `loop` with no iteration, whose operands its TYPE accepts or refuses, and with some; `endloop` with an iteration left and at the last, its
operand as the carried value is or not; `brk`; the regions of `if`; frames; and a parameter's sharding, which an argument has or not. -/
theorem wit_RecordControl : let lc : LCtl := ⟨0, 0, 0, 2, [.i64 7]⟩
    let nl := lr [] []; let tl : LRec := ⟨9, 0, 2, [im 0, p0], [⟨true, 1, [0x10000000, 0x10, 64]⟩]⟩
    let body := [Instr.lIf 0 nl, .lNop 0 nl, .lElse 0 nl, .lNop 0 nl, .lEndif 0 nl]
    let fr := fun (ctl : List LCtl) => ls [.lLoop 0 nl, .lNop 0 nl, .lEndloop 0 nl] [{ fr0 with ctl := ctl, ip := 2 }]
    let lz := fun (n : Nat) => { lp [.ten (t64 n)] with objs := [(1, { placeObj 1 with funcs := [⟨true, [], [], [.lLoop 0 tl, .lEndloop 0 nl]⟩] })] }
    let n0 := fun (n : Nat) => at_ (lp []) (lr [im n, im 4] []) fun c _ => (((c.vals (lr [im n, im 4] [])).headD (.i64 0)).int).toNat == n
    (at_ (lp []) nl go ∧ n0 0 ∧ n0 1 ∧ n0 (2 ^ 27 - 1)) = true ∧
    (∀ n ∈ [63, 64], at_ (lz n) tl (fun c _ => ((tl.types.zip (.i64 0 :: (c.vals tl).drop 1)).all fun p => p.1.agrees p.2) == (n == 64) &&
      goes c (recOf c c.fr (c.close false c.fr.ip)) ((c.vals tl).drop 1) true) = true) ∧
    at_ (lp []) (lr [im 3] []) (fun c _ => (c.sharded (lr [im 3] []) [.i64 0]).toOption.isSome) = true ∧
    (∀ k ∈ [lc, { lc with n := 1 }], at_ (fr [k]) (lr [im 5] []) (fun c _ => decide (c.fr.ctl.getLast? = some k) && c.vals (lr [im 5] []) == [.i64 5] &&
      Val.agrees (.i64 5) (.i64 7) && (recOf c c.fr k.at_).types == [] && goes c (recOf c c.fr c.fr.ip) [.i64 5] true) = true) ∧
    at_ (fr [{ lc with carry := [.ten (t64 2)] }]) (lr [im 5] []) (fun c _ => c.vals (lr [im 5] []) == [.i64 5] && !Val.agrees (.i64 5) (.ten (t64 2))) = true ∧
    (∀ n ∈ [0, 1], at_ (fr [lc, ⟨1, 1, 0, 0, []⟩]) (lr [im n] []) (fun c _ => decide (c.fr.ctl.reverse.find? (·.kind == 0) = some lc) && goes c (recOf c c.fr (c.close false 0)) [] true) = true) ∧
    at_ (ls body [fr0]) (lr [im 1] []) (fun c _ => goes c (recOf c c.fr (c.close false 2)) [] true) = true ∧
    at_ (ls body [fr0]) (lr [im 0] []) (fun c _ => decide ((c.obj.body c.fr.fn)[c.close true c.fr.ip]? = some (.lElse 0 nl))) = true ∧
    at_ (ls [.lIf 0 nl, .lNop 0 nl, .lEndif 0 nl] [fr0]) (lr [im 0] []) (fun c _ => decide ((c.obj.body c.fr.fn)[c.close true c.fr.ip]? = some (.lEndif 0 nl))) = true ∧
    (∀ n ∈ [1, 2, 63, 64], at_ (ls [] (List.replicate n fr0)) nl (fun c _ => c.wk.frames.length == n) = true) ∧
    at_ (ls [] [fr0, fr0]) nl (fun c _ => decide (c.wk.frames.dropLast.getLast? = some fr0) && goes c (recOf c fr0 fr0.ip) [] true) = true := by decide +kernel

/-- Parameters of a called function, one of them declared sharded: an argument that is whole becomes a block of it; one that is sharded otherwise is
refused. -/
theorem wit_CallParameters : let call := lr [p0, p1] [att 5 0]; let d : TDesc := ⟨0, false, 0, [some 64], none, [0], 0⟩
    let s := fun (t : TRef) => { lp [.i64 7, .ten t] with objs := [(1, { placeObj 1 with funcs := [⟨true, [.i64, .ten d], [], []⟩] })], launches := [(3, lau 0 [])] }
    let ps := fun (c : Cur) => ((List.range (c.vals call).length).zip (c.vals call)).map fun p => c.asParam (call.word 5 0) p.1 p.2
    at_ (s (t64 64)) call (fun c _ => (ps c).all (·.isSome) && (ps c).length == 2) = true ∧
    at_ (s { t64 64 with axes := [1] }) call (fun c _ => (ps c).contains none) = true := by decide +kernel

/-- Launches: too deep, the pool full, an extent or the product out of range, and accepted at each limit; then children that have and have not
completed. -/
theorem wit_RecordControlLaunches : let lc := fun (es : List Nat) => lr (es.map im ++ [p0]) [⟨true, 6, [BitVec.ofNat 32 es.length, 4, 4]⟩, att 5 0]
    let s := fun (dep pool : Nat) => { lp [.i64 3] with launches := [(3, { lau 0 [] with depth := dep })], ctxs := [(0, { cx with pool := pool })] }
    let fit := fun (d n : Nat) (es : List Nat) (q : Launch → Ctx → List Int → Bool) => at_ (s d n) (lc es) fun c u => decide (u.launches.find c.inst.launch = some { lau 0 [] with depth := d }) &&
      decide (u.ctx? c.ctx = some { cx with pool := n }) && (c.vals (lc es)).all (fun v => u.opDone v.prod) && (tensorsOf ((c.vals (lc es)).drop ((lc es).word 6 0 % 16))).isEmpty &&
      (lc es).word 6 0 % 16 == es.length && fits (lc es) [.tok 0, .i64 0] && q { lau 0 [] with depth := d } { cx with pool := n } (((c.vals (lc es)).take es.length).map Val.int)
    fit 1 0 [2] (fun l _ _ => decide (l.ldepth < l.depth + 1)) = true ∧ fit 0 128 [2] (fun l x _ => decide (l.depth + 1 ≤ l.ldepth) && decide (128 ≤ x.pool)) = true ∧
    fit 0 127 [65536] (fun _ x es => decide (x.pool < 128) && es.any (65535 < ·)) = true ∧ fit 0 127 [4097, 4096] (fun _ _ es => decide (2 ^ 24 < prodN (es.map Int.toNat))) = true ∧
    fit 0 127 [4096, 4096] (fun l x es => decide (l.depth + 1 ≤ l.ldepth) && decide (x.pool < 128) && es.all (· ≤ 65535) && decide (prodN (es.map Int.toNat) ≤ 2 ^ 24)) = true ∧
    (let kid := fun (d k : Bool) => { ls [] [fr0] with insts := [(5, { inst with stages := [], kids := [4] })], launches := [(3, lau 0 []), (4, { lau 0 [] with done := d, killed := k })] }
     at_ (kid false false) (lr [] []) (fun c u => c.inst.kids == [4] && !u.opDone 4) = true ∧ at_ (kid true false) (lr [] []) (fun _ u => u.opDone 4) = true ∧
     at_ (kid true true) (lr [] []) (fun _ u => u.opDone 4 && (u.launches.find 4).any (·.killed)) = true) := by decide +kernel

def sop (op : Nat) (a b : Int) : State × LRec := (lp [.i64 (w64 a), .i64 (w64 b)], lr [p0, p1] [att 0x100 op])
theorem wit_RecordScalars : (∀ x ∈ [(3, 5, 0), (4, 5, 0), (5, 5, 0), (16, 5, 0), (16, 5, -1), (0, 5, 3), (1, 5, 3), (2, 5, 3), (3, -5, 3), (4, -5, 3), (5, 7, 3), (5, 7, -3), (6, 5, 3), (7, 5, 3),
      (10, -1, 3), (13, 5, 63), (13, 5, 64), (14, -5, 63), (14, -5, 64), (13, 5, -1), (16, 7, 4)],
      at_ (sop x.1 x.2.1 x.2.2).1 (sop x.1 x.2.1 x.2.2).2 (fun c _ => c.rec_.word 0x100 0 % 32 == x.1 && c.argZ c.rec_ 0 == x.2.1 && c.argZ c.rec_ 1 == x.2.2 && fits c.rec_ [.i64 0]) = true) ∧
    ((3 : Int) * (3 - 1) < 7 ∧ (7 : Int) ≤ 3 * 3) ∧ ((7 : Int) < -3 * (-2 - 1) ∧ (-3 : Int) * -2 ≤ 7) ∧ ((4 : Int) * (2 - 1) < 7 ∧ (7 : Int) ≤ 4 * 2) ∧ uns 63 < 64 ∧ 64 ≤ uns 64 ∧ 64 ≤ uns (-1) ∧
    (∀ code ∈ List.range 8, at_ (sop code 5 3).1 (sop code 5 3).2 (fun c _ => c.rec_.word 0x100 0 % 16 == code) = true) ∧
    at_ (lp [.ten ewk.ten]) (lr [p0, im 0] []) (fun c _ => tensorsOf ((c.vals (lr [p0, im 0] [])).take 1) == [ewk.ten]) = true ∧
    (∀ l ∈ [0, 8], at_ (lp []) (lr [im l] []) (fun c _ => (c.argZ c.rec_ 0).toNat == l) = true) ∧ at_ (lp []) (lr [im 0, im 1, im 2] []) go = true := by decide +kernel

/-- A working m at u answers a value of which p holds, and leaves u. -/
def same (m : SeqM (List Nat)) (u : State) (p : List Nat → Bool) : Bool := match m.run u with
  | .ok (a, v) => p a && decide (v = u)
  | .error _ => false
theorem same_run (m : SeqM (List Nat)) (u : State) (p : List Nat → Bool) (h : same m u p = true) : ∃ a, m.run u = .ok (a, u) ∧ p a = true := by
  unfold same at h
  split at h
  · rw [Bool.and_eq_true, decide_eq_true_eq] at h
    obtain ⟨h1, rfl⟩ := h
    exact ⟨_, ‹_›, h1⟩
  · cases h

def hd (st : Nat) : HEnt := { HEnt.free with st := st, region := ⟨0, [0], 0, 1, 4096, 0⟩ }
/-- s where context 0's handle 64 is as e says. -/
def wh (e : HEnt) (s : State) : State := s.updCl 0 fun k => { k with hnd := [(64, e)] }
def d64 (n : Nat) : TDesc := ⟨0, false, 0, [some n], none, [15], 0⟩
def qs (n : Nat) (s : State) : State := { s with launches := [(3, { lau 0 [] with qreg := n })] }
/-- Every entry of cluster 0's table is held, by context 1. -/
def jam (s : State) : State := s.updCl 0 fun k => { k with hnd := (List.range 4096).map fun h => (4096 + h, hd 2) }

/-- `alloc`: no entry, no core of that position, no quota, and a region at the quota in each space. -/
theorem wit_RecordHandlesAlloc : let al := fun (sp pos : Nat) => lr [] [ty 64, att 0x100 sp, att 0x101 pos]
    let ok1 := fun (r : LRec) (s : State) (q : Except (Nat × Nat × Nat) State → Bool) => at_ s r fun c u => decide (tensorTypeOf r = some (d64 64)) &&
      same (dynExts c r (d64 64) 0) u (· == [64]) && u.crewOf c == [0] && (u.freeHandle c.cl c.ctx).toOption == some 0 &&
      q (u.takeRegion c.cl c.ctx (u.quota c.inst) (r.word 0x100 0 % 4) 0 (tensorSpan 0 0 false (c.ownExt [64] [15]) ((d64 64).strides [64])).2 [0])
    at_ (jam (lp [])) (al 0 0) (fun c u => (u.freeHandle c.cl c.ctx).toOption.isNone) = true ∧
    ok1 (al 0 1) (lp []) (fun _ => true) = true ∧ ok1 (al 0 0) (lp []) (fun x => x.toOption.isNone) = true ∧ ok1 (al 0 0) (qs 1 (lp [])) (fun x => x.toOption.isSome) = true ∧
    ok1 (al 1 0) (lp []) (fun x => x.toOption.isNone) = true ∧ ok1 (al 1 7) (qs 1 (lp [])) (fun x => x.toOption.isSome) = true ∧
    (∀ n ∈ [64, 63], at_ (lp []) (al 1 0) (fun c _ => goes c (al 1 0) [.ten (t64 n)] (n == 64)) = true) := by decide +kernel

/-- Handle 64 as a free, a filling, a full and a draining one, and a bank of the core that its region feeds. -/
theorem wit_RecordHandlesFree : let t := t64 64
    let hs := fun (e : HEnt) => at_ (wh e (lp [.ten t])) (lr [p0] []) fun c u => tensorsOf ((c.vals (lr [p0] [])).take 1) == [t] && decide (u.handle c.cl c.ctx 64 = e)
    (∀ e ∈ [{ hd 2 with alloc := 9 }, hd 0, hd 3, hd 1, hd 2], hs e = true) ∧ at_ (lp [.ten ewk.ten]) (lr [p0] []) (fun c _ => tensorsOf ((c.vals (lr [p0] [])).take 1) == [ewk.ten]) = true ∧
    (let s := (wh (hd 2) (lp [.ten t])).updCore 0 fun k => { k with run := some Run.zero, sl := { k.sl with mx := { k.sl.mx with vSrcA := some ⟨0, 0, 0, 0, 0, some 64⟩ } } }
     at_ s (lr [p0] []) (fun c u => decide (u.pinned c.cl c.ctx 64 = some 0)) = true) ∧ at_ (wh (hd 2) (lp [.ten t])) (lr [p0] []) (fun c u => decide (u.pinned c.cl c.ctx 64 = none)) = true ∧
    fits (lr [p0] []) [.tok 0] = true := by decide +kernel

/-- Views that begin or end at the region's bounds, and one element outside them at each end; what a fence waits for; a wait whose TYPE accepts its
result or not; and an assertion of 0 and of 1. -/
theorem wit_RecordHandles : let t := { t64 64 with str := denseStr 0 0 [64] }
    (∀ p ∈ [(64, 0, true), (64, 3840, true), (64, 3844, false), (64, -4, false), (63, 3844, true)], let r := lr [p0, p1] [ty p.1]
      at_ (wh (hd 2) (lp [.ten t, .i64 (w64 p.2.1)])) r (fun c u => decide (tensorTypeOf r = some (d64 p.1)) && same (dynExts c r (d64 p.1) 2) u (· == [p.1]) && c.argZ r 1 == p.2.1 &&
        (t.viewed (d64 p.1) (c.ownExt [p.1] [15]) [p.1] p.2.1).within (t.origin + t.first + p.2.1) (u.regionSpan c t) == p.2.2 &&
        goes c r [.ten (t.viewed (d64 p.1) (c.ownExt [p.1] [15]) [p.1] p.2.1)] true) = true) ∧
    (let s := { lp [.ten { t with prod := 20 }, .i64 0] with lops := [(20, uop0)] }; at_ s (lr [p0] []) (fun _ u => !u.opDone 20) = true) ∧
    (∀ n ∈ [64, 63], at_ (lp [.ten t]) (lr [p0] [ty n]) (fun c _ => goes c (lr [p0] [ty n]) [.ten { t with prod := 9 }] (n == 64)) = true) ∧
    (∀ n ∈ [0, 1], at_ (lp []) (lr [im n] []) (fun c _ => c.argZ (lr [im n] []) 0 == n) = true) := by decide +kernel

/-- A tensor of FP32 in global memory (space 3) or on the core, its rows on their boundaries; k places it. -/
def tn (sp : Nat) (ext : List Nat) (k : Nat) : TRef :=
  { ewk.ten with ext := ext, whole := ext, str := denseStr 0 0 ext, base := BitVec.ofNat 64 (sp * 2 ^ 62 + 0x4000 * k), axes := ext.map fun _ => 15 }
def dful (c : Cur) (u : State) (ds : List (Nat × TRef)) : Bool := ds.all fun p => match p.2.hnd with
  | none => true
  | some h => (u.handle c.cl c.ctx h).alloc == p.2.alloc && (u.handle c.cl c.ctx h).st == 2
theorem dful_holds (c : Cur) (u : State) (ds : List (Nat × TRef)) (h : dful c u ds = true) : DestsFull c u ds := by
  intro p hp k hk
  have := List.all_eq_true.1 h p hp
  simpa [hk] using this
def placed (ts : List (Nat × TRef)) : Bool := ts.all fun p => !p.2.misplaced
theorem placed_holds (ts : List (Nat × TRef)) (h : placed ts = true) : Placed ts := fun p hp => by simpa using List.all_eq_true.1 h p hp
/-- No source overlaps a destination, nor one destination another. -/
def apart (sp : TSpec) : Bool := sp.srcs.all (fun p => sp.dsts.all fun d => !p.2.overlaps d.2) && (match sp.dsts with
  | [a, b] => !a.2.overlaps b.2
  | _ => true)
theorem apart_holds (sp : TSpec) (h : apart sp = true) : Apart sp := by
  rw [apart, Bool.and_eq_true] at h
  refine ⟨fun k p hp d hd ho => ?_, fun a b he => ?_⟩
  · have := List.all_eq_true.1 (List.all_eq_true.1 h.1 p (List.mem_of_getElem? hp)) d hd
    simp [ho] at this
  · have := h.2
    simp only [he] at this
    simpa using this

/-- How an operator's dispatch stands: `q` sees its lowering, the shape that is refused, and whether it is apart. -/
def disp (s : State) (i : Instr) (r : LRec) (q : Lower → Option (Nat × Nat) → Bool → Bool) : Bool :=
  at_ s r fun c u => let args := (c.vals r).map (Val.atDispatch u c)
    let sp := tspec i r args
    dful c u sp.dsts && placed (sp.srcs ++ sp.dsts) && !sp.dsts.isEmpty && (match lowering i r sp with
      | none => false
      | some lw => q lw (shapeBad i r args ((sp.srcs.zip lw.axes).map fun p => (p.1.1, if p.1.2.axes = p.2 then p.1.2.ext else c.ownExt p.1.2.whole p.2)) sp.dsts) (apart sp))
/-- It dispatches, with an operator of kind k in flight. -/
def kind (k : Nat) (lw : Lower) (b : Option (Nat × Nat)) (ap : Bool) : Bool := lowKind lw == k && b == none && ap
def par (n : Nat) : List LOpd := (List.range n).map fun k => .param (BitVec.ofNat 16 k)
def srcs (es : List (List Nat)) : List Val := ((List.range es.length).zip es).map fun p => .ten (tn 3 p.2 p.1)
def dsts (es : List (List Nat)) : List Val := ((List.range es.length).zip es).map fun p => .ten (tn 1 p.2 (p.1 + 1))
/-- The operators with record, sources, I64 operands after the first source, and destinations. -/
def opers : List ((Nat → LRec → Instr) × List LAttr × List (List Nat) × List Val × List (List Nat)) :=
  let a := [2, 64]
  [(.lLoad, [], [a], [], [a]), (.lRelayout, [], [a], [], [a]), (.lCast, [], [a], [], [a]), (.lEwu, [], [a], [], [a]), (.lCumsum, [], [a], [], [a]), (.lSoftmax, [], [a], [], [a]),
   (.lConcat, [], [[1, 64], [1, 64]], [], [a]), (.lMatmul, [], [[2, 4], [4, 8]], [], [[2, 8]]), (.lConv, [], [[1, 4, 4, 2], [1, 1, 2, 3]], [], [[1, 4, 4, 3]]),
   (.lEwb, [], [a, a], [], [a]), (.lEwt, [], [a, a, a], [], [a]), (.lReduce, [att 0x101 2], [a], [], [[2, 1]]), (.lNorm, [], [a, [64]], [], [a]),
   (.lRope, [], [a, [2, 32], [2, 32]], [], [a]), (.lAttn, [], [[1, 2, 2, 4], [1, 3, 2, 4], [1, 3, 2, 5]], [], [[1, 2, 2, 5]]), (.lGather, [], [[4, 64], [3]], [], [[3, 64]]),
   (.lScatter, [], [[4, 64], [3], [3, 64]], [], [[4, 64]]), (.lTopk, [], [a], [.i64 5], [[2, 5], [2, 5]]), (.lSort, [], [a], [], [a, a]),
   (.lPermute, [⟨true, 0x100, [1, 0]⟩], [[64, 2]], [], [a])]
def oper (x : (Nat → LRec → Instr) × List LAttr × List (List Nat) × List Val × List (List Nat)) (q : Lower → Option (Nat × Nat) → Bool → Bool) : Bool :=
  let vs := srcs x.2.2.1 ++ x.2.2.2.1 ++ dsts x.2.2.2.2
  let r := lr (par vs.length) x.2.1
  disp (lp vs) (x.1 8 r) r q

theorem wit_TensorDispatchAll : opers.all (fun x => oper x (kind 0)) = true := by decide +kernel
/-- `store` and `pad`; a source in shards, whose lowering first gathers it; a whole operand of a partial result, which no row of the lowering makes;
a wrong extent; a source that is its destination; a destination's handle in each state; and a misplaced source. -/
theorem wit_TensorDispatch : let r := lr (par 2) []
    let hl := fun (e : HEnt) => at_ (wh e (lp [.ten (tn 3 [64] 0), .ten { tn 1 [64] 0 with hnd := some 64 }])) r fun c u =>
      let args := (c.vals r).map (Val.atDispatch u c)
      ((tspec (.lLoad 8 r) r args).dsts.map fun p => (p.1, p.2.hnd)) == [(1, some 64)] && decide (u.handle c.cl c.ctx 64 = e)
    disp (lp (srcs [[2, 64]] ++ [.ten (tn 3 [2, 64] 9)])) (.lStore 8 r) r (kind 0) = true ∧
    (let r := lr (par 4) []; disp (lp (srcs [[2, 64]] ++ dsts [[4, 64]] ++ [.i64 0, .i64 0])) (.lPad 8 (lr [.param 0, .param 1, .param 2, .param 3] [])) r (kind 0) = true) ∧
    (let v := { tn 3 [8, 64] 0 with axes := [0, 15], ext := [2, 64] }; disp (lp [.ten v, .ten (tn 1 [8, 64] 1)]) (.lLoad 8 r) r (kind 2) = true) ∧
    at_ (lp [.ten (tn 3 [2, 64] 0), .ten { tn 1 [2, 64] 1 with part := 1 }]) r (fun c u => let args := (c.vals r).map (Val.atDispatch u c)
      (lowering (.lSoftmax 8 r) r (tspec (.lSoftmax 8 r) r args)).isNone && placed (tensIdx args)) = true ∧
    disp (lp (srcs [[2, 64]] ++ dsts [[3, 64]])) (.lLoad 8 r) r (fun _ b _ => b != none) = true ∧
    disp (lp [.ten (tn 3 [2, 64] 0), .ten (tn 3 [2, 64] 0)]) (.lStore 8 r) r (fun _ b ap => b == none && !ap) = true ∧
    (∀ e ∈ [hd 1, { hd 2 with alloc := 9 }, hd 0, hd 3, hd 2], hl e = true) ∧
    at_ (lp [.ten { tn 3 [64] 0 with base := BitVec.ofNat 64 (3 * 2 ^ 62 + 8) }, .ten (tn 1 [64] 0)]) r (fun c u => let sp := tspec (.lLoad 8 r) r (c.vals r)
      dful c u sp.dsts && (sp.srcs ++ sp.dsts).any fun p => p.2.misplaced) = true := by decide +kernel
/-- The first source of the `store` above is its destination, and `store` allows no such use. -/
theorem wit_notApart : let sp := tspec (.lStore 8 (lr (par 2) [])) (lr (par 2) []) [.ten (tn 3 [2, 64] 0), .ten (tn 3 [2, 64] 0)]
    sp.srcs[0]? = some (0, tn 3 [2, 64] 0) ∧ (1, tn 3 [2, 64] 0) ∈ sp.dsts ∧ (tn 3 [2, 64] 0).overlaps (tn 3 [2, 64] 0) = true ∧ sp.inpl.contains 0 = false := by decide +kernel

theorem wit_CrewAndCollectives : let u3 := fun (n : Int) => (lp [.i64 (w64 n), .ten (tn 3 [64] 0), .ten (tn 1 [64] 1)], lr (par 3) [att 0x100 4, att 0x101 2])
    let cl := fun (a d : List Nat) => (lp [.ten (tn 3 a 0), .ten (tn 3 d 9)], lr (par 2) [att 0x102 1])
    let clOk := fun (x : State × LRec) (i : LRec → Instr) (q : Cur → TRef → TRef → Bool) => at_ x.1 x.2 fun c u => match tspec (i x.2) x.2 ((c.vals x.2).map (Val.atDispatch u c)) with
      | ⟨[(_, a)], [(_, d)], _, _⟩ => dful c u [(1, d)] && placed [(0, a), (1, d)] && !a.overlaps d && (u.ctx? c.ctx).isSome && q c a d
      | _ => false
    (∀ n ∈ [-1, 0, 3], at_ (u3 n).1 (u3 n).2 (fun c u => let args := (c.vals (u3 n).2).map (Val.atDispatch u c); let as_ := uopArgs args
      dful c u (uopTens 2 true as_) && uopTens 2 true as_ == [(2, tn 1 [64] 1)] && placed (tensIdx args) && (args.headD (.i64 0)).int == n && u.crewOf c == [0]) = true) ∧
    clOk (cl [4, 64] [4, 64]) (.lAred 8) (fun _ a d => a.ext == d.ext) = true ∧
    (∀ i ∈ [Instr.lAgath 8, Instr.lA2a 8], clOk (cl [4, 64] [16, 64]) i (fun _ a d => a.fmt == d.fmt && a.ext.length == d.ext.length) = true) ∧
    clOk (cl [8, 64] [2, 64]) (.lRscat 8) (fun c a d => d.ext == setAt a.ext (collAxis (cl [] []).2) (blockExt [collSize c 1]
      [(firstIdx (· == c.inst.idx) (collSet c.lev c.inst.idx 1)).getD 0] (a.ext.getD (collAxis (cl [] []).2) 0) 0)) = true ∧
    (∀ p ∈ [((-1 : Int), (0 : Int)), (4, 0), (0, -1), (0, 65536), (0, 0), (3, 65535)], let s := { lp [.ten (tn 3 [64] 0), .i64 (w64 p.1), .i64 (w64 p.2)] with launches := [(3, lau 0 [])] }
      let r := lr (par 3) [att 0x102 1]
      at_ s r (fun c u => tensIdx ((c.vals r).take 1) == [(0, tn 3 [64] 0)] && !(tn 3 [64] 0).misplaced && dful c u [(0, tn 3 [64] 0)] && c.argZ r 1 == p.1 && c.argZ r 2 == p.2 && collSize c 1 == 4) = true) := by
  decide +kernel

/-- The queues of l are declared. -/
def withQ (l : List Nat) : State := { lp [] with queues := l.map fun k => (k, que k [] 0) }
theorem find_map {α : Type} (f : Nat → α) (v : Nat) (l : List Nat) (h : v ∈ l) : (AMap.find (l.map fun k => (k, f k)) v).isSome = true := by
  induction l with
  | nil => cases h
  | cons a l ih =>
    simp only [List.map_cons, AMap.find]
    split
    · rfl
    · exact ih ((List.mem_cons.1 h).resolve_left ‹_›)
theorem newQueue_none (s : State) (x i c d z k n : Nat) (h : ∀ v ∈ List.range 4096, (s.queues.find (x * 4096 + v)).isSome = true) :
    s.newQueue x i c d z k n = none := by
  unfold State.newQueue
  rw [List.find?_eq_none.2 fun v hv => by rw [Option.isNone_iff_eq_none]; intro e; have := h v hv; rw [e] at this; cases this]
theorem withQ_find (l : List Nat) (v : Nat) (h : v ∈ l) : ((withQ l).queues.find (0 * 4096 + v)).isSome = true := by
  rw [Nat.zero_mul, Nat.zero_add]
  exact find_map (fun k => que k [] 0) v l h
/-- With every queue of the context declared, `qdecl` finds no entry. -/
theorem wit_RecordPipelinesFull (i c d z k n : Nat) : (withQ (List.range 4096)).newQueue 0 i c d z k n = none :=
  newQueue_none _ _ _ _ _ _ _ _ (withQ_find _)

/-- Walk 8 as the walk of stage 0 on core 0, whose slice has reserved n of its input and m of its output; its one frame has the given parameters. -/
def sw (n m : Nat) (ps : List Val) : State :=
  { (run0 fun k => { k with sl := { k.sl with walk := some ⟨8, [(0, n)], [(1, m)], false⟩ } }) with
    walks := [(8, ⟨5, some 0, 0, [{ fr0 with params := ps }], 0, 0⟩)], objs := [(1, { placeObj 1 with funcs := [⟨true, [], [], []⟩] })],
    queues := [(0, que 0 [⟨11, 8, 0⟩] 0), (1, que 1 [] 0)] }

theorem wit_RecordPipelines : let qd := lr [] [⟨true, 0x100, [4, 8]⟩]
    let nl := lr [] []
    let st := fun (m : Nat) (body : List Instr → List Instr) => (ls (body [.lNop 0 nl, .lEndstage 0 nl]) [fr0], lr [im 0] [⟨true, 0x100, [0x100]⟩, ⟨true, 0x102, [BitVec.ofNat 32 (m * 256 + 65536 * 16)]⟩])
    let one := fun (m : Nat) => st m fun b => .lStage 0 (st m id).2 :: b
    let tl := fun (t : TRef) => (qs 9 (lp [.ten t, .i64 7]), lr [p0, p1] [att 0x100 0x100, ⟨true, 0x101, [64]⟩])
    at_ (lp []) qd (fun c u => ((u.newQueue c.ctx c.wk.inst c.cl 4 8 0 0).any fun p => p.1 == 4) && bitsN (((qd.attr 0x100).getD []).getD 0 0).toNat 0 13 == 4) = true ∧ at_ (withQ (List.range 4096)) qd go = true ∧
    (∀ p ∈ [(1, true), (2, false)], at_ (one p.1).1 (one p.1).2 (fun c _ => let mins := ((stageRecs (c.obj.body c.fr.fn)).map fun q => (schedOf q).2.1).foldl (· + ·) 0
      c.inst.stages == [] && decide (mins ≤ c.inst.cores.length) == p.2) = true) ∧
    at_ { sw 0 0 [] with lops := [(20, { uop0 with walk := 8 })] } nl (fun c u => c.wk.stage == some 0 && u.lops.any fun p => p.2.walk == c.w) = true ∧
    (∀ n ∈ [0, 1], at_ (sw n 0 []) nl (fun c u => u.lops == [] && (u.sl c.wk.core).walk == some ⟨8, [(0, n)], [(1, 0)], false⟩) = true) ∧
    at_ (ls [.lEndstage 0 nl, .lStage 0 nl] [fr0]) nl (fun c _ => !(stageRecs ((c.obj.body c.fr.fn).drop (c.fr.ip + 1))).isEmpty) = true ∧
    (∀ b ∈ [[Instr.lEndstage 0 nl], [.lStage 0 nl, .lEndstage 0 nl]], at_ (ls b [{ fr0 with ip := b.length - 1 }]) nl (fun c u => (stageRecs ((c.obj.body c.fr.fn).drop (c.fr.ip + 1))).isEmpty &&
      ((u.settlePipe 5).insts.find 5).any fun x => (u.settlePipe 5).pipeDone x == (b.length == 1)) = true) ∧
    (∀ n ∈ [0, 1], at_ (sw n n [.i64 0, .i64 1]) (lr [p0] []) (fun c u => (u.sl c.wk.core).walk == some ⟨8, [(0, n)], [(1, n)], false⟩ && u.queues.find (qkey c.ctx (c.argZ (lr [p0] []) 0)) == some (que 0 [⟨11, 8, 0⟩] 0) &&
      u.portOf c.wk.core (c.portIdx 0 0 false) == some (0, 0, 1) && takeItem c.w [⟨11, 8, 0⟩] == some (11, []) && c.portIdx 0 0 false == 0) = true ∧
      at_ (sw n n [.i64 0, .i64 1]) (lr [p1, p0] []) (fun c u => u.queues.find (qkey c.ctx (c.argZ (lr [p1, p0] []) 0)) == some (que 1 [] 0) && c.portIdx 0 1 true == 1 &&
        u.portOf c.wk.core (c.portIdx 0 1 true) == some (1, 1, 1) && (que 1 [] 0).kind == 0) = true) ∧
    at_ (tl (tn 3 [256] 0)).1 (tl (tn 3 [256] 0)).2 (fun c u => match (takeTiles c 256 1).run u with
      | .ok (regs, v) => regs.length == 1 && (v.newQueue c.ctx c.wk.inst c.cl 1 256 3 0).isSome && (tn 3 [256] 0).isGlobal && !(tn 3 [256] 0).misplaced
      | .error _ => false) = true ∧ (tn 1 [256] 0).isGlobal = false ∧ ({ tn 3 [256] 0 with base := BitVec.ofNat 64 (3 * 2 ^ 62 + 8) } : TRef).misplaced = true ∧
    (tensorSpan 0 0 false [64] (denseStr 0 0 [64])).2 = 256 ∧ bitsN 0x100 8 8 = 1 := by decide +kernel

/-- A container with a note and a LORYIL section of one function that only returns (R402, R404, R45 to R48). -/
def img : List Byte :=
  let sect := fun (t off len : Nat) => toBytes t 4 ++ toBytes 0 4 ++ toBytes off 8 ++ toBytes len 8 ++ toBytes len 8
  let ws := [0x4C59524C, 1, 1, 8, 0, 17, 0, 0, 12, 5, 0, 1, 0, 1, 1, 0, 8]
  toBytes 0x4F564249 4 ++ toBytes 1 2 ++ toBytes 0 2 ++ toBytes 2 4 ++ toBytes 0 4 ++ toBytes (192 + 4 * ws.length) 8 ++ List.replicate 40 0 ++
    sect 1 128 64 ++ sect 2 192 (4 * ws.length) ++ [0, 0, 1] ++ List.replicate 61 0 ++ ws.flatMap (toBytes · 4)
def hh : CmdHdr := ⟨2, 7, [0x10000, 0x20000, 0x30000, 0x40000, 0x50000, 0x60000]⟩
/-- A booted chip with context 0, object 1 of one entry function, and l written at 0x8000. -/
def cm (l : List Byte) : State :=
  { (gs 2 2).wrBytes 0x8000 l with chunks := [], objs := [(1, { placeObj 1 with funcs := [⟨true, [], [], []⟩] })], ctxs := [(0, { cx with objs := [1] })] }
def parsed (s : State) : Bool := s.ctl.phase == 2 && !s.ctl.failed.contains 0 && !s.cqFull hh.queue && s.ctl.takeover.isNone
theorem parsed_holds (s : State) (sched : Bool) (h : parsed s = true) : Parsed s hh sched := by
  simp only [parsed, Bool.and_eq_true, beq_iff_eq, Bool.not_eq_true', Option.isNone_iff_eq_none] at h
  exact ⟨h.1.1.1, h.1.1.2, h.1.2, fun _ => h.2⟩
def x0 (f : Ctx → Ctx) (l : List Byte) : State := { cm l with ctxs := [(0, f { cx with objs := [1] })] }
def ob (f : Obj → Obj) (s : State) : State := { s with objs := [(1, f { placeObj 1 with funcs := [⟨true, [], [], []⟩] })] }
def wds (l : List Nat) : List Byte := l.flatMap (toBytes · 8)

/-- A load that succeeds and one of bytes that hold no container. -/
theorem wit_HostCommandsLoad : parsed (cm img) = true ∧ ((cm img).loadImage hh ((cm img).rdBytes 0x8000 260)).toOption.isSome = true ∧ ((cm img).loadImage hh ((cm img).rdBytes 0x8001 260)).toOption = none := by
  decide +kernel

theorem wit_HostCommands : let d := fun (w : Nat → Nat) => wds ((List.range 32).map w)
    let w := fun (s : State) (i : Nat) => s.rdN (0x8000 + 8 * i) 8
    let l0 := fun (dom : Nat) => cm (wds [2 ^ 36 + 2 ^ 31, 2 ^ 48 + 1, 2 ^ 32 + 24 + dom])
    let ws := fun (s : State) => (List.range (2 + bitsN (s.rdN 0x8000 8) 36 4 + bitsN (s.rdN 0x8000 8) 40 8)).map fun k => s.rdN (0x8000 + 8 * k) 8
    let rec_ := fun (k : Nat) (sl : Option Slice) => ({ sr0 with kind := k, sl := sl } : SRec)
    (parsed (cm []) = true ∧ s0.ctl.phase ≠ 2 ∧ (cs 4).ctl.phase = 2 ∧ (cs 4).ctl.failed.contains 0 = false ∧ (cs 4).cqFull hh.queue = true) ∧
    ((cm []).objs.find 2 = none ∧ ((cm []).objs.find 1).isSome = true ∧ ({ cm [] with ctxs := [], cores := [] } : State).unloadReady 1 false = true ∧ (cm []).unloadReady 1 false = false ∧ (cm []).unloadReady 1 true = false ∧ ({ cm [] with cores := [] } : State).unloadReady 1 true = true) ∧
    (descOk (w (cm (d fun i => if i = 4 then 5 else 0))) = true ∧ (cm []).ctx? 5 = none ∧ descOk (w (cm (d fun i => if i = 0 then 1 else 0))) = false ∧
      descOk (w (cm (d fun _ => 0))) = true ∧ ((cm []).ctx? 0).any (·.state != 3) = true ∧ ((x0 (fun x => { x with state := 3 }) []).ctx? 0).any (·.state == 3) = true) ∧
    ((cm []).ctx? 0 = some { cx with objs := [1] } ∧ cx.state ≠ 3 ∧ parsed (x0 id []) = true ∧ ((x0 id []).gangHeld fun r => r.ctx == 0) = false) ∧
    (let k := (cm []).updCore 0 fun k => { k with run := some Run.zero, sl := { k.sl with id := 1, mx := { k.sl.mx with ops := [run1 2 mmag0] } } }
     parsed k = true ∧ (k.gangHeld fun r => r.ctx == 0) = true) ∧
    ((x0 (fun x => { x with objs := [] }) []).staticFree 0 (placeObj 1) = true ∧
      (wh (hd 2) (ob (fun o => { o with nhstat := 1, hbase := 64 }) (cm []))).staticFree 0 { placeObj 1 with nhstat := 1, hbase := 64 } = false ∧ ((cm []).ctx? 0).any (·.objs.contains 1) = true ∧
      ((x0 (fun x => { x with objs := [] }) []).ctx? 0).any (·.objs.contains 1) = false) ∧
    (({ cm [] with ctl := { (cm []).ctl with failed := [1] } } : State).schedLost = true ∧ (cm []).schedLost = false ∧ (cm []).hostLaunch 0 1 (ws (cm [])) = none ∧
      (∀ k ∈ [0, 1], parsed (l0 k) = true ∧ ((l0 k).hostLaunch 0 1 (ws (l0 k))).any (fun p => (p.1.levels.headD ⟨1, 0, 0⟩).domain == k) = true ∧ ownSt (l0 k) = 2) ∧ hh.place ≠ [] ∧ parsed (l0 0) = true ∧
      ({ hh with place := [] } : CmdHdr).place = [] ∧ (gs 2 2).group.members.contains 1 = true) ∧
    (∀ k ∈ [0, 2], ∀ x ∈ [none, some Slice.zero], ({ cm [] with recs := [rec_ k x] } : State).recs = [rec_ k x] ∧ (rec_ k x).ctx = 0 ∧ (rec_ k x).idx = 0 ∧ parsed { cm [] with recs := [rec_ k x] } = true) ∧
    ((0 : Nat) < cx.srcount ∧ cx.srcount ≤ 4 ∧ (∀ p ∈ (cm []).walks, p.2.st ≠ 1) ∧ (∀ p ∈ (cm []).lops, p.2.fault = none) ∧ (x0 (fun x => { x with state := 2 }) []).ctx? 0 = some { cx with objs := [1], state := 2 }) ∧
    ((65 : Nat) ≤ 65 ∧ (65 : Nat) < 66 ∧ ({ (cm []).ctl with failed := [6] } : Ctl).failed.contains 6 = true ∧ (cm []).ctl.failed.contains 6 = false ∧ (List.replicate 32 (1 : Byte)).length = 32) := by decide +kernel

/-! ### The step -/

/-- The chip after reset with one bundle of 4 or 10 bytes where it fetches; `bun` is its bundle. -/
def rf (nbits w : Nat) : State := State.reset.withFetchWord nbits w
def obj0 (s : State) : Obj := ((s.objs.find s.objs.length).getD (placeObj 1))
def quiet (s : State) : Bool := !s.power.trip && s.inbox == [] && s.innerStep.isNone && s.dueEvent.isNone && s.seqStep.isNone && s.decision.isNone
/-- The bundle that core c's fetch decodes at s. -/
def bun (s : State) (c : Nat) : Option (Obj × Bundle) := match (s.sl c).orec with
  | some r => if r.builtin then none else match s.objs.find r.obj with
    | some o => match (inTurn s c).fetch c r.obj o with
      | .bytes l => (decodeBundle (((s.sl c).pc.toNat - o.textVA) % 4096) l).toOption.map fun b => (o, b)
      | _ => none
    | none => none
  | none => none
def decs (s : State) (c : Nat) (p : Obj → Bundle → Bool) : Bool :=
  quiet s && s.nextCore == some c && !s.frozen (s.core c) && (s.core c).extra == 0 && (bun s c).any fun x => p x.1 x.2
/-- What an instruction's `exec` leaves of the slot: 0 done, 1 stalled, 2 trapped, 3 no next state. -/
def stat (i : Instr) (s : State) : Nat := match exec i s with
  | .next t => (match t.iss.stat with
    | .ok => 0
    | .stalled => 1
    | _ => 2)
  | _ => 3
/-- The bundle of s as `w` words it out has one slot, enabled or not, whose instruction leaves the slot as n says. -/
def slot1 (s : State) (en : Bool) (n : Nat) : Bool := decs s 0 fun _ b => match b.slots with
  | [k] => (s.sl 0).enabled k.psel.toNat k.neg == en && (!en || stat k.ins (atSlot (opened (inTurn s 0) 0 b) k) == n)
  | _ => false
def nexts (s : State) : Bool := match step s with
  | .next _ => true
  | _ => false
/-- The chip after reset with a bundle's bytes. -/
def rb (l : List Byte) : State := rf (8 * l.length) (ofBytes l)

theorem wit_StepKeepsMemoryCanonical : State.reset.MemOk ∧ (rf 32 0x300).MemOk ∧ nexts (rf 32 0x300) = true := by
  simp only [State.MemOk]
  decide +kernel

theorem wit_EncodingRoundTrip : let i := Instr.add { fn := 0, src := .reg 0 0 2, a := 1, d := 3 }
    i.WellFormed ∧ (encodeSlot 2 true i).any (fun p => classOf 0 == p.1) = true ∧ (encodeSlot 0 false i).isSome = true ∧ (4086 : Nat) + 10 ≤ 4096 ∧ (4092 : Nat) + 4 ≤ 4096 ∧
    (opsL 3 ⟨18, 0, 1, [.val 1 1, .val 3 0], [⟨true, 0x0100, [0]⟩]⟩ 0x11).any fieldsOk = true := by
  simp only [Instr.WellFormed]
  decide +kernel

/-- An input, an event that is due, a record, a core's decision point, and bundles: `NOP`; `add`, whole; a `div` that waits; a `trap`; a false
predicate; two slots, the first disabled or enabled. -/
theorem wit_StepRunsDecodedBundle : let add : SA := { fn := 0, src := .reg 0 0 2, a := 1, d := 3 }
    let two := fun (p : Byte) => [0x03, 0, 0, 0, p, 0x18, 0x02, 0x01, 0, 0, 0x01, 0x10, 0xC4, 0, 0xC0, 0]
    let busy := fun (s : State) => s.updCore 0 fun k => { k with divFree := 20 }
    (({ State.reset with inbox := [.eWdKick] } : State).inbox = [.eWdKick] ∧ State.reset.power.trip = false ∧ cmdHdr .eWdKick = none) ∧
    ((let s := { State.reset with ctl := { State.reset.ctl with phase := 2 }, ccyc := 2 ^ 20 }; s.inbox == [] && s.innerStep.isNone && s.dueEvent.isSome) = true) ∧
    ((let s := { ls [.lNop 8 (lr [] [])] [fr0] with launches := [], clusters := [], cores := [] }; !s.power.trip && s.inbox == [] && s.innerStep.isNone && s.dueEvent.isNone && s.seqStep.isSome) = true) ∧
    ((let s := { run0 id with walks := [], launches := [], gcyc := 1 }; !s.power.trip && s.inbox == [] && s.innerStep.isNone && s.dueEvent.isNone && s.seqStep.isNone &&
      s.decision == some (0, .eItemBoundary 0)) = true) ∧
    decs (rf 32 0x300) 0 (fun _ b => b == ⟨4, 3, []⟩ && stat (.nop 3) (atSlot (opened (inTurn (rf 32 0x300) 0) 0 b) ⟨7, 0, false, .nop 3⟩) == 0) = true ∧
    slot1 (rb (encode (.add add))) true 0 = true ∧ slot1 (busy (rb (encode (.div add)))) true 1 = true ∧ slot1 (rb (encode (.trap ⟨none, 5, 0⟩))) true 2 = true ∧
    slot1 (rb [0x01, 0, 0, 0, 0x81, 0x18, 0x02, 0x01, 0, 0]) false 0 = true ∧
    (∀ p ∈ [((0x81 : Byte), false), (0x01, true)], decs (rb (two p.1)) 0 (fun _ b => match b.slots with
      | [k, _] => ((rb (two p.1)).sl 0).enabled k.psel.toNat k.neg == p.2 && stat k.ins (atSlot (opened (inTurn (rb (two p.1)) 0) 0 b) k) == 0
      | _ => false) = true) := by decide +kernel

/-- Every element of the zero register is zero. -/
theorem elem_zero (i : Nat) : (0 : VReg).elem i = 0 := by
  have h : (0 : VReg).toNat = 0 := BitVec.toNat_zero
  unfold VReg.elem
  rw [h, Nat.zero_div, Nat.zero_mod]

theorem wit_VectorTranspose : ok (useVU 4 6) sv yes = true ∧ Transposed (0 : VReg) 0 vmAll :=
  ⟨by decide +kernel, fun _ _ _ _ _ _ _ => by rw [elem_zero, elem_zero]⟩
theorem wit_ShardBlocks : (0 : Nat) < 8 ∧ 0 < [4].getD 0 1 ∧ 0 < [4].length ∧ [3].getD 0 0 < [4].getD 0 1 ∧ blockExt [4] [3] 5 0 = 0 ∧ blockExt [4] [2] 5 0 = 1 ∧ blockOff [4] [2] 5 0 = 4 := by decide

/-! ### Worked examples of spec/: each number below stands in the chapter named. -/

/-- The example after R34: lane 0 of SEED 1, and 1 + 2⁻⁸ + 2⁻²⁰ rounded to BF16 under SR. -/
theorem test_stochastic_rounding : genStep (seedOf 1 0) = 0x42021 ∧ genAddend (genStep (seedOf 1 0)) = 4 ∧
    ([4, 32759].all fun r => (roundTo 1 5 r false (.fin false (2 ^ 20 + 2 ^ 12 + 1) (2 ^ 20))).1 == 0x3F80) = true ∧
    (roundTo 1 5 32760 false (.fin false (2 ^ 20 + 2 ^ 12 + 1) (2 ^ 20))).1 = 0x3F81 := by decide +kernel

/-- The examples of spec/02 on an MXFP8 element of 448 under the scale 2^127 and on an INT8 sum that drains as INT32. -/
theorem test_conversions : convert 3 1 0 0 true (some 0xFE) 0x7E = (0x7F7F, 1, 0) ∧ (convert 3 1 0 0 false (some 0xFE) 0x7E).1 = 0x7F80 ∧
    convert 3 1 0 0 false (some 0xE3) 0x38 = (0x7180, 0, 0) ∧ roundTo 7 0 0 true (.int 3000000000) = (2147483647, true) ∧
    roundTo 7 0 0 true (.int 1000000000) = (1000000000, false) := by decide +kernel

/-- The example of spec/03 on layouts: element (3, 10) of a BF16 tensor of rows of 128 bytes, and column 0 under L_SWZ128. -/
theorem test_layout : (let t := fun lay => (⟨0, 0, 1, lay, [16, 64], [128]⟩ : Side)
    (t 3).byteAt [3] 20 = 420 ∧ (t 0).byteAt [3] 20 = 404 ∧ ((List.range 8).map fun i => ((t 3).byteAt [i] 0 / 16) % 32) = [0, 9, 18, 27, 4, 13, 22, 31]) := by decide +kernel

/-- The example of spec/09 on a tree reduction and a serial scan of 2^24, 1, 0, 1 in a row: 2^24 + 2, and 2^24. -/
theorem test_reduce_scan : let s := sv.onSl fun x => { x with vreg := [(1, BitVec.ofNat 32768 (0x4B800000 + 2 ^ 32 * 0x3F800000 + 2 ^ 96 * 0x3F800000))], rnddef := 0 }
    let res := fun (o : Host.Outcome State Fault Refusal) (e : Nat) => match o with
      | .next t => t.me.pend.any fun p => match p.wr with
        | .vreg 2 _ x => x.elem e == 0x4B800001 - (if e = 63 then 1 else 0)
        | _ => false
      | _ => false
    res (exec (.vredr ⟨0, 0, 6, 0, 0, 0, 0, 1, 2⟩) s) 0 = true ∧ res (exec (.vscanr ⟨0, 0, 6, 0, 0, 0, 0, 1, 2⟩) s) 63 = true := by decide +kernel

/-- The example of spec/12 on a compressed block under ZRL. -/
theorem test_zrl : let pay : List Byte := [0x05, 0x80, 0x3F, 0x00, 0x40, 0x40, 0x40] ++ List.replicate 31 0xFF ++ [0xF9]
    pay.length = 39 ∧ ((decBlock 0xFF00010027 pay).toOption.any fun l => l.take 8 == [0x80, 0x3F, 0x00, 0x40, 0x40, 0x40, 0, 0]) = true := by decide +kernel

/-- The examples of spec/06 on LEAD and of spec/16 on POWER's evaluation: code 43 for power, the sensors steady at 90 degrees. -/
theorem test_lead_and_power : ({ s0.group with d := 2, h := 300 } : Group).lead = 1880 ∧ localLimit 940 1900 1980 900 (some 900) 1880 none = (43, 1) := by decide +kernel

/-- One step from the chip with the empty bundle where it fetches: it retires, and the pc goes past its four bytes (R207, R209, R212). -/
theorem test_step_nop : (match step (State.reset.withFetchWord 32 0x300) with
    | .next t => (t.sl 0).pc == 4
    | _ => false) = true := by decide +kernel

/-- What a scalar instruction of s0 plans for s7: s1 to s4 hold 5, 3, 64 and −7. -/
def planned (i : Instr) : Option W64 := match exec i s0 with
  | .next t => t.me.pend.findSome? fun p => match p.wr with
    | .sreg 7 v => some v
    | _ => none
  | _ => none
/-- Two's complement, truncating division, the sign of a remainder, and logical against arithmetic shifts (R235 to R239). -/
theorem test_integers : planned (.sub (sa 0 1 2 7)) = some 2 ∧ planned (.sub (sa 0 2 1 7)) = some (w64 (-2)) ∧ planned (.mul (sa 0 4 1 7)) = some (w64 (-35)) ∧
    planned (.mulh (sa 0 4 1 7)) = some (w64 (-1)) ∧ planned (.div (sa 0 4 2 7)) = some (w64 (-2)) ∧ planned (.rem (sa 0 4 2 7)) = some (w64 (-1)) ∧
    planned (.sra (sa 0 4 2 7)) = some (w64 (-1)) ∧ planned (.shr (sa 0 4 2 7)) = some (BitVec.ofNat 64 (2 ^ 61 - 1)) ∧ planned (.clz (sa 0 1 0 7)) = some 61 ∧
    planned (.popc (sa 0 4 0 7)) = some 62 := by decide +kernel

/-- Every operator value of R50. -/
theorem test_decode_loryil : ([(0x00, Instr.lNop), (0x01, .lLoop), (0x02, .lEndloop), (0x03, .lBrk), (0x04, .lIf), (0x05, .lElse), (0x06, .lEndif), (0x07, .lCall), (0x08, .lRet),
    (0x09, .lLaunch), (0x0A, .lSyncchild), (0x10, .lConst), (0x11, .lSop), (0x12, .lScmp), (0x13, .lSel), (0x14, .lDim), (0x15, .lIdx), (0x20, .lAlloc), (0x21, .lFree), (0x22, .lView),
    (0x23, .lLoad), (0x24, .lStore), (0x25, .lRelayout), (0x26, .lCast), (0x27, .lPad), (0x28, .lConcat), (0x30, .lMatmul), (0x31, .lConv), (0x32, .lEwu), (0x33, .lEwb), (0x34, .lEwt),
    (0x35, .lReduce), (0x36, .lSoftmax), (0x37, .lNorm), (0x38, .lRope), (0x39, .lAttn), (0x3A, .lGather), (0x3B, .lScatter), (0x3C, .lTopk), (0x3D, .lSort), (0x3E, .lPermute),
    (0x3F, .lCumsum), (0x50, .lStage), (0x51, .lEndstage), (0x52, .lQdecl), (0x53, .lQpush), (0x54, .lQpop), (0x55, .lWalk), (0x60, .lAred), (0x61, .lAgath), (0x62, .lRscat), (0x63, .lA2a),
    (0x64, .lTsend), (0x65, .lTrecv), (0x70, .lUop), (0x71, .lFence), (0x72, .lWaith), (0x73, .lAssert)] : List (Nat × (Nat → LRec → Instr))).all (fun p =>
      (decodeRec 7 3 [BitVec.ofNat 32 p.1]).toOption == some (p.2 7 ⟨3, 0, 0, [], []⟩, 1)) = true := by decide +kernel

/-- Operator values outside R50, and record fields: FUSE 5, NRES 2, two operands (R49, R51). -/
theorem test_decode_loryil_fields : ([0x0B, 0x16, 0x29, 0x40, 0x56, 0x66, 0x74, 0xFF].all fun x => (decodeRec 7 3 [BitVec.ofNat 32 x]).toOption.isNone) = true ∧
    (decodeRec 7 3 [0x05002211, 0x20000009, 0x10000002]).toOption = some (.lSop 7 ⟨3, 5, 2, [.imm 9, .param 2], []⟩, 3) := by decide +kernel

/-- An ill-formed instruction for each check (R211 step 3). -/
theorem test_ill_formed_scalar : let a : SA := ⟨15, .reg 0 0 0, 0, 0⟩
    let y : SY := ⟨none, 15, 0xFF, 15, 1, 1⟩
    let m : SM := ⟨none, 1, 0, false, 0, 0, 0, 0, 0⟩
    let b : SB := ⟨none, 6, 0, 0⟩
    ([Instr.add a, .sub a, .mul a, .mulh a, .div a, .rem a, .and a, .or a, .xor a, .shl a, .shr a, .sra a, .min a, .max a, .clz a, .popc a, .extb a, .insb a, .cmp a, .sel { a with fn := 8 }, .plog a,
      .fop a, .fma a, .fcvt a, .ld { m with arr := 0 }, .st m, .ldk m, .amo ⟨0, 0, 0, 2, 0, 0, 0, 0⟩, .fence y, .kinv y, .waitc y, .waittl y, .waith y, .bara y, .barw y, .iclock y, .icunl y, .br b, .jmp b,
      .call b, .ret b, .yield y, .opend y, .mfs ⟨none, 0, 0x1B, 0, 0, 0⟩, .mts ⟨none, 0, 0x1B, 0, 0, 0⟩, .phase y].all fun i => !fieldsOk i) = true := by decide +kernel

theorem test_ill_formed_vector : let r : VR := ⟨31, 0, 0, 0, 0, 0, 0, 0, 0⟩
    let i : VI := ⟨31, 0, 0, .reg 0, 0, 0⟩
    let m : VM := ⟨1, 0, 0, 0, 0, false, 0, 0, 0, 0⟩
    let g : VG := ⟨1, 0, 3, 0, 0, 0, 0⟩
    ([Instr.vadd r, .vsub r, .vmul r, .vfma r, .vmin r, .vmax r, .vabs r, .vneg r, .vand r, .vor r, .vxor r, .vshl i, .vshr i, .vcmp r, .vsel r, .vcvt r, .vsfu r, .vscale r, .vdot4 r, .viota i, .vsplat i,
      .vmovs i, .vins i, .vrotr i, .vrotc i, .vbcr i, .vbcc i, .vredr r, .vredc r, .vscanr r, .vtrn r, .vpermr r, .vcmx r, .vmask r, .vld { m with arr := 0 }, .vst m, .vgath g, .vscat g].all fun i =>
        !fieldsOk i) = true := by decide +kernel

theorem test_ill_formed_engines : let m : MX := ⟨3, 0, 0, 0, 0, 0, 0, 0⟩
    let c : CX := ⟨none, 15, 0, 0, 0, 0, 0, 0⟩
    let l : AL := ⟨0, false, 1, 0, .reg 0⟩
    let a : AS := ⟨none, 15, 0, 0, 0, 0, 0⟩
    let r : LRec := ⟨0, 0, 0, [], [⟨true, 0x100, List.replicate 256 0⟩]⟩
    ([Instr.mldw m, .mswap m, .mfeed m, .mma m, .mmag m, .mcfg m, .mdrain m, .mclr m, .mstat m, .cpy c, .cpyg c, .cpys c, .cpyx c, .cpymc c, .fill c, .pref c, .cscl c, .permit c, .hset c, .tladv c, .send c,
      .recv c, .loop l, .loopx l, .strb a, .strs a, .strld a, .stradv a, .rotb a, .brbs a, .lNop 0 r, .lAssert 0 r].all fun i => !fieldsOk i) = true := by decide +kernel

/-! Words of the native instructions, written from the tables of spec/07 (R206, R210, R216 to R227). -/

theorem test_decode_s_arithmetic :
    decodeTableWord 80 0x5AD080100000001 = some (.add { fn := 0, src := .reg 0 0 11, a := 22, d := 33 }) ∧
    decodeTableWord 80 0x5AD080200000001 = some (.sub { fn := 0, src := .reg 0 0 11, a := 22, d := 33 }) ∧
    decodeTableWord 80 0x5AD080300000001 = some (.mul { fn := 0, src := .reg 0 0 11, a := 22, d := 33 }) ∧
    decodeTableWord 80 0x5AD080700000001 = some (.and { fn := 0, src := .reg 0 0 11, a := 22, d := 33 }) ∧
    decodeTableWord 80 0x5AD080800000001 = some (.or { fn := 0, src := .reg 0 0 11, a := 22, d := 33 }) ∧
    decodeTableWord 80 0x5AD080900000001 = some (.xor { fn := 0, src := .reg 0 0 11, a := 22, d := 33 }) ∧
    decodeTableWord 80 0x5AD080A00000001 = some (.shl { fn := 0, src := .reg 0 0 11, a := 22, d := 33 }) ∧
    decodeTableWord 80 0x5AD080B00000001 = some (.shr { fn := 0, src := .reg 0 0 11, a := 22, d := 33 }) ∧
    decodeTableWord 80 0x5AD080C00000001 = some (.sra { fn := 0, src := .reg 0 0 11, a := 22, d := 33 }) ∧
    decodeTableWord 80 0x80005AD080400000001 = some (.mulh { fn := 2, src := .reg 0 0 11, a := 22, d := 33 }) ∧
    decodeTableWord 80 0x867870AD080500000001 = some (.div { fn := 1, src := .imm none 323809, a := 22, d := 33 }) ∧
    decodeTableWord 80 0x40005AD080600000001 = some (.rem { fn := 1, src := .reg 0 0 11, a := 22, d := 33 }) ∧
    decodeTableWord 80 0x40005AD080D00000001 = some (.min { fn := 1, src := .reg 0 0 11, a := 22, d := 33 }) ∧
    decodeTableWord 80 0xC1891A0BF80EA55A0001 = some (.max { fn := 0, src := .imm (some 42330) 201268, a := 5, d := 63 }) ∧
    decodeTableWord 80 0x400002D080F00000001 = some (.clz { fn := 1, src := .reg 0 0 0, a := 22, d := 33 }) ∧
    decodeTableWord 80 0x7C081000000001 = some (.popc { fn := 0, src := .reg 0 0 0, a := 62, d := 1 }) ∧
    decodeTableWord 80 0x840D5E2D081100000001 = some (.extb { fn := 1, src := .imm none 6844, a := 22, d := 33 }) ∧
    decodeTableWord 80 0x585AD081200000001 = some (.insb { fn := 0, src := .reg 0 44 11, a := 22, d := 33 }) ∧
    decodeTableWord 80 0xD579BDE3081380010001 = some (.movi { xi := (some 32769), imm := 717020913, d := 33 }) ∧
    decodeTableWord 80 0x340005AC381400000001 = some (.cmp { fn := 13, src := .reg 0 0 11, a := 22, d := 7 }) ∧
    decodeTableWord 80 0x240005AD081500000001 = some (.sel { fn := 9, src := .reg 0 0 11, a := 22, d := 33 }) ∧
    decodeTableWord 80 0x1C000790081600000001 = some (.plog { fn := 7, src := .reg 0 0 15, a := 8, d := 1 }) ∧
    decodeTableWord 80 0x3B1005AD081700000001 = some (.fop { fn := 14, src := .reg 98 0 11, a := 22, d := 33 }) ∧
    decodeTableWord 80 0xE8D85AD081800000001 = some (.fma { fn := 3, src := .reg 81 44 11, a := 22, d := 33 }) ∧
    decodeTableWord 80 0x3A4006AD081900000001 = some (.fcvt { fn := 14, src := .reg 72 0 13, a := 22, d := 33 }) := by decide +kernel

theorem test_decode_s_memory_sync_control :
    decodeTableWord 80 0x7FD5C0AD081A00000001 = some (.ld { xi := none, arr := 255, fn := 5, am := false, w := 2, sp := 3, off := 129, a := 22, d := 33 }) ∧
    decodeTableWord 80 0x8066BFAD081BFFFE0001 = some (.st { xi := (some 65534), arr := 0, fn := 6, am := false, w := 3, sp := 1, off := 127, a := 22, d := 33 }) ∧
    decodeTableWord 80 0x21380AD081C00000001 = some (.ldk { xi := none, arr := 4, fn := 1, am := false, w := 1, sp := 3, off := 1, a := 22, d := 33 }) ∧
    decodeTableWord 80 0x4F1C5AD081D00000001 = some (.amo { arr := 9, ordk := 3, aop := 8, w := 3, sp := 2, b := 11, a := 22, d := 33 }) ∧
    decodeTableWord 80 0x38000000001E00000001 = some (.fence { xi := none, fn := 7, imm := 0, md := 0, a := 0, d := 0 }) ∧
    decodeTableWord 80 0x2400000001 = some (.kinv { xi := none, fn := 0, imm := 0, md := 0, a := 0, d := 0 }) ∧
    decodeTableWord 80 0x4002800001F00000001 = some (.waitc { xi := none, fn := 0, imm := 32773, md := 0, a := 0, d := 0 }) ∧
    decodeTableWord 80 0xF7F6E1AC002012340001 = some (.waittl { xi := (some 4660), fn := 14, imm := 65244, md := 3, a := 22, d := 0 }) ∧
    decodeTableWord 80 0x107FF92D082100000001 = some (.waith { xi := none, fn := 2, imm := 4095, md := 2, a := 22, d := 33 }) ∧
    decodeTableWord 80 0xFF83800002200000001 = some (.bara { xi := none, fn := 1, imm := 65287, md := 0, a := 0, d := 0 }) ∧
    decodeTableWord 80 0x4003000002300000001 = some (.barw { xi := none, fn := 0, imm := 32774, md := 0, a := 0, d := 0 }) ∧
    decodeTableWord 80 0x219082C002500000001 = some (.iclock { xi := none, fn := 0, imm := 17185, md := 0, a := 22, d := 0 }) ∧
    decodeTableWord 80 0xA19082C002600000001 = some (.icunl { xi := none, fn := 1, imm := 17185, md := 0, a := 22, d := 0 }) ∧
    decodeTableWord 80 0x2DFFFFFF082700000001 = some (.br { xi := none, fn := 5, off := 50331647, d := 33 }) ∧
    decodeTableWord 80 0x8A00000308287FFF0001 = some (.jmp { xi := (some 32767), fn := 1, off := 16777217, d := 33 }) ∧
    decodeTableWord 80 0x4000003082900000001 = some (.call { xi := none, fn := 0, off := 33554433, d := 33 }) ∧
    decodeTableWord 80 0x1082A00000001 = some (.ret { xi := none, fn := 0, off := 0, d := 33 }) ∧
    decodeTableWord 80 0x2B00000001 = some (.yield { xi := none, fn := 0, imm := 0, md := 0, a := 0, d := 0 }) ∧
    decodeTableWord 80 0x2C00000001 = some (.opend { xi := none, fn := 0, imm := 0, md := 0, a := 0, d := 0 }) ∧
    decodeTableWord 80 0x7FFFFFFD082D00000001 = some (.trap { xi := none, imm := 1073741822, d := 33 }) ∧
    decodeTableWord 80 0xD001082E00000001 = some (.mfs { xi := none, fn := 0, imm := 26, md := 0, a := 0, d := 33 }) ∧
    decodeTableWord 80 0xA82C002F00000001 = some (.mts { xi := none, fn := 0, imm := 21, md := 0, a := 22, d := 0 }) ∧
    decodeTableWord 80 0x2C003000000001 = some (.phase { xi := none, fn := 0, imm := 0, md := 0, a := 22, d := 0 }) := by decide +kernel

theorem test_decode_v_arithmetic :
    decodeTableWord 80 0xC50493E00100000002 = some (.vadd { fn := 0, ty := 0, rnd := 6, es := 0, m := 5, c := 0, b := 18, a := 9, d := 30 }) ∧
    decodeTableWord 80 0xA050493E00200000002 = some (.vsub { fn := 1, ty := 2, rnd := 0, es := 0, m := 5, c := 0, b := 18, a := 9, d := 30 }) ∧
    decodeTableWord 80 0x11050493E00300000002 = some (.vmul { fn := 2, ty := 1, rnd := 0, es := 0, m := 5, c := 0, b := 18, a := 9, d := 30 }) ∧
    decodeTableWord 80 0x1CA53C93E00400000002 = some (.vfma { fn := 3, ty := 4, rnd := 5, es := 0, m := 5, c := 7, b := 18, a := 9, d := 30 }) ∧
    decodeTableWord 80 0x3050493E00500000002 = some (.vmin { fn := 0, ty := 3, rnd := 0, es := 0, m := 5, c := 0, b := 18, a := 9, d := 30 }) ∧
    decodeTableWord 80 0x4050493E00600000002 = some (.vmax { fn := 0, ty := 4, rnd := 0, es := 0, m := 5, c := 0, b := 18, a := 9, d := 30 }) ∧
    decodeTableWord 80 0x9050013E00700000002 = some (.vabs { fn := 1, ty := 1, rnd := 0, es := 0, m := 5, c := 0, b := 0, a := 9, d := 30 }) ∧
    decodeTableWord 80 0x3050013E00800000002 = some (.vneg { fn := 0, ty := 3, rnd := 0, es := 0, m := 5, c := 0, b := 0, a := 9, d := 30 }) ∧
    decodeTableWord 80 0x8050493E00900000002 = some (.vand { fn := 1, ty := 0, rnd := 0, es := 0, m := 5, c := 0, b := 18, a := 9, d := 30 }) ∧
    decodeTableWord 80 0x50493E00A00000002 = some (.vor { fn := 0, ty := 0, rnd := 0, es := 0, m := 5, c := 0, b := 18, a := 9, d := 30 }) ∧
    decodeTableWord 80 0x50493E00B00000002 = some (.vxor { fn := 0, ty := 0, rnd := 0, es := 0, m := 5, c := 0, b := 18, a := 9, d := 30 }) ∧
    decodeTableWord 80 0x50493E00F00000002 = some (.vsel { fn := 0, ty := 0, rnd := 0, es := 0, m := 5, c := 0, b := 18, a := 9, d := 30 }) ∧
    decodeTableWord 80 0xAA00B13E00C00000002 = some (.vshl { fn := 1, ty := 2, m := 5, src := .reg 44, a := 9, d := 30 }) ∧
    decodeTableWord 80 0x1BAAF13E80DBEEF0002 = some (.vshr { fn := 0, ty := 1, m := 5, src := .imm (some 48879) 10940, a := 9, d := 30 }) ∧
    decodeTableWord 80 0x2C050492700E00000002 = some (.vcmp { fn := 5, ty := 4, rnd := 0, es := 0, m := 5, c := 0, b := 18, a := 9, d := 7 }) ∧
    decodeTableWord 80 0x74D50013E01000000002 = some (.vcvt { fn := 14, ty := 4, rnd := 6, es := 2, m := 5, c := 0, b := 0, a := 9, d := 30 }) ∧
    decodeTableWord 80 0x38C50013E01100000002 = some (.vsfu { fn := 7, ty := 0, rnd := 6, es := 0, m := 5, c := 0, b := 0, a := 9, d := 30 }) ∧
    decodeTableWord 80 0x3450493E01200000002 = some (.vscale { fn := 0, ty := 3, rnd := 2, es := 0, m := 5, c := 0, b := 18, a := 9, d := 30 }) ∧
    decodeTableWord 80 0x11053C93E01300000002 = some (.vdot4 { fn := 2, ty := 1, rnd := 0, es := 0, m := 5, c := 7, b := 18, a := 9, d := 30 }) := by decide +kernel

theorem test_decode_v_moves_memory :
    decodeTableWord 80 0x12A00B01E01400000002 = some (.viota { fn := 2, ty := 2, m := 5, src := .reg 44, a := 0, d := 30 }) ∧
    decodeTableWord 80 0x4B80041E01500000002 = some (.vsplat { fn := 0, ty := 4, m := 5, src := .imm none 8193, a := 0, d := 30 }) ∧
    decodeTableWord 80 0x910FFD3E01600000002 = some (.vmovs { fn := 1, ty := 1, m := 0, src := .imm none 1023, a := 9, d := 30 }) ∧
    decodeTableWord 80 0x2000B01E01700000002 = some (.vins { fn := 0, ty := 2, m := 0, src := .reg 44, a := 0, d := 30 }) ∧
    decodeTableWord 80 0x8BFFF53E01800000002 = some (.vrotr { fn := 1, ty := 0, m := 5, src := .imm none 16381, a := 9, d := 30 }) ∧
    decodeTableWord 80 0xA00B13E01900000002 = some (.vrotc { fn := 0, ty := 0, m := 5, src := .reg 44, a := 9, d := 30 }) ∧
    decodeTableWord 80 0xA00B13E01A00000002 = some (.vbcr { fn := 0, ty := 0, m := 5, src := .reg 44, a := 9, d := 30 }) ∧
    decodeTableWord 80 0xB7FFD3E01B00000002 = some (.vbcc { fn := 0, ty := 0, m := 5, src := .imm none 8191, a := 9, d := 30 }) ∧
    decodeTableWord 80 0x34C50013E01C00000002 = some (.vredr { fn := 6, ty := 4, rnd := 6, es := 0, m := 5, c := 0, b := 0, a := 9, d := 30 }) ∧
    decodeTableWord 80 0xA050013E01D00000002 = some (.vredc { fn := 1, ty := 2, rnd := 0, es := 0, m := 5, c := 0, b := 0, a := 9, d := 30 }) ∧
    decodeTableWord 80 0x20C50013E01E00000002 = some (.vscanr { fn := 4, ty := 0, rnd := 6, es := 0, m := 5, c := 0, b := 0, a := 9, d := 30 }) ∧
    decodeTableWord 80 0x50013E01F00000002 = some (.vtrn { fn := 0, ty := 0, rnd := 0, es := 0, m := 5, c := 0, b := 0, a := 9, d := 30 }) ∧
    decodeTableWord 80 0x18053C93E02000000002 = some (.vpermr { fn := 3, ty := 0, rnd := 0, es := 0, m := 5, c := 7, b := 18, a := 9, d := 30 }) ∧
    decodeTableWord 80 0xCC003AD3E02100000002 = some (.vcmx { fn := 25, ty := 4, rnd := 0, es := 0, m := 0, c := 7, b := 11, a := 9, d := 30 }) ∧
    decodeTableWord 80 0x1800018A702200000002 = some (.vmask { fn := 3, ty := 0, rnd := 0, es := 0, m := 0, c := 0, b := 6, a := 5, d := 7 }) ∧
    decodeTableWord 80 0xC8E04B59E02400000002 = some (.vld { arr := 200, fmt := 14, rnd := 0, es := 0, sp := 2, am := false, m := 5, fn := 2, a := 44, d := 30 }) ∧
    decodeTableWord 80 0x992AD9E02500000002 = some (.vst { arr := 0, fmt := 9, rnd := 4, es := 2, sp := 1, am := false, m := 5, fn := 1, a := 44, d := 30 }) ∧
    decodeTableWord 80 0x81DAD92F002600000002 = some (.vgath { top := 129, fmt := 13, sp := 2, m := 5, a := 44, ix := 18, d := 30 }) ∧
    decodeTableWord 80 0xD076D92F002700000002 = some (.vscat { top := 208, fmt := 7, sp := 1, m := 5, a := 44, ix := 18, d := 30 }) := by decide +kernel

theorem test_decode_m :
    decodeTableWord 80 0x8102C2D600100000008 = some (.mldw { mode := 2, grp := 0, fn := 1, sl := 0, str := 0, c := 44, b := 11, a := 22 }) ∧
    decodeTableWord 80 0x200000008 = some (.mswap { mode := 0, grp := 0, fn := 0, sl := 0, str := 0, c := 0, b := 0, a := 0 }) ∧
    decodeTableWord 80 0x431AC2D600300000008 = some (.mfeed { mode := 1, grp := 0, fn := 3, sl := 0, str := 6, c := 44, b := 11, a := 22 }) ∧
    decodeTableWord 80 0xB1A2C2D600400000008 = some (.mma { mode := 2, grp := 3, fn := 1, sl := 5, str := 0, c := 44, b := 11, a := 22 }) ∧
    decodeTableWord 80 0x60BAC2D600500000008 = some (.mmag { mode := 1, grp := 2, fn := 0, sl := 5, str := 6, c := 44, b := 11, a := 22 }) ∧
    decodeTableWord 80 0x2D600600000008 = some (.mcfg { mode := 0, grp := 0, fn := 0, sl := 0, str := 0, c := 0, b := 11, a := 22 }) ∧
    decodeTableWord 80 0x202C2D600700000008 = some (.mdrain { mode := 0, grp := 0, fn := 2, sl := 0, str := 0, c := 44, b := 11, a := 22 }) ∧
    decodeTableWord 80 0x700000000800000008 = some (.mclr { mode := 0, grp := 0, fn := 7, sl := 0, str := 0, c := 0, b := 0, a := 0 }) ∧
    decodeTableWord 80 0x700001600900000008 = some (.mstat { mode := 0, grp := 0, fn := 7, sl := 0, str := 0, c := 0, b := 0, a := 22 }) := by decide +kernel

theorem test_decode_c :
    decodeTableWord 80 0x88002D68080100050010 = some (.cpy { xi := (some 5), fn := 1, rnd := 0, es := 0, c := 0, b := 11, a := 22, imm := 257 }) ∧
    decodeTableWord 80 0xEAC2D6AA80200000010 = some (.cpyg { xi := none, fn := 1, rnd := 6, es := 2, c := 44, b := 11, a := 22, imm := 341 }) ∧
    decodeTableWord 80 0x3402D60000300000010 = some (.cpys { xi := none, fn := 0, rnd := 3, es := 1, c := 0, b := 11, a := 22, imm := 0 }) ∧
    decodeTableWord 80 0xE802D6FF80400000010 = some (.cpyx { xi := none, fn := 1, rnd := 6, es := 2, c := 0, b := 11, a := 22, imm := 511 }) ∧
    decodeTableWord 80 0x82C2D60380500000010 = some (.cpymc { xi := none, fn := 1, rnd := 0, es := 0, c := 44, b := 11, a := 22, imm := 7 }) ∧
    decodeTableWord 80 0x382C2D68500600000010 = some (.fill { xi := none, fn := 7, rnd := 0, es := 0, c := 44, b := 11, a := 22, imm := 266 }) ∧
    decodeTableWord 80 0x2D60000700000010 = some (.pref { xi := none, fn := 0, rnd := 0, es := 0, c := 0, b := 11, a := 22, imm := 0 }) ∧
    decodeTableWord 80 0x18000160000800000010 = some (.cscl { xi := none, fn := 3, rnd := 0, es := 0, c := 0, b := 0, a := 22, imm := 0 }) ∧
    decodeTableWord 80 0x9800016FF009FFFF0010 = some (.permit { xi := (some 65535), fn := 3, rnd := 0, es := 0, c := 0, b := 0, a := 22, imm := 510 }) ∧
    decodeTableWord 80 0x10002D69180A00000010 = some (.hset { xi := none, fn := 2, rnd := 0, es := 0, c := 0, b := 11, a := 22, imm := 291 }) ∧
    decodeTableWord 80 0x30000160780B00000010 = some (.tladv { xi := none, fn := 6, rnd := 0, es := 0, c := 0, b := 0, a := 22, imm := 15 }) ∧
    decodeTableWord 80 0x2C2D65280C00000010 = some (.send { xi := none, fn := 0, rnd := 0, es := 0, c := 44, b := 11, a := 22, imm := 165 }) ∧
    decodeTableWord 80 0x2D62D00D00000010 = some (.recv { xi := none, fn := 0, rnd := 0, es := 0, c := 0, b := 11, a := 22, imm := 90 }) := by decide +kernel

theorem test_decode_a :
    decodeTableWord 80 0xFF556AAA000180030040 = some (.loop { lv := 3, rot := true, ns := 7, len := 682, cnt := .imm (some 32771) 5461 }) ∧
    decodeTableWord 80 0x40AA8058000800000040 = some (.loopx { lv := 2, rot := false, ns := 0, len := 341, cnt := .reg 44 }) ∧
    decodeTableWord 80 0xE2B579B600200000040 = some (.strb { xi := none, fn := 1, strm := 6, lv := 0, sp := 2, imm := 371661, a := 44 }) ∧
    decodeTableWord 80 0x6CB579B600300000040 = some (.strs { xi := none, fn := 0, strm := 6, lv := 3, sp := 0, imm := 371661, a := 44 }) ∧
    decodeTableWord 80 0x60B579B600400000040 = some (.strld { xi := none, fn := 0, strm := 6, lv := 0, sp := 0, imm := 371661, a := 44 }) ∧
    decodeTableWord 80 0x8E0B579B600570010040 = some (.stradv { xi := (some 28673), fn := 1, strm := 6, lv := 0, sp := 0, imm := 371661, a := 44 }) ∧
    decodeTableWord 80 0x80B579B600600000040 = some (.rotb { xi := none, fn := 1, strm := 0, lv := 0, sp := 0, imm := 371661, a := 44 }) ∧
    decodeTableWord 80 0xB579B600700000040 = some (.brbs { xi := none, fn := 0, strm := 0, lv := 0, sp := 0, imm := 371661, a := 44 }) := by decide +kernel


end Sys2Proof.Tests
end

namespace Sys2Proof.Proofs
open Machine

/-! PROOFS. Queue ports as scalar operands (R12, R153, R214), and the chip right after reset. -/

/-- Work that begins by reading the state goes on with it. -/
theorem run_get_bind {α : Type} (f : State → SlotM α) (s : State) : (get >>= f).run s = (f s).run s := rfl

/-! ### Queues after a push is reserved and after a pop -/

theorem find_updQ_same {s : State} {q : Nat} {x : Queue} (f : Queue → Queue) (hx : s.queues.find q = some x) :
    (s.updQ q f).queues.find q = some (f x) := by
  simp [State.updQ, hx]

theorem find_popQ_same {s : State} {q : Nat} {x : Queue} (c : Nat) (rest : List QItem) (v : W64) (hx : s.queues.find q = some x) :
    (s.popQ c q rest v).queues.find q = some { x with items := rest, head := x.head + 1, wdt := 0, wstep := 0 } := by
  simp [State.popQ, find_updQ_same _ hx]

/-- s after the issuing bundle's pop of queue q through port k: the item stands among the bundle's pops (R214). -/
def popped (s : State) (k q : Nat) (i : W64) (rest : List QItem) : State :=
  { s.popQ s.iss.core q rest i with iss := { s.iss with pops := s.iss.pops.upd k i } }

section Ports
variable {s : State} {k q n : Nat} {w : WalkHold} {x : Queue}

/-! ### Reading a queue port -/

theorem rdS_port (k : Nat) : rdS (56 + k) = popPort k := by
  rw [rdS, if_neg (by omega), Nat.add_sub_cancel_left]

/-- A port that the bundle has popped gives its item again (R214). -/
theorem gives_popPort_seen {v : W64} (hk : s.iss.pops.find k = some v) : Gives (popPort k) s v s := by
  rw [Gives, popPort, run_get_bind]
  simp only [hk, StateT.run_pure, pure_eq_ok]

theorem stops_popPort_unbound (hk : s.iss.pops.find k = none) (hp : s.portOf s.iss.core k = none) :
    Stops (popPort k) s (.trap 0x61 (qpDetail 0 k 2) 0xFFFF) := by
  rw [Stops, popPort, run_get_bind]
  simp only [hk, hp, run_trapS]

/-- A by-hand input port (role 2) pops the oldest unreserved item. -/
theorem gives_popPort_item {i : W64} {rest : List QItem} (hk : s.iss.pops.find k = none)
    (hp : s.portOf s.iss.core k = some (q, 2, n)) (hw : s.me.walk = some w) (hx : s.queues.find q = some x)
    (hi : takeItem 0 x.items = some (i, rest)) : Gives (popPort k) s i (popped s k q i rest) := by
  rw [State.me] at hw
  rw [Gives, popPort, run_get_bind]
  simp only [hk, hp, hw, hx, hi]
  rfl

theorem stops_popPort_empty (hk : s.iss.pops.find k = none) (hp : s.portOf s.iss.core k = some (q, 2, n))
    (hw : s.me.walk = some w) (hx : s.queues.find q = some x) (hi : takeItem 0 x.items = none) :
    Stops (popPort k) s .stall := by
  rw [State.me] at hw
  rw [Stops, popPort, run_get_bind]
  simp only [hk, hp, hw, hx, hi]
  rfl

/-! ### Naming a queue port as a destination -/

/-- What a by-hand output port (role 3) does for a queue that is neither FEEDBACK nor PERMIT: it stalls on a full queue, else reserves room. -/
theorem run_pushPort_hand (hp : s.portOf s.iss.core k = some (q, 3, n)) (hw : s.me.walk = some w) (hx : s.queues.find q = some x)
    (h2 : x.kind ≠ 2) (h3 : x.kind ≠ 3) :
    (pushPort k).run s = if x.full then .error .stall else .ok (q, s.updQ q fun y => { y with room := y.room + 1 }) := by
  rw [State.me] at hw
  rw [pushPort, run_get_bind]
  simp only [hp, hw, hx, h2, h3, or_self, ↓reduceIte, Nat.reduceEqDiff, run_iteS]
  split <;> rfl

theorem stops_pushPort_unbound (hp : s.portOf s.iss.core k = none) :
    Stops (pushPort k) s (.trap 0x61 (qpDetail 0 k 2) 0xFFFF) := by
  rw [Stops, pushPort, run_get_bind]
  simp only [hp, run_trapS]

theorem destS_port (k : Nat) (v : W64) : destS (56 + k) v = pushPort k >>= fun q => pure (some (.port q v)) := by
  rw [destS, if_neg (by omega), if_neg (by omega), Nat.add_sub_cancel_left]

theorem gives_destS_port {t : State} (v : W64) (h : Gives (pushPort k) s q t) :
    Gives (destS (56 + k) v) s (some (.port q v)) t := by
  rw [destS_port]; exact run_bind_of_gives h

theorem stops_destS_port {r : Stop} (v : W64) (h : Stops (pushPort k) s r) : Stops (destS (56 + k) v) s r := by
  rw [destS_port]; exact run_bind_of_stops h

end Ports

/-! ### Scalar operands -/

/-- Settles O1: registers by `gives_rdS` and `gives_destS`, ports by what `popPort` and `pushPort` do for each state of the port. -/
theorem scalarOperandForms : Obligations.ScalarOperandForms := by
  intro s r k v
  refine ⟨gives_rdS s (by decide), gives_destS v s (by decide), ?register, ?seen, ?item, ?empty, ?push, ?unbound⟩
  case register =>
    intro h0 h56
    have hread := gives_rdS s h56
    have hdest := gives_destS v s h56
    rw [Slice.sget, if_neg (by omega)] at hread
    rw [if_neg (by omega)] at hdest
    exact ⟨hread, hdest⟩
  case seen =>
    intro hk
    rw [rdS_port]
    exact gives_popPort_seen hk
  case item =>
    intro q n w x i rest hk hp hw hx hi
    rw [rdS_port]
    exact ⟨popped s k q i rest, gives_popPort_item hk hp hw hx hi, find_popQ_same s.iss.core rest i hx, amap_find_upd_same ..,
      popQ_mem s s.iss.core q rest i⟩
  case empty =>
    intro q n w x hk hp hw hx hi
    rw [rdS_port]
    exact stops_popPort_empty hk hp hw hx hi
  case push =>
    intro q n w x hp hw hx h2 h3
    have hrun := run_pushPort_hand hp hw hx h2 h3
    constructor
    · intro hroom
      rw [hroom] at hrun
      exact ⟨_, gives_destS_port v hrun, find_updQ_same _ hx, updQ_mem ..⟩
    · intro hfull
      rw [hfull] at hrun
      exact stops_destS_port v hrun
  case unbound =>
    intro hk hp
    rw [rdS_port]
    exact ⟨stops_popPort_unbound hk hp, stops_destS_port v (stops_pushPort_unbound hp)⟩

/-! ### Reset -/

theorem rd8_reset (a : Nat) : State.reset.rd8 a = 0 := rfl

theorem cluster_reset (j : Nat) : State.reset.cluster j = Cluster.reset := rfl

theorem core_reset (c : Nat) : State.reset.core c = Core.reset := rfl

theorem sget_zero (d : Nat) : Slice.zero.sget d = 0 := by
  unfold Slice.sget; split <;> rfl

theorem vget_zero (d : Nat) : Slice.zero.vget d = 0 := rfl

@[simp] theorem elem_zero (i : Nat) : VReg.elem 0 i = 0 := by
  simp only [VReg.elem, BitVec.ofNat_eq_ofNat, BitVec.toNat_zero, Nat.zero_div, Nat.zero_mod]

/-- The reset values of KNCFG (R165): BHLOG, MOVES, THRESH and ILOG. -/
theorem kncfgReset_fields : kncfgReset.toNat / 2 ^ 40 % 32 = 26 ∧ kncfgReset.toNat / 2 ^ 16 % 8 = 1 ∧
    kncfgReset.toNat / 2 ^ 8 % 256 = 64 ∧ kncfgReset.toNat % 32 = 16 := by decide

/-- Settles O54: every unlisted cluster and core reads as its own reset value. -/
theorem resetValues : Obligations.ResetValues := by
  refine ⟨rfl, rd8_reset, rfl, rfl, rfl, rfl, rfl, rfl, rfl, fun _ => rfl, rfl, rfl, ?knead, ?core⟩
  case knead =>
    intro j
    rw [cluster_reset]
    exact kncfgReset_fields
  case core =>
    intro c
    rw [core_reset]
    refine ⟨rfl, rfl, rfl, rfl, rfl, rfl, rfl, rfl, sget_zero, fun d i => ?_⟩
    show VReg.elem (Slice.zero.vget d) i = 0
    rw [vget_zero, elem_zero]

end Sys2Proof.Proofs
